-- ==== Sys2Proof/Word.lean ====
section
/-!
DEFINITION. The word types of the Cembla 4820: the widths the reference gives to what it treats as
bits or as wrapping counts. Everything that wraps or is laid out in bytes is one of these; every
other quantity is a plain number.
-/

namespace Sys2Proof

/-- One byte of a frame, of the settings image or of a port transaction. -/
abbrev Byte := BitVec 8

/-- A 16-bit wrapping count or serial (R36, R131, R133). -/
abbrev Word16 := BitVec 16

/-- A 32-bit wrapping count, number or check (R16, R35, R85). -/
abbrev Word32 := BitVec 32

/-- A timer of the station: stopped, or running with so many milliseconds left. Log 1. -/
abbrev Timer := Option Nat

end Sys2Proof
end

