-- ==== Sys2Proof/Config.lean ====
section
/-!
DEFINITION. What is fixed for every Cembla 4820: the capacities, limits and coded constants that the
reference states as plain numbers. The reference leaves no value to an implementation and no result
open, so there is no free value here.
-/

namespace Sys2Proof.Config

/-- Capacity of the ORDERED transmit queue (R27). -/
def orderedCapacity : Nat := 8

/-- Rounds of start silence (R25: the end of the station's sixth round). -/
def startSilenceRounds : Nat := 6

/-- Rounds of silence after which a peer is dropped, a pending source is given up and a founder may
found (R33, R49, R51). -/
def silenceLimit : Nat := 3

/-- The summary guard set when part 1 begins to be transmitted (R44). -/
def summaryGuard : Nat := 2

/-- Consecutive arrivals that turn a live flag, or a utility monitor count (R58, R165). -/
def runLength : Nat := 4

/-- The settings read limit in milliseconds (R175). -/
def readLimitMs : Nat := 500

/-- The operate limit in milliseconds (13.3.1). -/
def operateLimitMs : Nat := 60000

/-- Greatest image length accepted, and the length of the image header (R175, 13.4). -/
def imageMax : Nat := 4096
def imageHeader : Nat := 10

/-- Offsets of the station part: it begins at byte 10 of the image (13.4). -/
def stationPart : Nat := 10

/-- Greatest length of a whole frame (R21). -/
def frameMax : Nat := 512

/-- Bases and slot of the medium's gaps, in bit times (R22). -/
def urgentBase : Nat := 20
def orderedBase : Nat := 640
def statusBase : Nat := 1260
def slotBits : Nat := 20

/-- How deep a chain of hand-offs the model follows within one event. Log 5. -/
def handOffDepth : Nat := 8

end Sys2Proof.Config
end

