-- ==== Sys2Proof/Syntax.lean ====
section
/-!
DEFINITION. The vocabulary of the Cembla 4820 and the commands it takes: the names the reference
writes in capitals, the contents of measurement sets and frames, and `Instr`, one constructor for
each row of spec/opcode_table.json.
-/

namespace Sys2Proof

/-- The four bus sections along the row (0.2). -/
inductive BusSection where
  | A | B | C | D
  deriving DecidableEq, Repr

/-- One value for each bus section. -/
structure PerSection (α : Type) where
  a : α
  b : α
  c : α
  d : α
  deriving DecidableEq, Repr

/-- A set of sections: one bit a section (13.4). -/
abbrev SectionSet := PerSection Bool

/-- The station kinds, in the order of their codes (0.2, 13.4). -/
inductive StationKind where
  | incomer | generator | tie | feeder
  deriving DecidableEq, Repr

/-- The step states, in the order of their codes (13.4). -/
inductive StepState where
  | joining | desync | inStep
  deriving DecidableEq, Repr

/-- The breaker states OPEN, CLOSING, CLOSED, OPENING and FAILED, in the order of their codes. -/
inductive BreakerState where
  | opened | closing | closed | opening | failed
  deriving DecidableEq, Repr

/-- The breaker positions of R60. -/
inductive Position where
  | closed | opened | travelling | invalid
  deriving DecidableEq, Repr

/-- A Station Table entry's presence (1.2), in the order of its codes. -/
inductive Presence where
  | unknown | live | mismatched | dropped
  deriving DecidableEq, Repr

/-- The admission state of a self-report and the feeder role state (R18, 11.5). -/
inductive AdmissionState where
  | out | waiting | admitted
  deriving DecidableEq, Repr

/-- The cause of a STATUS request (R30). -/
inductive StatusCause where
  | periodic | change
  deriving DecidableEq, Repr

/-- The causes of a RELEASE, in the order of their codes. -/
inductive ReleaseCause where
  | closed | failed | expired | withdrawn | refused
  deriving DecidableEq, Repr

/-- The orders of an ORDER frame, in the order of their codes. -/
inductive OrderKind where
  | start | stop | unload | resume | openSources | tieAssist | split
  deriving DecidableEq, Repr

/-- The generator role states (10.1), in the order of their codes. -/
inductive GeneratorState where
  | standby | starting | ready | online | unloading | cooldown | startFailed
  deriving DecidableEq, Repr

/-- The changeover states (12.3), in the order of their codes. -/
inductive ChangeoverState where
  | start | normal | isolating | tieWait | onBackup | retransfer | parallel | openRetransfer | locked
  deriving DecidableEq, Repr

/-- The tie role states (12.6), in the order of their codes. -/
inductive TieState where
  | idle | assisting | merging | splitting
  deriving DecidableEq, Repr

/-- The sixteen fault kinds (7.1), in the order of their numbers. -/
inductive FaultKind where
  | elementOperated | busFault | breakerNoOpen | breakerNoClose
  | breakerDisagree | intertrip | setGap | setLoss
  | linkGap | quorumLost | digestMismatch | tokenExpired
  | syncTimeout | startFailed | parallelLimit | loadShed
  deriving DecidableEq, Repr

/-- One value for each fault kind. -/
structure PerKind (α : Type) where
  elementOperated : α
  busFault : α
  breakerNoOpen : α
  breakerNoClose : α
  breakerDisagree : α
  intertrip : α
  setGap : α
  setLoss : α
  linkGap : α
  quorumLost : α
  digestMismatch : α
  tokenExpired : α
  syncTimeout : α
  startFailed : α
  parallelLimit : α
  loadShed : α
  deriving DecidableEq, Repr

/-- The ten frame kinds (2.1), in the order of their codes from 1. -/
inductive FrameKind where
  | status | claim | release | admitFeeder | withdraw | order | block | intertrip | drop | summary
  deriving DecidableEq, Repr

/-- An epoch: its serial and its founder's station number; founder 0 reports that the sender holds
none (R36). -/
structure EpochId where
  serial : Word16
  founder : Nat
  deriving DecidableEq, Repr

/-- The part of a frame's header that the receiver reads: the source station and the frame sequence
(2.1). The kind and the body length are the command's own. -/
structure Header where
  source : Nat
  seq : Byte
  deriving DecidableEq, Repr

/-- A STATUS body (2.1, 13.4). `role` is the code of the state of the sender's role unit. -/
structure StatusBody where
  cause : StatusCause
  step : StepState
  epoch : EpochId
  digest : Word32
  quorumHeld : Bool
  breaker : BreakerState
  lineLive : Bool
  busLive : Bool
  role : Nat
  realPower : Int
  perUnit : Int
  lockout : Bool
  busFault : SectionSet
  blockAsserted : Bool
  intertripAsserted : Bool
  barred : Bool
  tokensHeld : SectionSet
  queuedFor : SectionSet
  admission : AdmissionState
  deriving DecidableEq, Repr

/-- A claim-queue entry: the claimant and its entry number (8.1). -/
structure QueueEntry where
  station : Nat
  entry : Word32
  deriving DecidableEq, Repr

/-- The last ORDER applied to a section, and its delivery number (1.4). -/
structure LastOrder where
  order : OrderKind
  stamp : Word32
  deriving DecidableEq, Repr

/-- A run-list entry. Its priority level is the campus setting of its station (R142). -/
structure RunEntry where
  station : Nat
  entry : Word32
  deriving DecidableEq, Repr

/-- An Admission Queue entry (11.2). Its demand and priority level are the campus settings of its
feeder; a former admission number is present exactly for a returned entry. -/
structure WaitEntry where
  feeder : Nat
  entry : Word32
  former : Option Word32
  deriving DecidableEq, Repr

/-- An Admitted List entry (11.2). Its demand is the campus setting of its feeder. -/
structure AdmitEntry where
  feeder : Nat
  admission : Word32
  deriving DecidableEq, Repr

/-- What SUMMARY part 1 carries of one Station Table entry (R45). The campus digest and the per-unit
load of the content are not carried (13.4): they stand as 0 here and the receiver supplies them. -/
structure SummaryEntry where
  presence : Presence
  lastSeq : Option Byte
  stale : Bool
  content : Option StatusBody
  deriving DecidableEq, Repr

/-- What SUMMARY part 1 carries of one section (R45). -/
structure SummaryToken where
  holder : Nat
  grant : Word32
  queue : List QueueEntry
  deriving DecidableEq, Repr

/-- A SUMMARY part 1 body (R45). -/
structure SummaryOne where
  serial : Word16
  epoch : EpochId
  delivery : Word32
  entries : List SummaryEntry
  tokens : PerSection SummaryToken
  deriving DecidableEq, Repr

/-- What SUMMARY part 2 carries of one island (R45). -/
structure SummaryIsland where
  name : BusSection
  runList : List RunEntry
  queue : List WaitEntry
  admitted : List AdmitEntry
  deriving DecidableEq, Repr

/-- A SUMMARY part 2 body (R45). -/
structure SummaryTwo where
  serial : Word16
  epoch : EpochId
  delivery : Word32
  lastOrders : PerSection (Option LastOrder)
  islands : List SummaryIsland
  deriving DecidableEq, Repr

/-- One value for each phase of a three-phase quantity. -/
structure Phases where
  p1 : Nat
  p2 : Nat
  p3 : Nat
  deriving DecidableEq, Repr

/-- A measurement set (4.1): volts, centidegrees, amperes, mHz, 10 kW and 10 kvar. -/
structure MeasurementSet where
  seq : Word16
  lineVolts : Phases
  lineAngles : Phases
  busVolts : Nat
  busAngle : Nat
  currents : Phases
  residual : Nat
  lineFreq : Nat
  busFreq : Nat
  realPower : Int
  reactivePower : Int
  deriving DecidableEq, Repr

/-- The body of a frame (2.1). -/
inductive FrameBody where
  | status (b : StatusBody)
  | claim (secs : SectionSet)
  | release (secs : SectionSet) (cause : ReleaseCause)
  | admitFeeder (alreadyClosed : Bool)
  | withdraw
  | order (o : OrderKind) (tieStation : Option Nat)
  | block (on : Bool)
  | intertrip (set : Bool)
  | drop (station : Nat)
  | summaryOne (p : SummaryOne)
  | summaryTwo (p : SummaryTwo)
  deriving DecidableEq, Repr

/-- A frame on the medium: its header and its body. -/
structure Frame where
  header : Header
  body : FrameBody
  deriving DecidableEq, Repr

/-- The commands of the Cembla 4820: one constructor for each row of spec/opcode_table.json. -/
inductive Instr where
  -- start-up (chapter 13)
  | powerOn
  | restartLine
  | restart
  | settingsLoad (image : List Byte)
  | noResponse
  -- the cell (chapters 4 to 6)
  | setArrival (m : MeasurementSet)
  | setDiscard
  | setLossTimerExpiry
  | positionEvent (auxA auxB : Bool)
  | closeLimitExpiry
  | openLimitExpiry
  | disagreementLimitExpiry
  | readyInputChange (on : Bool)
  -- the medium (chapter 2)
  | roundEnd
  | mediumIdle
  | defer
  | gapExpiry
  | receiveDiscard (bytes : List Byte)
  -- delivered frames
  | status (h : Header) (b : StatusBody)
  | claim (h : Header) (secs : SectionSet)
  | release (h : Header) (secs : SectionSet) (cause : ReleaseCause)
  | admitFeeder (h : Header) (alreadyClosed : Bool)
  | withdraw (h : Header)
  | order (h : Header) (o : OrderKind) (tieStation : Option Nat)
  | block (h : Header) (on : Bool)
  | intertrip (h : Header) (set : Bool)
  | drop (h : Header) (station : Nat)
  | summaryPart1 (h : Header) (p : SummaryOne)
  | summaryPart2 (h : Header) (p : SummaryTwo)
  -- timers
  | lapseTimerExpiry (station : Nat)
  | holdTimerExpiry
  | syncTimeoutTimerExpiry
  | blockEntryExpiry (station : Nat)
  | autonomousTimerExpiry
  | startLimitExpiry
  | minimumRunExpiry
  | surplusDwellExpiry
  | cooldownExpiry
  | rideThroughExpiry
  | returnStableExpiry
  | tieAssistLimitExpiry
  | parallelLimitExpiry
  -- the Maintenance Port
  | read (selector : Nat)
  | clearFaults (kinds : PerKind Bool)
  | clearStaleIntertrip
  | operateOpen
  | operateClose
  | operateBar
  | operateUnbar
  | operateMerge
  | operateSplit
  | operateLimitExpiry
  | commandDiscard (bytes : List Byte)
  deriving DecidableEq, Repr

end Sys2Proof
end

