-- ==== Sys2Proof/Decode.lean ====
section
/-!
DEFINITION. The commands that words of the opcode table spell. The table of this part gives no row any
bits, so no word spells a command; the layouts of frames and port transactions, which spell commands in
bytes, are in Machine/Layout.lean.
-/

namespace Sys2Proof

/-- The command a word spells by the table's bits: none, for every word. -/
def decodeTableWord (_nbits _w : Nat) : Option Instr := none

end Sys2Proof
end

