-- ==== Sys2Proof/Machine/Tables.lean ====
section
/-!
DEFINITION. Reading and writing the small tables of the station: one value a section, one value a
fault kind, and the codes the reference numbers its enumerated values by (13.4).
-/

namespace Sys2Proof

/-- The sections in the order of the row. -/
def BusSection.all : List BusSection := [.A, .B, .C, .D]

/-- The number of a section in the row: 0 for A to 3 for D (13.4). -/
def BusSection.index : BusSection → Nat
  | .A => 0
  | .B => 1
  | .C => 2
  | .D => 3

/-- The section of a code, if it names one (13.4). -/
def BusSection.ofCode : Nat → Option BusSection
  | 0 => some .A
  | 1 => some .B
  | 2 => some .C
  | 3 => some .D
  | _ => none

/-- The next section up the row. -/
def BusSection.next : BusSection → Option BusSection
  | .A => some .B
  | .B => some .C
  | .C => some .D
  | .D => none

/-- The value a table holds for a section. -/
def PerSection.get {α : Type} (t : PerSection α) : BusSection → α
  | .A => t.a
  | .B => t.b
  | .C => t.c
  | .D => t.d

/-- The table with the value of one section replaced. -/
def PerSection.set {α : Type} (t : PerSection α) (x : BusSection) (v : α) : PerSection α :=
  match x with
  | .A => { t with a := v }
  | .B => { t with b := v }
  | .C => { t with c := v }
  | .D => { t with d := v }

/-- The table of the values `f` gives. -/
def PerSection.make {α : Type} (f : BusSection → α) : PerSection α :=
  ⟨f .A, f .B, f .C, f .D⟩

/-- The same value for every section. -/
def PerSection.fill {α : Type} (v : α) : PerSection α := ⟨v, v, v, v⟩

/-- The empty set of sections. -/
def SectionSet.empty : SectionSet := PerSection.fill false

/-- The set that holds one section. -/
def SectionSet.one (x : BusSection) : SectionSet := SectionSet.empty.set x true

/-- The members of a set, A first. -/
def SectionSet.members (t : SectionSet) : List BusSection := BusSection.all.filter t.get

/-- Union of two sets of sections. -/
def SectionSet.union (t u : SectionSet) : SectionSet := PerSection.make fun x => t.get x || u.get x

/-- Whether two sets share a member. -/
def SectionSet.meets (t u : SectionSet) : Bool := BusSection.all.any fun x => t.get x && u.get x

/-- Whether every member of the first set is in the second. -/
def SectionSet.within (t u : SectionSet) : Bool := BusSection.all.all fun x => !t.get x || u.get x

/-- Whether a set has no member. -/
def SectionSet.isEmpty (t : SectionSet) : Bool := !BusSection.all.any t.get

/-- The fault kinds in the order of their numbers (7.1). -/
def FaultKind.all : List FaultKind :=
  [.elementOperated, .busFault, .breakerNoOpen, .breakerNoClose, .breakerDisagree, .intertrip, .setGap, .setLoss,
   .linkGap, .quorumLost, .digestMismatch, .tokenExpired, .syncTimeout, .startFailed, .parallelLimit, .loadShed]

/-- The value a table holds for a kind. -/
def PerKind.get {α : Type} (t : PerKind α) : FaultKind → α
  | .elementOperated => t.elementOperated
  | .busFault => t.busFault
  | .breakerNoOpen => t.breakerNoOpen
  | .breakerNoClose => t.breakerNoClose
  | .breakerDisagree => t.breakerDisagree
  | .intertrip => t.intertrip
  | .setGap => t.setGap
  | .setLoss => t.setLoss
  | .linkGap => t.linkGap
  | .quorumLost => t.quorumLost
  | .digestMismatch => t.digestMismatch
  | .tokenExpired => t.tokenExpired
  | .syncTimeout => t.syncTimeout
  | .startFailed => t.startFailed
  | .parallelLimit => t.parallelLimit
  | .loadShed => t.loadShed

/-- The table with the value of one kind replaced. -/
def PerKind.set {α : Type} (t : PerKind α) (k : FaultKind) (v : α) : PerKind α :=
  match k with
  | .elementOperated => { t with elementOperated := v }
  | .busFault => { t with busFault := v }
  | .breakerNoOpen => { t with breakerNoOpen := v }
  | .breakerNoClose => { t with breakerNoClose := v }
  | .breakerDisagree => { t with breakerDisagree := v }
  | .intertrip => { t with intertrip := v }
  | .setGap => { t with setGap := v }
  | .setLoss => { t with setLoss := v }
  | .linkGap => { t with linkGap := v }
  | .quorumLost => { t with quorumLost := v }
  | .digestMismatch => { t with digestMismatch := v }
  | .tokenExpired => { t with tokenExpired := v }
  | .syncTimeout => { t with syncTimeout := v }
  | .startFailed => { t with startFailed := v }
  | .parallelLimit => { t with parallelLimit := v }
  | .loadShed => { t with loadShed := v }

/-- The table of the values `f` gives. -/
def PerKind.make {α : Type} (f : FaultKind → α) : PerKind α :=
  { elementOperated := f .elementOperated
    busFault := f .busFault
    breakerNoOpen := f .breakerNoOpen
    breakerNoClose := f .breakerNoClose
    breakerDisagree := f .breakerDisagree
    intertrip := f .intertrip
    setGap := f .setGap
    setLoss := f .setLoss
    linkGap := f .linkGap
    quorumLost := f .quorumLost
    digestMismatch := f .digestMismatch
    tokenExpired := f .tokenExpired
    syncTimeout := f .syncTimeout
    startFailed := f .startFailed
    parallelLimit := f .parallelLimit
    loadShed := f .loadShed }

/-- The same value for every kind. -/
def PerKind.fill {α : Type} (v : α) : PerKind α := PerKind.make fun _ => v

/-! ### Codes (13.4) -/

def StationKind.code : StationKind → Nat
  | .incomer => 0
  | .generator => 1
  | .tie => 2
  | .feeder => 3

def StationKind.ofCode : Nat → Option StationKind
  | 0 => some .incomer
  | 1 => some .generator
  | 2 => some .tie
  | 3 => some .feeder
  | _ => none

def StepState.code : StepState → Nat
  | .joining => 0
  | .desync => 1
  | .inStep => 2

def StepState.ofCode : Nat → Option StepState
  | 0 => some .joining
  | 1 => some .desync
  | 2 => some .inStep
  | _ => none

def AdmissionState.code : AdmissionState → Nat
  | .out => 0
  | .waiting => 1
  | .admitted => 2

def AdmissionState.ofCode : Nat → Option AdmissionState
  | 0 => some .out
  | 1 => some .waiting
  | 2 => some .admitted
  | _ => none

def BreakerState.code : BreakerState → Nat
  | .opened => 0
  | .closing => 1
  | .closed => 2
  | .opening => 3
  | .failed => 4

def BreakerState.ofCode : Nat → Option BreakerState
  | 0 => some .opened
  | 1 => some .closing
  | 2 => some .closed
  | 3 => some .opening
  | 4 => some .failed
  | _ => none

def Presence.code : Presence → Nat
  | .unknown => 0
  | .live => 1
  | .mismatched => 2
  | .dropped => 3

def Presence.ofCode : Nat → Option Presence
  | 0 => some .unknown
  | 1 => some .live
  | 2 => some .mismatched
  | 3 => some .dropped
  | _ => none

def ReleaseCause.code : ReleaseCause → Nat
  | .closed => 0
  | .failed => 1
  | .expired => 2
  | .withdrawn => 3
  | .refused => 4

def ReleaseCause.ofCode : Nat → Option ReleaseCause
  | 0 => some .closed
  | 1 => some .failed
  | 2 => some .expired
  | 3 => some .withdrawn
  | 4 => some .refused
  | _ => none

def OrderKind.code : OrderKind → Nat
  | .start => 0
  | .stop => 1
  | .unload => 2
  | .resume => 3
  | .openSources => 4
  | .tieAssist => 5
  | .split => 6

def OrderKind.ofCode : Nat → Option OrderKind
  | 0 => some .start
  | 1 => some .stop
  | 2 => some .unload
  | 3 => some .resume
  | 4 => some .openSources
  | 5 => some .tieAssist
  | 6 => some .split
  | _ => none

/-- START, STOP, UNLOAD, RESUME and OPEN_SOURCES are section orders; the rest are tie orders (R163). -/
def OrderKind.isSectionOrder : OrderKind → Bool
  | .start => true
  | .stop => true
  | .unload => true
  | .resume => true
  | .openSources => true
  | .tieAssist => false
  | .split => false

/-- Role state codes number the states in the order their chapter lists them (13.4). -/
def GeneratorState.code : GeneratorState → Nat
  | .standby => 0
  | .starting => 1
  | .ready => 2
  | .online => 3
  | .unloading => 4
  | .cooldown => 5
  | .startFailed => 6

def ChangeoverState.code : ChangeoverState → Nat
  | .start => 0
  | .normal => 1
  | .isolating => 2
  | .tieWait => 3
  | .onBackup => 4
  | .retransfer => 5
  | .parallel => 6
  | .openRetransfer => 7
  | .locked => 8

def TieState.code : TieState → Nat
  | .idle => 0
  | .assisting => 1
  | .merging => 2
  | .splitting => 3

def FrameKind.code : FrameKind → Nat
  | .status => 1
  | .claim => 2
  | .release => 3
  | .admitFeeder => 4
  | .withdraw => 5
  | .order => 6
  | .block => 7
  | .intertrip => 8
  | .drop => 9
  | .summary => 10

def FrameKind.ofCode : Nat → Option FrameKind
  | 1 => some .status
  | 2 => some .claim
  | 3 => some .release
  | 4 => some .admitFeeder
  | 5 => some .withdraw
  | 6 => some .order
  | 7 => some .block
  | 8 => some .intertrip
  | 9 => some .drop
  | 10 => some .summary
  | _ => none

/-- The number of a fault kind, from 1 (7.1). -/
def FaultKind.number : FaultKind → Nat
  | .elementOperated => 1
  | .busFault => 2
  | .breakerNoOpen => 3
  | .breakerNoClose => 4
  | .breakerDisagree => 5
  | .intertrip => 6
  | .setGap => 7
  | .setLoss => 8
  | .linkGap => 9
  | .quorumLost => 10
  | .digestMismatch => 11
  | .tokenExpired => 12
  | .syncTimeout => 13
  | .startFailed => 14
  | .parallelLimit => 15
  | .loadShed => 16

/-! ### Lists -/

/-- A list with one element replaced by what `f` makes of it; unchanged when there is none there. -/
def updateAt {α : Type} (f : α → α) : Nat → List α → List α
  | _, [] => []
  | 0, x :: xs => f x :: xs
  | n + 1, x :: xs => x :: updateAt f n xs

/-- A list with the first element that satisfies `p` replaced by `v`; `none` when there is none. -/
def replaceFirst {α : Type} (p : α → Bool) (v : α) : List α → Option (List α)
  | [] => none
  | x :: xs => if p x then some (v :: xs) else (replaceFirst p v xs).map (x :: ·)

/-- A list with `v` placed before the first element that satisfies `p`, at the tail when none does. -/
def insertBefore {α : Type} (p : α → Bool) (v : α) : List α → List α
  | [] => [v]
  | x :: xs => if p x then v :: x :: xs else x :: insertBefore p v xs

/-- Two ordered lists merged: an element of the second goes before one of the first only when `lt`
puts it strictly before. -/
def mergeBy {α : Type} (lt : α → α → Bool) (xs ys : List α) : List α :=
  ys.foldl (fun acc y => insertBefore (fun x => lt y x) y acc) xs

/-- A number held within bounds. -/
def clampInt (lo hi x : Int) : Int := if x < lo then lo else if hi < x then hi else x

/-- A count raised by one and held at a ceiling. -/
def satSucc (top n : Nat) : Nat := if n < top then n + 1 else top

end Sys2Proof
end

