-- ==== Sys2Proof/Machine/State.lean ====
section
/-!
DEFINITION. The state of one station, block by block (0.4), as plain data, and its value right after
power is applied. Every structure names the rules that name its fields; where the reference gives a
value at reset it is cited at `State.reset`.
-/

namespace Sys2Proof.Machine

/-! ### Settings Loader (chapter 13) -/

/-- The configured state (R175, R176). -/
inductive ConfigState where
  | loading | configured | unconfigured
  deriving DecidableEq, Repr

/-- The reasons an image is refused, in the order of the tests of R175. -/
inductive LoadRefusal where
  | noResponse | badLength | badCheck | badVersion | badStation | kindMismatch | badCounts | badValue
  deriving DecidableEq, Repr

/-- A downstream pattern (6.1). -/
structure Pattern where
  value : Nat
  mask : Nat
  valid : Bool
  deriving DecidableEq, Repr

/-- The settings part of an element slot, as loaded (5.1, 13.4): codes that name no value stay. -/
structure SlotSettings where
  enabled : Bool
  blockable : Bool
  announces : Bool
  decay : Bool
  edge : Bool
  kindCode : Nat
  compareCode : Nat
  qualify : Nat
  routeCode : Nat
  pickup : Nat
  delay : Nat
  curve : Nat
  decayStep : Nat
  deriving DecidableEq, Repr

/-- The station part of the settings image (13.4). `halfMs` is the set period P in half milliseconds. -/
structure StationSettings where
  number : Nat
  kindCode : Nat
  zoneMap : List Nat
  patterns : List Pattern
  blockLimit : Nat
  slots : List SlotSettings
  halfMs : Nat
  lineNominal : Nat
  busNominal : Nat
  closeLimit : Nat
  openLimit : Nat
  disagreementLimit : Nat
  failureCurrent : Nat
  window : Nat
  slipLimit : Nat
  angleLimit : Nat
  voltageLimit : Nat
  syncTimeout : Nat
  speedGain : Nat
  voltageGain : Nat
  startLimit : Nat
  autonomousDelay : Nat
  minimumRun : Nat
  surplusDwell : Nat
  unloadRate : Nat
  unloadThreshold : Nat
  cooldown : Nat
  sharingGain : Nat
  lineFrequency : Nat
  voltageBand : Nat
  frequencyBand : Nat
  rideThrough : Nat
  returnStable : Nat
  tieAssistLimit : Nat
  parallelLimit : Nat
  mask : PerKind Bool
  severityCode : PerKind Nat
  deriving DecidableEq, Repr

/-- The fixed fields of a configured station (1.2). `sec` is the station's section, the lower one of a
tie; `rating` is its rating or demand. -/
structure CampusEntry where
  number : Nat
  kind : StationKind
  sec : BusSection
  rating : Nat
  level : Nat
  autoAdmit : Bool
  deriving DecidableEq, Repr

/-- The tie policy (chapter 12). -/
inductive TiePolicy where
  | tieFirst | generatorFirst
  deriving DecidableEq, Repr

/-- The campus part of the settings image (13.4). -/
structure CampusSettings where
  count : Nat
  configured : SectionSet
  reserve : Nat
  round : Nat
  holdLimit : Nat
  tiePolicy : TiePolicy
  stations : List CampusEntry
  deriving DecidableEq, Repr

/-- The settings of an accepted image, and the campus digest computed from it (R175). -/
structure Loaded where
  station : StationSettings
  campus : CampusSettings
  digest : Word32
  deriving DecidableEq, Repr

/-- The Settings Loader's record. `afterRestart` says which reset the load in progress ends. -/
structure SettingsUnit where
  state : ConfigState
  afterRestart : Bool
  readLimit : Timer
  refusal : Option LoadRefusal
  loaded : Option Loaded
  deriving DecidableEq, Repr

/-- The inputs of the Field Port as they stand: contacts a and b made or open (R60), READY (R73). -/
structure Pins where
  auxA : Bool
  auxB : Bool
  ready : Bool
  deriving DecidableEq, Repr

/-! ### Picture Unit (chapters 1 and 3) -/

/-- The lapse state of an entry's CLOSING report (R123), kept by the Token Unit. -/
inductive Lapse where
  | none
  | running (left : Nat)
  | lapsed
  deriving DecidableEq, Repr

/-- A Station Table entry (1.2). `fixed` is absent when the number is not in the campus list.
`silence` and `heard` are the Link Controller's count of R32 and its mark that a frame has come since
the last round end; `lapse` is the Token Unit's (R123). -/
structure StationEntry where
  fixed : Option CampusEntry
  presence : Presence
  lastSeq : Option Byte
  content : Option StatusBody
  stale : Bool
  silence : Nat
  heard : Bool
  lapse : Lapse
  deriving DecidableEq, Repr

/-- The last RELEASE delivered that names a section (R127). -/
structure LastRelease where
  sender : Nat
  cause : ReleaseCause
  stamp : Word32
  deriving DecidableEq, Repr

/-- A Section Record (1.4), with the Token Unit's last-release record (R127). -/
structure SectionRecord where
  configured : Bool
  live : Bool
  faulted : Bool
  island : Option BusSection
  holder : Nat
  grant : Word32
  queue : List QueueEntry
  lastOrder : Option LastOrder
  lastRelease : Option LastRelease
  deriving DecidableEq, Repr

/-- The Picture Unit's part of the picture, with the delivery number (R16). -/
structure Picture where
  table : List StationEntry
  secs : PerSection SectionRecord
  delivery : Word32
  quorumCount : Nat
  quorum : Bool
  deriving DecidableEq, Repr

/-- A pending adoption (chapter 3). -/
structure Adoption where
  source : Nat
  serial : Word16
  epoch : EpochId
  deriving DecidableEq, Repr

/-- The step record (chapter 3). `pairRefused` says that a summary pair was refused and is judged
again at the next round end (R44). -/
structure StepRecord where
  state : StepState
  epoch : Option EpochId
  highest : Option Word16
  founding : Nat
  pendingAdoption : Option Adoption
  nextSummary : Word16
  guard : Nat
  pairRefused : Bool
  completed : Word16
  voided : Word16
  founded : Word16
  deriving DecidableEq, Repr

/-- The tables of one island, held under the island's name (chapters 10 and 11). `stood` is the order in which the feeders
last stood on its Admitted List, by their admission numbers: it decides between returned entries of equal former number
(R153, log 14). -/
structure IslandTables where
  capacity : Nat
  runList : List RunEntry
  queue : List WaitEntry
  admitted : List AdmitEntry
  stood : List Nat
  deriving DecidableEq, Repr

/-! ### Link Controller (chapter 2) -/

/-- A frame of the URGENT queue (R26). -/
inductive UrgentFrame where
  | block (on : Bool)
  | intertrip (set : Bool)
  deriving DecidableEq, Repr

/-- A frame of the ORDERED queue (R27). A SUMMARY part holds its serial; its body is composed when it
is sent (R28). -/
inductive OrderedFrame where
  | claim (secs : SectionSet)
  | release (secs : SectionSet) (cause : ReleaseCause)
  | admitFeeder (alreadyClosed : Bool)
  | withdraw
  | order (o : OrderKind) (tieStation : Option Nat)
  | drop (station : Nat)
  | summaryOne (serial : Word16)
  | summaryTwo (serial : Word16)
  deriving DecidableEq, Repr

/-- The link record (R35) with the round timer, the last composed STATUS (R30), whether the medium
stands idle (R22) and the frame last put on it. -/
structure LinkRecord where
  urgent : List UrgentFrame
  ordered : List OrderedFrame
  statusRequest : Option StatusCause
  nextSeq : Byte
  startSilence : Bool
  roundTimer : Timer
  roundCount : Word32
  transmitted : Word32
  receiveDiscard : Word32
  refusals : Word32
  lastComposed : Option StatusBody
  mediumIdle : Bool
  sent : Option Frame
  deriving DecidableEq, Repr

/-! ### Measurement Monitor and Breaker Controller (chapter 4) -/

/-- A live flag with its run counts (R57, R58). -/
structure LiveFlag where
  live : Bool
  liveRun : Nat
  deadRun : Nat
  deriving DecidableEq, Repr

/-- The measurement record (4.1). -/
structure MeasurementRecord where
  latest : Option MeasurementSet
  lastSeq : Option Word16
  setLoss : Bool
  lossTimer : Timer
  line : LiveFlag
  bus : LiveFlag
  discards : Word32
  deriving DecidableEq, Repr

/-- The sources a trip request names (4.5). -/
inductive TripSource where
  | protection | zone | fault | admission | changeover | dispatch | tie | maintenance | abort
  deriving DecidableEq, Repr

/-- The reasons a close request is refused, in the order of R62's conditions. -/
inductive CloseRefusal where
  | notOpen | position | notInStep | noQuorum | lockout | intertrip | noToken | notAdmitted | twoIncomers
  deriving DecidableEq, Repr

/-- The failure origin (R69, R71). -/
inductive FailureOrigin where
  | none | noOpen | disagree
  deriving DecidableEq, Repr

/-- The breaker record (R60). The position is computed from the contacts. -/
structure BreakerRecord where
  state : BreakerState
  closeTimer : Timer
  openTimer : Timer
  disagreementTimer : Timer
  watch : Bool
  mark : Bool
  sources : List TripSource
  origin : FailureOrigin
  lastRefusal : Option CloseRefusal
  closeOut : Bool
  tripOut : Bool
  deriving DecidableEq, Repr

/-- The engine lines driven (R73): the run output and the biases last sent. -/
structure EngineRecord where
  run : Bool
  speedBias : Int
  voltageBias : Int
  deriving DecidableEq, Repr

/-! ### Protection Engine and Zone Unit (chapters 5 and 6) -/

/-- The element states (5.3). -/
inductive ElementState where
  | idle | picked | held | operated | resetting
  deriving DecidableEq, Repr

/-- The running part of an element slot (5.1). `released` says that the operation it last made took it out of HELD: such a
slot does not keep the cause of BUS_FAULT standing (R114, log 38). -/
structure SlotRun where
  state : ElementState
  count : Nat
  acc : Nat
  demand : Bool
  released : Bool
  pickups : Word32
  operations : Word32
  deriving DecidableEq, Repr

/-- The Protection Engine's record: the eight slots and the announcement demand (R87). -/
structure ProtectionRecord where
  slots : List SlotRun
  announcing : Bool
  deriving DecidableEq, Repr

/-- A Block List entry (6.4). -/
structure BlockEntry where
  source : Nat
  stamp : Word32
  left : Nat
  deriving DecidableEq, Repr

/-- An Intertrip Set entry (6.6). -/
structure IntertripEntry where
  source : Nat
  accepted : Bool
  stale : Bool
  stamp : Word32
  deriving DecidableEq, Repr

/-- The Zone Unit's record. The slots among the intertrip demand sources are those whose demand the
slot record holds; `breakerFailure` is the ninth member (R97). -/
structure ZoneRecord where
  blockAsserted : Bool
  intertripAsserted : Bool
  breakerFailure : Bool
  blockList : List BlockEntry
  intertrips : List IntertripEntry
  deriving DecidableEq, Repr

/-! ### Fault Unit (chapter 7) -/

/-- The severities, in the order of their codes (R104). -/
inductive Severity where
  | advisory | trip | lockout
  deriving DecidableEq, Repr

/-- The context of a raise (R107). -/
inductive FaultContext where
  | none
  | slot (number : Nat)
  | station (number : Nat)
  | set (m : MeasurementSet)
  | frame (kind : FrameKind) (h : Header) (bodyLength : Nat)
  deriving DecidableEq, Repr

/-- The first-fault capture (R107). -/
structure Capture where
  kind : FaultKind
  setSeq : Option Word16
  roundCount : Word32
  delivery : Word32
  context : FaultContext
  deriving DecidableEq, Repr

/-- The fault store (7.2). `busSlots` has one bit a slot. -/
structure FaultStore where
  pending : PerKind Bool
  count : PerKind Nat
  capture : Option Capture
  lockout : Bool
  busFault : SectionSet
  busSlots : List Bool
  barLatch : Bool
  deriving DecidableEq, Repr

/-! ### Token Unit and Sync Unit (chapters 8 and 9) -/

/-- The states of the claim record (8.1). -/
inductive ClaimState where
  | idle | wanted | claiming | queued | holding | closing | releasing | suspended
  deriving DecidableEq, Repr

/-- The blocks that may want a close (8.1). -/
inductive Want where
  | dispatch | changeover | tie | maintenance
  deriving DecidableEq, Repr

/-- The hold phases (8.1). -/
inductive HoldPhase where
  | measuring | deadClose | sync | blocked
  deriving DecidableEq, Repr

/-- What has become of the RELEASE the record is to send: none is due, it has been queued and its own
delivery has not come, it is requested again at the round end (R124), or it is requested once the
own entry reports IN_STEP in the station's epoch (R126, R130). -/
inductive ReleaseStage where
  | none | sent | atRound | atOwnStep
  deriving DecidableEq, Repr

/-- The claim record, the hold timer and the counters of R131. `closedMarked` says that the close of
this claim was handed on as closed with the close-after-abort mark set (R169, R173), `begun` that the close of this claim
has begun, and that a tie has taken no TIE_ASSIST since (R126, R173, log 32). -/
structure TokenRecord where
  state : ClaimState
  want : Option Want
  phase : Option HoldPhase
  cause : Option ReleaseCause
  retryRound : Bool
  awaitOwnStep : Bool
  closedMark : Bool
  closedMarked : Bool
  begun : Bool
  stage : ReleaseStage
  holdTimer : Timer
  claims : Word16
  grants : Word16
  expiries : Word16
  deriving DecidableEq, Repr

/-- The session states of the Sync Unit (9.1). -/
inductive SessionState where
  | none | opened | offered
  deriving DecidableEq, Repr

/-- The causes a session ends with (9.1). -/
inductive SessionEnd where
  | closeBegun | liveChange | timeout | ended | replaced
  deriving DecidableEq, Repr

/-- The verdicts of a Sync Result (R136). -/
inductive Verdict where
  | inWindow | outOfWindow | invalid
  deriving DecidableEq, Repr

/-- The current window (9.1). -/
structure SyncWindow where
  count : Nat
  first : Word16
  slipSum : Int
  voltSum : Int
  angle : Int
  latest : Word16
  deriving DecidableEq, Repr

/-- The measured fields of a complete window's result (R136). -/
structure SyncFigures where
  slip : Int
  projected : Int
  voltage : Int
  deriving DecidableEq, Repr

/-- A Sync Result (R136); the figures are absent for a broken window. -/
structure SyncResult where
  number : Word16
  session : Word16
  first : Word16
  last : Word16
  figures : Option SyncFigures
  verdict : Verdict
  deriving DecidableEq, Repr

/-- The sync record (9.1). -/
structure SyncRecord where
  session : SessionState
  number : Word16
  timer : Timer
  window : SyncWindow
  last : Option SyncResult
  resultNumber : Word16
  speedBias : Int
  voltageBias : Int
  endCause : Option SessionEnd
  sessions : Word16
  offers : Word16
  timeouts : Word16
  deriving DecidableEq, Repr

/-! ### Role units (chapters 10 to 12) -/

/-- Why a generator unloads (10.1). -/
inductive UnloadReason where
  | order | surplus | barred
  deriving DecidableEq, Repr

/-- The Dispatch Unit's role part (10.1). `autonomousSpent` says that the autonomous timer has expired
and its condition still stands; `tripIssued` that the one trip of this unloading has been issued. -/
structure DispatchRecord where
  role : GeneratorState
  startTimer : Timer
  autonomousTimer : Timer
  minimumTimer : Timer
  surplusTimer : Timer
  cooldownTimer : Timer
  autonomousSpent : Bool
  autonomousMark : Bool
  reason : Option UnloadReason
  target : Int
  tripIssued : Bool
  starts : Word16
  failures : Word16
  lastBias : Int
  deriving DecidableEq, Repr

/-- The feeder's own request on its way (11.5). -/
inductive FeederRequest where
  | admitFeeder | withdraw
  deriving DecidableEq, Repr

/-- The feeder role's marks and counters (11.5, R162); its state is computed from the lists. -/
structure FeederRecord where
  admitOwed : Bool
  withdrawOwed : Bool
  inFlight : Option FeederRequest
  admissions : Word16
  sheds : Word16
  deriving DecidableEq, Repr

/-- The states of the utility monitor (R165). -/
inductive MonitorState where
  | healthy | disturbed | failed | returning
  deriving DecidableEq, Repr

/-- An owed order (R164). -/
structure OwedOrder where
  order : OrderKind
  tieStation : Option Nat
  inFlight : Bool
  deriving DecidableEq, Repr

/-- The changeover record (12.2, 12.3). `wantDue` says that the want was refused and is posted again
at the round end (R166); `deadWait` that OPEN_RETRANSFER still waits for a dead section (R171). -/
structure ChangeoverRecord where
  monitor : MonitorState
  run : Nat
  rideTimer : Timer
  returnTimer : Timer
  state : ChangeoverState
  manualHold : Bool
  tieTimer : Timer
  parallelTimer : Timer
  splitAsked : Bool
  owed : List OwedOrder
  wantDue : Bool
  deadWait : Bool
  deriving DecidableEq, Repr

/-- The tie record (12.6). -/
structure TieRecord where
  state : TieState
  ordering : Nat
  deriving DecidableEq, Repr

/-! ### Maintenance Port (chapter 13) -/

/-- The operations of OPERATE, in the order of their codes from 1. -/
inductive Operation where
  | opn | close | bar | unbar | merge | split
  deriving DecidableEq, Repr

/-- The states of the operate record (13.3.1). -/
inductive OperateState where
  | idle | inProgress | done | refused | timedOut
  deriving DecidableEq, Repr

/-- The reasons the operate record holds (R179, R180). -/
inductive OperateReason where
  | wrongKind | notReady | claimInProgress
  | close (r : CloseRefusal)
  | release (c : ReleaseCause)
  deriving DecidableEq, Repr

/-- The responses of the port, in the order of their codes (13.4). -/
inductive ResponseCode where
  | ok | busy | refused | badSelector
  deriving DecidableEq, Repr

/-- A response: its code and the record a READ returns. -/
structure Response where
  code : ResponseCode
  data : List Byte
  deriving DecidableEq, Repr

/-- The port's record: the operate record, the attention line and the last response.
`refusedDuring` says that a close was refused during the operation (R180). -/
structure PortRecord where
  operation : Option Operation
  state : OperateState
  reason : Option OperateReason
  limit : Timer
  refusedDuring : Bool
  attention : Bool
  response : Option Response
  deriving DecidableEq, Repr

/-! ### Hand-offs -/

/-- What one block hands on to others within an event (R72, R95, R100, R110, R112, R117, R126,
R138). The list of hand-offs not yet taken is the model's own bookkeeping: log 5. -/
inductive News where
  /-- The requested close has reached CLOSED, with the mark noted (R64, R72). -/
  | closed (mark : Bool)
  /-- The close limit expired (R65). -/
  | closeFailed
  /-- A trip aborted the close (R66). -/
  | closeAborted (src : TripSource)
  /-- The breaker has opened, with the trip sources; none when spontaneous (R68, R70, R71). -/
  | opened (sources : List TripSource)
  /-- The breaker closed outside an operation (R71). -/
  | closedUnrequested
  | lockoutOnset
  | lockoutEnd
  /-- A generator's barred value has changed (R112). -/
  | barredChanged (barred : Bool)
  /-- The claim record has returned to IDLE other than by its block's withdrawal (R126): the cause,
  whether the close reached CLOSED, and whether it did so with the mark set. -/
  | claimIdle (cause : Option ReleaseCause) (closed : Bool) (marked : Bool)
  /-- The claim record has returned to IDLE by a withdrawal of its want (R130). -/
  | claimWithdrawn
  /-- An application test of R119 would refuse the claim (R117). -/
  | claimTest (test : Nat)
  /-- The hold timer expired (R125). -/
  | holdExpired
  /-- A session ended with cause TIMEOUT (R138). -/
  | syncTimedOut
  /-- The Intertrip Set has come to hold an accepted entry, or none (R100). -/
  | acceptedChanged (some : Bool)
  /-- The Block List has become empty (R95). -/
  | blockListEmptied
  deriving DecidableEq, Repr

/-! ### The state -/

/-- The state of one station. -/
structure State where
  /-- Commands waiting, first in, first out. -/
  pending : List Instr
  settings : SettingsUnit
  pins : Pins
  step : StepRecord
  pic : Picture
  isl : PerSection IslandTables
  link : LinkRecord
  meas : MeasurementRecord
  brk : BreakerRecord
  eng : EngineRecord
  prot : ProtectionRecord
  zone : ZoneRecord
  fault : FaultStore
  token : TokenRecord
  sync : SyncRecord
  disp : DispatchRecord
  feeder : FeederRecord
  chg : ChangeoverRecord
  tie : TieRecord
  port : PortRecord
  /-- Hand-offs not yet taken within the present event: the model's own bookkeeping (log 5). -/
  news : List News
  deriving DecidableEq, Repr

/-- The reasons the machine could stop with a fault: there are none. The reference gives every event
an effect; its own sixteen fault kinds are recorded in the fault store and stop nothing (R106). -/
inductive Fault where
  deriving DecidableEq, Repr

/-- The reasons a command could be refused. -/
inductive Refusal where
  /-- Raised by no meaning: the form `exec` would use for a command without one. Safe. -/
  | notModelled (mnemonic : String)
  deriving DecidableEq, Repr

/-! ### The values at reset -/

/-- An entry whose number is not in the campus list (R2). -/
def StationEntry.absent : StationEntry :=
  { fixed := none, presence := .unknown, lastSeq := none, content := none, stale := false,
    silence := 0, heard := false, lapse := .none }

/-- A Section Record before any load: not configured, in no island (R11, R116). -/
def SectionRecord.initial : SectionRecord :=
  { configured := false, live := false, faulted := false, island := none, holder := 0, grant := 0,
    queue := [], lastOrder := none, lastRelease := none }

/-- The tables of an island at reset (R142, R152, R153). -/
def IslandTables.initial : IslandTables :=
  { capacity := 0, runList := [], queue := [], admitted := [], stood := [] }

/-- R36. -/
def StepRecord.initial : StepRecord :=
  { state := .joining, epoch := none, highest := none, founding := 0, pendingAdoption := none,
    nextSummary := 0, guard := 0, pairRefused := false, completed := 0, voided := 0, founded := 0 }

/-- R2, R9, R11 and R16 before any load. -/
def Picture.initial : Picture :=
  { table := List.replicate 30 StationEntry.absent, secs := PerSection.fill SectionRecord.initial,
    delivery := 0, quorumCount := 0, quorum := false }

/-- R24, R25, R35. -/
def LinkRecord.initial : LinkRecord :=
  { urgent := [], ordered := [], statusRequest := none, nextSeq := 0, startSilence := true,
    roundTimer := none, roundCount := 0, transmitted := 0, receiveDiscard := 0, refusals := 0,
    lastComposed := none, mediumIdle := false, sent := none }

/-- R59. -/
def LiveFlag.dead : LiveFlag := { live := false, liveRun := 0, deadRun := 0 }

/-- R59. -/
def MeasurementRecord.initial : MeasurementRecord :=
  { latest := none, lastSeq := none, setLoss := false, lossTimer := none, line := .dead, bus := .dead,
    discards := 0 }

/-- R61. The state is OPEN until a first position is read under loaded settings: the spec gives none before (log 46). -/
def BreakerRecord.initial : BreakerRecord :=
  { state := .opened, closeTimer := none, openTimer := none, disagreementTimer := none, watch := false,
    mark := false, sources := [], origin := .none, lastRefusal := none, closeOut := false,
    tripOut := false }

/-- R73. -/
def EngineRecord.initial : EngineRecord := { run := false, speedBias := 0, voltageBias := 0 }

/-- R74. -/
def SlotRun.initial : SlotRun :=
  { state := .idle, count := 0, acc := 0, demand := false, released := false, pickups := 0, operations := 0 }

/-- R74. -/
def ProtectionRecord.initial : ProtectionRecord :=
  { slots := List.replicate 8 SlotRun.initial, announcing := false }

/-- R91. -/
def ZoneRecord.initial : ZoneRecord :=
  { blockAsserted := false, intertripAsserted := false, breakerFailure := false, blockList := [],
    intertrips := [] }

/-- R105. -/
def FaultStore.initial : FaultStore :=
  { pending := PerKind.fill false, count := PerKind.fill 0, capture := none, lockout := false,
    busFault := SectionSet.empty, busSlots := List.replicate 8 false, barLatch := false }

/-- R116. The hold phase and the release cause, to which it gives no value, are absent (log 39). -/
def TokenRecord.initial : TokenRecord :=
  { state := .idle, want := none, phase := none, cause := none, retryRound := false,
    awaitOwnStep := false, closedMark := false, closedMarked := false, begun := false, stage := .none,
    holdTimer := none, claims := 0, grants := 0, expiries := 0 }

/-- R133. -/
def SyncWindow.empty : SyncWindow :=
  { count := 0, first := 0, slipSum := 0, voltSum := 0, angle := 0, latest := 0 }

/-- R133. -/
def SyncRecord.initial : SyncRecord :=
  { session := .none, number := 0, timer := none, window := .empty, last := none, resultNumber := 0,
    speedBias := 0, voltageBias := 0, endCause := none, sessions := 0, offers := 0, timeouts := 0 }

/-- R141. -/
def DispatchRecord.initial : DispatchRecord :=
  { role := .standby, startTimer := none, autonomousTimer := none, minimumTimer := none,
    surplusTimer := none, cooldownTimer := none, autonomousSpent := false, autonomousMark := false,
    reason := none, target := 0, tripIssued := false, starts := 0, failures := 0, lastBias := 0 }

/-- R159, R162. -/
def FeederRecord.initial : FeederRecord :=
  { admitOwed := false, withdrawOwed := false, inFlight := none, admissions := 0, sheds := 0 }

/-- R165, R166. -/
def ChangeoverRecord.initial : ChangeoverRecord :=
  { monitor := .healthy, run := 0, rideTimer := none, returnTimer := none, state := .start,
    manualHold := false, tieTimer := none, parallelTimer := none, splitAsked := false, owed := [],
    wantDue := false, deadWait := false }

/-- R173. -/
def TieRecord.initial : TieRecord := { state := .idle, ordering := 0 }

/-- R176, R179. -/
def PortRecord.initial : PortRecord :=
  { operation := none, state := .idle, reason := none, limit := none, refusedDuring := false,
    attention := false, response := none }

/-- The machine right after power is applied: LOADING, the read of the image just begun (R175, R176),
every block at its power-on values. The contacts, READY and the medium stand at 0 (log 4). -/
def State.reset : State :=
  { pending := []
    settings :=
      { state := .loading, afterRestart := false, readLimit := some Config.readLimitMs, refusal := none,
        loaded := none }
    pins := { auxA := false, auxB := false, ready := false }
    step := .initial
    pic := .initial
    isl := PerSection.fill .initial
    link := .initial
    meas := .initial
    brk := .initial
    eng := .initial
    prot := .initial
    zone := .initial
    fault := .initial
    token := .initial
    sync := .initial
    disp := .initial
    feeder := .initial
    chg := .initial
    tie := .initial
    port := .initial
    news := [] }

end Sys2Proof.Machine
end

