-- ==== Sys2Proof/Machine/Ops.lean ====
section
/-!
DEFINITION. The named operations every block uses: changing one block of the state, reading the
settings and the Station Table, and the questions about the picture that several rules ask.
-/

namespace Sys2Proof.Machine

/-! ### Changing one block -/

def State.onSettings (f : SettingsUnit → SettingsUnit) (s : State) : State := { s with settings := f s.settings }
def State.onPins (f : Pins → Pins) (s : State) : State := { s with pins := f s.pins }
def State.onStep (f : StepRecord → StepRecord) (s : State) : State := { s with step := f s.step }
def State.onPic (f : Picture → Picture) (s : State) : State := { s with pic := f s.pic }
def State.onIsl (f : PerSection IslandTables → PerSection IslandTables) (s : State) : State := { s with isl := f s.isl }
def State.onLink (f : LinkRecord → LinkRecord) (s : State) : State := { s with link := f s.link }
def State.onMeas (f : MeasurementRecord → MeasurementRecord) (s : State) : State := { s with meas := f s.meas }
def State.onBrk (f : BreakerRecord → BreakerRecord) (s : State) : State := { s with brk := f s.brk }
def State.onEng (f : EngineRecord → EngineRecord) (s : State) : State := { s with eng := f s.eng }
def State.onProt (f : ProtectionRecord → ProtectionRecord) (s : State) : State := { s with prot := f s.prot }
def State.onZone (f : ZoneRecord → ZoneRecord) (s : State) : State := { s with zone := f s.zone }
def State.onFault (f : FaultStore → FaultStore) (s : State) : State := { s with fault := f s.fault }
def State.onToken (f : TokenRecord → TokenRecord) (s : State) : State := { s with token := f s.token }
def State.onSync (f : SyncRecord → SyncRecord) (s : State) : State := { s with sync := f s.sync }
def State.onDisp (f : DispatchRecord → DispatchRecord) (s : State) : State := { s with disp := f s.disp }
def State.onFeeder (f : FeederRecord → FeederRecord) (s : State) : State := { s with feeder := f s.feeder }
def State.onChg (f : ChangeoverRecord → ChangeoverRecord) (s : State) : State := { s with chg := f s.chg }
def State.onTie (f : TieRecord → TieRecord) (s : State) : State := { s with tie := f s.tie }
def State.onPort (f : PortRecord → PortRecord) (s : State) : State := { s with port := f s.port }

/-- Hand something on to the blocks that act on it (log 5). -/
def State.tell (n : News) (s : State) : State := { s with news := s.news ++ [n] }

/-! ### Settings (chapter 13) -/

/-- The station settings in force before any load: no rule reads them while none are loaded, but a READ shows them (log 9). -/
def StationSettings.absent : StationSettings :=
  { number := 0, kindCode := 0, zoneMap := [], patterns := [], blockLimit := 0, slots := [],
    halfMs := 0, lineNominal := 0, busNominal := 0, closeLimit := 0, openLimit := 0,
    disagreementLimit := 0, failureCurrent := 0, window := 0, slipLimit := 0, angleLimit := 0,
    voltageLimit := 0, syncTimeout := 0, speedGain := 0, voltageGain := 0, startLimit := 0,
    autonomousDelay := 0, minimumRun := 0, surplusDwell := 0, unloadRate := 0, unloadThreshold := 0,
    cooldown := 0, sharingGain := 0, lineFrequency := 0, voltageBand := 0, frequencyBand := 0,
    rideThrough := 0, returnStable := 0, tieAssistLimit := 0, parallelLimit := 0,
    mask := PerKind.fill false, severityCode := PerKind.fill 255 }

/-- The campus settings before any load. -/
def CampusSettings.absent : CampusSettings :=
  { count := 0, configured := SectionSet.empty, reserve := 0, round := 0, holdLimit := 0,
    tiePolicy := .tieFirst, stations := [] }

/-- The station settings loaded. -/
def State.station (s : State) : StationSettings :=
  match s.settings.loaded with
  | some l => l.station
  | none => .absent

/-- The campus settings loaded. -/
def State.campus (s : State) : CampusSettings :=
  match s.settings.loaded with
  | some l => l.campus
  | none => .absent

/-- The station's own campus digest (R175); 0 stands where none is held. -/
def State.digest (s : State) : Word32 :=
  match s.settings.loaded with
  | some l => l.digest
  | none => 0

/-- Whether the station is CONFIGURED (R175). -/
def State.configured (s : State) : Bool := s.settings.state == .configured

/-- The station's own number. -/
def State.own (s : State) : Nat := s.station.number

/-! ### The Station Table (1.2) -/

/-- The entry of a station number. -/
def State.entry (s : State) (n : Nat) : StationEntry :=
  match n with
  | 0 => .absent
  | k + 1 => s.pic.table.getD k .absent

/-- Change the entry of a station number. -/
def State.onEntry (n : Nat) (f : StationEntry → StationEntry) (s : State) : State :=
  match n with
  | 0 => s
  | k + 1 => s.onPic fun p => { p with table := updateAt f k p.table }

/-- The numbers of the Station Table. -/
def stationNumbers : List Nat := List.range' 1 30

/-- Whether a station number is configured (1.2). -/
def State.isConfigured (s : State) (n : Nat) : Bool := (s.entry n).fixed.isSome

/-- The kind of a station, if configured. -/
def State.kindOf (s : State) (n : Nat) : Option StationKind := (s.entry n).fixed.map (·.kind)

/-- The section of a station, the lower one of a tie, if configured. -/
def State.secOf (s : State) (n : Nat) : Option BusSection := (s.entry n).fixed.map (·.sec)

/-- The rating or demand of a station. -/
def State.ratingOf (s : State) (n : Nat) : Nat :=
  match (s.entry n).fixed with
  | some c => c.rating
  | none => 0

/-- The priority level of a station. -/
def State.levelOf (s : State) (n : Nat) : Nat :=
  match (s.entry n).fixed with
  | some c => c.level
  | none => 0

/-- The sections a configured station's breaker connects: its own, or both of a tie's (0.2). -/
def CampusEntry.connects (c : CampusEntry) : SectionSet :=
  match c.kind, c.sec.next with
  | .tie, some y => (SectionSet.one c.sec).set y true
  | _, _ => SectionSet.one c.sec

/-- The sections the breaker of a station connects; none when it is not configured. -/
def State.connects (s : State) (n : Nat) : SectionSet :=
  match (s.entry n).fixed with
  | some c => c.connects
  | none => SectionSet.empty

/-- The station's own kind; a station without settings has none. -/
def State.ownKind (s : State) : Option StationKind := s.kindOf s.own

/-- The sections the station's own breaker connects. -/
def State.ownSections (s : State) : SectionSet := s.connects s.own

/-- The station's own section, the lower one of a tie. -/
def State.ownSec (s : State) : BusSection :=
  match s.secOf s.own with
  | some x => x
  | none => .A

/-- The configured stations that satisfy `p`, in station order. -/
def State.stationsWhere (s : State) (p : CampusEntry → Bool) : List Nat :=
  stationNumbers.filter fun n =>
    match (s.entry n).fixed with
    | some c => p c
    | none => false

/-- Current content (R7): the content of an entry that is LIVE and not stale. -/
def StationEntry.current (e : StationEntry) : Option StatusBody :=
  if e.presence == .live && !e.stale then e.content else none

/-- The breaker state of an entry's held content (R7). -/
def StationEntry.heldBreaker (e : StationEntry) : Option BreakerState := e.content.map (·.breaker)

/-- The role state code of an entry's held content (R7). -/
def StationEntry.heldRole (e : StationEntry) : Option Nat := e.content.map (·.role)

/-- Whether an entry's held breaker state is the one given. -/
def StationEntry.holds (e : StationEntry) (b : BreakerState) : Bool := e.heldBreaker == some b

/-! ### Section Records and islands (1.4, 1.5) -/

/-- The record of a section. -/
def State.sec (s : State) (x : BusSection) : SectionRecord := s.pic.secs.get x

/-- Change the record of a section. -/
def State.onSec (x : BusSection) (f : SectionRecord → SectionRecord) (s : State) : State :=
  s.onPic fun p => { p with secs := p.secs.set x (f (p.secs.get x)) }

/-- The island that contains a section. -/
def State.islandOf (s : State) (x : BusSection) : Option BusSection := (s.sec x).island

/-- Whether two sections stand in one island. -/
def State.sameIsland (s : State) (x y : BusSection) : Bool :=
  match s.islandOf x, s.islandOf y with
  | some i, some j => i == j
  | _, _ => false

/-- The sections of the island that contains a section. -/
def State.islandSections (s : State) (x : BusSection) : SectionSet :=
  PerSection.make fun y => s.sameIsland x y

/-- Whether the island that contains a section contains another one. -/
def State.islandShared (s : State) (x : BusSection) : Bool :=
  BusSection.all.any fun y => !(x == y) && s.sameIsland x y

/-- The name of the station's own island; its own section where it has none. -/
def State.ownIsland (s : State) : BusSection :=
  match s.islandOf s.ownSec with
  | some i => i
  | none => s.ownSec

/-- The tables held under an island's name. -/
def State.island (s : State) (i : BusSection) : IslandTables := s.isl.get i

/-- Change the tables held under an island's name. -/
def State.onIsland (i : BusSection) (f : IslandTables → IslandTables) (s : State) : State :=
  s.onIsl fun t => t.set i (f (t.get i))

/-- The incomers, the generators or the ties that connect a section. -/
def State.incomersOf (s : State) (x : BusSection) : List Nat :=
  s.stationsWhere fun c => c.kind == .incomer && c.sec == x

def State.generatorsOf (s : State) (x : BusSection) : List Nat :=
  s.stationsWhere fun c => c.kind == .generator && c.sec == x

def State.tiesAt (s : State) (x : BusSection) : List Nat :=
  s.stationsWhere fun c => c.kind == .tie && c.connects.get x

/-- The stations able to close onto a section: its incomer, its generators and its ties (0.2). -/
def State.closersOnto (s : State) (x : BusSection) : List Nat :=
  s.stationsWhere fun c => !(c.kind == .feeder) && c.connects.get x

/-! ### Questions asked in several chapters -/

/-- Whether the station is IN_STEP (R36). -/
def State.inStep (s : State) : Bool := s.step.state == .inStep

/-- Whether an entry holds current content reporting IN_STEP in the station's own epoch (R40). -/
def State.reportsInStep (s : State) (n : Nat) : Bool :=
  match (s.entry n).current, s.step.epoch with
  | some b, some e => b.step == .inStep && b.epoch == e && !(b.epoch.founder == 0)
  | _, _ => false

/-- Whether the station's own entry, as delivered, does (R8, R117, R159, R164). -/
def State.ownReports (s : State) : Bool := s.reportsInStep s.own

/-- Whether the station is holder of every section its breaker connects, in its own picture (R62). -/
def State.holdsAll (s : State) (n : Nat) : Bool :=
  !(s.connects n).isEmpty && BusSection.all.all fun x =>
    !(s.connects n).get x || (s.sec x).holder == n

/-- Whether a section's claim queue holds a station. -/
def SectionRecord.queues (r : SectionRecord) (n : Nat) : Bool := r.queue.any (·.station == n)

/-- The sections whose token a station holds, and the sections it is queued for (R18). -/
def State.tokensOf (s : State) (n : Nat) : SectionSet :=
  PerSection.make fun x => !(n == 0) && (s.sec x).holder == n

def State.queuedOf (s : State) (n : Nat) : SectionSet := PerSection.make fun x => (s.sec x).queues n

/-- The admission state of a station: where its tables hold it (R18). -/
def State.admissionOf (s : State) (n : Nat) : AdmissionState :=
  if BusSection.all.any fun i => (s.island i).admitted.any (·.feeder == n) then .admitted
  else if BusSection.all.any fun i => (s.island i).queue.any (·.feeder == n) then .waiting
  else .out

/-- Whether the Intertrip Set holds an accepted entry, stale or not (R100). -/
def State.acceptedIntertrip (s : State) : Bool := s.zone.intertrips.any (·.accepted)

/-- The breaker position the contact pair gives (R60). -/
def State.position (s : State) : Position :=
  match s.pins.auxA, s.pins.auxB with
  | true, false => .closed
  | false, true => .opened
  | false, false => .travelling
  | true, true => .invalid

/-- The phase currents of the latest set; 0 where no set has arrived (log 15). -/
def State.currents (s : State) : Phases :=
  match s.meas.latest with
  | some m => m.currents
  | none => ⟨0, 0, 0⟩

/-- Whether all three phase currents of the latest set are below the breaker-failure current (R68). -/
def State.currentsBelow (s : State) : Bool :=
  s.currents.p1 < s.station.failureCurrent && s.currents.p2 < s.station.failureCurrent &&
    s.currents.p3 < s.station.failureCurrent

/-- Per-unit load from a real power and a rating or demand (R59): per-mille, rounded towards zero,
held to 16 bits; 0 for a rating of 0. -/
def perUnitLoad (power : Int) (rating : Nat) : Int :=
  if rating = 0 then 0 else clampInt (-32768) 32767 (Int.tdiv (power * 1000) rating)

/-- The per-unit load of a station with a real power: a tie reports 0 (R59). -/
def State.perUnitOf (s : State) (n : Nat) (power : Int) : Int :=
  match s.kindOf n with
  | some .tie => 0
  | _ => perUnitLoad power (s.ratingOf n)

/-- The station's own real power: 0 until the first arrival (R59). -/
def State.ownPower (s : State) : Int :=
  match s.meas.latest with
  | some m => m.realPower
  | none => 0

/-- The station's own per-unit load computed from its latest set (R59, R148). -/
def State.ownLoad (s : State) : Int := s.perUnitOf s.own s.ownPower

/-- Raise the attention line (R115, R180). -/
def State.attend (s : State) : State := s.onPort fun p => { p with attention := true }

end Sys2Proof.Machine
end

