-- ==== Sys2Proof/Machine/Clock.lean ====
section
/-!
DEFINITION. The passing of time (log 1): on an empty queue one millisecond passes, and every running
timer has one millisecond less left. A timer at 0 stays there until its expiry is commanded.
-/

namespace Sys2Proof.Machine

/-- A timer one millisecond later. -/
def Timer.tick (t : Timer) : Timer := t.map (· - 1)

/-- A lapse state one millisecond later (R123). -/
def Lapse.tick : Lapse → Lapse
  | .running left => .running (left - 1)
  | l => l

/-- The state one millisecond later. -/
def State.tick (s : State) : State :=
  { s with
    settings := { s.settings with readLimit := Timer.tick s.settings.readLimit }
    pic := { s.pic with table := s.pic.table.map fun e => { e with lapse := e.lapse.tick } }
    link := { s.link with roundTimer := Timer.tick s.link.roundTimer }
    meas := { s.meas with lossTimer := Timer.tick s.meas.lossTimer }
    brk := { s.brk with
      closeTimer := Timer.tick s.brk.closeTimer
      openTimer := Timer.tick s.brk.openTimer
      disagreementTimer := Timer.tick s.brk.disagreementTimer }
    zone := { s.zone with blockList := s.zone.blockList.map fun e => { e with left := e.left - 1 } }
    token := { s.token with holdTimer := Timer.tick s.token.holdTimer }
    sync := { s.sync with timer := Timer.tick s.sync.timer }
    disp := { s.disp with
      startTimer := Timer.tick s.disp.startTimer
      autonomousTimer := Timer.tick s.disp.autonomousTimer
      minimumTimer := Timer.tick s.disp.minimumTimer
      surplusTimer := Timer.tick s.disp.surplusTimer
      cooldownTimer := Timer.tick s.disp.cooldownTimer }
    chg := { s.chg with
      rideTimer := Timer.tick s.chg.rideTimer
      returnTimer := Timer.tick s.chg.returnTimer
      tieTimer := Timer.tick s.chg.tieTimer
      parallelTimer := Timer.tick s.chg.parallelTimer }
    port := { s.port with limit := Timer.tick s.port.limit } }

end Sys2Proof.Machine
end

