-- ==== Sys2Proof/Machine/Flags.lean ====
section
/-!
DEFINITION. Every flag the station derives: the live flags of its own two sides (R57, R58), the band of
the utility monitor (R165), and the derived values of the picture: quorum (R9), the live and faulted flags
of the sections (R12, R13) and the island partition (R14).
-/

namespace Sys2Proof.Machine

/-! ### The station's own live flags (R57, R58) -/

/-- The class of an arriving set for one live flag (R57). -/
inductive SetClass where
  | high | middle | low
  deriving DecidableEq, Repr

/-- The class of watched magnitudes against a nominal (R57). -/
def setClass (nominal : Nat) (magnitudes : List Nat) : SetClass :=
  if magnitudes.all fun v => 80 * nominal ≤ v * 100 then .high
  else if magnitudes.all fun v => v * 100 < 20 * nominal then .low
  else .middle

/-- A flag advanced by a set's class (R58). -/
def LiveFlag.advance (c : SetClass) (f : LiveFlag) : LiveFlag :=
  match c with
  | .high =>
    { live := f.live || satSucc Config.runLength f.liveRun == Config.runLength
      liveRun := satSucc Config.runLength f.liveRun, deadRun := 0 }
  | .low =>
    { live := f.live && !(satSucc Config.runLength f.deadRun == Config.runLength)
      liveRun := 0, deadRun := satSucc Config.runLength f.deadRun }
  | .middle => { f with liveRun := 0, deadRun := 0 }

/-- A flag with both counts at 0 and its value held (R55, R56). -/
def LiveFlag.clearRuns (f : LiveFlag) : LiveFlag := { f with liveRun := 0, deadRun := 0 }

/-- The class of a set for the line-live flag and for the bus-live flag (R57). -/
def lineClass (st : StationSettings) (m : MeasurementSet) : SetClass :=
  setClass st.lineNominal [m.lineVolts.p1, m.lineVolts.p2, m.lineVolts.p3]

def busClass (st : StationSettings) (m : MeasurementSet) : SetClass := setClass st.busNominal [m.busVolts]

/-! ### The utility band (R165) -/

/-- Whether a line magnitude lies within the voltage band. -/
def magnitudeInBand (st : StationSettings) (v : Nat) : Bool :=
  ((v : Int) - st.lineNominal).natAbs * 100 ≤ st.voltageBand * st.lineNominal

/-- Whether a set is in band (R165). -/
def inBand (st : StationSettings) (m : MeasurementSet) : Bool :=
  magnitudeInBand st m.lineVolts.p1 && magnitudeInBand st m.lineVolts.p2 && magnitudeInBand st m.lineVolts.p3 &&
    ((m.lineFreq : Int) - st.lineFrequency).natAbs ≤ st.frequencyBand

/-! ### Derived values of the picture -/

/-- The number of configured entries that are LIVE (R9). -/
def State.liveCount (s : State) : Nat := (s.pic.table.filter fun e => e.fixed.isSome && e.presence == .live).length

/-- Whether a count holds quorum (R9). -/
def State.holdsQuorum (s : State) (count : Nat) : Bool := s.campus.count < 2 * count

/-- What a station's current content reports of a section it connects (R12). -/
def StationEntry.reportsLive (e : StationEntry) (x : BusSection) : Bool :=
  match e.fixed, e.current with
  | some c, some b =>
    c.connects.get x &&
      (match c.kind with
        | .tie => if c.sec == x then b.lineLive else b.busLive
        | _ => b.busLive)
  | _, _ => false

/-- The live flag of a section, from the table (R12). -/
def State.liveNow (s : State) (x : BusSection) : Bool :=
  (s.sec x).configured && s.pic.table.any fun e => e.reportsLive x

/-- The faulted flag of a section, from the table (R13). -/
def State.faultedNow (s : State) (x : BusSection) : Bool :=
  (s.sec x).configured && s.pic.table.any fun e =>
    e.fixed.isSome && !(e.presence == .unknown) &&
      (match e.content with
        | some b => b.busFault.get x
        | none => false)

/-- Whether a tie whose lower section is `x` joins it to the next (R14). -/
def State.joinedUp (s : State) (x : BusSection) : Bool :=
  s.pic.table.any fun e =>
    (match e.fixed with
      | some c => c.kind == .tie && c.sec == x
      | none => false) && (e.holds .closed || e.holds .opening)

/-- The island of a section, from the island of the section below it (R14). -/
def State.islandAfter (s : State) (below : Option BusSection) (joined : Bool) (x : BusSection) : Option BusSection :=
  if (s.sec x).configured then
    match below, joined with
    | some i, true => some i
    | _, _ => some x
  else none

/-- The island partition, from the table (R14). -/
def State.partition (s : State) : PerSection (Option BusSection) :=
  let a := s.islandAfter none false .A
  let b := s.islandAfter a (s.joinedUp .A) .B
  let c := s.islandAfter b (s.joinedUp .B) .C
  let d := s.islandAfter c (s.joinedUp .C) .D
  ⟨a, b, c, d⟩

/-- Recompute the quorum count and the holds-quorum value (R9). -/
def State.deriveQuorum (s : State) : State :=
  s.onPic fun p => { p with quorumCount := s.liveCount, quorum := s.holdsQuorum s.liveCount }

/-- Recompute the live and faulted flags and the island of every section (R12 to R14). -/
def State.deriveSections (s : State) : State :=
  s.onPic fun p => { p with
    secs := PerSection.make fun x =>
      { p.secs.get x with
        live := s.liveNow x, faulted := s.faultedNow x, island := s.partition.get x } }

/-- Every derived value of the picture (R1 step 5). -/
def State.derive (s : State) : State := s.deriveQuorum.deriveSections

end Sys2Proof.Machine
end

