-- ==== Sys2Proof/Machine/Link.lean ====
section
/-!
DEFINITION. The Link Controller's queues (2.5), the gap (2.3) and the composition of frames at the
moment they are sent (R18, R30, R45).
-/

namespace Sys2Proof.Machine

/-! ### The queues -/

def UrgentFrame.isBlock : UrgentFrame → Bool
  | .block _ => true
  | .intertrip _ => false

/-- The URGENT queue with a frame placed in it: it takes the place of an unsent one of its kind (R26). -/
def placedUrgent (f : UrgentFrame) (q : List UrgentFrame) : List UrgentFrame :=
  (replaceFirst (fun g => g.isBlock == f.isBlock) f q).getD (q ++ [f])

/-- Place a frame in the URGENT queue (R26). -/
def State.placeUrgent (f : UrgentFrame) (s : State) : State :=
  s.onLink fun l => { l with urgent := placedUrgent f l.urgent }

/-- The kinds R37 refuses while the station is not IN_STEP, and R29 removes when it leaves IN_STEP;
R29 removes the summaries too. -/
def OrderedFrame.isRequest : OrderedFrame → Bool
  | .claim _ => true
  | .release _ _ => true
  | .admitFeeder _ => true
  | .withdraw => true
  | .order _ _ => true
  | .drop _ => false
  | .summaryOne _ => false
  | .summaryTwo _ => false

def OrderedFrame.isDrop : OrderedFrame → Bool
  | .drop _ => true
  | _ => false

def OrderedFrame.isSummary : OrderedFrame → Bool
  | .summaryOne _ => true
  | .summaryTwo _ => true
  | _ => false

/-- Whether the ORDERED queue accepts a request: not one of R37's kinds out of step, and room for one
more frame (R27, R37). -/
def State.acceptsOrdered (f : OrderedFrame) (s : State) : Bool :=
  (s.inStep || !f.isRequest) && s.link.ordered.length < Config.orderedCapacity

/-- Request a frame in the ORDERED queue: appended when accepted; a refusal of a full queue is
counted, a refusal out of step is not (R27, R37). -/
def State.requestOrdered (f : OrderedFrame) (s : State) : State :=
  if s.acceptsOrdered f then s.onLink fun l => { l with ordered := l.ordered ++ [f] }
  else if s.inStep || !f.isRequest then s.onLink fun l => { l with refusals := l.refusals + 1 }
  else s

/-- Whether a summary pair is accepted: 6 frames or fewer in the queue (R28). -/
def State.acceptsPair (s : State) : Bool := s.link.ordered.length + 2 ≤ Config.orderedCapacity

/-- Request a summary pair (R28, R44): both parts are appended under the next summary serial, or the
pair is refused whole, counted, and judged again at the next round end. A pair accepted in between takes the place of the
refused one, which is not requested again at that round end (log 40). -/
def State.requestPair (s : State) : State :=
  if s.acceptsPair then
    (s.onLink fun l => { l with ordered :=
      l.ordered ++ [.summaryOne s.step.nextSummary, .summaryTwo s.step.nextSummary] }).onStep
      fun t => { t with nextSummary := t.nextSummary + 1, pairRefused := false }
  else
    (s.onLink fun l => { l with refusals := l.refusals + 1 }).onStep fun t => { t with pairRefused := true }

/-- Request a STATUS: the newer request replaces a waiting one (R30). -/
def State.requestStatus (c : StatusCause) (s : State) : State :=
  s.onLink fun l => { l with statusRequest := some c }

/-- Remove the station's unsent ordered frames, DROP excepted, and tell the blocks whose frames went:
an order is no longer in flight (R164), nor is a feeder's request (R159). The claim record is
suspended by whoever calls this (R130). -/
def State.purgeOrdered (s : State) : State :=
  let gone := s.link.ordered.filter fun f => !f.isDrop
  let isOrder : OrderedFrame → Bool
    | .order _ _ => true
    | _ => false
  let isFeeder : OrderedFrame → Bool
    | .admitFeeder _ => true
    | .withdraw => true
    | _ => false
  let s1 := s.onLink fun l => { l with ordered := l.ordered.filter (·.isDrop) }
  let s2 := if gone.any isOrder then
      s1.onChg fun c => { c with owed := c.owed.map fun o => { o with inFlight := false } }
    else s1
  if gone.any isFeeder then s2.onFeeder fun f => { f with inFlight := none } else s2

/-- Remove the station's own unsent DROPs that name a peer (R33). -/
def State.unqueueDrop (n : Nat) (s : State) : State :=
  s.onLink fun l => { l with ordered := l.ordered.filter fun f => !(f == .drop n) }

/-! ### The gap (R22, R23) -/

/-- The frame classes (2.1). -/
inductive FrameClass where
  | urgent | ordered | status
  deriving DecidableEq, Repr

/-- The highest class whose queue is not empty (R23). -/
def State.waitingClass (s : State) : Option FrameClass :=
  if !s.link.urgent.isEmpty then some .urgent
  else if !s.link.ordered.isEmpty then some .ordered
  else if s.link.statusRequest.isSome then some .status
  else none

/-- The gap of a class in bit times, from the moment the medium is found idle (R22). -/
def gapBits (c : FrameClass) (station : Nat) : Nat :=
  station * Config.slotBits +
    match c with
    | .urgent => Config.urgentBase
    | .ordered => Config.orderedBase
    | .status => Config.statusBase

/-- The gap the station is measuring, if it contends: the medium idle, a frame waiting, and no start
silence (R22, R25). -/
def State.gap (s : State) : Option Nat :=
  if s.configured && s.link.mediumIdle && !s.link.startSilence then
    s.waitingClass.map (gapBits · s.own)
  else none

/-! ### Composition -/

/-- The station's role state code (2.1): of its own role unit, by its kind. -/
def State.roleCode (s : State) : Nat :=
  match s.ownKind with
  | some .generator => s.disp.role.code
  | some .incomer => s.chg.state.code
  | some .tie => s.tie.state.code
  | some .feeder => (s.admissionOf s.own).code
  | none => 0

/-- A generator is barred while its bar latch is set or it is in lockout (R112). A station without settings has no kind and is
not barred (log 9). -/
def State.barred (s : State) : Bool :=
  s.ownKind == some .generator && (s.fault.barLatch || s.fault.lockout)

/-- The epoch a STATUS carries: serial 0 and founder 0 while the station holds none (R36). -/
def State.reportedEpoch (s : State) : EpochId :=
  match s.step.epoch with
  | some e => e
  | none => ⟨0, 0⟩

/-- The body of a STATUS composed now (R18, R30, R59). -/
def State.composeStatus (c : StatusCause) (s : State) : StatusBody :=
  { cause := c
    step := s.step.state
    epoch := s.reportedEpoch
    digest := s.digest
    quorumHeld := s.pic.quorum
    breaker := s.brk.state
    lineLive := s.meas.line.live
    busLive := s.meas.bus.live
    role := s.roleCode
    realPower := s.ownPower
    perUnit := s.ownLoad
    lockout := s.fault.lockout
    busFault := s.fault.busFault
    blockAsserted := s.zone.blockAsserted
    intertripAsserted := s.zone.intertripAsserted
    barred := s.barred
    tokensHeld := s.tokensOf s.own
    queuedFor := s.queuedOf s.own
    admission := if s.ownKind == some .feeder then s.admissionOf s.own else .out }

/-- A body with the fields that are not tracked set aside (R31). -/
def trackedPart (b : StatusBody) : StatusBody :=
  { b with cause := .periodic, realPower := 0, perUnit := 0, digest := 0 }

/-- The part 1 of a summary composed now (R45); digest and per-unit load are not carried (13.4). -/
def State.composeOne (serial : Word16) (s : State) : SummaryOne :=
  { serial := serial
    epoch := s.reportedEpoch
    delivery := s.pic.delivery
    entries := s.pic.table.map fun e =>
      { presence := e.presence, lastSeq := e.lastSeq, stale := e.stale,
        content := e.content.map fun b => { b with digest := 0, perUnit := 0 } }
    tokens := PerSection.make fun x =>
      { holder := (s.sec x).holder, grant := (s.sec x).grant, queue := (s.sec x).queue } }

/-- The names of the islands of the picture, in order (R14). -/
def State.islandNames (s : State) : List BusSection :=
  BusSection.all.filter fun x => (s.sec x).island == some x

/-- The part 2 of a summary composed now (R45). -/
def State.composeTwo (serial : Word16) (s : State) : SummaryTwo :=
  { serial := serial
    epoch := s.reportedEpoch
    delivery := s.pic.delivery
    lastOrders := PerSection.make fun x => (s.sec x).lastOrder
    islands := s.islandNames.map fun i =>
      { name := i, runList := (s.island i).runList, queue := (s.island i).queue,
        admitted := (s.island i).admitted } }

/-- The body of an ordered frame as it leaves its queue: a summary part is composed now (R28). -/
def State.orderedBody (f : OrderedFrame) (s : State) : FrameBody :=
  match f with
  | .claim secs => .claim secs
  | .release secs c => .release secs c
  | .admitFeeder a => .admitFeeder a
  | .withdraw => .withdraw
  | .order o t => .order o t
  | .drop n => .drop n
  | .summaryOne serial => .summaryOne (s.composeOne serial)
  | .summaryTwo serial => .summaryTwo (s.composeTwo serial)

def UrgentFrame.body : UrgentFrame → FrameBody
  | .block on => .block on
  | .intertrip v => .intertrip v

/-- Begin to transmit a frame with this body: it takes the next frame sequence, the sequence and the
transmitted counter rise, and the medium is no longer idle (R24, R35). -/
def State.transmit (b : FrameBody) (s : State) : State :=
  s.onLink fun l => { l with
    sent := some ⟨⟨s.own, l.nextSeq⟩, b⟩
    nextSeq := l.nextSeq + 1
    transmitted := l.transmitted + 1
    mediumIdle := false }

/-- Take the medium and transmit the head of the highest non-empty queue (R22, R23). A STATUS is
composed now and becomes the last composed STATUS (R30); a summary's part 1 sets the guard (R44). -/
def State.transmitHead (s : State) : State :=
  match s.link.urgent with
  | u :: us => (s.transmit u.body).onLink fun l => { l with urgent := us }
  | [] =>
    match s.link.ordered with
    | f :: fs =>
      let s1 := (s.transmit (s.orderedBody f)).onLink fun l => { l with ordered := fs }
      match f with
      | .summaryOne _ => s1.onStep fun t => { t with guard := Config.summaryGuard }
      | _ => s1
    | [] =>
      match s.link.statusRequest with
      | some c =>
        let b := s.composeStatus c
        (s.transmit (.status b)).onLink fun l =>
          { l with statusRequest := none, lastComposed := some b }
      | none => s

/-- Request a CHANGE STATUS when a tracked field has changed since `before` and now differs from the
last composed STATUS (R31). -/
def State.changeStatus (before s : State) : State :=
  match s.link.lastComposed with
  | none => s
  | some b =>
    let now := trackedPart (s.composeStatus .periodic)
    if !(now == trackedPart (before.composeStatus .periodic)) && !(now == trackedPart b) then
      s.requestStatus .change
    else s

/-- A change of a tracked field that may be undone within its own event: it requests its CHANGE STATUS at once (R31,
log 6). -/
def State.tracking (f : State → State) (s : State) : State := State.changeStatus s (f s)

end Sys2Proof.Machine
end

