-- ==== Sys2Proof/Machine/Sync.lean ====
section
/-!
DEFINITION. The Sync Unit (chapter 9): sessions, windows, results, the offer and the biases. Closes
on sync are requested by the Token Unit, so an offer is handed back to the caller.
-/

namespace Sys2Proof.Machine

/-- Whether a session is open: OPEN or OFFERED (9.1). -/
def State.sessionOpen (s : State) : Bool := !(s.sync.session == .none)

/-- End the session with a cause: timer stopped, window emptied, biases 0; no effect when none is
open (R134). -/
def State.endSession (c : SessionEnd) (s : State) : State :=
  if s.sessionOpen then
    s.onSync fun y => { y with
      session := .none, timer := none, window := .empty, speedBias := 0, voltageBias := 0,
      endCause := some c }
  else s

/-- Open a session (R134): one already open ends with REPLACED. -/
def State.openSession (s : State) : State :=
  (s.endSession .replaced).onSync fun y => { y with
    session := .opened, number := y.number + 1, sessions := y.sessions + 1, window := .empty,
    timer := some (s.station.syncTimeout * 1000), speedBias := 0, voltageBias := 0 }

/-- An angle wrapped into −18000 to +17999 centidegrees (R135). -/
def wrapAngle (a : Int) : Int := (a + 18000) % 36000 - 18000

/-- The three quantities a set gives the window (R135). -/
def slipSample (m : MeasurementSet) : Int := (m.lineFreq : Int) - m.busFreq

def angleSample (m : MeasurementSet) : Int := wrapAngle ((m.lineAngles.p1 : Int) - m.busAngle)

def voltageSample (st : StationSettings) (m : MeasurementSet) : Int :=
  ((m.lineVolts.p1 * 1000 / st.lineNominal : Nat) : Int) - ((m.busVolts * 1000 / st.busNominal : Nat) : Int)

/-- The window with one more set taken (R135). -/
def SyncWindow.take (st : StationSettings) (w : SyncWindow) (m : MeasurementSet) : SyncWindow :=
  { count := w.count + 1
    first := if w.count = 0 then m.seq else w.first
    slipSum := w.slipSum + slipSample m
    voltSum := w.voltSum + voltageSample st m
    angle := angleSample m
    latest := m.seq }

/-- The figures of a complete window (R136): slip and voltage difference are means rounded towards
zero; the angle is projected over one close limit. -/
def SyncWindow.figures (st : StationSettings) (w : SyncWindow) : SyncFigures :=
  let slip := Int.tdiv w.slipSum st.window
  { slip := slip
    projected := wrapAngle (w.angle + Int.tdiv (slip * 36 * st.closeLimit) 1000)
    voltage := Int.tdiv w.voltSum st.window }

/-- The verdict of a complete window (R136). -/
def SyncFigures.verdict (st : StationSettings) (f : SyncFigures) : Verdict :=
  if f.slip.natAbs ≤ st.slipLimit && f.projected.natAbs ≤ st.angleLimit &&
      f.voltage.natAbs ≤ st.voltageLimit
  then .inWindow else .outOfWindow

/-- Publish the window's result and empty the window (R136). -/
def State.publish (figures : Option SyncFigures) (s : State) : State :=
  s.onSync fun y => { y with
    resultNumber := y.resultNumber + 1
    last := some
      { number := y.resultNumber + 1, session := y.number, first := y.window.first,
        last := y.window.latest, figures := figures,
        verdict := match figures with
          | some f => f.verdict s.station
          | none => .invalid }
    window := .empty }

/-- Break the window (R135): a window that holds sets publishes an INVALID result. -/
def State.breakWindow (s : State) : State :=
  if s.sessionOpen && !(s.sync.window.count == 0) then s.publish none else s

/-- Recompute the biases from a complete window at a generator (R139). -/
def State.syncBiases (f : SyncFigures) (s : State) : State :=
  if s.ownKind == some .generator then
    s.onSync fun y => { y with
      speedBias := clampInt (-1000) 1000 (-(Int.tdiv (f.slip * s.station.speedGain) 100))
      voltageBias := clampInt (-1000) 1000 (-(Int.tdiv (f.voltage * s.station.voltageGain) 100)) }
  else s

/-- Whether the result just published offers a close on sync (R137). -/
def State.offers (f : SyncFigures) (s : State) : Bool :=
  s.sync.session == .opened && f.verdict s.station == .inWindow

/-- Take a set into the window (R135), publishing a complete one (R136); an offer is marked in the
session state (R137) and told by the second component. -/
def State.syncTake (m : MeasurementSet) (s : State) : State × Bool :=
  if s.sessionOpen then
    let s1 := s.onSync fun y => { y with window := y.window.take s.station m }
    if s1.sync.window.count = s.station.window then
      let f := s1.sync.window.figures s.station
      let s2 := s1.publish (some f)
      if s2.offers f then
        ((s2.onSync fun y => { y with session := .offered, offers := y.offers + 1 }).syncBiases f, true)
      else (s2.syncBiases f, false)
    else (s1, false)
  else (s, false)

/-- A change of either live flag: the window is broken, then the session ends (R134, R135). -/
def State.syncFlagChange (s : State) : State := s.breakWindow.endSession .liveChange

end Sys2Proof.Machine
end

