-- ==== Sys2Proof/Machine/Breaker.lean ====
section
/-!
DEFINITION. The Breaker Controller's shared operations (chapter 4): taking a trip, judging and
beginning a close, withdrawing one. Position events and timer expiries, which also act on the Zone
and Fault Units, are in Machine/Cell.lean.
-/

namespace Sys2Proof.Machine

/-- Add a trip source to the set of them (R66), which the breaker record sends in the order in which they were taken (log 9). -/
def addSource (src : TripSource) (xs : List TripSource) : List TripSource :=
  if xs.contains src then xs else xs ++ [src]

/-- A trip begins an opening: the trip output driven, the open-limit timer started, OPENING (R66). -/
def State.beginOpening (src : TripSource) (s : State) : State :=
  s.onBrk fun b => { b with
    state := .opening, tripOut := true, openTimer := some s.station.openLimit,
    disagreementTimer := none, sources := addSource src b.sources }

/-- Take a trip request, by the breaker state (R66). -/
def State.trip (src : TripSource) (s : State) : State :=
  match s.brk.state with
  | .opened => s
  | .closing =>
    ((s.onBrk fun b => { b with closeOut := false, closeTimer := none, mark := false }).beginOpening src).tell
      (.closeAborted src)
  | .closed => s.beginOpening src
  | .opening => s.onBrk fun b => { b with sources := addSource src b.sources }
  | .failed =>
    s.onBrk fun b => { b with
      tripOut := true, openTimer := some s.station.openLimit, sources := addSource src b.sources }

/-- Withdraw a close: the close-after-abort mark is set in CLOSING and in no other state (R67). -/
def State.withdrawClose (s : State) : State :=
  if s.brk.state == .closing then s.onBrk fun b => { b with mark := true } else s

/-- The incomers of the island of a section whose held breaker state is CLOSED or CLOSING (R63). -/
def State.incomersOn (s : State) (x : BusSection) : List Nat :=
  s.stationsWhere fun c => c.kind == .incomer && s.sameIsland x c.sec &&
    ((s.entry c.number).holds .closed || (s.entry c.number).holds .closing)

/-- The two-incomer test (R63): whether the close would leave an island with two incomers reported
CLOSED or CLOSING. -/
def State.twoIncomers (s : State) : Bool :=
  match (s.entry s.own).fixed with
  | some c =>
    match c.kind with
    | .incomer => (s.incomersOn c.sec).any fun n => !(n == s.own)
    | .tie =>
      match c.sec.next with
      | some y =>
        if s.sameIsland c.sec y then 2 ≤ (s.incomersOn c.sec).length
        else 2 ≤ (s.incomersOn c.sec).length + (s.incomersOn y).length
      | none => false
    | _ => false
  | none => false

/-- Whether the station holds what its kind needs to close: tokens, or a place on the Admitted List
(R62 condition 7). -/
def State.mayCloseOnto (s : State) : Bool :=
  if s.ownKind == some .feeder then s.admissionOf s.own == .admitted else s.holdsAll s.own

/-- The first condition of the close permissive that fails (R62). -/
def State.closeRefusal (s : State) : Option CloseRefusal :=
  if !(s.brk.state == .opened) || s.brk.watch then some .notOpen
  else if !(s.position == .opened) then some .position
  else if !s.inStep then some .notInStep
  else if !s.pic.quorum then some .noQuorum
  else if s.fault.lockout then some .lockout
  else if s.acceptedIntertrip then some .intertrip
  else if !s.mayCloseOnto then
    if s.ownKind == some .feeder then some .notAdmitted else some .noToken
  else if s.twoIncomers then some .twoIncomers
  else none

/-- Begin a close (R64); the Sync Unit's session ends with CLOSE_BEGUN (R134). No disagreement is timed during an
operation (R71). -/
def State.beginClose (s : State) : State :=
  (s.onBrk fun b => { b with
    state := .closing, closeOut := true, closeTimer := some s.station.closeLimit, disagreementTimer := none,
    sources := [], mark := false }).endSession .closeBegun

/-- Record a refusal: the last refusal reason, and for the operate record that a close was refused
during its operation (R62, R180). -/
def State.recordRefusal (r : CloseRefusal) (s : State) : State :=
  (s.onBrk fun b => { b with lastRefusal := some r }).onPort fun p =>
    { p with refusedDuring := p.refusedDuring || p.state == .inProgress }

/-- Take a close request: it begins the close or is refused with a reason (R62, R64). -/
def State.requestClose (s : State) : State × Option CloseRefusal :=
  match s.closeRefusal with
  | some r => (s.recordRefusal r, some r)
  | none => (s.beginClose, none)

end Sys2Proof.Machine
end

