-- ==== Sys2Proof/Machine/FaultUnit.lean ====
section
/-!
DEFINITION. The Fault Unit (chapter 7): the mask and severities in use, a raise, the barred value.
-/

namespace Sys2Proof.Machine

/-! ### Settings in use (R104) -/

/-- The kinds whose severity may be set (7.1). -/
def FaultKindTable.settable : FaultKind → Bool
  | .elementOperated => true
  | .breakerNoClose => true
  | .intertrip => true
  | .setGap => true
  | .setLoss => true
  | .startFailed => true
  | _ => false

/-- The severity the table of 7.1 gives a kind. -/
def FaultKindTable.severity : FaultKind → Severity
  | .busFault => .lockout
  | .breakerNoOpen => .lockout
  | .breakerDisagree => .lockout
  | .breakerNoClose => .trip
  | _ => .advisory

/-- The kinds that may be masked (7.1). -/
def FaultKindTable.maskable : FaultKind → Bool
  | .busFault => false
  | .breakerNoOpen => false
  | .breakerDisagree => false
  | _ => true

/-- The severity of a code; a code that names none is no value (R104). -/
def Severity.ofCode : Nat → Option Severity
  | 0 => some .advisory
  | 1 => some .trip
  | 2 => some .lockout
  | _ => none

/-- The severity in use (R104). -/
def State.severityOf (s : State) (k : FaultKind) : Severity :=
  match s.settings.loaded with
  | some l =>
    if FaultKindTable.settable k then
      (Severity.ofCode (l.station.severityCode.get k)).getD (FaultKindTable.severity k)
    else FaultKindTable.severity k
  | none => FaultKindTable.severity k

/-- Whether a kind is masked (R104). -/
def State.masked (s : State) (k : FaultKind) : Bool :=
  match s.settings.loaded with
  | some l => FaultKindTable.maskable k && l.station.mask.get k
  | none => false

/-- Whether a pending kind has severity LOCKOUT (R110). -/
def State.lockoutStands (s : State) : Bool :=
  FaultKind.all.any fun k => s.fault.pending.get k && s.severityOf k == .lockout

/-! ### Hand-offs -/

/-- Hand on a change of the barred value since `before` (R112). -/
def State.tellBarred (before : Bool) (s : State) : State :=
  if s.barred == before then s else s.tell (.barredChanged s.barred)

/-- A lockout onset: lockout becomes yes, the close-after-abort mark is set in CLOSING, and the onset is
handed on (R67, R110). -/
def State.lockoutOnset (s : State) : State :=
  ((s.onFault fun f => { f with lockout := true }).withdrawClose).tell .lockoutOnset

/-- The severity of a raise acts (R108 to R110). -/
def State.severityActs (k : FaultKind) (s : State) : State :=
  match s.severityOf k with
  | .advisory => s
  | .trip => s.trip .fault
  | .lockout => if s.fault.lockout then s else s.lockoutOnset

/-! ### A raise (R106) -/

/-- The capture a raise would write now (R107). -/
def State.captureNow (k : FaultKind) (ctx : FaultContext) (s : State) : Capture :=
  { kind := k, setSeq := s.meas.lastSeq, roundCount := s.link.roundCount, delivery := s.pic.delivery,
    context := ctx }

/-- Steps 1 and 2 of a new raise, and the count of a repeat raise (R106). -/
def State.record (k : FaultKind) (ctx : FaultContext) (s : State) : State :=
  if s.fault.pending.get k then
    s.onFault fun f => { f with count := f.count.set k (satSucc 255 (f.count.get k)) }
  else
    s.onFault fun f => { f with
      pending := f.pending.set k true
      count := f.count.set k 1
      capture := if !s.masked k && f.capture.isNone then some (s.captureNow k ctx) else f.capture }

/-- The sections a bus fault of this station names (R88): its own, or both of a tie. -/
def State.busFaultSections (s : State) : SectionSet := s.ownSections

/-- Step 5 of R106: the sections and the slot of a BUS_FAULT join their sets (R111). -/
def State.joinBusFault (slot : Nat) (s : State) : State :=
  s.onFault fun f => { f with
    busFault := f.busFault.union s.busFaultSections
    busSlots := updateAt (fun _ => true) (slot - 1) f.busSlots }

/-- Steps 3 to 5 of R106, and the bar latch of R112, with the change of barred handed on. -/
def State.raiseActs (k : FaultKind) (ctx : FaultContext) (s : State) : State :=
  let s1 := if s.masked k then s else s.attend
  let s2 := s1.severityActs k
  match k, ctx with
  | .busFault, .slot n => s2.joinBusFault n
  | .startFailed, _ => s2.onFault fun f => { f with barLatch := true }
  | _, _ => s2

/-- A raise of a kind with its context, taken whole (R106). -/
def State.raise (k : FaultKind) (ctx : FaultContext) (s : State) : State :=
  ((s.record k ctx).raiseActs k ctx).tellBarred s.barred

/-- A copy of the latest set as context, or none when no set has arrived (R107): R56 says so for SET_LOSS, and log 15 takes it
for the other kinds. -/
def State.latestContext (s : State) : FaultContext :=
  match s.meas.latest with
  | some m => .set m
  | none => .none

end Sys2Proof.Machine
end

