-- ==== Sys2Proof/Machine/Token.lean ====
section
/-!
DEFINITION. The Token Unit (chapter 8): the claim record of the station's own claim, the tokens and claim
queues of the picture, and the grant check.
-/

namespace Sys2Proof.Machine

/-! ### The RELEASE of the claim record (R124 to R126) -/

/-- Place the record's RELEASE in the ORDERED queue; refused, it is requested again at the round end. -/
def State.sendRelease (s : State) : State :=
  match s.token.cause with
  | some c =>
    let f := OrderedFrame.release s.ownSections c
    (s.requestOrdered f).onToken fun t => { t with stage := if s.acceptsOrdered f then .sent else .atRound }
  | none => s

/-- Request a RELEASE with a cause: RELEASING, the hold timer stopped, an open session ended (R124, R130). -/
def State.requestRelease (c : ReleaseCause) (s : State) : State :=
  ((s.onToken fun t => { t with
    state := .releasing, phase := none, cause := some c, holdTimer := none }).endSession .ended).sendRelease

/-- The record returns to IDLE with the want cleared, and its block is told (R126). The release cause keeps the cause told
until the next want, also where no RELEASE is sent (log 39). -/
def State.claimToIdle (c : Option ReleaseCause) (s : State) : State :=
  (s.onToken fun t => { t with
    state := .idle, want := none, phase := none, cause := c, closedMark := false, closedMarked := false,
    begun := false, stage := .none, holdTimer := none }).tell (.claimIdle c s.token.closedMark s.token.closedMarked)

/-- The record returns to WANTED, for a claim that has begun no close. -/
def State.claimToWanted (s : State) : State :=
  s.onToken fun t => { t with
    state := .wanted, phase := none, stage := .none, holdTimer := none, closedMark := false, closedMarked := false,
    begun := false }

/-! ### Holding (R124) -/

/-- Request the close the hold calls for, and act on the outcome (R124). -/
def State.closeForClaim (s : State) : State :=
  match s.requestClose with
  | (s1, none) => s1.onToken fun t => { t with state := .closing, phase := none, holdTimer := none, begun := true }
  | (s1, some r) =>
    match r with
    | .intertrip => s1.onToken fun t => { t with phase := some .blocked }
    | .notOpen => s1.requestRelease .refused
    | .position => s1.requestRelease .refused
    | .twoIncomers => s1.requestRelease .refused
    | .noQuorum => s1.requestRelease .withdrawn
    | .lockout => s1.requestRelease .withdrawn
    | .notInStep => s1
    | .noToken => s1
    | .notAdmitted => s1

/-- What a measurement of the two sides finds (R124): a dead close, a session, or nothing to close. -/
def State.sidesFound (s : State) : Option HoldPhase :=
  match s.ownKind, s.meas.line.live, s.meas.bus.live with
  | some .tie, false, false => none
  | some .tie, true, true => some .sync
  | some .tie, _, _ => some .deadClose
  | _, false, _ => none
  | _, true, false => some .deadClose
  | _, true, true => some .sync

/-- Measure the station's own sides (R124). During a set loss the measurement waits. -/
def State.measureSides (s : State) : State :=
  let s0 := (s.endSession .ended).onToken fun t => { t with phase := some .measuring }
  if s.meas.setLoss then s0
  else
    match s.sidesFound with
    | some .deadClose => (s0.onToken fun t => { t with phase := some .deadClose }).closeForClaim
    | some .sync => (s0.onToken fun t => { t with phase := some .sync }).openSession
    | _ => s0.requestRelease .refused

/-- The record enters HOLDING (R124). -/
def State.enterHolding (s : State) : State :=
  (s.onToken fun t => { t with
    state := .holding, phase := some .measuring, holdTimer := some (s.campus.holdLimit * 1000) }).measureSides

/-- Whether the record holds in a phase. -/
def State.holdsIn (s : State) (p : HoldPhase) : Bool := s.token.state == .holding && s.token.phase == some p

/-- A change of either live flag, handed on while the phase is DEAD_CLOSE, SYNC or BLOCKED (R124). -/
def State.tokenFlagChange (s : State) : State :=
  if s.holdsIn .deadClose || s.holdsIn .sync || s.holdsIn .blocked then s.measureSides else s

/-- The measurement that waited for the end of a set loss (R124). -/
def State.tokenLossEnd (s : State) : State := if s.holdsIn .measuring then s.measureSides else s

/-- A close on sync is offered (R124, R137). -/
def State.tokenOffer (s : State) : State := if s.holdsIn .sync then s.closeForClaim else s

/-- The Intertrip Set has changed to hold no accepted entry (R100, R124). -/
def State.tokenAcceptedNone (s : State) : State := if s.holdsIn .blocked then s.measureSides else s

/-! ### Wanting and claiming (R117, R119) -/

/-- Why a want is not taken. -/
inductive WantAnswer where
  | taken | claimInProgress | notOpen
  deriving DecidableEq, Repr

/-- Whether an island's sections include an incomer whose held breaker state is CLOSED or CLOSING. -/
def State.incomerStands (s : State) (x : BusSection) : Bool := !(s.incomersOn x).isEmpty

/-- Test 1 of R119. -/
def State.wrongSections (s : State) (n : Nat) (secs : SectionSet) : Bool :=
  !(secs == s.connects n) || SectionSet.isEmpty secs || s.kindOf n == some .feeder ||
    BusSection.all.any fun x => secs.get x && !(s.sec x).configured

/-- Test 4 of R119. -/
def State.tieBetweenIncomers (s : State) (n : Nat) : Bool :=
  s.kindOf n == some .tie && BusSection.all.all fun x => !(s.connects n).get x || s.incomerStands x

/-- The first test of R119 that discards a claim. -/
def State.claimTest (s : State) (n : Nat) (secs : SectionSet) : Option Nat :=
  if s.wrongSections n secs then some 1
  else if BusSection.all.any fun x => secs.get x && (s.sec x).faulted then some 2
  else if s.kindOf n == some .incomer && BusSection.all.any fun x => secs.get x && s.islandShared x then some 3
  else if s.tieBetweenIncomers n then some 4
  else if BusSection.all.any fun x => secs.get x && ((s.sec x).holder == n || (s.sec x).queues n) then some 5
  else none

/-- Whether the conditions of R117 other than its last hold. -/
def State.mayClaim (s : State) : Bool :=
  s.token.state == .wanted && s.inStep && s.pic.quorum && !s.fault.lockout && !s.token.retryRound &&
    !s.token.awaitOwnStep && BusSection.all.all fun x =>
      !s.ownSections.get x || (!(s.sec x).faulted && !((s.sec x).holder == s.own) && !(s.sec x).queues s.own)

/-- Judge in WANTED whether to request a CLAIM (R117). A claim accepted forgets a close begun before it that still runs, whose end
counts for nothing from then on (log 32). -/
def State.judgeClaim (s : State) : State :=
  if s.mayClaim then
    match s.claimTest s.own s.ownSections with
    | some k => s.tell (.claimTest k)
    | none =>
      let f := OrderedFrame.claim s.ownSections
      if s.acceptsOrdered f then
        (s.requestOrdered f).onToken fun t => { t with
          state := .claiming, begun := false, claims := t.claims + 1 }
      else s.requestOrdered f
  else s

/-- Post a want (R117). -/
def State.postWant (w : Want) (s : State) : State × WantAnswer :=
  if !(s.token.state == .idle) then (s, .claimInProgress)
  else if !(s.brk.state == .opened) || s.brk.watch then (s, .notOpen)
  else
    ((s.onToken fun t => { t with state := .wanted, want := some w, cause := none, begun := false }).judgeClaim, .taken)

/-- The close the claim record has begun has ended and counts for nothing asked from now on: a record that outlives its
close, until its RELEASE or out of step, has begun none for a later want (R173). -/
def State.forgetClose (s : State) : State := s.onToken fun t => { t with begun := false }

/-! ### Withdrawal (R130) -/

/-- The recorded want ends by its block's withdrawal (R130). -/
def State.dropWant (s : State) : State :=
  match s.token.state with
  | .idle => s
  | .wanted => (s.onToken fun t => { t with state := .idle, want := none }).tell .claimWithdrawn
  | .claiming => s.onToken fun t => { t with want := none }
  | .queued => (s.onToken fun t => { t with want := none }).requestRelease .withdrawn
  | .holding => (s.onToken fun t => { t with want := none }).requestRelease .withdrawn
  | .closing => (s.onToken fun t => { t with want := none }).withdrawClose
  | .releasing => s.onToken fun t => { t with want := none }
  | .suspended => s.onToken fun t => { t with want := none }

/-- A block withdraws its want; a withdrawal by another block leaves it (R130). -/
def State.withdrawWant (w : Want) (s : State) : State := if s.token.want == some w then s.dropWant else s

/-- A lockout onset (R130). -/
def State.tokenLockout (s : State) : State :=
  match s.token.state with
  | .idle => s
  | .wanted => s.claimToIdle (some .withdrawn)
  | .claiming => s.onToken fun t => { t with want := none }
  | .queued => s.requestRelease .withdrawn
  | .holding => s.requestRelease .withdrawn
  | .closing => s.withdrawClose
  | .releasing => s.onToken fun t => { t with want := none }
  | .suspended => s.onToken fun t => { t with want := none }

/-- Quorum lost, judged at the end of each delivery's picture work (R130). -/
def State.tokenQuorum (s : State) : State :=
  if !s.pic.quorum && (s.token.state == .queued || s.token.state == .holding) then s.requestRelease .withdrawn else s

/-- The station leaves IN_STEP (R130). -/
def State.suspendClaim (s : State) : State :=
  if s.token.state == .idle then s
  else
    let s1 := if s.token.state == .closing then s.withdrawClose else s
    (s1.onToken fun t => { t with state := .suspended, phase := none, stage := .none, holdTimer := none }).endSession
      .ended

/-- Whether the station's own picture shows it as holder or queued. -/
def State.hasPlace (s : State) : Bool :=
  BusSection.all.any fun x => (s.sec x).holder == s.own || (s.sec x).queues s.own

/-- The station becomes IN_STEP again: the record, in whatever state it stands, is judged against the own picture (R130).
A record that returns to WANTED while its close still runs keeps that close as its own (log 32); one that returns to IDLE tells
its block WITHDRAWN (log 25). -/
def State.resumeClaim (s : State) : State :=
  if s.hasPlace then
    s.onToken fun t => { t with
      state := .releasing, phase := none, holdTimer := none, stage := .atOwnStep
      cause := some (if t.closedMark then .closed else .withdrawn) }
  else if s.token.want.isSome then
    s.claimToWanted.onToken fun t => { t with
      awaitOwnStep := true, begun := s.token.begun && s.brk.state == .closing }
  else if s.token.state == .idle then s
  else s.claimToIdle (some .withdrawn)

/-! ### The end of the close (R126) -/

/-- The close of the claim has ended, with the cause it gives: a RELEASE while the station still holds every section, IDLE
otherwise. A record that has resumed from SUSPENDED while its close still ran takes the cause in RELEASING, and goes to IDLE
from WANTED (log 32). -/
def State.closeEnded (c : ReleaseCause) (s : State) : State :=
  match s.token.state with
  | .closing => if s.holdsAll s.own then s.requestRelease c else s.claimToIdle (some c)
  | .releasing => if s.token.begun then s.onToken fun t => { t with cause := some c } else s
  | .wanted => if s.token.begun then s.claimToIdle (some c) else s
  | _ => s

/-- Whether a close that ends is the one this claim began. In CLAIMING, QUEUED, HOLDING and IDLE none is: a close that still runs
there outlived the record that began it, and its end is ignored (log 32). -/
def State.closeIsClaims (s : State) : Bool :=
  s.token.state == .closing || s.token.state == .suspended ||
    ((s.token.state == .releasing || s.token.state == .wanted) && s.token.begun)

/-- "Closed" is handed on, with the mark noted (R126, R130). -/
def State.tokenClosed (mark : Bool) (s : State) : State :=
  if s.closeIsClaims then
    (s.onToken fun t => { t with closedMark := true, closedMarked := mark }).closeEnded .closed
  else s

/-- The close has failed or was aborted (R126). -/
def State.tokenCloseFailed (s : State) : State := s.closeEnded .failed

/-! ### Tokens, queues and the grant check (R120 to R122) -/

/-- Whether a station counts as CLOSING: its held content shows CLOSING and the report has not lapsed (R121). -/
def State.countsClosing (s : State) (n : Nat) : Bool :=
  let e := s.entry n
  e.holds .closing && !(e.presence == .unknown) && !(e.lapse == .lapsed)

/-- Whether a station able to close onto a section counts as CLOSING (R121). -/
def State.closingOnto (s : State) (x : BusSection) : Bool := (s.closersOnto x).any s.countsClosing

/-- A queue without a station's entries. -/
def unqueue (n : Nat) (q : List QueueEntry) : List QueueEntry := q.filter fun e => !(e.station == n)

/-- Make a station holder of sections under the current delivery number (R121, R122). -/
def State.grant (n : Nat) (secs : SectionSet) (s : State) : State :=
  let s1 := s.onPic fun p => { p with
    secs := PerSection.make fun x =>
      if secs.get x then
        { p.secs.get x with holder := n, grant := p.delivery, queue := unqueue n (p.secs.get x).queue }
      else p.secs.get x }
  if n == s.own then s1.onToken fun t => { t with grants := t.grants + 1 } else s1

/-- Whether a section is ready for a grant: configured, not faulted, its token free, nobody closing onto it. -/
def State.grantable (s : State) (x : BusSection) : Bool :=
  (s.sec x).configured && !(s.sec x).faulted && (s.sec x).holder == 0 && !s.closingOnto x

/-- Whether a tie at the head of one queue may be granted its other section too (R122). -/
def State.tieReady (s : State) (h : Nat) (x : BusSection) : Bool :=
  BusSection.all.all fun y =>
    !((s.connects h).get y) || y == x || (s.grantable y && ((s.sec y).queue.head?.map (·.station)) == some h)

/-- The grant check of a section (R121, R122). -/
def State.grantCheck (s : State) (x : BusSection) : State :=
  if s.grantable x then
    match (s.sec x).queue with
    | [] => s
    | h :: _ =>
      if s.kindOf h.station == some .tie then
        if s.tieReady h.station x then s.grant h.station (s.connects h.station) else s
      else s.grant h.station (SectionSet.one x)
  else s

/-- The grant checks of several sections, in the order A to D (R120). -/
def State.grantChecks (secs : SectionSet) (s : State) : State := (SectionSet.members secs).foldl State.grantCheck s

/-- Free the tokens a station holds among sections; each keeps its grant delivery number (R127). -/
def State.freeTokens (n : Nat) (secs : SectionSet) (s : State) : State :=
  s.onPic fun p => { p with
    secs := PerSection.make fun x =>
      if secs.get x && (p.secs.get x).holder == n then { p.secs.get x with holder := 0 } else p.secs.get x }

/-- Remove a station's entries from every queue. -/
def State.leaveQueues (n : Nat) (s : State) : State :=
  s.onPic fun p => { p with
    secs := PerSection.make fun x => { p.secs.get x with queue := unqueue n (p.secs.get x).queue } }

/-- Free a station's tokens and remove its entries (R128). -/
def State.freeStation (n : Nat) (s : State) : State := (s.freeTokens n (s.tokensOf n)).leaveQueues n

/-- The sections a station holds or waits for. -/
def State.placesOf (s : State) (n : Nat) : SectionSet := SectionSet.union (s.tokensOf n) (s.queuedOf n)

/-- Append a claim to the queue of each section it names (R120). -/
def State.appendClaim (n : Nat) (secs : SectionSet) (s : State) : State :=
  s.onPic fun p => { p with
    secs := PerSection.make fun x =>
      if secs.get x then { p.secs.get x with queue := (p.secs.get x).queue ++ [⟨n, p.delivery⟩] }
      else p.secs.get x }

/-- Whether a RELEASE names exactly the sections its sender's breaker connects (R127). A feeder's own section is one (log 48). -/
def State.releaseNames (s : State) (n : Nat) (secs : SectionSet) : Bool := secs == s.connects n

/-- Apply a RELEASE to the tokens, queues and last-release records (R127). -/
def State.applyRelease (n : Nat) (secs : SectionSet) (c : ReleaseCause) (s : State) : State :=
  if s.releaseNames n secs then
    let holder := BusSection.all.any fun x => secs.get x && (s.sec x).holder == n
    let s1 := if holder then s.freeTokens n secs else s.leaveQueues n
    s1.onPic fun p => { p with
      secs := PerSection.make fun x =>
        if secs.get x then { p.secs.get x with lastRelease := some ⟨n, c, p.delivery⟩ } else p.secs.get x }
  else s

/-! ### Stale CLOSING reports (R123) -/

/-- Whether a lapse timer runs. -/
def Lapse.isRunning : Lapse → Bool
  | .running _ => true
  | _ => false

/-- Start the lapse timer of an entry that has become DROPPED or MISMATCHED while its held content shows
CLOSING; a timer that runs is left (log 31), and a report already lapsed gets a new one. -/
def State.startLapse (n : Nat) (s : State) : State :=
  s.onEntry n fun e =>
    if e.holds .closing && !e.lapse.isRunning then { e with lapse := .running (s.campus.holdLimit * 1000) } else e

/-- The lapse states of an adopted table (R116): DROPPED or MISMATCHED entries showing CLOSING are lapsed. -/
def StationEntry.adoptedLapse (e : StationEntry) : StationEntry :=
  { e with lapse :=
      if (e.presence == .dropped || e.presence == .mismatched) && e.holds .closing then .lapsed else .none }

/-! ### Faulting (R129) -/

/-- The ties queued for a section. -/
def State.queuedTies (s : State) (x : BusSection) : List Nat :=
  ((s.sec x).queue.map (·.station)).filter fun n => s.kindOf n == some .tie

/-- Empty the queue of a faulted section, with each tie's entry elsewhere; the holder loses its tokens unless
it counts as CLOSING (R129). -/
def State.faultSection (s : State) (x : BusSection) : State :=
  let s1 := (s.queuedTies x).foldl (fun s n => s.leaveQueues n) s
  let s2 := s1.onSec x fun r => { r with queue := [] }
  let h := (s2.sec x).holder
  if h = 0 || s2.countsClosing h then s2 else s2.freeTokens h (s2.connects h)

/-- The sections whose tables differ between two states: where a queue or token has lost something. -/
def State.touchedSections (before s : State) : SectionSet :=
  PerSection.make fun x => !((before.sec x).holder == (s.sec x).holder) || !((before.sec x).queue == (s.sec x).queue)

/-! ### The own record after the tables have changed -/

/-- In QUEUED, the grant is seen (R118). -/
def State.seeGrant (s : State) : State :=
  if s.token.state == .queued && s.holdsAll s.own then s.enterHolding else s

/-- The record after sections have become faulted (R126, R129). -/
def State.judgePlace (s : State) : State :=
  let queued := BusSection.all.any fun x => (s.sec x).queues s.own
  let faulted := BusSection.all.any fun x => s.ownSections.get x && (s.sec x).faulted
  match s.token.state with
  | .queued => if queued || s.holdsAll s.own then s else s.claimToWanted
  | .holding => if s.holdsAll s.own then s else (s.endSession .ended).claimToWanted
  | .closing => if faulted then s.withdrawClose else s
  | _ => s

/-- What has become of the station's own CLAIM at its delivery (R118). -/
inductive ClaimOutcome where
  | notApplied
  | discarded (test : Nat)
  | appended
  deriving DecidableEq, Repr

/-- The station's own CLAIM has been delivered (R118, R130). A record with no want that returns to IDLE here without a RELEASE
tells its block WITHDRAWN (log 25). -/
def State.ownClaim (o : ClaimOutcome) (s : State) : State :=
  if s.token.state == .claiming then
    if s.token.want.isSome then
      match o with
      | .appended => if s.holdsAll s.own then s.enterHolding else s.onToken fun t => { t with state := .queued }
      | .discarded k => s.claimToWanted.tell (.claimTest k)
      | .notApplied => s.claimToWanted.onToken fun t => { t with awaitOwnStep := true }
    else
      match o with
      | .appended => s.requestRelease .withdrawn
      | _ => s.claimToIdle (some .withdrawn)
  else s

/-- The station's own RELEASE has been delivered (R125, R126). -/
def State.ownRelease (applied : Bool) (s : State) : State :=
  if s.token.state == .releasing && s.token.stage == .sent then
    if applied then
      if s.token.cause == some .expired && s.token.want.isSome then
        s.claimToWanted.onToken fun t => { t with retryRound := true }
      else s.claimToIdle s.token.cause
    else s.onToken fun t => { t with stage := .atOwnStep }
  else s

/-- Request the RELEASE that waited for the own entry (R126, R130). -/
def State.releaseAtOwnStep (s : State) : State :=
  if s.token.state == .releasing && s.token.stage == .atOwnStep && s.inStep && s.ownReports then s.sendRelease else s

/-- Request again the RELEASE a full queue refused (R124). -/
def State.releaseAtRound (s : State) : State :=
  if s.token.state == .releasing && s.token.stage == .atRound then s.sendRelease else s

/-- Await own step is cleared once the own entry reports IN_STEP in the station's epoch (R117). -/
def State.clearAwait (s : State) : State :=
  if s.ownReports then s.onToken fun t => { t with awaitOwnStep := false } else s

/-- The hold timer expires in HOLDING (R125). -/
def State.holdExpired (s : State) : State :=
  ((s.requestRelease .expired).onToken fun t => { t with expiries := t.expiries + 1 }).raise .tokenExpired .none

/-- The Sync Unit ended the session at its timeout (R125, R138). -/
def State.tokenSyncTimeout (s : State) : State :=
  if s.token.state == .holding then s.requestRelease .expired else s

end Sys2Proof.Machine
end

