-- ==== Sys2Proof/Machine/Changeover.lean ====
section
/-!
DEFINITION. The Changeover Unit of an incomer (chapter 12): owed orders, the utility monitor and the
changeover machine. At a station of another kind no event acts.
-/

namespace Sys2Proof.Machine

/-- Whether the station is an incomer. -/
def State.isIncomer (s : State) : Bool := s.ownKind == some .incomer

/-- Whether the changeover state is the one given, at an incomer. -/
def State.changeoverIn (s : State) (c : ChangeoverState) : Bool := s.isIncomer && s.chg.state == c

/-! ### Owed orders (R164) -/

/-- The owed orders with the last entry that satisfies `p` replaced, or the new one appended. -/
def placeOwed (p : OwedOrder → Bool) (o : OwedOrder) (xs : List OwedOrder) : List OwedOrder :=
  match replaceFirst p o xs.reverse with
  | some ys => ys.reverse
  | none => xs ++ [o]

/-- Request the head of the owed orders when none is in flight (R164). -/
def State.requestOwed (s : State) : State :=
  match s.chg.owed with
  | [] => s
  | o :: rest =>
    if s.isIncomer && !s.chg.owed.any (·.inFlight) && s.inStep && s.ownReports then
      let f := OrderedFrame.order o.order o.tieStation
      if s.acceptsOrdered f then
        (s.requestOrdered f).onChg fun c => { c with owed := { o with inFlight := true } :: rest }
      else s.requestOrdered f
    else s

/-- Owe a section order: it replaces the newest section order not in flight (R164). -/
def State.owe (o : OrderKind) (s : State) : State :=
  (s.onChg fun c => { c with
    owed := placeOwed (fun x => x.order.isSectionOrder && !x.inFlight) ⟨o, none, false⟩ c.owed }).requestOwed

/-- Owe a tie order: it replaces one for the same tie not in flight, of two the newest (R164, log 44). -/
def State.oweTie (o : OrderKind) (tie : Nat) (s : State) : State :=
  (s.onChg fun c => { c with
    owed := placeOwed (fun x => x.tieStation == some tie && !x.order.isSectionOrder && !x.inFlight)
      ⟨o, some tie, false⟩ c.owed }).requestOwed

/-- The own ORDER has been delivered: applied, it leaves the list; otherwise it is requested again (R164). -/
def State.ownOrder (applied : Bool) (s : State) : State :=
  s.onChg fun c =>
    match c.owed with
    | o :: rest =>
      if o.inFlight then
        if applied then { c with owed := rest } else { c with owed := { o with inFlight := false } :: rest }
      else c
    | [] => c

/-! ### Questions -/

/-- The record of the incomer's own section. -/
def State.ownSection (s : State) : SectionRecord := s.sec s.ownSec

/-- Whether the own section's island contains another section. -/
def State.ownShared (s : State) : Bool := s.islandShared s.ownSec

/-- Whether an incomer's held changeover state is NORMAL. -/
def State.heldNormal (s : State) (n : Nat) : Bool := (s.entry n).heldRole == some ChangeoverState.normal.code

/-- Whether the island of the own section contains another section whose incomer is held NORMAL (R167). -/
def State.islandFed (s : State) : Bool :=
  BusSection.all.any fun x =>
    !(x == s.ownSec) && s.sameIsland s.ownSec x && (s.incomersOf x).any s.heldNormal

/-- Whether an adjacent section lies in another island that contains an incomer held NORMAL (R167). -/
def State.canHelp (s : State) (x : BusSection) : Bool :=
  (s.sec x).configured && !s.sameIsland s.ownSec x &&
    BusSection.all.any fun y => s.sameIsland x y && (s.incomersOf y).any s.heldNormal

/-- The section below one in the row. -/
def belowOf : BusSection → Option BusSection
  | .A => none
  | .B => some .A
  | .C => some .B
  | .D => some .C

/-- The tie whose lower section is the one given. -/
def State.tieAbove (s : State) (x : BusSection) : Option Nat :=
  (s.stationsWhere fun c => c.kind == .tie && c.sec == x).head?

/-- The tie that can help: towards the lower-lettered section if both qualify (R167). -/
def State.helpingTie (s : State) : Option Nat :=
  match belowOf s.ownSec with
  | some x => if s.canHelp x then s.tieAbove x else above
  | none => above
where
  above : Option Nat :=
    match s.ownSec.next with
    | some y => if s.canHelp y then s.tieAbove s.ownSec else none
    | none => none

/-- Whether a generator of the own section is held CLOSED and ONLINE (R168). -/
def State.generatorServes (s : State) : Bool :=
  (s.generatorsOf s.ownSec).any fun n => (s.entry n).holds .closed && (s.entry n).heldRole == some 3

/-- Whether a generator of the island is held CLOSED (R170). -/
def State.islandGeneratorClosed (s : State) : Bool :=
  (s.stationsWhere fun c => c.kind == .generator && s.sameIsland s.ownSec c.sec).any fun n =>
    (s.entry n).holds .closed

/-! ### The machine's moves -/

/-- Move to a changeover state, a tracked field (R31). -/
def State.moveTo (c : ChangeoverState) (s : State) : State := s.tracking fun s => s.onChg fun r => { r with state := c }

/-- Post the want; whatever refused it, it is posted again at the round end (R166, log 19). -/
def State.postChangeover (s : State) : State :=
  match s.postWant .changeover with
  | (s1, .taken) => s1.onChg fun c => { c with wantDue := false }
  | (s1, _) => s1.onChg fun c => { c with wantDue := true }

/-- Withdraw the want. -/
def State.withdrawChangeover (s : State) : State :=
  (s.onChg fun c => { c with wantDue := false, deadWait := false }).withdrawWant .changeover

/-- RETRANSFER posts the want at entry (R169). -/
def State.enterRetransfer (s : State) : State := (s.moveTo .retransfer).postChangeover

/-- OPEN_RETRANSFER waits for the section to be dead, then posts the want (R171). -/
def State.enterOpenRetransfer (s : State) : State :=
  let s1 := s.moveTo .openRetransfer
  if s1.ownSection.live then s1.onChg fun c => { c with deadWait := true } else s1.postChangeover

/-- The judgment of ON_BACKUP (R168). The SPLITs of two ties are owed in the order of their station numbers (log 49). -/
def State.judgeBackup (s : State) : State :=
  if s.changeoverIn .onBackup then
    let s0 := if s.ownShared then s else s.onChg fun c => { c with splitAsked := false }
    if s0.chg.monitor == .healthy then
      if !s0.chg.manualHold && s0.brk.state == .opened && !s0.fault.lockout then
        if s0.ownShared then
          if s0.chg.splitAsked then s0
          else
            ((s0.tiesAt s0.ownSec).filter fun n => (s0.entry n).holds .closed || (s0.entry n).holds .opening).foldl
              (fun s n => s.oweTie .split n) (s0.onChg fun c => { c with splitAsked := true })
        else if s0.ownSection.live then if s0.generatorServes then s0.enterRetransfer else s0
        else s0.enterOpenRetransfer
      else s0
    else if !s0.ownSection.live && !((s0.ownSection.lastOrder.map (·.order)) == some .start) &&
        !s0.chg.owed.any (·.order == .start) then s0.owe .start
    else s0
  else s

/-- ON_BACKUP, judged at entry (R168). -/
def State.enterBackup (s : State) : State := (s.moveTo .onBackup).judgeBackup

/-- The decision of ISOLATING, when the breaker is OPEN and there is no lockout (R167). -/
def State.judgeIsolating (s : State) : State :=
  if s.changeoverIn .isolating && s.brk.state == .opened && !s.fault.lockout then
    if s.islandFed then s.enterBackup
    else
      match s.campus.tiePolicy, s.helpingTie with
      | .tieFirst, some n =>
        ((s.moveTo .tieWait).onChg fun c => { c with tieTimer := some (s.station.tieAssistLimit * 1000) }).oweTie
          .tieAssist n
      | _, _ => (s.owe .start).enterBackup
  else s

/-- ISOLATING, judged at entry (R167). -/
def State.enterIsolating (s : State) : State := (s.moveTo .isolating).judgeIsolating

/-- NORMAL; a monitor already FAILED trips at entry (R167). -/
def State.enterNormal (s : State) : State :=
  let s1 := s.moveTo .normal
  if s1.chg.monitor == .failed then (s1.trip .changeover).enterIsolating else s1

/-- In PARALLEL: the last generator of the island has opened (R170). -/
def State.judgeParallel (s : State) : State :=
  if s.changeoverIn .parallel && !s.islandGeneratorClosed then
    ((s.onChg fun c => { c with parallelTimer := none }).owe .stop).enterNormal
  else s

/-- PARALLEL: UNLOAD is owed and the parallel timer starts (R170). -/
def State.enterParallel (s : State) : State :=
  (((s.moveTo .parallel).onChg fun c => { c with parallelTimer := some s.station.parallelLimit }).owe
    .unload).judgeParallel

/-- PARALLEL is left for ON_BACKUP with RESUME owed (R170). -/
def State.leaveParallel (s : State) : State :=
  ((s.onChg fun c => { c with parallelTimer := none }).owe .resume).enterBackup

/-- TIE_WAIT is left for ON_BACKUP (R167). -/
def State.leaveTieWait (s : State) : State := (s.onChg fun c => { c with tieTimer := none }).enterBackup

/-- The want is withdrawn and the state becomes ON_BACKUP (R169, R171). -/
def State.giveUp (s : State) : State := s.withdrawChangeover.enterBackup

/-- LOCKED (R172). -/
def State.enterLocked (s : State) : State :=
  (s.withdrawChangeover.moveTo .locked).onChg fun c => { c with
    tieTimer := none, parallelTimer := none, splitAsked := false, owed := c.owed.filter (·.inFlight) }

/-- The evaluation of START (R166). -/
def State.judgeStart (s : State) : State :=
  if s.changeoverIn .start && s.inStep && s.pic.quorum && (s.brk.state == .opened || s.brk.state == .closed) then
    if s.ownSection.faulted then s.enterLocked
    else if s.brk.state == .closed then s.enterNormal
    else if s.ownSection.live then s.enterBackup
    else if s.chg.monitor == .healthy then s.enterOpenRetransfer
    else s.enterIsolating
  else s

/-! ### Events of the machine -/

/-- The monitor has changed its state (R165, R167 to R171). -/
def State.monitorChanged (left now : MonitorState) (s : State) : State :=
  if s.isIncomer then
    let lost := left == .healthy
    let s1 := if lost then s.onChg fun c => { c with splitAsked := false } else s
    match s1.chg.state with
    | .normal => if now == .failed then (s1.trip .changeover).enterIsolating else s1
    | .tieWait => if now == .healthy && !s1.chg.manualHold then s1.leaveTieWait else s1
    | .onBackup => s1.judgeBackup
    | .retransfer => if lost then s1.giveUp else s1
    | .parallel => if lost then (s1.trip .changeover).leaveParallel else s1
    | .openRetransfer => if lost then (s1.withdrawChangeover.owe .start).enterBackup else s1
    | _ => s1
  else s

/-- The breaker has reached CLOSED by request (R169, R171). -/
def State.changeoverClosed (mark : Bool) (s : State) : State :=
  if mark then s
  else if s.changeoverIn .retransfer then s.enterParallel
  else if s.changeoverIn .openRetransfer then (s.owe .stop).enterNormal
  else s

/-- The breaker has opened (R167, R168, R170). In PARALLEL a spontaneous opening is taken as one by another's trip (log 45). -/
def State.changeoverOpened (s : State) : State :=
  if s.isIncomer then
    match s.chg.state with
    | .normal => s.enterIsolating
    | .isolating => s.judgeIsolating
    | .onBackup => s.judgeBackup
    | .parallel => s.leaveParallel
    | _ => s
  else s

/-- The breaker has closed unrequested (R172). -/
def State.changeoverUnrequested (s : State) : State :=
  if s.isIncomer && !(s.chg.state == .start || s.chg.state == .normal || s.chg.state == .parallel) then
    s.trip .changeover
  else s

/-- The claim record has returned to IDLE (R169, R171). -/
def State.changeoverClaimIdle (c : Option ReleaseCause) (marked : Bool) (s : State) : State :=
  if (s.changeoverIn .retransfer || s.changeoverIn .openRetransfer) &&
      (c == some .failed || c == some .refused || c == some .withdrawn || (c == some .closed && marked)) then
    s.enterBackup
  else s

/-- An application test would refuse the claim (R169, R171). -/
def State.changeoverClaimTest (k : Nat) (s : State) : State :=
  if (s.changeoverIn .retransfer || s.changeoverIn .openRetransfer) && k = 3 then s.giveUp else s

/-- A hold expiry or a session timeout in RETRANSFER (R169). -/
def State.changeoverHoldLost (s : State) : State :=
  if s.changeoverIn .retransfer then (s.withdrawChangeover.owe .openSources).enterOpenRetransfer else s

/-- The end of lockout (R167). -/
def State.changeoverLockoutEnd (s : State) : State := s.judgeIsolating

/-- The live flag of the own section has changed (R167). -/
def State.changeoverLiveChange (live : Bool) (s : State) : State :=
  if s.changeoverIn .tieWait && live then s.leaveTieWait else s

/-- The faulted flag of the own section has changed (R172). -/
def State.changeoverFaultChange (faulted : Bool) (s : State) : State :=
  if s.isIncomer then
    if faulted then s.enterLocked
    else if s.chg.state == .locked then (s.moveTo .start).judgeStart
    else s
  else s

/-- The island of the own section has come to contain another section (R169, R171). -/
def State.changeoverJoined (s : State) : State :=
  if s.changeoverIn .retransfer || s.changeoverIn .openRetransfer then s.giveUp else s

/-- What the machine judges at the end of each delivery's work (R168, R170, R171, R164). -/
def State.changeoverDelivery (s : State) : State :=
  if s.isIncomer then
    let s0 := if s.ownShared then s else s.onChg fun c => { c with splitAsked := false }
    let s1 := s0.judgeBackup.judgeParallel
    let s2 :=
      if s1.changeoverIn .openRetransfer && s1.chg.deadWait && !s1.ownSection.live then
        (s1.onChg fun c => { c with deadWait := false }).postChangeover
      else s1
    s2.requestOwed
  else s

/-- A round end (R164, R166, R168). OPEN_RETRANSFER calls for its want whatever the live flag has become (R171, log 19). -/
def State.changeoverRound (s : State) : State :=
  if s.isIncomer then
    let s1 :=
      if s.chg.wantDue && (s.chg.state == .retransfer || s.chg.state == .openRetransfer) then s.postChangeover else s
    s1.judgeBackup.requestOwed
  else s

/-- A maintenance OPEN sets the manual hold, and the machine takes it (R167 to R171). ON_BACKUP judges at a change of the hold
only (R168). -/
def State.maintenanceOpen (s : State) : State :=
  let s1 := s.onChg fun c => { c with manualHold := true, splitAsked := false }
  match s1.chg.state with
  | .normal => (s1.trip .changeover).enterIsolating
  | .onBackup => if s.chg.manualHold then s1 else s1.judgeBackup
  | .retransfer => s1.giveUp
  | .parallel => (s1.trip .changeover).leaveParallel
  | .openRetransfer => s1.giveUp
  | _ => s1

/-- A maintenance CLOSE clears the manual hold (R179), and ON_BACKUP judges that change; one that finds no hold changes
nothing (R168). -/
def State.maintenanceClose (s : State) : State :=
  if s.chg.manualHold then (s.onChg fun c => { c with manualHold := false }).judgeBackup else s

/-! ### Timers (R165, R167, R170) -/

/-- The ride-through expires in DISTURBED. -/
def State.rideExpired (s : State) : State :=
  let s1 := s.onChg fun c => { c with rideTimer := none }
  if s1.chg.monitor == .disturbed then
    (s1.onChg fun c => { c with monitor := .failed, run := 0 }).monitorChanged .disturbed .failed
  else s1

/-- The return-stable time expires in RETURNING. -/
def State.returnExpired (s : State) : State :=
  let s1 := s.onChg fun c => { c with returnTimer := none }
  if s1.chg.monitor == .returning then
    (s1.onChg fun c => { c with monitor := .healthy }).monitorChanged .returning .healthy
  else s1

/-- The tie-assist limit expires in TIE_WAIT. -/
def State.tieAssistExpired (s : State) : State :=
  let s1 := s.onChg fun c => { c with tieTimer := none }
  if s1.changeoverIn .tieWait then (s1.owe .start).enterBackup else s1

/-- The parallel limit expires in PARALLEL. -/
def State.parallelExpired (s : State) : State :=
  let s1 := s.onChg fun c => { c with parallelTimer := none }
  if s1.changeoverIn .parallel then (s1.owe .openSources).raise .parallelLimit .none else s1

/-! ### The utility monitor (R165) -/

/-- The monitor's own move at a set, in band or not. -/
def ChangeoverRecord.monitorSet (st : StationSettings) (good : Bool) (c : ChangeoverRecord) : ChangeoverRecord :=
  let run := satSucc Config.runLength c.run
  match c.monitor, good with
  | .healthy, true => c
  | .healthy, false => { c with monitor := .disturbed, rideTimer := some st.rideThrough, run := 0 }
  | .disturbed, true =>
    if run = Config.runLength then { c with monitor := .healthy, rideTimer := none, run := run } else { c with run := run }
  | .disturbed, false => { c with run := 0 }
  | .failed, true =>
    if run = Config.runLength then
      { c with monitor := .returning, returnTimer := some (st.returnStable * 1000), run := run }
    else { c with run := run }
  | .failed, false => { c with run := 0 }
  | .returning, true => c
  | .returning, false => { c with monitor := .failed, returnTimer := none, run := 0 }

/-- The monitor takes a set (R165); `gap` is a set gap at this set. -/
def State.monitorTake (gap : Bool) (m : MeasurementSet) (s : State) : State :=
  if s.isIncomer then
    let before := s.chg.monitor
    let s1 := s.onChg fun c =>
      (if gap then { c with run := 0 } else c).monitorSet s.station (inBand s.station m)
    if s1.chg.monitor == before then s1 else s1.monitorChanged before s1.chg.monitor
  else s

end Sys2Proof.Machine
end

