-- ==== Sys2Proof/Machine/Lists.lean ====
section
/-!
DEFINITION. The island tables every station keeps: run lists (R142, R143), capacity and account (R152), the
Admission Queue and Admitted List (R153 to R158), and the needed generators (R144). The feeder's own station
acts within the step that moves its entry (R160, R162).
-/

namespace Sys2Proof.Machine

/-! ### Orders -/

/-- The run list order: priority level, then entry number (R142). -/
def State.runBefore (s : State) (a b : RunEntry) : Bool :=
  s.levelOf a.station < s.levelOf b.station ||
    (s.levelOf a.station == s.levelOf b.station && a.entry.toNat < b.entry.toNat)

/-- The Admission Queue order (R153): level; within it the returned by former number, then the rest by entry. -/
def State.waitBefore (s : State) (a b : WaitEntry) : Bool :=
  s.levelOf a.feeder < s.levelOf b.feeder ||
    (s.levelOf a.feeder == s.levelOf b.feeder &&
      (match a.former, b.former with
        | some x, some y => x.toNat < y.toNat
        | some _, none => true
        | none, some _ => false
        | none, none => a.entry.toNat < b.entry.toNat))

/-- The Admitted List order (R153). -/
def admitBefore (a b : AdmitEntry) : Bool := a.admission.toNat < b.admission.toNat

/-! ### Capacity (R152) -/

/-- Whether a station's held content makes its rating count (R152). -/
def StationEntry.supplies (e : StationEntry) : Bool :=
  match e.fixed with
  | some c =>
    (match c.kind with
      | .incomer => e.holds .closed
      | .generator => e.holds .closed && (e.heldRole == some 3 || e.heldRole == some 4)
      | _ => false)
  | none => false

/-- The capacity of an island, from the table (R152). -/
def State.capacityNow (s : State) (i : BusSection) : Nat :=
  s.pic.table.foldl (fun acc e =>
    match e.fixed with
    | some c => if e.supplies && s.islandOf c.sec == some i then acc + c.rating else acc
    | none => acc) 0

/-- Recompute the capacity of every island; a name out of use holds 0. -/
def State.recomputeCapacity (s : State) : State :=
  s.onIsl fun t => PerSection.make fun i => { t.get i with capacity := s.capacityNow i }

/-- Usable capacity (R152). -/
def State.usable (s : State) (i : BusSection) : Nat := (s.island i).capacity * (100 - s.campus.reserve) / 100

/-- The demand on an Admitted List, and on an Admission Queue. -/
def State.admittedDemand (s : State) (i : BusSection) : Nat :=
  (s.island i).admitted.foldl (fun acc e => acc + s.ratingOf e.feeder) 0

def State.queuedDemand (s : State) (i : BusSection) : Nat :=
  (s.island i).queue.foldl (fun acc e => acc + s.ratingOf e.feeder) 0

/-- The account of an island (R152). -/
def State.account (s : State) (i : BusSection) : Int := (s.usable i : Int) - s.admittedDemand i

/-! ### Needed generators (R144) -/

/-- A division rounded up. -/
def ceilDiv (a b : Nat) : Nat := (a + b - 1) / b

/-- The required value of an island (R144). -/
def State.required (s : State) (i : BusSection) : Nat :=
  ceilDiv ((s.admittedDemand i + s.queuedDemand i) * 100) (100 - s.campus.reserve)

/-- The walk of a run list (R144). -/
def State.walk (s : State) (required : Nat) : Nat → List RunEntry → List Nat
  | _, [] => []
  | sum, e :: es => if sum < required then e.station :: s.walk required (sum + s.ratingOf e.station) es else []

/-- The generators an island needs (R144). -/
def State.neededOf (s : State) (i : BusSection) : List Nat := s.walk (s.required i) 0 (s.island i).runList

/-- Whether this generator is needed (R144). -/
def State.needed (s : State) : Bool := (s.neededOf s.ownIsland).contains s.own

/-! ### Run-list membership (R142) -/

/-- Whether a station's held content qualifies it for the run list. -/
def StationEntry.runs (e : StationEntry) : Bool :=
  match e.content with
  | some b => (b.role == 2 || b.role == 3 || b.role == 4) && !b.barred
  | none => false

/-- Judge a generator's membership at its STATUS (R142). -/
def State.judgeRunList (n : Nat) (s : State) : State :=
  match s.secOf n with
  | some x =>
    match s.islandOf x with
    | some i =>
      s.onIsland i fun t =>
        let listed := t.runList.any (·.station == n)
        if (s.entry n).runs then
          if listed then t
          else
            let e : RunEntry := ⟨n, s.pic.delivery⟩
            { t with runList := insertBefore (fun x => s.runBefore e x) e t.runList }
        else { t with runList := t.runList.filter fun e => !(e.station == n) }
    | none => s
  | none => s

/-! ### Merge and split (R143, R157) -/

/-- The number under which a feeder stands, or last stood, on an island's Admitted List: that of its entry there, or the
former number of its returned entry in the queue. -/
def IslandTables.stoodUnder (t : IslandTables) (n : Nat) : Option Word32 :=
  match t.admitted.find? (·.feeder == n) with
  | some e => some e.admission
  | none => (t.queue.find? (·.feeder == n)).bind (·.former)

/-- The feeders of an island that stand, or last stood, on its Admitted List, in that order, with their numbers. -/
def IslandTables.stoodEntries (t : IslandTables) : List AdmitEntry :=
  t.stood.filterMap fun n => (t.stoodUnder n).map fun a => ⟨n, a⟩

/-- The lists of the island that now bears a name: the entries, from each former island in row order, whose
sections it now contains, merged by their orders, and the order in which the feeders last stood merged as the Admitted Lists
are (R157). The tables of `s` still stand under the former names. -/
def State.regrouped (s : State) (i : BusSection) : IslandTables :=
  let here (n : Nat) : Bool :=
    match s.secOf n with
    | some x => s.islandOf x == some i
    | none => false
  let entries (j : BusSection) : List AdmitEntry := (s.island j).stoodEntries.filter fun e => here e.feeder
  let lists := BusSection.all.foldl (fun t j =>
    let old := s.island j
    { t with
      runList := mergeBy s.runBefore t.runList (old.runList.filter fun e => here e.station)
      queue := mergeBy s.waitBefore t.queue (old.queue.filter fun e => here e.feeder)
      admitted := mergeBy admitBefore t.admitted (old.admitted.filter fun e => here e.feeder) })
    IslandTables.initial
  { lists with stood := (BusSection.all.foldl (fun l j => mergeBy admitBefore l (entries j)) []).map (·.feeder) }

/-- Whether the partition has changed since `before` (R15). -/
def State.partitionChanged (before s : State) : Bool :=
  BusSection.all.any fun x => !(before.islandOf x == s.islandOf x)

/-- Merge or split every list when the partition has changed since `before` (R143, R157). -/
def State.regroup (before s : State) : State :=
  if State.partitionChanged before s then
    s.onIsl fun t => PerSection.make fun i => { s.regrouped i with capacity := (t.get i).capacity }
  else s

/-! ### The feeder's own station (R160, R162) -/

/-- The feeder leaves the Admitted List in its own picture: a trip if the breaker is CLOSED or CLOSING. -/
def State.feederLeft (n : Nat) (s : State) : State :=
  if n == s.own && (s.brk.state == .closed || s.brk.state == .closing) then s.trip .admission else s

/-- The feeder is shed: it leaves the list, raises LOAD_SHED and counts it. -/
def State.feederShed (n : Nat) (s : State) : State :=
  if n == s.own then
    ((s.feederLeft n).onFeeder fun f => { f with sheds := f.sheds + 1 }).raise .loadShed .none
  else s

/-- The feeder is appended to an Admitted List. -/
def State.feederAdmitted (n : Nat) (s : State) : State :=
  if n == s.own then s.onFeeder fun f => { f with admissions := f.admissions + 1 } else s

/-! ### Requests and returns (R154 to R156) -/

/-- A move of a feeder's entry from list to list. At the feeder's own station it changes the admission state, a tracked
field (R31, 11.5). -/
def State.moveFeeder (i : BusSection) (n : Nat) (f : IslandTables → IslandTables) (s : State) : State :=
  if n == s.own then s.tracking (State.onIsland i f) else s.onIsland i f

/-- The order in which the feeders last stood on an Admitted List, with one standing last (R153). -/
def standLast (n : Nat) (stood : List Nat) : List Nat := stood.filter (fun m => !(m == n)) ++ [n]

/-- Append a feeder to the Admitted List of an island (R154, R158). -/
def State.appendAdmitted (i : BusSection) (n : Nat) (s : State) : State :=
  (s.moveFeeder i n fun t => { t with
    admitted := t.admitted ++ [⟨n, s.pic.delivery⟩], stood := standLast n t.stood }).feederAdmitted n

/-- An applied ADMIT (R154). -/
def State.applyAdmit (n : Nat) (alreadyClosed : Bool) (s : State) : State :=
  if s.kindOf n == some .feeder && s.admissionOf n == .out then
    match s.secOf n with
    | some x =>
      match s.islandOf x with
      | some i =>
        if alreadyClosed && (s.sec x).live then s.appendAdmitted i n
        else
          let e : WaitEntry := ⟨n, s.pic.delivery, none⟩
          s.onIsland i fun t => { t with queue := insertBefore (fun x => s.waitBefore e x) e t.queue }
      | none => s
    | none => s
  else s

/-- Remove a feeder's entry from the Admission Queues. -/
def State.leaveWaiting (n : Nat) (s : State) : State :=
  s.onIsl fun t => PerSection.make fun i => { t.get i with queue := (t.get i).queue.filter fun e => !(e.feeder == n) }

/-- Remove a feeder's entry from the Admitted Lists. -/
def State.leaveAdmitted (n : Nat) (s : State) : State :=
  s.onIsl fun t => PerSection.make fun i =>
    { t.get i with admitted := (t.get i).admitted.filter fun e => !(e.feeder == n) }

/-- An applied WITHDRAW (R155). -/
def State.applyWithdraw (n : Nat) (s : State) : State :=
  let s1 := (s.leaveWaiting n).leaveAdmitted n
  if s.admissionOf n == .admitted then s1.feederLeft n else s1

/-- Whether a returned entry goes before an entry of the queue: by the queue order, and of two that are equal under it the
one that stood first on the Admitted List (R153, log 14). -/
def State.returnsBefore (s : State) (stood : List Nat) (w x : WaitEntry) : Bool :=
  s.waitBefore w x || (!s.waitBefore x w && stood.idxOf w.feeder < stood.idxOf x.feeder)

/-- Move an admitted entry back to the queue as a returned one (R153, R156, R158). -/
def State.returnEntry (i : BusSection) (e : AdmitEntry) (s : State) : State :=
  let w : WaitEntry := ⟨e.feeder, s.pic.delivery, some e.admission⟩
  s.moveFeeder i e.feeder fun t => { t with
    admitted := t.admitted.filter fun a => !(a.feeder == e.feeder)
    queue := insertBefore (s.returnsBefore t.stood w) w t.queue }

/-- A dead-section return: the feeders of a section whose live flag has turned no, in the tables of the island
that held it before this delivery, in their list order (R156, R157). -/
def State.returnSection (before s : State) (x : BusSection) : State :=
  match before.islandOf x with
  | some i =>
    ((s.island i).admitted.filter fun e => s.secOf e.feeder == some x).foldl
      (fun s e => (s.returnEntry i e).feederLeft e.feeder) s
  | none => s

/-! ### Shed, then admit (R158) -/

/-- The shed step. -/
def State.shedStep (i : BusSection) : Nat → State → State
  | 0, s => s
  | k + 1, s =>
    if s.account i < 0 then
      match (s.island i).admitted.getLast? with
      | some e => State.shedStep i k ((s.returnEntry i e).feederShed e.feeder)
      | none => s
    else s

/-- Whether an island has a live section. -/
def State.islandLive (s : State) (i : BusSection) : Bool :=
  BusSection.all.any fun x => s.islandOf x == some i && (s.sec x).live

/-- The admit step. -/
def State.admitStep (i : BusSection) : Nat → State → State
  | 0, s => s
  | k + 1, s =>
    match (s.island i).queue with
    | e :: rest =>
      if s.islandLive i && (s.ratingOf e.feeder : Int) ≤ s.account i then
        State.admitStep i k ((s.onIsland i fun t => { t with queue := rest }).appendAdmitted i e.feeder)
      else s
    | [] => s

/-- Shed-then-admit for one island. -/
def State.shedThenAdmit (s : State) (i : BusSection) : State :=
  let s1 := s.shedStep i (s.island i).admitted.length
  s1.admitStep i (s1.island i).queue.length

/-- Whether a delivery has changed what R158 names for an island since `before`. -/
def State.islandTouched (before s : State) (i : BusSection) : Bool :=
  !((before.island i).capacity == (s.island i).capacity) || !((before.island i).admitted == (s.island i).admitted) ||
    !((before.island i).queue == (s.island i).queue) ||
    BusSection.all.any fun x =>
      !((before.islandOf x == some i) == (s.islandOf x == some i)) ||
        (s.islandOf x == some i && !((before.sec x).live == (s.sec x).live))

/-- Shed-then-admit for every island the delivery has touched (R158). -/
def State.shedAll (before s : State) : State :=
  (s.islandNames.filter fun i => State.islandTouched before s i).foldl State.shedThenAdmit s

end Sys2Proof.Machine
end

