-- ==== Sys2Proof/Machine/Feeder.lean ====
section
/-!
DEFINITION. The feeder role of the Admission Unit (section 11.5): its requests, its close and its breaker
outcomes. At a station of another kind no event acts.
-/

namespace Sys2Proof.Machine

/-- Whether the station is a feeder. -/
def State.isFeeder (s : State) : Bool := s.ownKind == some .feeder

/-- The feeder's admission state in its own picture (11.5). -/
def State.ownAdmission (s : State) : AdmissionState := s.admissionOf s.own

/-- Request one of the feeder's frames: accepted, it is in flight (R159). -/
def State.requestFeeder (f : OrderedFrame) (r : FeederRequest) (s : State) : State :=
  if s.acceptsOrdered f then (s.requestOrdered f).onFeeder fun x => { x with inFlight := some r }
  else s.requestOrdered f

/-- The marks that the feeder's place answers: cleared, not sent (R159, log 22). -/
def State.settleMarks (s : State) : State :=
  if s.ownAdmission == .out then s.onFeeder fun f => { f with withdrawOwed := false }
  else s.onFeeder fun f => { f with admitOwed := false }

/-- The request the feeder has to make, a WITHDRAW before an ADMIT (R159). -/
def State.dueRequest (s : State) : State :=
  if s.feeder.withdrawOwed then s.requestFeeder .withdraw .withdraw
  else if s.ownAdmission == .out then
    if s.brk.state == .closed then s.requestFeeder (.admitFeeder true) .admitFeeder
    else if s.feeder.admitOwed && s.brk.state == .opened then s.requestFeeder (.admitFeeder false) .admitFeeder
    else s
  else s

/-- Judge the feeder's requests (R159): none while one is in flight, and none before the own entry reports IN_STEP. -/
def State.judgeFeeder (s : State) : State :=
  if s.isFeeder && s.feeder.inFlight.isNone && s.inStep && s.ownReports then s.settleMarks.dueRequest else s

/-- Set withdraw owed, which clears admit owed, and judge the requests (R159, R161). -/
def State.oweWithdraw (s : State) : State :=
  (s.onFeeder fun f => { f with withdrawOwed := true, admitOwed := false }).judgeFeeder

/-- Set withdraw owed if the feeder is in a list (R161). -/
def State.giveUpPlace (s : State) : State :=
  if s.isFeeder && !(s.ownAdmission == .out) then s.oweWithdraw else s

/-- Set admit owed, and judge the requests (R159, R179). -/
def State.oweAdmit (s : State) : State := (s.onFeeder fun f => { f with admitOwed := true }).judgeFeeder

/-- Whether the conditions of R160 for a close hold. -/
def State.feederMayClose (s : State) : Bool :=
  (s.sec s.ownSec).live && s.brk.state == .opened && !s.brk.watch && s.inStep && s.pic.quorum && !s.fault.lockout &&
    !s.acceptedIntertrip && !s.feeder.withdrawOwed

/-- Judge the feeder's close, and the trip of a WAITING feeder (R160). -/
def State.judgeFeederClose (s : State) : State :=
  if s.isFeeder then
    match s.ownAdmission with
    | .admitted => if s.feederMayClose then s.requestClose.1 else s
    | .waiting => if s.brk.state == .closed || s.brk.state == .closing then s.trip .admission else s
    | .out => s
  else s

/-- Withdraw a close whose conditions have gone: out of step, no quorum, or the section dead (R160). -/
def State.judgeFeederWithdraw (s : State) : State :=
  if s.isFeeder && s.brk.state == .closing && !(s.inStep && s.pic.quorum && (s.sec s.ownSec).live) then s.withdrawClose
  else s

/-- The breaker has opened (R161): with no source at all as when spontaneous (log 33). -/
def State.feederOpened (sources : List TripSource) (s : State) : State :=
  if sources == [.admission] then s else s.giveUpPlace

/-- The close has failed, or was aborted by a source (R161). -/
def State.feederCloseFailed (s : State) : State := s.giveUpPlace

def State.feederAborted (src : TripSource) (s : State) : State := if src == .admission then s else s.giveUpPlace

/-- The breaker has closed unrequested (R161). -/
def State.feederUnrequested (s : State) : State :=
  if s.isFeeder then
    if s.ownAdmission == .waiting then s.trip .admission
    else if s.ownAdmission == .out then s.judgeFeeder
    else s
  else s

/-- The own ADMIT or WITHDRAW has been delivered (R159). -/
def State.ownAdmit (applied : Bool) (s : State) : State :=
  s.onFeeder fun f => { f with inFlight := none, admitOwed := f.admitOwed && !applied }

def State.ownWithdraw (applied : Bool) (s : State) : State :=
  s.onFeeder fun f => { f with inFlight := none, withdrawOwed := f.withdrawOwed && !applied }

end Sys2Proof.Machine
end

