-- ==== Sys2Proof/Machine/Generator.lean ====
section
/-!
DEFINITION. The generator role of the Dispatch Unit (chapter 10): role transitions, the want to close, load
sharing, unloading and cooldown. At a station of another kind no event acts.
-/

namespace Sys2Proof.Machine

/-- Whether the station is a generator. -/
def State.isGenerator (s : State) : Bool := s.ownKind == some .generator

/-- Whether the role state is the one given, at a generator. -/
def State.generatorIn (s : State) (g : GeneratorState) : Bool := s.isGenerator && s.disp.role == g

/-- Drive the run output (R73). -/
def State.drive (on : Bool) (s : State) : State := s.onEng fun e => { e with run := on }

/-- The last order of the station's section. -/
def State.ownLastOrder (s : State) : Option OrderKind := (s.sec s.ownSec).lastOrder.map (·.order)

/-! ### The want to close (R146) -/

/-- Whether every section of the station's island has live flag no. -/
def State.islandDead (s : State) : Bool := !s.islandLive s.ownIsland

/-- Whether a generator in READY wants to close (R146). -/
def State.wantsClose (s : State) : Bool :=
  (s.ownLastOrder == some .start || s.ownLastOrder == some .resume || s.disp.autonomousMark) &&
    (s.islandDead || s.needed)

/-- Judge the want in READY (R146): posted when it holds and no claim stands, withdrawn when it ceases. A want that was
refused is posted again at each judgment that finds it holding (log 43). -/
def State.judgeWant (s : State) : State :=
  if s.generatorIn .ready then
    if s.wantsClose then (s.postWant .dispatch).1 else s.withdrawWant .dispatch
  else s

/-- The role state leaves READY: the recorded want is withdrawn, whichever it is (R130). -/
def State.withdrawEither (s : State) : State :=
  if s.token.want == some .dispatch || s.token.want == some .maintenance then s.dropWant else s

/-! ### Surplus (R147) -/

/-- The surplus-dwell timer: it runs while the minimum run has expired and the generator is not needed. -/
def State.judgeSurplus (s : State) : State :=
  if s.generatorIn .online then
    if s.disp.minimumTimer.isNone && !s.needed then
      s.onDisp fun d => { d with
        surplusTimer := if d.surplusTimer.isSome then d.surplusTimer else some (s.station.surplusDwell * 1000) }
    else s.onDisp fun d => { d with surplusTimer := none }
  else s

/-! ### Entering the role states -/

/-- A whole number of seconds as a running timer; a limit of 0 has expired at once. -/
def secondsOrExpired (n : Nat) : Timer := if n = 0 then none else some (n * 1000)

/-- A change of the role part that gives the role state, a tracked field (R31). -/
def State.changeRole (f : DispatchRecord → DispatchRecord) (s : State) : State := s.tracking fun s => s.onDisp f

/-- STANDBY: run output off, timers stopped, the autonomous mark cleared (R145, R150). The autonomous timer is not among them:
it follows its own conditions (log 16). -/
def State.enterStandby (s : State) : State :=
  (s.drive false).changeRole fun d => { d with
    role := .standby, startTimer := none, minimumTimer := none, surplusTimer := none, cooldownTimer := none,
    autonomousMark := false, reason := none, tripIssued := false }

/-- STARTING, with the start-limit timer (R145, R146, R150). -/
def State.enterStarting (s : State) : State :=
  s.changeRole fun d => { d with role := .starting, startTimer := some (s.station.startLimit * 1000), cooldownTimer := none }

/-- A start (R145). -/
def State.startEngine (s : State) : State :=
  ((s.drive true).onDisp fun d => { d with starts := d.starts + 1 }).enterStarting

/-- READY, and the want judged at the transition. -/
def State.enterReady (s : State) : State :=
  (s.changeRole fun d => { d with
    role := .ready, startTimer := none, minimumTimer := none, surplusTimer := none, cooldownTimer := none,
    reason := none }).judgeWant

/-- ONLINE, with the minimum-run timer (R146); a minimum run of 0 has expired at entry (log 17). -/
def State.enterOnline (s : State) : State :=
  (s.changeRole fun d => { d with
    role := .online, minimumTimer := secondsOrExpired s.station.minimumRun, surplusTimer := none,
    reason := none }).judgeSurplus

/-- A resumption: ONLINE with the minimum run not restarted (R149). The reason is absent outside UNLOADING (log 42). -/
def State.resumeOnline (s : State) : State :=
  (s.changeRole fun d => { d with role := .online, surplusTimer := none, reason := none }).judgeSurplus

/-- COOLDOWN, from ONLINE, UNLOADING or a load; a cooldown of 0 expires at entry (R150). The minimum run and the surplus dwell stop at
every entry, as R147 says of an opening in ONLINE (log 17). -/
def State.enterCooldown (s : State) : State :=
  let s1 := s.changeRole fun d => { d with
    role := .cooldown, startTimer := none, minimumTimer := none, surplusTimer := none, reason := none,
    cooldownTimer := some (s.station.cooldown * 1000) }
  if s.station.cooldown = 0 then s1.enterStandby else s1

/-- The unloading trip, issued once the target is at or below the threshold (R149). -/
def State.unloadTrip (s : State) : State :=
  if s.disp.target ≤ s.station.unloadThreshold && !s.disp.tripIssued then
    (s.onDisp fun d => { d with tripIssued := true }).trip .dispatch
  else s

/-- UNLOADING with a reason (R149). The minimum run runs on (log 17). -/
def State.enterUnloading (r : UnloadReason) (s : State) : State :=
  (s.changeRole fun d => { d with
    role := .unloading, reason := some r, target := clampInt 0 1000 s.ownLoad, surplusTimer := none,
    tripIssued := false }).unloadTrip

/-- READY is left for another state (R146). -/
def State.leaveReady (s : State) : State := s.withdrawEither

/-! ### The occasions of R144 -/

/-- What a generator judges at the end of each delivery's work and at its own transitions: the want, the
surplus, and a resumption once needed again (R144, R146, R147, R149). -/
def State.judgeGenerator (s : State) : State :=
  if s.generatorIn .unloading && s.disp.reason == some .surplus && s.needed then s.resumeOnline
  else s.judgeWant.judgeSurplus

/-! ### Orders (R145 to R150) -/

/-- OPEN_SOURCES at a running generator: a trip, and COOLDOWN (R147, R149). -/
def State.openSources (s : State) : State := (s.trip .dispatch).enterCooldown

/-- A resumption by order: only for reason ORDER or SURPLUS (R149). -/
def State.resumeByOrder (s : State) : State := if s.disp.reason == some .barred then s else s.resumeOnline

/-- A START that ends a cooldown (R150). -/
def State.endCooldown (s : State) : State :=
  if s.barred then s else if s.pins.ready then s.enterReady else s.enterStarting

/-- The last order of the section has become STOP, by an ORDER or by an adoption (R145, R146). -/
def State.orderBecomesStop (s : State) : State :=
  if s.generatorIn .starting then s.enterStandby
  else if s.generatorIn .ready then s.leaveReady.enterStandby
  else s

/-- The last orders an adoption has brought in since `before` (R48): STOP acts where it was not the last order. Part 1 has
cleared the last orders, so a STOP that stood before it and comes again acts (log 17). -/
def State.adoptedOrder (before s : State) : State :=
  if s.ownLastOrder == some .stop && !(before.ownLastOrder == some .stop) then s.orderBecomesStop else s

/-- A section order applied to the generator's section (10.8, Orders at a glance). -/
def State.generatorOrder (o : OrderKind) (s : State) : State :=
  if s.isGenerator then
    let s1 := s.onDisp fun d => { d with autonomousMark := false }
    match s1.disp.role, o with
    | .standby, .start => if s1.barred then s1 else s1.startEngine
    | .starting, .stop => s1.orderBecomesStop
    | .ready, .stop => s1.orderBecomesStop
    | .ready, _ => s1.judgeWant
    | .online, .unload => s1.enterUnloading .order
    | .online, .stop => s1.enterUnloading .order
    | .online, .openSources => s1.openSources
    | .unloading, .start => s1.resumeByOrder
    | .unloading, .resume => s1.resumeByOrder
    | .unloading, .openSources => s1.openSources
    | .cooldown, .start => s1.endCooldown
    | _, _ => s1
  else s

/-! ### Barred (R112, R145 to R150) -/

/-- A change of the barred value. -/
def State.generatorBarred (barred : Bool) (s : State) : State :=
  match s.isGenerator, barred, s.disp.role with
  | true, true, .starting => s.enterStandby
  | true, true, .ready => s.leaveReady.enterStandby
  | true, true, .online => if s.brk.state == .closed then s.enterUnloading .barred else s
  | true, true, .unloading => s.onDisp fun d => { d with reason := some .barred }
  | true, false, .standby => if s.ownLastOrder == some .start then s.startEngine else s
  | true, false, .startFailed => s.enterStandby
  | _, _, _ => s

/-! ### The engine and the line (R145 to R147) -/

/-- A change of the READY input or of the line-live flag: STARTING may become READY, READY may be lost (log 17). -/
def State.judgeEngine (s : State) : State :=
  if s.generatorIn .starting && s.pins.ready && s.meas.line.live then s.enterReady
  else if s.generatorIn .ready && !(s.pins.ready && s.meas.line.live) then s.leaveReady.enterStarting
  else s

/-- A change of the READY input (R145 to R147). -/
def State.generatorReadyChange (s : State) : State :=
  if s.generatorIn .online && !s.pins.ready then s.trip .dispatch else s.judgeEngine

/-- A change of the station's live flags (R58): the engine is judged when the line-live flag has changed. -/
def State.generatorFlagChange (lineChanged : Bool) (s : State) : State := if lineChanged then s.judgeEngine else s

/-! ### Breaker outcomes (R145 to R149) -/

/-- The breaker has closed: by request, or unrequested (R145, R146). -/
def State.generatorClosed (requested : Bool) (s : State) : State :=
  if s.generatorIn .ready then s.leaveReady.enterOnline
  else if !requested && (s.generatorIn .standby || s.generatorIn .starting || s.generatorIn .cooldown ||
      s.generatorIn .startFailed) then s.trip .dispatch
  else s

/-- The breaker has opened (R147, R149). -/
def State.generatorOpened (s : State) : State :=
  if s.generatorIn .online then if s.barred then s.enterCooldown else s.enterReady
  else if s.generatorIn .unloading then s.enterCooldown
  else s

/-! ### Timers and rounds -/

/-- The start limit expires in STARTING (R145): START_FAILED is raised after the state has changed. -/
def State.startLimitExpired (s : State) : State :=
  ((s.drive false).changeRole fun d => { d with
    role := .startFailed, startTimer := none, autonomousMark := false,
    failures := d.failures + 1 }).raise .startFailed .none

/-- The autonomous timer expires (R145). -/
def State.autonomousExpired (s : State) : State :=
  let s1 := s.onDisp fun d => { d with autonomousTimer := none, autonomousSpent := true }
  if s1.generatorIn .standby && !s1.barred then
    s1.startEngine.onDisp fun d => { d with autonomousMark := true }
  else s1

/-- Whether the autonomous timer's conditions hold (R145): the incomer of the section DROPPED or UNKNOWN, the
bus dead. -/
def State.autonomousStands (s : State) : Bool :=
  s.isGenerator && !s.meas.bus.live &&
    (s.incomersOf s.ownSec).any fun n => (s.entry n).presence == .dropped || (s.entry n).presence == .unknown

/-- Bring the autonomous timer into line with its conditions (R145, log 16). -/
def State.judgeAutonomous (s : State) : State :=
  if s.isGenerator then
    if s.autonomousStands then
      if s.disp.autonomousTimer.isSome || s.disp.autonomousSpent then s
      else s.onDisp fun d => { d with autonomousTimer := some (s.station.autonomousDelay * 1000) }
    else s.onDisp fun d => { d with autonomousTimer := none, autonomousSpent := false }
  else s

/-- The minimum run expires (R147). -/
def State.minimumExpired (s : State) : State := (s.onDisp fun d => { d with minimumTimer := none }).judgeSurplus

/-- The surplus dwell expires in ONLINE (R147). -/
def State.surplusExpired (s : State) : State := s.enterUnloading .surplus

/-- The cooldown expires (R150). -/
def State.cooldownExpired (s : State) : State := s.enterStandby

/-- A round end in UNLOADING: the target falls, and the trip is judged (R149). -/
def State.generatorRound (s : State) : State :=
  if s.generatorIn .unloading then
    (s.onDisp fun d => { d with target := max 0 (d.target - s.station.unloadRate) }).unloadTrip
  else s

/-! ### Load sharing (R148, R149) -/

/-- The generators of the station's island held ONLINE with breaker CLOSED (R148). -/
def State.sharers (s : State) : List Nat :=
  s.stationsWhere fun c =>
    c.kind == .generator && s.islandOf c.sec == some s.ownIsland && (s.entry c.number).heldRole == some 3 &&
      (s.entry c.number).holds .closed

/-- The real power held for a station. -/
def State.heldPower (s : State) (n : Nat) : Int :=
  match (s.entry n).content with
  | some b => b.realPower
  | none => 0

/-- The island average (R148); the own load when the ratings sum to 0. -/
def State.islandAverage (s : State) : Int :=
  let ratings := s.sharers.foldl (fun acc n => acc + s.ratingOf n) 0
  let power := s.sharers.foldl (fun acc n => acc + s.heldPower n) 0
  if ratings = 0 then s.ownLoad else Int.tdiv (power * 1000) ratings

/-- The speed bias towards a load (R148). -/
def State.biasTowards (s : State) (aim : Int) : Int :=
  clampInt (-1000) 1000 (Int.tdiv ((aim - s.ownLoad) * s.station.sharingGain) 100)

/-- The sharing or unloading bias of an arrival (R148, R149). -/
def State.computeBias (s : State) : State :=
  if s.sessionOpen then s
  else if s.generatorIn .online then s.onDisp fun d => { d with lastBias := s.biasTowards s.islandAverage }
  else if s.generatorIn .unloading then s.onDisp fun d => { d with lastBias := s.biasTowards s.disp.target }
  else s

/-- The bias output refreshed at an arrival (R73). -/
def State.refreshBias (s : State) : State :=
  if s.isGenerator then
    if s.sessionOpen then
      s.onEng fun e => { e with
        speedBias := clampInt (-1000) 1000 s.sync.speedBias, voltageBias := clampInt (-1000) 1000 s.sync.voltageBias }
    else if s.disp.role == .online || s.disp.role == .unloading then
      s.onEng fun e => { e with speedBias := clampInt (-1000) 1000 s.disp.lastBias, voltageBias := 0 }
    else s.onEng fun e => { e with speedBias := 0, voltageBias := 0 }
  else s

/-- Both biases sent as 0 at the onset of a set loss (R73). -/
def State.zeroBias (s : State) : State := s.onEng fun e => { e with speedBias := 0, voltageBias := 0 }

/-! ### Reconstruction (R141) -/

/-- The role after a load, from the breaker state and the READY input, with a kept bar judged at once. -/
def State.reconstruct (s : State) : State :=
  if s.isGenerator then
    let s1 :=
      match s.brk.state == .closed, s.pins.ready with
      | true, true => (s.drive true).enterOnline
      | false, true => (s.drive true).enterCooldown
      | true, false => s.enterStandby.trip .dispatch
      | false, false => s.enterStandby
    if s1.barred then s1.generatorBarred true else s1
  else s

end Sys2Proof.Machine
end

