-- ==== Sys2Proof/Machine/TieLogic.lean ====
section
/-!
DEFINITION. The Tie Logic (R173). At a station of another kind no event acts.
-/

namespace Sys2Proof.Machine

/-- Whether the station is a tie. -/
def State.isTie (s : State) : Bool := s.ownKind == some .tie

/-- The tie role takes a state, a tracked field (R31). -/
def State.setTie (t : TieRecord) (s : State) : State := s.tracking fun s => s.onTie fun _ => t

/-- The tie role returns to IDLE: no TIE_ASSIST is being served. -/
def State.tieToIdle (s : State) : State := s.setTie { state := .idle, ordering := 0 }

/-- Whether the tie role is ASSISTING or MERGING. -/
def State.tieClosing (s : State) : Bool := s.isTie && (s.tie.state == .assisting || s.tie.state == .merging)

/-- A TIE_ASSIST applied, from an incomer. No close has begun for it yet, also where an earlier claim still stands and the
Token Unit refuses the want (R117, R173). -/
def State.tieAssist (n : Nat) (s : State) : State :=
  if s.isTie && s.tie.state == .idle && s.brk.state == .opened then
    ((s.setTie { state := .assisting, ordering := n }).forgetClose.postWant .tie).1
  else s

/-- A maintenance MERGE or CLOSE: the second component says that it was refused. -/
def State.tieMerge (s : State) : State × Bool :=
  if s.tie.state == .idle && s.brk.state == .opened then
    (((s.setTie { state := .merging, ordering := 0 }).postWant .tie).1, false)
  else (s, true)

/-- Trip and wait for the opening, or IDLE when the breaker is already OPEN. -/
def State.tieTrip (s : State) : State :=
  if s.brk.state == .opened then s.tieToIdle
  else (s.trip .tie).setTie { state := .splitting, ordering := 0 }

/-- A SPLIT applied, or a maintenance SPLIT. -/
def State.tieSplit (s : State) : State :=
  match s.tie.state with
  | .idle => s.tieTrip
  | .assisting => (s.withdrawWant .tie).tieTrip
  | .merging => (s.withdrawWant .tie).tieTrip
  | .splitting => s.trip .tie

/-- The breaker has opened. -/
def State.tieOpened (s : State) : State := if s.isTie && s.tie.state == .splitting then s.tieToIdle else s

/-- The breaker has reached CLOSED by request. -/
def State.tieClosed (mark : Bool) (s : State) : State := if s.tieClosing && !mark then s.tieToIdle else s

/-- The claim record has returned to IDLE without a close, or after one with the mark set. -/
def State.tieClaimIdle (closed marked : Bool) (s : State) : State :=
  if s.tieClosing && (!closed || marked) then s.tieToIdle else s

/-- The breaker has closed unrequested. -/
def State.tieUnrequested (s : State) : State := if s.isTie then s.trip .tie else s

/-- The want is withdrawn and the role returns to IDLE. -/
def State.tieGiveUp (s : State) : State := (s.withdrawWant .tie).tieToIdle

/-- A STATUS of the ordering incomer has been stored, before the close that serves its TIE_ASSIST has begun (R173). -/
def State.tieJudgeIncomer (n : Nat) (s : State) : State :=
  if s.isTie && s.tie.state == .assisting && s.tie.ordering == n && !s.token.begun &&
      !((s.entry n).heldRole == some ChangeoverState.isolating.code ||
        (s.entry n).heldRole == some ChangeoverState.tieWait.code) then
    s.tieGiveUp
  else s

/-- Either section has become faulted. -/
def State.tieFaulted (s : State) : State := if s.tieClosing then s.tieGiveUp else s

end Sys2Proof.Machine
end

