-- ==== Sys2Proof/Machine/Operate.lean ====
section
/-!
DEFINITION. The operate record (13.3.1): taking an operation, its action by station kind, its ends, and the
withdrawal at the operate limit.
-/

namespace Sys2Proof.Machine

/-! ### Ends of an operation (R179, R180) -/

/-- The record leaves IN_PROGRESS: the limit stops and attention rises. -/
def State.endOperation (st : OperateState) (r : Option OperateReason) (s : State) : State :=
  (s.onPort fun p => { p with state := st, reason := r, limit := none }).attend

/-- Whether an operation is IN_PROGRESS. -/
def State.operating (s : State) (o : Operation) : Bool :=
  s.port.state == .inProgress && s.port.operation == some o

/-- Whether a close by claim is IN_PROGRESS: CLOSE at a generator or a tie, MERGE at a tie. -/
def State.closingByClaim (s : State) : Bool :=
  (s.operating .close && (s.isGenerator || s.isTie)) || s.operating .merge

/-- Whether an opening is IN_PROGRESS: OPEN, or SPLIT at a tie. -/
def State.operatingOpen (s : State) : Bool := s.operating .opn || s.operating .split

/-- "Closed" is handed on: it ends CLOSE at a feeder, a generator or a tie, and MERGE. -/
def State.operateClosed (s : State) : State :=
  if s.closingByClaim || (s.operating .close && s.isFeeder) then s.endOperation .done none else s

/-- The opening is handed on (R72): it ends OPEN and SPLIT. -/
def State.operateOpened (s : State) : State := if s.operatingOpen then s.endOperation .done none else s

/-- The claim record has returned to IDLE without a close. -/
def State.operateClaimIdle (c : Option ReleaseCause) (closed : Bool) (s : State) : State :=
  if s.closingByClaim && !closed then
    s.endOperation .refused (some (.release (c.getD .withdrawn)))
  else s

/-- Whether an opening has come about: OPEN with no watch, or for a tie OPEN (R179). An OPEN taken while the breaker is OPEN
with the watch yes is thus in progress until the watch ends (log 21). -/
def State.openReached (s : State) : Bool := s.brk.state == .opened && (s.isTie || !s.brk.watch)

/-- The ends that are states and not hand-ons, judged at the end of each event (R179). -/
def State.judgeOperation (s : State) : State :=
  if s.operatingOpen && s.openReached then s.endOperation .done none
  else if s.operating .close && s.changeoverIn .normal then s.endOperation .done none
  else s

/-! ### Actions (R179) -/

/-- What an operation's action answers. -/
inductive OperateAnswer where
  | begun | done
  | refused (r : OperateReason)
  deriving DecidableEq, Repr

/-- OPEN, by station kind. -/
def State.actOpen (s : State) : State × OperateAnswer :=
  let end_ (t : State) : State × OperateAnswer := (t, if t.openReached then .done else .begun)
  match s.ownKind with
  | some .incomer =>
    let trips := s.chg.state == .normal || s.chg.state == .parallel
    let s1 := s.maintenanceOpen
    end_ (if trips || s1.brk.state == .opened then s1 else s1.trip .maintenance)
  | some .tie => end_ s.tieSplit
  | _ => end_ (s.trip .maintenance)

/-- CLOSE at a tie, and MERGE. -/
def State.actMerge (s : State) : State × OperateAnswer :=
  match s.tieMerge with
  | (s1, true) => (s1, .refused (.close .notOpen))
  | (s1, false) => (s1, .begun)

/-- CLOSE, by station kind. -/
def State.actClose (s : State) : State × OperateAnswer :=
  match s.ownKind with
  | some .feeder => if s.brk.state == .closed then (s, .done) else (s.oweAdmit, .begun)
  | some .generator =>
    if !(s.disp.role == .ready) then (s, .refused .notReady)
    else
      match s.postWant .maintenance with
      | (s1, .taken) => (s1, .begun)
      | (s1, .claimInProgress) => (s1, .refused .claimInProgress)
      | (s1, .notOpen) => (s1, .refused (.close .notOpen))
  | some .incomer =>
    let s1 := s.maintenanceClose
    (s1, if s1.changeoverIn .normal then .done else .begun)
  | some .tie => s.actMerge
  | none => (s, .refused .wrongKind)

/-- Set or clear the bar latch, with the change of barred handed on (R112). -/
def State.setBar (on : Bool) (s : State) : State := (s.onFault fun f => { f with barLatch := on }).tellBarred s.barred

/-- The action of an operation. -/
def State.act (o : Operation) (s : State) : State × OperateAnswer :=
  match o with
  | .opn => s.actOpen
  | .close => s.actClose
  | .merge => if s.isTie then s.actMerge else (s, .refused .wrongKind)
  | .split =>
    if s.isTie then
      let s1 := s.tieSplit
      (s1, if s1.openReached then .done else .begun)
    else (s, .refused .wrongKind)
  | .bar => if s.isGenerator then (s.setBar true, .done) else (s, .refused .wrongKind)
  | .unbar => if s.isGenerator then (s.setBar false, .done) else (s, .refused .wrongKind)

/-! ### Taking an operation (R178, R179) -/

/-- Answer a port command. -/
def State.answer (c : ResponseCode) (data : List Byte) (s : State) : State :=
  s.onPort fun p => { p with response := some ⟨c, data⟩ }

/-- The record takes the operation, acts, and is answered (R179). -/
def State.takeOperation (o : Operation) (s : State) : State :=
  let s0 := s.onPort fun p => { p with
    operation := some o, state := .inProgress, reason := none, refusedDuring := false,
    limit := some Config.operateLimitMs }
  match s0.act o with
  | (s1, .begun) => s1.answer .ok []
  | (s1, .done) => (s1.endOperation .done none).answer .ok []
  | (s1, .refused r) => (s1.endOperation .refused (some r)).answer .refused []

/-! ### The operate limit (R180) -/

/-- Whether a claim stands whose return to IDLE ends MERGING (R173), be its want recorded or cleared by a lockout (R130). The
claim of an earlier close that has reached CLOSED with the mark clear ends no later MERGING (log 20). -/
def State.claimEndsMerge (s : State) : Bool :=
  !(s.token.state == .idle) && !(s.token.closedMark && !s.token.closedMarked)

/-- The withdrawal of an operation at its limit, by station kind (R180). The want of a MERGE is withdrawn, and the tie returns
to IDLE by the rules of R173: when the claim that stands does. Where none stands that could end MERGING, it is IDLE at once
(log 20). -/
def State.withdrawOperation (s : State) : State :=
  match s.ownKind with
  | some .generator => s.withdrawWant .maintenance
  | some .tie =>
    if s.tie.state == .merging then
      let s1 := s.withdrawWant .tie
      if s.claimEndsMerge then s1 else s1.tieToIdle
    else s
  | some .feeder =>
    if s.ownAdmission == .waiting then s.oweWithdraw
    else if s.ownAdmission == .out then s.onFeeder fun f => { f with admitOwed := false }
    else s
  | _ => s

/-- The operate limit expires while the record is IN_PROGRESS (R180). -/
def State.operateTimedOut (s : State) : State :=
  let reason := if s.port.refusedDuring then s.brk.lastRefusal.map OperateReason.close else none
  let s1 := s.endOperation .timedOut reason
  s1.withdrawOperation

end Sys2Proof.Machine
end

