-- ==== Sys2Proof/Machine/Zone.lean ====
section
/-!
DEFINITION. The Zone Unit (chapter 6): downstream judgment, the station's own block and intertrip, the
Block List and the Intertrip Set.
-/

namespace Sys2Proof.Machine

/-! ### Downstream (R90) -/

/-- Whether a pattern matches a zone code, both taken through the mask. -/
def Pattern.matches' (p : Pattern) (code : Nat) : Bool :=
  p.valid && (code &&& p.mask) == (p.value &&& p.mask)

/-- The zone code the station's map gives a station (6.1). -/
def State.zoneCode (s : State) (n : Nat) : Nat := s.station.zoneMap.getD (n - 1) 0

/-- Whether a station is downstream of this one (R90). -/
def State.downstream (s : State) (n : Nat) : Bool :=
  s.isConfigured n && !(n == s.own) && s.station.patterns.any (·.matches' (s.zoneCode n))

/-- Whether the Zone Unit takes what a source sends: configured and not the station itself (R92). -/
def State.zoneTakes (s : State) (n : Nat) : Bool := s.isConfigured n && !(n == s.own)

/-! ### The station's own block (R93, R94) -/

/-- The start of the announcement demand (R93). -/
def State.startBlock (s : State) : State :=
  if s.zone.blockAsserted then s
  else s.tracking fun s => (s.placeUrgent (.block true)).onZone fun z => { z with blockAsserted := true }

/-- The end of the announcement demand (R93). -/
def State.endBlock (s : State) : State :=
  s.tracking fun s => (s.placeUrgent (.block false)).onZone fun z => { z with blockAsserted := false }

/-- The refresh of a standing block at a round end (R94). -/
def State.refreshBlock (s : State) : State :=
  if s.zone.blockAsserted then s.placeUrgent (.block true) else s

/-! ### The station's own intertrip (R97, R98) -/

/-- Whether the intertrip demand sources have a member: a slot's demand or BREAKER_FAILURE (R97). -/
def State.intertripDemanded (s : State) : Bool :=
  s.zone.breakerFailure || s.prot.slots.any (·.demand)

/-- Bring intertrip asserted into line with the demand sources, sending INTERTRIP set or clear at a
change (R97). -/
def State.judgeIntertrip (s : State) : State :=
  if s.intertripDemanded == s.zone.intertripAsserted then s
  else s.tracking fun s => (s.placeUrgent (.intertrip s.intertripDemanded)).onZone fun z =>
    { z with intertripAsserted := s.intertripDemanded }

/-- Breaker failure begins (R98). -/
def State.breakerFailureBegins (s : State) : State :=
  (s.onZone fun z => { z with breakerFailure := true }).judgeIntertrip

/-- Breaker failure ends, or BREAKER_NO_OPEN has been cleared (R98). -/
def State.breakerFailureEnds (s : State) : State :=
  (s.onZone fun z => { z with breakerFailure := false }).judgeIntertrip

/-! ### The Block List (R95, R96, R101, R102) -/

def State.blockListed (s : State) (n : Nat) : Bool := s.zone.blockList.any (·.source == n)

/-- Add an entry for a source, its expiry timer started (R95). -/
def State.addBlock (n : Nat) (s : State) : State :=
  s.onZone fun z => { z with
    blockList := z.blockList ++ [{ source := n, stamp := s.pic.delivery, left := s.station.blockLimit }] }

/-- Refresh the entry of a source (R95). -/
def State.refreshEntry (n : Nat) (s : State) : State :=
  s.onZone fun z => { z with
    blockList := z.blockList.map fun e =>
      if e.source == n then { e with stamp := s.pic.delivery, left := s.station.blockLimit } else e }

/-- Remove the entry of a source, handing the emptying on when it was the last (R95, R96). -/
def State.removeBlock (n : Nat) (s : State) : State :=
  if s.blockListed n then
    let s1 := s.onZone fun z => { z with blockList := z.blockList.filter fun e => !(e.source == n) }
    if s1.zone.blockList.isEmpty then s1.tell .blockListEmptied else s1
  else s

/-- A delivered BLOCK (R92, R95). -/
def State.takeBlock (n : Nat) (on : Bool) (s : State) : State :=
  if s.zoneTakes n && s.downstream n then
    if on then if s.blockListed n then s.refreshEntry n else s.addBlock n
    else s.removeBlock n
  else s

/-! ### The Intertrip Set (R99 to R102) -/

/-- Hand on a change of "some accepted entry" since `before` (R100). -/
def State.tellAccepted (before : Bool) (s : State) : State :=
  if s.acceptedIntertrip == before then s else s.tell (.acceptedChanged s.acceptedIntertrip)

/-- Add an entry: accepted if the source is downstream, with the trip and the raise of R99. -/
def State.addIntertrip (n : Nat) (s : State) : State :=
  let accepted := s.downstream n
  let s1 := s.onZone fun z => { z with
    intertrips := z.intertrips ++
      [{ source := n, accepted := accepted, stale := false, stamp := s.pic.delivery }] }
  if accepted then
    let s2 := if s1.brk.state == .closed || s1.brk.state == .closing then s1.trip .zone else s1
    (s2.raise .intertrip (.station n)).tellAccepted s.acceptedIntertrip
  else s1

/-- Clear the stale mark of a source's entry (R99). -/
def State.freshenIntertrip (n : Nat) (s : State) : State :=
  s.onZone fun z => { z with
    intertrips := z.intertrips.map fun e => if e.source == n then { e with stale := false } else e }

/-- Keep only the entries that satisfy `p`, handing a change of R100's condition on. -/
def State.keepIntertrips (p : IntertripEntry → Bool) (s : State) : State :=
  (s.onZone fun z => { z with intertrips := z.intertrips.filter p }).tellAccepted s.acceptedIntertrip

def State.intertripListed (s : State) (n : Nat) : Bool := s.zone.intertrips.any (·.source == n)

/-- A delivered INTERTRIP (R92, R99). -/
def State.takeIntertrip (n : Nat) (set : Bool) (s : State) : State :=
  if s.zoneTakes n then
    if set then if s.intertripListed n then s.freshenIntertrip n else s.addIntertrip n
    else s.keepIntertrips fun e => !(e.source == n)
  else s

/-! ### Repair and DROP (R101, R102) -/

/-- The repair of both lists from a delivered STATUS (R101). -/
def State.repairZone (n : Nat) (b : StatusBody) (s : State) : State :=
  if s.zoneTakes n then
    let s1 :=
      if s.downstream n then
        if b.blockAsserted then if s.blockListed n then s else s.addBlock n
        else s.removeBlock n
      else s
    s1.takeIntertrip n b.intertripAsserted
  else s

/-- An applied DROP: the Block List entry goes, the Intertrip Set entry becomes stale (R102). -/
def State.zoneDrop (n : Nat) (s : State) : State :=
  (s.removeBlock n).onZone fun z => { z with
    intertrips := z.intertrips.map fun e => if e.source == n then { e with stale := true } else e }

/-- CLEAR_STALE_INTERTRIP: every stale entry goes (R102). -/
def State.clearStale (s : State) : State := s.keepIntertrips fun e => !e.stale

end Sys2Proof.Machine
end

