-- ==== Sys2Proof/Machine/Protection.lean ====
section
/-!
DEFINITION. The Protection Engine (chapter 5): the values a slot uses, the move of a slot at an evaluated
set, operation and routes, the announcement demand and the release of held elements.
-/

namespace Sys2Proof.Machine

/-! ### The values a slot uses (R74, R75) -/

/-- The element kinds, in the order of their codes (R75). -/
inductive ElementKind where
  | phaseDefinite | phaseInverse | earth | undervoltage | overvoltage | underfrequency | overfrequency | reversePower
  deriving DecidableEq, Repr

/-- The kind of a code, if it names one. -/
def ElementKind.ofCode : Nat → Option ElementKind
  | 0 => some .phaseDefinite
  | 1 => some .phaseInverse
  | 2 => some .earth
  | 3 => some .undervoltage
  | 4 => some .overvoltage
  | 5 => some .underfrequency
  | 6 => some .overfrequency
  | 7 => some .reversePower
  | _ => none

/-- The routes, in the order of their codes (13.4). -/
inductive Route where
  | localTrip | upstream | both | alarm
  deriving DecidableEq, Repr

/-- The route of a code, if it names one. -/
def Route.ofCode : Nat → Option Route
  | 0 => some .localTrip
  | 1 => some .upstream
  | 2 => some .both
  | 3 => some .alarm
  | _ => none

/-- The quantities a kind watches in a set (R75). -/
def ElementKind.watched (k : ElementKind) (m : MeasurementSet) : List Int :=
  match k with
  | .phaseDefinite => [m.currents.p1, m.currents.p2, m.currents.p3]
  | .phaseInverse => [m.currents.p1, m.currents.p2, m.currents.p3]
  | .earth => [m.residual]
  | .undervoltage => [m.lineVolts.p1, m.lineVolts.p2, m.lineVolts.p3]
  | .overvoltage => [m.lineVolts.p1, m.lineVolts.p2, m.lineVolts.p3]
  | .underfrequency => [m.lineFreq]
  | .overfrequency => [m.lineFreq]
  | .reversePower => [-m.realPower]

/-- Whether a kind's default compare is BELOW (R75). -/
def ElementKind.defaultBelow : ElementKind → Bool
  | .undervoltage => true
  | .underfrequency => true
  | _ => false

/-- Whether the compare used is BELOW: the inverse kind is fixed ABOVE, an absent compare takes the
default (R74, R75). -/
def SlotSettings.usesBelow (c : SlotSettings) (k : ElementKind) : Bool :=
  match k, c.compareCode with
  | .phaseInverse, _ => false
  | _, 0 => false
  | _, 1 => true
  | k, _ => k.defaultBelow

/-- The qualify phases used (R74, R75). -/
def SlotSettings.usedQualify (c : SlotSettings) (quantities : Nat) : Nat := min (max c.qualify 1) quantities

/-- The kind and route a slot uses; none when the slot is taken as not enabled (R74). -/
def SlotSettings.inUse (c : SlotSettings) : Option (ElementKind × Route) :=
  if c.enabled then
    match ElementKind.ofCode c.kindCode, Route.ofCode c.routeCode with
    | some .phaseInverse, some r =>
      if c.curve = 0 || (c.decay && c.decayStep == 0) then none else some (.phaseInverse, r)
    | some k, some r => some (k, r)
    | _, _ => none
  else none

/-- Whether a set qualifies for a slot (R76). -/
def SlotSettings.qualifies (c : SlotSettings) (k : ElementKind) (lineLive : Bool) (m : MeasurementSet) : Bool :=
  let qs := k.watched m
  let meets := qs.filter fun q => if c.usesBelow k then q < (c.pickup : Int) else (c.pickup : Int) ≤ q
  let supervised := k == .underfrequency || k == .overfrequency
  c.usedQualify qs.length ≤ meets.length && (!supervised || lineLive)

/-- The excess of a qualifying set (R79): the largest phase current above the pickup. -/
def SlotSettings.excess (c : SlotSettings) (m : MeasurementSet) : Nat :=
  max m.currents.p1 (max m.currents.p2 m.currents.p3) - c.pickup

/-! ### The move of a slot at a set (R78 to R82, R84, R85) -/

/-- What an evaluation makes of a slot: its running part, whether it operates, and whether that operation
is at an operate point that found the Block List empty (R88). -/
structure SlotMove where
  run : SlotRun
  operates : Bool
  listEmpty : Bool
  deriving DecidableEq, Repr

/-- A slot that reaches its operate point (R81): held when blockable and blocked. -/
def atOperatePoint (c : SlotSettings) (blocked : Bool) (r : SlotRun) : SlotMove :=
  if c.blockable && blocked then ⟨{ r with state := .held }, false, false⟩
  else ⟨{ r with state := .operated }, true, !blocked⟩

/-- A timing slot after its count or accumulator has risen: the operate point, or PICKED. -/
def timed (c : SlotSettings) (blocked reached : Bool) (r : SlotRun) : SlotMove :=
  if reached then atOperatePoint c blocked r else ⟨{ r with state := .picked }, false, false⟩

/-- A held slot after its count or accumulator has risen: it operates when the list is empty (R82). -/
def heldOn (blocked : Bool) (r : SlotRun) : SlotMove :=
  if blocked then ⟨r, false, false⟩ else ⟨{ r with state := .operated }, true, false⟩

/-- A slot at rest: IDLE with count and accumulator 0; an intertrip demand ends (R84). -/
def atRest (r : SlotRun) : SlotMove :=
  ⟨{ r with state := .idle, count := 0, acc := 0, demand := false }, false, false⟩

/-- The move of a definite slot (R78). -/
def moveDefinite (c : SlotSettings) (blocked qualifies : Bool) (r : SlotRun) : SlotMove :=
  let counted := { r with count := satSucc 65535 r.count }
  match r.state, qualifies with
  | .idle, true => timed c blocked (c.delay ≤ 1) { r with count := 1 }
  | .idle, false => ⟨r, false, false⟩
  | .picked, true => timed c blocked (c.delay ≤ counted.count) counted
  | .held, true => heldOn blocked counted
  | .operated, true => ⟨r, false, false⟩
  | .resetting, true => timed c blocked (c.delay ≤ counted.count) counted
  | _, false => atRest r

/-- An accumulator with an excess added, saturating (R79). -/
def accumulate (acc e : Nat) : Nat := min (acc + e) 4294967295

/-- One step of the decay (R80). -/
def decayed (c : SlotSettings) (r : SlotRun) : SlotMove :=
  let acc := r.acc - c.decayStep
  if acc = 0 then ⟨{ r with state := .idle, acc := 0 }, false, false⟩
  else ⟨{ r with state := .resetting, acc := acc }, false, false⟩

/-- An inverse slot that leaves PICKED or HELD at a non-qualifying set (R79). -/
def resetInverse (c : SlotSettings) (r : SlotRun) : SlotMove :=
  if c.decay then decayed c r else ⟨{ r with state := .idle, acc := 0 }, false, false⟩

/-- The move of an inverse slot (R79, R80). -/
def moveInverse (c : SlotSettings) (blocked qualifies : Bool) (e : Nat) (r : SlotRun) : SlotMove :=
  let added := { r with acc := accumulate r.acc e }
  match r.state, qualifies with
  | .idle, true => timed c blocked (c.curve ≤ accumulate 0 e) { r with acc := accumulate 0 e }
  | .idle, false => ⟨r, false, false⟩
  | .picked, true => timed c blocked (c.curve ≤ added.acc) added
  | .picked, false => resetInverse c r
  | .resetting, true => timed c blocked (c.curve ≤ added.acc) added
  | .resetting, false => decayed c r
  | .held, true => heldOn blocked added
  | .held, false => resetInverse c r
  | .operated, true => ⟨r, false, false⟩
  | .operated, false => atRest r

/-- The counters of a move (R85), and whether an operation took the slot out of HELD (R114, log 38). -/
def countMove (c : SlotSettings) (before : SlotRun) (qualifies : Bool) (v : SlotMove) : SlotMove :=
  let picked := if c.edge then qualifies && before.state == .idle else qualifies
  { v with run := { v.run with
      pickups := if picked then v.run.pickups + 1 else v.run.pickups
      released := if v.operates then before.state == .held else v.run.released
      operations := if v.operates then v.run.operations + 1 else v.run.operations } }

/-- The move of a slot of a kind at a set, with its counters. -/
def moveSlot (c : SlotSettings) (k : ElementKind) (blocked lineLive : Bool) (m : MeasurementSet) (r : SlotRun) :
    SlotMove :=
  let q := c.qualifies k lineLive m
  countMove c r q
    (match k with
      | .phaseInverse => moveInverse c blocked q (c.excess m) r
      | _ => moveDefinite c blocked q r)

/-! ### The station's slots -/

/-- A slot that is not enabled and does nothing: what a number without settings has, and what a READ of the protection
record shows of the settings part where none is loaded (log 9). -/
def SlotSettings.absent : SlotSettings :=
  { enabled := false, blockable := false, announces := false, decay := false, edge := false, kindCode := 0,
    compareCode := 2, qualify := 1, routeCode := 0, pickup := 0, delay := 0, curve := 0, decayStep := 0 }

/-- The slot numbers. -/
def slotNumbers : List Nat := List.range' 1 8

/-- The settings of a slot. -/
def State.slotSettings (s : State) (n : Nat) : SlotSettings := s.station.slots.getD (n - 1) .absent

/-- The running part of a slot. -/
def State.slotRun (s : State) (n : Nat) : SlotRun := s.prot.slots.getD (n - 1) .initial

/-- Change the running part of a slot. -/
def State.onSlot (n : Nat) (f : SlotRun → SlotRun) (s : State) : State :=
  s.onProt fun p => { p with slots := updateAt f (n - 1) p.slots }

/-- Whether the Block List holds an entry. -/
def State.blocked (s : State) : Bool := !s.zone.blockList.isEmpty

/-! ### The announcement demand (R87) -/

/-- Whether an enabled announcing slot is in a state other than IDLE. -/
def State.announces (s : State) : Bool :=
  slotNumbers.any fun n =>
    (s.slotSettings n).inUse.isSome && (s.slotSettings n).announces && !((s.slotRun n).state == .idle)

/-- Judge the announcement demand and hand its change to the Zone Unit. -/
def State.judgeAnnouncement (s : State) : State :=
  if s.announces == s.prot.announcing then s
  else
    let s1 := s.onProt fun p => { p with announcing := s.announces }
    if s.announces then s1.startBlock else s1.endBlock

/-! ### Operation (R83, R88) -/

/-- Whether an operation raises BUS_FAULT (R88). -/
def State.busFaultHolds (s : State) (k : ElementKind) (r : Route) (listEmpty : Bool) : Bool :=
  (k == .phaseDefinite || k == .phaseInverse || k == .earth) && (r == .localTrip || r == .both) &&
    !(s.ownKind == some .feeder) && listEmpty

/-- The actions of an operation by its route, and its raises (R83). -/
def State.operate (n : Nat) (k : ElementKind) (r : Route) (listEmpty : Bool) (s : State) : State :=
  let s1 := if r == .localTrip || r == .both then s.trip .protection else s
  let s2 := if r == .upstream || r == .both then (s1.onSlot n fun x => { x with demand := true }).judgeIntertrip else s1
  let s3 := s2.raise .elementOperated (.slot n)
  if s3.busFaultHolds k r listEmpty then s3.raise .busFault (.slot n) else s3

/-- Evaluate one slot on a set (R77): its move, the announcement demand, the end of its intertrip demand, and
its operation. Where one return ends both demands, BLOCK off is placed before INTERTRIP clear (log 34). -/
def State.evaluateSlot (m : MeasurementSet) (s : State) (n : Nat) : State :=
  match (s.slotSettings n).inUse with
  | none => s
  | some (k, r) =>
    let v := moveSlot (s.slotSettings n) k s.blocked s.meas.line.live m (s.slotRun n)
    let s1 := ((s.onSlot n fun _ => v.run).judgeAnnouncement).judgeIntertrip
    if v.operates then s1.operate n k r v.listEmpty else s1

/-- Evaluate the slots in order (R77). -/
def State.evaluate (m : MeasurementSet) (s : State) : State := slotNumbers.foldl (State.evaluateSlot m) s

/-- Release one slot from HELD (R82). -/
def State.releaseSlot (s : State) (n : Nat) : State :=
  match (s.slotSettings n).inUse with
  | none => s
  | some (k, r) =>
    if (s.slotRun n).state == .held then
      (s.onSlot n fun x => { x with
        state := .operated, operations := x.operations + 1, released := true }).operate n k r false
    else s

/-- The Block List has become empty: held elements operate, slot 1 first (log 34), unless a set loss freezes them (R82,
R86). -/
def State.releaseHeld (s : State) : State := if s.meas.setLoss then s else slotNumbers.foldl State.releaseSlot s

end Sys2Proof.Machine
end

