-- ==== Sys2Proof/Machine/Settle.lean ====
section
/-!
DEFINITION. The hand-ons of an event (R72, R95, R100, R110, R112, R117, R126, R138): what each block does with
what another has handed to it, in the order the reference lists the receivers (log 5).
-/

namespace Sys2Proof.Machine

/-- The role unit takes an opening (R72). -/
def State.roleOpened (sources : List TripSource) (s : State) : State :=
  match s.ownKind with
  | some .generator => s.generatorOpened
  | some .incomer => s.changeoverOpened
  | some .tie => s.tieOpened
  | some .feeder => s.feederOpened sources
  | none => s

/-- The role unit takes "closed" (R72). -/
def State.roleClosed (mark : Bool) (s : State) : State :=
  match s.ownKind with
  | some .generator => s.generatorClosed true
  | some .incomer => s.changeoverClosed mark
  | some .tie => s.tieClosed mark
  | some .feeder => s
  | none => s

/-- The role unit takes an unrequested close (R71, R72). -/
def State.roleUnrequested (s : State) : State :=
  match s.ownKind with
  | some .generator => s.generatorClosed false
  | some .incomer => s.changeoverUnrequested
  | some .tie => s.tieUnrequested
  | some .feeder => s.feederUnrequested
  | none => s

/-- The role unit is told that the claim record has returned to IDLE (R126). -/
def State.roleClaimIdle (c : Option ReleaseCause) (closed marked : Bool) (s : State) : State :=
  match s.ownKind with
  | some .generator => s.judgeWant
  | some .incomer => s.changeoverClaimIdle c marked
  | some .tie => s.tieClaimIdle closed marked
  | some .feeder => s
  | none => s

/-- One hand-on taken by its receivers (R72). An unrequested close is the role unit's alone: it ends no CLOSE (log 21). -/
def State.takeNews (s : State) (n : News) : State :=
  match n with
  | .closed mark => ((s.tokenClosed mark).roleClosed mark).operateClosed
  | .closeFailed => s.tokenCloseFailed.feederCloseFailed
  | .closeAborted src => s.tokenCloseFailed.feederAborted src
  | .opened sources => (s.roleOpened sources).operateOpened
  | .closedUnrequested => s.roleUnrequested
  | .lockoutOnset => s.tokenLockout.judgeFeederClose
  | .lockoutEnd => s.changeoverLockoutEnd.judgeFeederClose
  | .barredChanged barred => s.generatorBarred barred
  | .claimIdle c closed marked => (s.roleClaimIdle c closed marked).operateClaimIdle c closed
  | .claimWithdrawn => (s.roleClaimIdle none false false).operateClaimIdle none false
  | .claimTest k => s.changeoverClaimTest k
  | .holdExpired => s.changeoverHoldLost
  | .syncTimedOut => s.changeoverHoldLost
  | .acceptedChanged held => (if held then s else s.tokenAcceptedNone).judgeFeederClose
  | .blockListEmptied => s.releaseHeld

/-- Take the hand-ons, and those they lead to, wave after wave (log 5). -/
def settleFor : Nat → State → State
  | 0, s => s
  | k + 1, s =>
    match s.news with
    | [] => s
    | ns => settleFor k (ns.foldl State.takeNews { s with news := [] })

/-- Take every hand-on of the event. -/
def State.settle (s : State) : State := settleFor Config.handOffDepth s

/-- What is judged at the end of every event: the autonomous timer (R145), the START evaluation (R166), and the
ends of an operation (R179). -/
def State.wrapUp (s : State) : State := s.judgeAutonomous.judgeStart.judgeOperation

/-- What follows the own work of an event that began in `before`: the hand-ons, what is judged at its end, and the
CHANGE STATUS it calls for (R31). Between events nothing waits to be handed on (log 5). -/
def State.finish (before s : State) : State :=
  State.changeStatus before { s.settle.wrapUp.settle with news := [] }

/-- One event at a CONFIGURED station: its own work, and what follows it. At any other station it has no effect. -/
def event (f : State → State) (s : State) : Host.Outcome State Fault Refusal :=
  .next (if s.configured then State.finish s (f s) else s)

/-- An event of a timer that runs; the expiry of a stopped timer has no effect (log 23). -/
def timerEvent (t : State → Timer) (f : State → State) (s : State) : Host.Outcome State Fault Refusal :=
  event (fun s => if (t s).isSome then f s else s) s

end Sys2Proof.Machine
end

