-- ==== Sys2Proof/Machine/Cell.lean ====
section
/-!
DEFINITION. The commands of the station's cell (chapters 4 and 5): measurement sets, contact positions, the
breaker's timers and the READY input.
-/

namespace Sys2Proof.Machine

/-! ### Positions (R64, R68, R70, R71) -/

/-- A position judged outside an operation, in CLOSED or in OPEN with no watch (R71). -/
def State.outsidePosition (s : State) : State :=
  match s.brk.state, s.position with
  | .closed, .opened =>
    (s.onBrk fun b => { b with state := .opened, sources := [], disagreementTimer := none }).tell (.opened [])
  | .opened, .closed =>
    (s.onBrk fun b => { b with state := .closed, disagreementTimer := none }).tell .closedUnrequested
  | .closed, .closed => s.onBrk fun b => { b with disagreementTimer := none }
  | .opened, .opened => s.onBrk fun b => { b with disagreementTimer := none }
  | _, _ =>
    if s.brk.disagreementTimer.isSome then s
    else s.onBrk fun b => { b with disagreementTimer := some s.station.disagreementLimit }

/-- The requested close reaches CLOSED (R64); with the mark set, an ABORT trip follows once the receivers have been
told (R67). -/
def State.reachClosed (s : State) : State :=
  let marked := s.brk.mark
  let s1 := (s.onBrk fun b => { b with
    state := .closed, closeOut := false, closeTimer := none, mark := false }).tell (.closed marked)
  if marked then s1.settle.trip .abort else s1

/-- The position open during OPENING (R68). -/
def State.reachOpen (s : State) : State :=
  (s.onBrk fun b =>
    if s.currentsBelow then { b with state := .opened, watch := false, openTimer := none, tripOut := false }
    else { b with state := .opened, watch := true }).tell (.opened s.brk.sources)

/-- FAILED is left for OPEN when the position is open and the currents are below (R70). The opening is handed on with the
trip sources as they stand; when they are none it is taken like a spontaneous one (log 33). -/
def State.leaveFailed (s : State) : State :=
  if s.position == .opened && s.currentsBelow then
    let s1 := s.onBrk fun b => { b with state := .opened, tripOut := false, openTimer := none, origin := .none }
    let s2 := if s.brk.origin == .noOpen then s1.breakerFailureEnds else s1
    s2.tell (.opened s.brk.sources)
  else s

/-- A position event, by the breaker state. -/
def State.takePosition (s : State) : State :=
  match s.brk.state with
  | .closing =>
    if s.position == .closed then s.reachClosed
    else if s.position == .opened then s
    else s.onBrk fun b => { b with closeOut := false }
  | .opening => if s.position == .opened then s.reachOpen else s
  | .failed => s.leaveFailed
  | .closed => s.outsidePosition
  | .opened => if s.brk.watch then s else s.outsidePosition

/-- POSITION_EVENT (R60): the contact pair takes a new value; one that is not a change is no event. At a station
that is not CONFIGURED the position is followed and nothing more (R61). -/
def execPositionEvent (auxA auxB : Bool) (s : State) : Host.Outcome State Fault Refusal :=
  if s.pins.auxA == auxA && s.pins.auxB == auxB then .next s
  else event State.takePosition (s.onPins fun p => { p with auxA := auxA, auxB := auxB })

/-! ### The breaker's timers (R65, R69, R71) -/

/-- The close limit expires in CLOSING (R65). -/
def State.closeLimitExpired (s : State) : State :=
  if s.brk.state == .closing then
    if s.position == .opened then
      ((s.onBrk fun b => { b with state := .opened, closeOut := false, closeTimer := none, mark := false }).tell
        .closeFailed).raise .breakerNoClose .none
    else
      ((s.onBrk fun b => { b with
        state := .failed, origin := .disagree, closeOut := false, closeTimer := none, mark := false }).tell
        .closeFailed).raise .breakerDisagree .none
  else s

def execCloseLimitExpiry (s : State) : Host.Outcome State Fault Refusal :=
  timerEvent (·.brk.closeTimer) State.closeLimitExpired s

/-- The open limit expires (R69). -/
def State.openLimitExpired (s : State) : State :=
  if s.brk.state == .opening || (s.brk.state == .opened && s.brk.watch) then
    let s1 := s.onBrk fun b => { b with
      state := .failed, origin := .noOpen, watch := false, tripOut := false, openTimer := none }
    (s1.raise .breakerNoOpen s1.latestContext).breakerFailureBegins
  else s.onBrk fun b => { b with tripOut := false, openTimer := none }

def execOpenLimitExpiry (s : State) : Host.Outcome State Fault Refusal :=
  timerEvent (·.brk.openTimer) State.openLimitExpired s

/-- The disagreement limit expires (R71). -/
def State.disagreementExpired (s : State) : State :=
  (s.onBrk fun b => { b with state := .failed, origin := .disagree, disagreementTimer := none }).raise
    .breakerDisagree .none

def execDisagreementLimitExpiry (s : State) : Host.Outcome State Fault Refusal :=
  timerEvent (·.brk.disagreementTimer) State.disagreementExpired s

/-! ### READY (R73) -/

/-- READY_INPUT_CHANGE. -/
def execReadyInputChange (on : Bool) (s : State) : Host.Outcome State Fault Refusal :=
  if s.pins.ready == on then .next s
  else event State.generatorReadyChange (s.onPins fun p => { p with ready := on })

/-! ### Measurement sets (R54 to R59) -/

/-- Whether an arriving set is a set gap (R55). -/
def State.isSetGap (m : MeasurementSet) (s : State) : Bool :=
  !s.meas.setLoss &&
    (match s.meas.lastSeq with
      | some q => !(m.seq == q + 1)
      | none => false)

/-- Both flags with their counts at 0 (R55, R56). -/
def MeasurementRecord.clearRuns (r : MeasurementRecord) : MeasurementRecord :=
  { r with line := r.line.clearRuns, bus := r.bus.clearRuns }

/-- A set gap: raised, the counts cleared, the window broken (R55). -/
def State.setGap (m : MeasurementSet) (s : State) : State :=
  ((s.raise .setGap (.set m)).onMeas MeasurementRecord.clearRuns).breakWindow

/-- The set stored, the loss ended, the timer restarted and the flags advanced (R54, R56, R58). -/
def State.storeSet (m : MeasurementSet) (s : State) : State :=
  s.onMeas fun r => { r with
    latest := some m, lastSeq := some m.seq, setLoss := false, lossTimer := some (s.station.halfMs * 4)
    line := r.line.advance (lineClass s.station m), bus := r.bus.advance (busClass s.station m) }

/-- Whether either live flag differs. -/
def State.flagsDiffer (before s : State) : Bool :=
  !(before.meas.line.live == s.meas.line.live) || !(before.meas.bus.live == s.meas.bus.live)

/-- A change of either live flag since `before` reaches the Sync Unit, the role unit and the Token Unit (R58). -/
def State.flagChange (before s : State) : State :=
  (s.syncFlagChange.generatorFlagChange !(before.meas.line.live == s.meas.line.live)).tokenFlagChange

/-- The Sync Unit takes the set, and its offer reaches the Token Unit (R135, R137). -/
def State.syncSet (m : MeasurementSet) (s : State) : State :=
  match s.syncTake m with
  | (s1, true) => s1.tokenOffer
  | (s1, false) => s1

/-- The Breaker Controller judges the currents of a set (R68, R70). -/
def State.judgeCurrents (s : State) : State :=
  match s.brk.state with
  | .opened =>
    if s.brk.watch && s.currentsBelow then
      let s1 := s.onBrk fun b => { b with watch := false, openTimer := none, tripOut := false }
      if s1.position == .opened then s1 else s1.outsidePosition
    else s
  | .failed => s.leaveFailed
  | _ => s

/-- A set arrival in the order of R54. A changed live flag is handed on before the set (R58), and so is the end of a set loss:
a session that the measurement made afresh opens takes this set as its first (log 41). -/
def State.takeSet (m : MeasurementSet) (s : State) : State :=
  let gap := s.isSetGap m
  let s1 := if gap then s.setGap m else s
  let s2 := s1.storeSet m
  let s3 := if State.flagsDiffer s1 s2 then State.flagChange s1 s2 else s2
  let s4 := if s.meas.setLoss then s3.tokenLossEnd else s3
  let s5 := ((s4.evaluate m).syncSet m).monitorTake gap m
  s5.computeBias.judgeCurrents.refreshBias

/-- SET_ARRIVAL (R54). -/
def execSetArrival (m : MeasurementSet) (s : State) : Host.Outcome State Fault Refusal := event (State.takeSet m) s

/-- SET_DISCARD (R54). -/
def execSetDiscard (s : State) : Host.Outcome State Fault Refusal :=
  event (fun s => s.onMeas fun r => { r with discards := r.discards + 1 }) s

/-- The set-loss timer expires (R56). -/
def State.setLossBegins (s : State) : State :=
  let s1 := s.onMeas fun r => { r.clearRuns with setLoss := true, lossTimer := none }
  ((s1.raise .setLoss s1.latestContext).breakWindow).zeroBias

/-- SET_LOSS_TIMER_EXPIRY (R56). -/
def execSetLossTimerExpiry (s : State) : Host.Outcome State Fault Refusal :=
  timerEvent (·.meas.lossTimer) State.setLossBegins s

end Sys2Proof.Machine
end

