-- ==== Sys2Proof/Machine/Operands.lean ====
section
/-!
DEFINITION. Operands that are bytes: reading and writing multi-byte fields (13.4), the check codes, and
the settings image with its ordered tests (R175).
-/

namespace Sys2Proof.Machine

/-! ### Fields (13.4: most significant byte first) -/

/-- The byte at an offset; 0 beyond the end (log 8). -/
def byteAt (bs : List Byte) (i : Nat) : Nat := (bs.getD i 0).toNat

/-- The two-byte field at an offset. -/
def wordAt (bs : List Byte) (i : Nat) : Nat := byteAt bs i * 256 + byteAt bs (i + 1)

/-- The four-byte field at an offset. -/
def longAt (bs : List Byte) (i : Nat) : Nat := wordAt bs i * 65536 + wordAt bs (i + 2)

/-- One byte. -/
def byte1 (n : Nat) : List Byte := [BitVec.ofNat 8 n]

/-- A two-byte field. -/
def byte2 (n : Nat) : List Byte := [BitVec.ofNat 8 (n / 256), BitVec.ofNat 8 n]

/-- A four-byte field. -/
def byte4 (n : Nat) : List Byte := byte2 (n / 65536) ++ byte2 n

/-- A signed two-byte field. -/
def signed2 (x : Int) : List Byte := byte2 (x % 65536).toNat

/-- The signed value of a two-byte field. -/
def signedOf (n : Nat) : Int := if n < 32768 then n else (n : Int) - 65536

/-- A yes or no value. -/
def flagByte (b : Bool) : List Byte := byte1 b.toNat

/-- Bit `i` of a number. -/
def bitOf (n i : Nat) : Bool := n / 2 ^ i % 2 == 1

/-- A number from its bits, the lowest first. -/
def ofBits : List Bool → Nat
  | [] => 0
  | b :: bs => b.toNat + 2 * ofBits bs

/-- A set of sections as bits 0 to 3 (13.4). -/
def SectionSet.bits (t : SectionSet) : Nat := ofBits [t.a, t.b, t.c, t.d]

/-- The set of sections of bits 0 to 3. -/
def SectionSet.ofNat (n : Nat) : SectionSet := ⟨bitOf n 0, bitOf n 1, bitOf n 2, bitOf n 3⟩

/-- A set of fault kinds: bit k − 1 for kind k (13.4). -/
def kindSetBits (t : PerKind Bool) : Nat := ofBits (FaultKind.all.map t.get)

/-- The set of fault kinds of sixteen bits. -/
def kindSetOf (n : Nat) : PerKind Bool := PerKind.make fun k => bitOf n (k.number - 1)

/-! ### Check codes (13.4) -/

/-- One bit taken by the 32-bit check. -/
def crc32Bit (r : Word32) (b : Bool) : Word32 :=
  if (r.msb != b) then (r <<< 1) ^^^ 0x04C11DB7#32 else r <<< 1

/-- One byte taken by the 32-bit check, least significant bit first. -/
def crc32Byte (r : Word32) (x : Byte) : Word32 :=
  [0, 1, 2, 3, 4, 5, 6, 7].foldl (fun r i => crc32Bit r (x.getLsbD i)) r

/-- The 32-bit check of 13.4: initial value FFFFFFFF, the remainder bit-reversed and inverted. -/
def crc32 (bs : List Byte) : Word32 := ~~~ (bs.foldl crc32Byte 0xFFFFFFFF#32).reverse

/-- One bit taken by the 16-bit check. -/
def crc16Bit (r : Word16) (b : Bool) : Word16 :=
  if (r.msb != b) then (r <<< 1) ^^^ 0x1021#16 else r <<< 1

/-- One byte taken by the 16-bit check, most significant bit first. -/
def crc16Byte (r : Word16) (x : Byte) : Word16 :=
  [7, 6, 5, 4, 3, 2, 1, 0].foldl (fun r i => crc16Bit r (x.getLsbD i)) r

/-- The 16-bit check of the Maintenance Port (13.4): initial value FFFF, no reversal or inversion. -/
def crc16 (bs : List Byte) : Word16 := bs.foldl crc16Byte 0xFFFF#16

/-! ### The settings image (13.4) -/

/-- The bytes of an image after its header, up to its length: what the image check covers, whatever offset of the campus part
the header gives (log 8). -/
def imageCovered (bs : List Byte) : List Byte := (bs.take (wordAt bs 0)).drop Config.imageHeader

/-- The bytes of the campus part, from the offset of the header: what the digest covers. No test judges the offset (log 8). -/
def imageCampus (bs : List Byte) : List Byte := (bs.take (wordAt bs 0)).drop (wordAt bs 8)

/-- The bytes of the station part and what follows it. -/
def imageStation (bs : List Byte) : List Byte := imageCovered bs

/-- An element slot of 17 bytes. Bits 5 to 7 of byte 0 carry no setting and are ignored (log 8). -/
def parseSlot (p : List Byte) (i : Nat) : SlotSettings :=
  let o := 46 + 17 * i
  let f := byteAt p o
  { enabled := bitOf f 0, blockable := bitOf f 1, announces := bitOf f 2, decay := bitOf f 3, edge := bitOf f 4
    kindCode := byteAt p (o + 1), compareCode := byteAt p (o + 2), qualify := byteAt p (o + 3)
    routeCode := byteAt p (o + 4), pickup := longAt p (o + 5), delay := wordAt p (o + 9)
    curve := longAt p (o + 11), decayStep := wordAt p (o + 15) }

/-- A downstream pattern of 3 bytes. A valid byte other than 0 and 1 is read as not valid (log 8). -/
def parsePattern (p : List Byte) (i : Nat) : Pattern :=
  let o := 32 + 3 * i
  { value := byteAt p o, mask := byteAt p (o + 1), valid := byteAt p (o + 2) == 1 }

/-- The set period of its code, in half milliseconds: 0.5, 1 or 2 ms; 0 for a code that names none. -/
def halfMsOf : Nat → Nat
  | 0 => 1
  | 1 => 2
  | 2 => 4
  | _ => 0

/-- The code of a set period in half milliseconds. -/
def halfMsCode (n : Nat) : Nat := if n = 1 then 0 else if n = 2 then 1 else 2

/-- The station part. -/
def parseStation (p : List Byte) : StationSettings :=
  { number := byteAt p 0
    kindCode := byteAt p 1
    zoneMap := (List.range 30).map fun k => byteAt p (2 + k)
    patterns := (List.range 4).map (parsePattern p)
    blockLimit := wordAt p 44
    slots := (List.range 8).map (parseSlot p)
    halfMs := halfMsOf (byteAt p 182)
    lineNominal := wordAt p 183
    busNominal := wordAt p 185
    closeLimit := wordAt p 187
    openLimit := wordAt p 189
    disagreementLimit := wordAt p 191
    failureCurrent := wordAt p 193
    window := byteAt p 195
    slipLimit := wordAt p 196
    angleLimit := wordAt p 198
    voltageLimit := byteAt p 200
    syncTimeout := byteAt p 201
    speedGain := wordAt p 202
    voltageGain := wordAt p 204
    startLimit := byteAt p 206
    autonomousDelay := byteAt p 207
    minimumRun := wordAt p 208
    surplusDwell := wordAt p 210
    unloadRate := byteAt p 212
    unloadThreshold := wordAt p 213
    cooldown := wordAt p 215
    sharingGain := wordAt p 217
    lineFrequency := longAt p 219
    voltageBand := byteAt p 223
    frequencyBand := wordAt p 224
    rideThrough := wordAt p 226
    returnStable := wordAt p 228
    tieAssistLimit := byteAt p 230
    parallelLimit := wordAt p 231
    mask := kindSetOf (wordAt p 233)
    severityCode := PerKind.make fun k => byteAt p (234 + k.number) }

/-- A station entry of the campus part as its bytes give it. -/
structure RawEntry where
  number : Nat
  kindCode : Nat
  secCode : Nat
  rating : Nat
  level : Nat
  autoAdmit : Bool
  deriving DecidableEq, Repr

/-- The entry at a place of the campus part. Bits 3 to 6 of byte 5 carry no setting and are ignored (log 8). -/
def parseEntry (c : List Byte) (i : Nat) : RawEntry :=
  let o := 6 + 6 * i
  { number := byteAt c o, kindCode := byteAt c (o + 1), secCode := byteAt c (o + 2), rating := wordAt c (o + 3)
    level := byteAt c (o + 5) % 8, autoAdmit := bitOf (byteAt c (o + 5)) 7 }

/-- The entries the campus part holds: one for each 6 bytes after its first 6. -/
def rawEntries (c : List Byte) : List RawEntry := (List.range ((c.length - 6) / 6)).map (parseEntry c)

/-- The configured station a raw entry gives, when its kind and section codes name values. -/
def RawEntry.entry (e : RawEntry) : Option CampusEntry :=
  match StationKind.ofCode e.kindCode, BusSection.ofCode e.secCode with
  | some k, some x => some ⟨e.number, k, x, e.rating, e.level, e.autoAdmit⟩
  | _, _ => none

/-- The campus part. Bits 4 to 7 of the configured sections carry no setting and are ignored (log 8). -/
def parseCampus (c : List Byte) : CampusSettings :=
  { count := byteAt c 0
    configured := SectionSet.ofNat (byteAt c 1)
    reserve := byteAt c 2
    round := byteAt c 3
    holdLimit := byteAt c 4
    tiePolicy := if byteAt c 5 = 0 then .tieFirst else .generatorFirst
    stations := (rawEntries c).filterMap RawEntry.entry }

/-! ### The ordered tests (R175) -/

/-- Whether a number lies in a range. -/
def inRange (lo hi n : Nat) : Bool := lo ≤ n && n ≤ hi

/-- The stations of a kind that satisfy `p`. -/
def countOf (es : List CampusEntry) (k : StationKind) (p : CampusEntry → Bool) : Nat :=
  (es.filter fun e => e.kind == k && p e).length

/-- Whether a list repeats nothing. -/
def allDifferent : List Nat → Bool
  | [] => true
  | x :: xs => !xs.contains x && allDifferent xs

/-- What test 7 asks of one section. -/
def sectionCounts (c : CampusSettings) (x : BusSection) : Bool :=
  if c.configured.get x then
    countOf c.stations .incomer (fun e => e.sec == x) == 1 &&
    countOf c.stations .generator (fun e => e.sec == x) ≤ 6 &&
    countOf c.stations .feeder (fun e => e.sec == x) ≤ 8 &&
    (match x.next with
      | some y => !c.configured.get y || countOf c.stations .tie (fun e => e.sec == x) == 1
      | none => true)
  else true

/-- Whether a station's sections are configured; a tie needs its neighbour too. -/
def entrySections (c : CampusSettings) (e : CampusEntry) : Bool :=
  c.configured.get e.sec &&
    (match e.kind, e.sec.next with
      | .tie, some y => c.configured.get y
      | .tie, none => false
      | _, _ => true)

/-- Test 7: the campus list is consistent. Codes that name no kind or section fail it (log 8). -/
def countsGood (raw : List RawEntry) (length : Nat) (c : CampusSettings) : Bool :=
  length == 6 + 6 * c.count && c.count == raw.length && inRange 1 30 c.count &&
  allDifferent (raw.map (·.number)) && raw.all (fun e => e.entry.isSome) &&
  c.stations.all (entrySections c) && BusSection.all.all (sectionCounts c) &&
  countOf c.stations .generator (fun _ => true) ≤ 12 && countOf c.stations .feeder (fun _ => true) ≤ 16

/-- Test 8 over the station part: every scalar in the range its chapter states. -/
def stationGood (st : StationSettings) : Bool :=
  inRange 50 500 st.blockLimit && !(st.halfMs == 0) && inRange 1 65535 st.lineNominal &&
  inRange 1 65535 st.busNominal && inRange 20 250 st.closeLimit && inRange 60 500 st.openLimit &&
  inRange 20 250 st.disagreementLimit && inRange 0 65535 st.failureCurrent && inRange 8 64 st.window &&
  inRange 10 500 st.slipLimit && inRange 200 3000 st.angleLimit && inRange 10 100 st.voltageLimit &&
  inRange 5 120 st.syncTimeout && inRange 0 10000 st.speedGain && inRange 0 10000 st.voltageGain &&
  inRange 5 60 st.startLimit && inRange 2 30 st.autonomousDelay && inRange 0 600 st.minimumRun &&
  inRange 5 600 st.surplusDwell && inRange 1 100 st.unloadRate && inRange 0 500 st.unloadThreshold &&
  inRange 0 900 st.cooldown && inRange 0 10000 st.sharingGain && inRange 1 65535000 st.lineFrequency &&
  inRange 5 20 st.voltageBand && inRange 100 2000 st.frequencyBand && inRange 50 5000 st.rideThrough &&
  inRange 10 1800 st.returnStable && inRange 1 30 st.tieAssistLimit && inRange 100 2000 st.parallelLimit

/-- Test 8 over the campus part, with the tie policy's code and the station numbers. -/
def campusGood (c : CampusSettings) (policyCode : Nat) : Bool :=
  inRange 0 50 c.reserve && inRange 5 50 c.round && inRange 1 60 c.holdLimit && inRange 0 1 policyCode &&
  c.stations.all fun e => inRange 1 30 e.number

/-- The verdict on an image: the first test of R175 that fails, or the settings it gives. Of two campus entries with the own
station number, whose uniqueness test 7 judges, test 6 compares the first (log 8). -/
def judgeImage (bs : List Byte) : Except LoadRefusal Loaded :=
  let length := wordAt bs 0
  let st := parseStation (imageStation bs)
  let cb := imageCampus bs
  let c := parseCampus cb
  let raw := rawEntries cb
  let own := raw.find? fun e => e.number == st.number
  if bs.length < 2 || bs.length < length then .error .noResponse
  else if !inRange Config.imageHeader Config.imageMax length then .error .badLength
  else if !((crc32 (imageCovered bs)).toNat == longAt bs 4) then .error .badCheck
  else if !(wordAt bs 2 == 1) then .error .badVersion
  else if !(inRange 1 30 st.number && own.isSome) then .error .badStation
  else if !((own.map (·.kindCode)) == some st.kindCode) then .error .kindMismatch
  else if !countsGood raw cb.length c then .error .badCounts
  else if !(stationGood st && campusGood c (byteAt cb 5)) then .error .badValue
  else .ok { station := st, campus := c, digest := crc32 cb }

/-! ### The image written again, for the settings record (13.4) -/

def SlotSettings.bytes (x : SlotSettings) : List Byte :=
  byte1 (ofBits [x.enabled, x.blockable, x.announces, x.decay, x.edge]) ++ byte1 x.kindCode ++
  byte1 x.compareCode ++ byte1 x.qualify ++ byte1 x.routeCode ++ byte4 x.pickup ++ byte2 x.delay ++
  byte4 x.curve ++ byte2 x.decayStep

def Pattern.bytes (p : Pattern) : List Byte := byte1 p.value ++ byte1 p.mask ++ flagByte p.valid

/-- The sync settings as the station part lays them out. -/
def StationSettings.syncPart (t : StationSettings) : List Byte :=
  byte1 t.window ++ byte2 t.slipLimit ++ byte2 t.angleLimit ++ byte1 t.voltageLimit ++ byte1 t.syncTimeout ++
  byte2 t.speedGain ++ byte2 t.voltageGain

/-- The zone settings as the station part lays them out. -/
def StationSettings.zonePart (t : StationSettings) : List Byte :=
  t.zoneMap.flatMap byte1 ++ t.patterns.flatMap Pattern.bytes ++ byte2 t.blockLimit

def StationSettings.maskBytes (t : StationSettings) : List Byte :=
  byte2 (kindSetBits t.mask) ++ FaultKind.all.flatMap fun k => byte1 (t.severityCode.get k)

/-- The station part of 251 bytes. -/
def StationSettings.bytes (t : StationSettings) : List Byte :=
  byte1 t.number ++ byte1 t.kindCode ++ t.zonePart ++ t.slots.flatMap SlotSettings.bytes ++
  byte1 (halfMsCode t.halfMs) ++ byte2 t.lineNominal ++ byte2 t.busNominal ++ byte2 t.closeLimit ++
  byte2 t.openLimit ++ byte2 t.disagreementLimit ++ byte2 t.failureCurrent ++ t.syncPart ++
  byte1 t.startLimit ++ byte1 t.autonomousDelay ++ byte2 t.minimumRun ++ byte2 t.surplusDwell ++
  byte1 t.unloadRate ++ byte2 t.unloadThreshold ++ byte2 t.cooldown ++ byte2 t.sharingGain ++
  byte4 t.lineFrequency ++ byte1 t.voltageBand ++ byte2 t.frequencyBand ++ byte2 t.rideThrough ++
  byte2 t.returnStable ++ byte1 t.tieAssistLimit ++ byte2 t.parallelLimit ++ t.maskBytes

def CampusEntry.bytes (e : CampusEntry) : List Byte :=
  byte1 e.number ++ byte1 e.kind.code ++ byte1 e.sec.index ++ byte2 e.rating ++
  byte1 (e.level % 8 + 128 * e.autoAdmit.toNat)

/-- The campus part. -/
def CampusSettings.bytes (c : CampusSettings) : List Byte :=
  byte1 c.count ++ byte1 (SectionSet.bits c.configured) ++ byte1 c.reserve ++ byte1 c.round ++ byte1 c.holdLimit ++
  byte1 (if c.tiePolicy == .tieFirst then 0 else 1) ++ c.stations.flatMap CampusEntry.bytes

/-- A whole settings image that gives these settings: header, station part, campus part. -/
def imageOf (t : StationSettings) (c : CampusSettings) : List Byte :=
  let body := t.bytes ++ c.bytes
  byte2 (Config.imageHeader + body.length) ++ byte2 1 ++ byte4 (crc32 body).toNat ++
  byte2 (Config.stationPart + t.bytes.length) ++ body

end Sys2Proof.Machine
end

