-- ==== Sys2Proof/Machine/Layout.lean ====
section
/-!
DEFINITION. The layouts of frames and of Maintenance Port transactions (13.4), the receiver's four tests
(R21), and the command each accepted frame or transaction is.
-/

namespace Sys2Proof

open Sys2Proof.Machine

/-! ### STATUS -/

/-- STATUS body byte 0. -/
def StatusBody.byte0 (b : StatusBody) : Nat :=
  128 * (b.cause == .change).toNat + 32 * b.step.code + 8 * b.admission.code

/-- STATUS body byte 3. -/
def StatusBody.byte3 (b : StatusBody) : Nat := 8 * (b.epoch.founder % 32) + b.breaker.code

/-- STATUS body byte 8. -/
def StatusBody.byte8 (b : StatusBody) : Nat :=
  ofBits [b.quorumHeld, b.lineLive, b.busLive, b.lockout, b.blockAsserted, b.intertripAsserted, b.barred]

/-- STATUS body byte 15. -/
def StatusBody.byte15 (b : StatusBody) : Nat := 16 * SectionSet.bits b.tokensHeld + SectionSet.bits b.queuedFor

/-- The body of a STATUS, 16 bytes. -/
def StatusBody.bytes (b : StatusBody) : List Byte :=
  byte1 b.byte0 ++ byte2 b.epoch.serial.toNat ++ byte1 b.byte3 ++ byte4 b.digest.toNat ++ byte1 b.byte8 ++
  byte1 b.role ++ signed2 b.realPower ++ signed2 b.perUnit ++ byte1 (SectionSet.bits b.busFault) ++ byte1 b.byte15

/-- The content of the fields that STATUS and SUMMARY share, from their byte values; none when a code
names no value. -/
def statusOf (b0 serial b3 : Nat) (digest : Word32) (b8 role power unit b14 b15 : Nat) : Option StatusBody :=
  match StepState.ofCode (b0 / 32 % 4), AdmissionState.ofCode (b0 / 8 % 4), BreakerState.ofCode (b3 % 8) with
  | some st, some ad, some br => some
    { cause := if bitOf b0 7 then .change else .periodic
      step := st
      epoch := ⟨BitVec.ofNat 16 serial, b3 / 8⟩
      digest := digest
      quorumHeld := bitOf b8 0, lineLive := bitOf b8 1, busLive := bitOf b8 2, lockout := bitOf b8 3
      blockAsserted := bitOf b8 4, intertripAsserted := bitOf b8 5, barred := bitOf b8 6
      breaker := br
      role := role
      realPower := signedOf power
      perUnit := signedOf unit
      busFault := SectionSet.ofNat b14
      tokensHeld := SectionSet.ofNat (b15 / 16)
      queuedFor := SectionSet.ofNat b15
      admission := ad }
  | _, _, _ => none

/-- The STATUS body of 16 bytes. -/
def parseStatus (p : List Byte) : Option StatusBody :=
  statusOf (byteAt p 0) (wordAt p 1) (byteAt p 3) (BitVec.ofNat 32 (longAt p 4)) (byteAt p 8) (byteAt p 9) (wordAt p 10)
    (wordAt p 12) (byteAt p 14) (byteAt p 15)

/-! ### SUMMARY -/

/-- One Station Table entry of part 1, 11 bytes. -/
def SummaryEntry.bytes (e : SummaryEntry) : List Byte :=
  let marks := 16 * e.presence.code + 64 * e.stale.toNat + 128 * e.content.isSome.toNat
  let held := 128 * e.lastSeq.isSome.toNat
  byte1 ((e.lastSeq.map (·.toNat)).getD 0) ++
  match e.content with
  | some b =>
    byte1 b.byte0 ++ byte2 b.epoch.serial.toNat ++ byte1 b.byte3 ++ byte1 (b.byte8 + held) ++ byte1 b.role ++
      signed2 b.realPower ++ byte1 (SectionSet.bits b.busFault + marks) ++ byte1 b.byte15
  | none => byte1 0 ++ byte2 0 ++ byte1 0 ++ byte1 held ++ byte1 0 ++ byte2 0 ++ byte1 marks ++ byte1 0

/-- The entry of 11 bytes at an offset. -/
def parseSummaryEntry (p : List Byte) (o : Nat) : Option SummaryEntry :=
  let b8 := byteAt p (o + 5)
  let b14 := byteAt p (o + 9)
  let held : Option (Option StatusBody) :=
    if bitOf b14 7 then
      (statusOf (byteAt p (o + 1)) (wordAt p (o + 2)) (byteAt p (o + 4)) 0 b8 (byteAt p (o + 6)) (wordAt p (o + 7)) 0
        b14 (byteAt p (o + 10))).map some
    else some none
  match Presence.ofCode (b14 / 16 % 4), held with
  | some pr, some c => some
    { presence := pr
      lastSeq := if bitOf b8 7 then some (BitVec.ofNat 8 (byteAt p o)) else none
      stale := bitOf b14 6
      content := c }
  | _, _ => none

/-- The claimants of the four queues, each once, in ascending station number, with its entry number. -/
def claimants (t : PerSection SummaryToken) : List QueueEntry :=
  stationNumbers.filterMap fun n =>
    (BusSection.all.flatMap fun x => (t.get x).queue).find? fun q => q.station == n

/-- One section of part 1: holder, grant delivery number, count and the queued stations. -/
def SummaryToken.bytes (t : SummaryToken) : List Byte :=
  byte1 t.holder ++ byte4 t.grant.toNat ++ byte1 t.queue.length ++ t.queue.flatMap fun q => byte1 q.station

/-- What every SUMMARY body begins with. -/
def summaryHead (part : Nat) (serial : Word16) (e : EpochId) (delivery : Word32) : List Byte :=
  byte1 part ++ byte2 serial.toNat ++ byte2 e.serial.toNat ++ byte1 e.founder ++ byte4 delivery.toNat

/-- The body of part 1. -/
def SummaryOne.bytes (p : SummaryOne) : List Byte :=
  summaryHead 1 p.serial p.epoch p.delivery ++ p.entries.flatMap SummaryEntry.bytes ++
  BusSection.all.flatMap (fun x => (p.tokens.get x).bytes) ++
  (claimants p.tokens).flatMap fun q => byte4 q.entry.toNat

/-- The section at an offset: holder, grant, queued stations, and the offset after it. -/
def parseToken (p : List Byte) (o : Nat) : (Nat × Nat × List Nat) × Nat :=
  let k := byteAt p (o + 5)
  ((byteAt p o, longAt p (o + 1), (List.range k).map fun i => byteAt p (o + 6 + i)), o + 6 + k)

/-- The entry number of a claimant among the ascending claimants whose numbers begin at an offset. -/
def claimNumber (p : List Byte) (o : Nat) (all : List Nat) (n : Nat) : Word32 :=
  BitVec.ofNat 32 (longAt p (o + 4 * all.idxOf n))

/-- The body of part 1. -/
def parseSummaryOne (p : List Byte) : Option SummaryOne :=
  let entries := (List.range 30).filterMap fun i => parseSummaryEntry p (10 + 11 * i)
  let (ta, oa) := parseToken p 340
  let (tb, ob) := parseToken p oa
  let (tc, oc) := parseToken p ob
  let (td, od) := parseToken p oc
  let queued := ta.2.2 ++ tb.2.2 ++ tc.2.2 ++ td.2.2
  let all := stationNumbers.filter queued.contains
  let token (t : Nat × Nat × List Nat) : SummaryToken :=
    { holder := t.1, grant := BitVec.ofNat 32 t.2.1, queue := t.2.2.map fun n => ⟨n, claimNumber p od all n⟩ }
  if entries.length = 30 then some
    { serial := BitVec.ofNat 16 (wordAt p 1), epoch := ⟨BitVec.ofNat 16 (wordAt p 3), byteAt p 5⟩
      delivery := BitVec.ofNat 32 (longAt p 6), entries := entries
      tokens := ⟨token ta, token tb, token tc, token td⟩ }
  else none

def RunEntry.bytes (e : RunEntry) : List Byte := byte1 e.station ++ byte4 e.entry.toNat

def WaitEntry.bytes (e : WaitEntry) : List Byte :=
  byte1 (e.feeder + 128 * e.former.isSome.toNat) ++ byte4 e.entry.toNat ++
    byte4 ((e.former.map (·.toNat)).getD 0)

def AdmitEntry.bytes (e : AdmitEntry) : List Byte := byte1 e.feeder ++ byte4 e.admission.toNat

/-- A list with its count of one byte. -/
def countedBytes {α : Type} (f : α → List Byte) (xs : List α) : List Byte := byte1 xs.length ++ xs.flatMap f

/-- The last order of a section: its code, 255 when there is none, and its delivery number. -/
def lastOrderBytes : Option LastOrder → List Byte
  | some o => byte1 o.order.code ++ byte4 o.stamp.toNat
  | none => byte1 255 ++ byte4 0

/-- An island of part 2: its name and its three lists. -/
def SummaryIsland.bytes (i : SummaryIsland) : List Byte :=
  byte1 i.name.index ++ countedBytes RunEntry.bytes i.runList ++ countedBytes WaitEntry.bytes i.queue ++
    countedBytes AdmitEntry.bytes i.admitted

/-- The body of part 2. -/
def SummaryTwo.bytes (p : SummaryTwo) : List Byte :=
  summaryHead 2 p.serial p.epoch p.delivery ++
  BusSection.all.flatMap (fun x => lastOrderBytes (p.lastOrders.get x)) ++
  countedBytes SummaryIsland.bytes p.islands

/-- The last order at an offset: 255 is none, any other code that names no order is no value (log 3). -/
def parseLastOrder (p : List Byte) (o : Nat) : Option (Option LastOrder) :=
  if byteAt p o = 255 then some none
  else (OrderKind.ofCode (byteAt p o)).map fun k => some ⟨k, BitVec.ofNat 32 (longAt p (o + 1))⟩

/-- The island at an offset, and the offset after it. -/
def parseIsland (p : List Byte) (o : Nat) : Option SummaryIsland × Nat :=
  let kr := byteAt p (o + 1)
  let oq := o + 2 + 5 * kr
  let kq := byteAt p oq
  let oa := oq + 1 + 9 * kq
  let ka := byteAt p oa
  let island := (BusSection.ofCode (byteAt p o)).map fun x =>
    { name := x
      runList := (List.range kr).map fun i =>
        ⟨byteAt p (o + 2 + 5 * i), BitVec.ofNat 32 (longAt p (o + 3 + 5 * i))⟩
      queue := (List.range kq).map fun i =>
        let e := oq + 1 + 9 * i
        ⟨byteAt p e % 128, BitVec.ofNat 32 (longAt p (e + 1)),
          if bitOf (byteAt p e) 7 then some (BitVec.ofNat 32 (longAt p (e + 5))) else none⟩
      admitted := (List.range ka).map fun i =>
        ⟨byteAt p (oa + 1 + 5 * i), BitVec.ofNat 32 (longAt p (oa + 2 + 5 * i))⟩ }
  (island, oa + 1 + 5 * ka)

/-- So many islands from an offset. -/
def parseIslands (p : List Byte) : Nat → Nat → Option (List SummaryIsland)
  | 0, _ => some []
  | k + 1, o =>
    match parseIsland p o with
    | (some i, o') => (parseIslands p k o').map (i :: ·)
    | (none, _) => none

/-- The body of part 2. -/
def parseSummaryTwo (p : List Byte) : Option SummaryTwo :=
  match parseLastOrder p 10, parseLastOrder p 15, parseLastOrder p 20, parseLastOrder p 25,
      parseIslands p (byteAt p 30) 31 with
  | some oa, some ob, some oc, some od, some is => some
    { serial := BitVec.ofNat 16 (wordAt p 1), epoch := ⟨BitVec.ofNat 16 (wordAt p 3), byteAt p 5⟩
      delivery := BitVec.ofNat 32 (longAt p 6)
      lastOrders := ⟨oa, ob, oc, od⟩
      islands := is }
  | _, _, _, _, _ => none

/-! ### Frames -/

/-- The kind of a body. -/
def FrameBody.kind : FrameBody → FrameKind
  | .status _ => .status
  | .claim _ => .claim
  | .release _ _ => .release
  | .admitFeeder _ => .admitFeeder
  | .withdraw => .withdraw
  | .order _ _ => .order
  | .block _ => .block
  | .intertrip _ => .intertrip
  | .drop _ => .drop
  | .summaryOne _ => .summary
  | .summaryTwo _ => .summary

/-- The bytes of a body. -/
def FrameBody.bytes : FrameBody → List Byte
  | .status b => b.bytes
  | .claim secs => byte1 (SectionSet.bits secs)
  | .release secs c => byte1 (SectionSet.bits secs) ++ byte1 c.code
  | .admitFeeder a => flagByte a
  | .withdraw => []
  | .order o none => byte1 o.code
  | .order o (some t) => byte1 o.code ++ byte1 t
  | .block on => flagByte on
  | .intertrip v => flagByte v
  | .drop n => byte1 n
  | .summaryOne p => p.bytes
  | .summaryTwo p => p.bytes

/-- A frame without its check code: header and body. -/
def Frame.covered (f : Frame) : List Byte :=
  byte1 f.body.kind.code ++ byte1 f.header.source ++ [f.header.seq] ++ byte2 f.body.bytes.length ++ f.body.bytes

/-- A frame as it stands on the medium. -/
def Frame.bytes (f : Frame) : List Byte := f.covered ++ byte4 (crc32 f.covered).toNat

/-- Whether a body length is permitted for a kind's code (13.4). -/
def permittedLength (kind n : Nat) : Bool :=
  match kind with
  | 1 => n == 16
  | 2 => n == 1
  | 3 => n == 2
  | 4 => n == 1
  | 5 => n == 0
  | 6 => n == 1 || n == 2
  | 7 => n == 1
  | 8 => n == 1
  | 9 => n == 1
  | 10 => inRange 10 503 n
  | _ => false

/-- The four tests of R21 on the received bytes. -/
def frameAccepted (bs : List Byte) : Bool :=
  let n := bs.length
  9 ≤ n && (crc32 (bs.take (n - 4))).toNat == longAt bs (n - 4) && inRange 1 10 (byteAt bs 0) &&
    wordAt bs 3 == n - 9 && permittedLength (byteAt bs 0) (n - 9) && n ≤ Config.frameMax

/-- A yes or no value of one byte, 0 or 1 (13.4); any other byte is no value (log 3). -/
def flagOf : Nat → Option Bool
  | 0 => some false
  | 1 => some true
  | _ => none

/-- The body of a kind's code and bytes; none when a code in it names no value (log 3). -/
def parseBody (kind : Nat) (p : List Byte) : Option FrameBody :=
  match kind with
  | 1 => (parseStatus p).map .status
  | 2 => some (.claim (SectionSet.ofNat (byteAt p 0)))
  | 3 => (ReleaseCause.ofCode (byteAt p 1)).map (.release (SectionSet.ofNat (byteAt p 0)))
  | 4 => (flagOf (byteAt p 0)).map .admitFeeder
  | 5 => some .withdraw
  | 6 => (OrderKind.ofCode (byteAt p 0)).map fun o => .order o (if p.length = 2 then some (byteAt p 1) else none)
  | 7 => (flagOf (byteAt p 0)).map .block
  | 8 => (flagOf (byteAt p 0)).map .intertrip
  | 9 => some (.drop (byteAt p 0))
  | 10 =>
    if byteAt p 0 = 1 then (parseSummaryOne p).map .summaryOne
    else if byteAt p 0 = 2 then (parseSummaryTwo p).map .summaryTwo
    else none
  | _ => none

/-- The frame received bytes are, when R21 accepts them and every code names a value. -/
def parseFrame (bs : List Byte) : Option Frame :=
  if frameAccepted bs then
    (parseBody (byteAt bs 0) ((bs.take (bs.length - 4)).drop 5)).map fun b =>
      ⟨⟨byteAt bs 1, BitVec.ofNat 8 (byteAt bs 2)⟩, b⟩
  else none

/-- What is read of an accepted frame with a code that names no value: its kind, header and body length, the campus digest
where a STATUS has it, and the part byte where a SUMMARY has it (log 3). -/
structure Unread where
  kind : FrameKind
  header : Header
  length : Nat
  digest : Word32
  part : Nat
  deriving DecidableEq, Repr

/-- The frame of received bytes that R21 accepts and in which a code names no value (log 3). -/
def parseUnread (bs : List Byte) : Option Unread :=
  if frameAccepted bs && (parseFrame bs).isNone then
    (FrameKind.ofCode (byteAt bs 0)).map fun k =>
      { kind := k, header := ⟨byteAt bs 1, BitVec.ofNat 8 (byteAt bs 2)⟩, length := bs.length - 9
        digest := BitVec.ofNat 32 (longAt bs 9), part := byteAt bs 5 }
  else none

/-- The command a delivered frame is. -/
def Frame.command (f : Frame) : Instr :=
  match f.body with
  | .status b => .status f.header b
  | .claim secs => .claim f.header secs
  | .release secs c => .release f.header secs c
  | .admitFeeder a => .admitFeeder f.header a
  | .withdraw => .withdraw f.header
  | .order o t => .order f.header o t
  | .block on => .block f.header on
  | .intertrip v => .intertrip f.header v
  | .drop n => .drop f.header n
  | .summaryOne p => .summaryPart1 f.header p
  | .summaryTwo p => .summaryPart2 f.header p

/-! ### Maintenance Port transactions -/

/-- Whether a port command's check holds: five bytes whose last two are the check over the first three. -/
def portCheck (bs : List Byte) : Bool := bs.length == 5 && (crc16 (bs.take 3)).toNat == wordAt bs 3

/-- The command a port transaction asks for; none for a code that names no command or operation, and the argument of
CLEAR_STALE_INTERTRIP and RESTART is ignored (log 50). -/
def portCommand (bs : List Byte) : Option Instr :=
  if portCheck bs then
    match byteAt bs 0, wordAt bs 1 with
    | 1, sel => some (.read sel)
    | 2, kinds => some (.clearFaults (kindSetOf kinds))
    | 3, _ => some .clearStaleIntertrip
    | 4, 1 => some .operateOpen
    | 4, 2 => some .operateClose
    | 4, 3 => some .operateBar
    | 4, 4 => some .operateUnbar
    | 4, 5 => some .operateMerge
    | 4, 6 => some .operateSplit
    | 5, _ => some .restart
    | _, _ => none
  else none

/-- The codes of the responses (13.4). -/
def Machine.ResponseCode.code : ResponseCode → Nat
  | .ok => 0
  | .busy => 1
  | .refused => 2
  | .badSelector => 3

/-- A response as it is sent. -/
def Machine.Response.bytes (r : Response) : List Byte :=
  let body := byte1 r.code.code ++ byte2 r.data.length ++ r.data
  body ++ byte2 (crc16 body).toNat

end Sys2Proof
end

