-- ==== Sys2Proof/Machine/InStep.lean ====
section
/-!
DEFINITION. Keeping in step (chapter 3): leaving and regaining step, epochs, the summary source, adoption and
founding.
-/

namespace Sys2Proof.Machine

/-! ### Leaving and regaining step (R36, R39, R49) -/

/-- The effects of R39: DESYNC, the founding wait 0, the unsent ordered frames removed, and a CHANGE STATUS requested. -/
def State.loseStep (s : State) : State :=
  ((s.onStep fun t => { t with state := .desync, founding := 0 }).purgeOrdered).requestStatus .change

/-- An IN_STEP station enters DESYNC (R39): the claim record is suspended (R130). -/
def State.enterDesync (s : State) : State := if s.inStep then s.loseStep.suspendClaim else s

/-- The station becomes IN_STEP (R48, R50, R51): the claim record is judged against the picture (R130). -/
def State.becomeInStep (s : State) : State :=
  (s.onStep fun t => { t with state := .inStep, founding := 0, pendingAdoption := none }).resumeClaim

/-- A pending adoption is voided (R49): a JOINING station enters DESYNC under the effects of R39. -/
def State.voidAdoption (s : State) : State :=
  let s1 := s.onStep fun t => { t with pendingAdoption := none, voided := t.voided + 1 }
  if s.step.state == .joining then s1.loseStep else s1

/-! ### Epochs (R41) -/

/-- Whether serial `a` is higher than serial `b`. -/
def serialHigher (a b : Word16) : Bool := 1 ≤ (a - b).toNat && (a - b).toNat ≤ 32767

/-- Whether epoch `e` is newer than epoch `f`; founder 0 is not compared. -/
def epochNewer (e f : EpochId) : Bool :=
  !(e.founder == 0) && !(f.founder == 0) &&
    (serialHigher e.serial f.serial || (!serialHigher f.serial e.serial && e.founder < f.founder))

/-- The highest serial seen rises to an epoch's serial (R41). -/
def State.meetEpoch (e : EpochId) (s : State) : State :=
  if e.founder = 0 then s
  else s.onStep fun t => { t with
    highest :=
      match t.highest with
      | some v => if serialHigher e.serial v then some e.serial else some v
      | none => some e.serial }

/-- The epochs known to a station: its own, and those of current content reporting IN_STEP (R41). -/
def State.knownEpochs (s : State) : List EpochId :=
  (match s.step.epoch with
    | some e => [e]
    | none => []) ++
  s.pic.table.filterMap fun e =>
    match e.current with
    | some b => if b.step == .inStep then some b.epoch else none
    | none => none

/-! ### The summary source (R43, R44) -/

/-- Whether the station is the summary source (R43). -/
def State.summarySource (s : State) : Bool :=
  s.inStep && s.step.epoch.isSome && s.ownReports &&
    !(List.range' 1 (s.own - 1)).any fun n => s.reportsInStep n

/-- Request a summary pair when the conditions of R44 hold. A part of an earlier pair that is still unsent counts as a pair
of its own (log 40). -/
def State.judgeSummary (s : State) : State :=
  if s.summarySource && !s.link.ordered.any (·.isSummary) && s.step.guard == 0 then s.requestPair else s

/-- Whether a LIVE entry holds current content reporting JOINING or DESYNC (R44). -/
def State.someoneAsks (s : State) : Bool :=
  s.pic.table.any fun e =>
    match e.current with
    | some b => !(b.step == .inStep)
    | none => false

/-- The request again of a refused pair, at a round end (R44). -/
def State.retrySummary (s : State) : State :=
  if s.step.pairRefused then
    let s1 := s.onStep fun t => { t with pairRefused := false }
    if s.summarySource && s.step.guard == 0 && s.someoneAsks then s1.requestPair else s1
  else s

/-! ### Adoption (R46 to R48) -/

/-- Whether a part 1 is taken (R46). -/
def State.takesSummary (s : State) (n : Nat) (p : SummaryOne) : Bool :=
  !s.inStep &&
    (match (s.entry n).current with
      | some b => b.step == .inStep && b.epoch == p.epoch
      | none => false) &&
    !s.knownEpochs.any fun e => epochNewer e p.epoch

/-- A configured entry with what part 1 carries of it (R2, R46, R116). -/
def StationEntry.adopt (own : Word32) (perUnit : Int → Int) (c : SummaryEntry) (e : StationEntry) : StationEntry :=
  if e.fixed.isSome then
    StationEntry.adoptedLapse { e with
      presence := c.presence, lastSeq := c.lastSeq, stale := c.stale, silence := 0
      content := c.content.map fun b => { b with digest := own, perUnit := perUnit b.realPower } }
  else e

/-- The Station Table with the carried entries. -/
def State.adoptTable (p : SummaryOne) (s : State) : State :=
  s.onPic fun q => { q with
    table := q.table.mapIdx fun k e =>
      match p.entries[k]? with
      | some c => e.adopt s.digest (s.perUnitOf (k + 1)) c
      | none => e }

/-- Take a part 1 (R46). -/
def State.adoptOne (h : Header) (p : SummaryOne) (s : State) : State :=
  let s1 := if s.step.pendingAdoption.isSome then s.voidAdoption else s
  let s2 := (s1.adoptTable p).onEntry h.source fun e => { e with presence := .live, lastSeq := some h.seq }
  let s3 := s2.onPic fun q => { q with
    delivery := p.delivery + 1
    secs := PerSection.make fun x => { q.secs.get x with
      holder := (p.tokens.get x).holder, grant := (p.tokens.get x).grant, queue := (p.tokens.get x).queue
      lastOrder := none, lastRelease := none } }
  let s4 := s3.onIsl fun t => PerSection.make fun i => { t.get i with
    runList := [], queue := [], admitted := [], stood := [] }
  (s4.onStep fun t => { t with
    epoch := some p.epoch, pendingAdoption := some ⟨h.source, p.serial, p.epoch⟩ }).meetEpoch p.epoch

/-- Whether a part 2 matches the pending adoption (R48). -/
def State.completesAdoption (s : State) (n : Nat) (p : SummaryTwo) : Bool :=
  match s.step.pendingAdoption with
  | some a => a.source == n && a.serial == p.serial && a.epoch == p.epoch && p.delivery + 1 == s.pic.delivery
  | none => false

/-- The entries that returned feeders held on an Admitted List, in the order of the queue. -/
def returnedEntries (queue : List WaitEntry) : List AdmitEntry :=
  queue.filterMap fun w => w.former.map fun a => ⟨w.feeder, a⟩

/-- The carried lists, each under the island name it carried. Of the order in which the feeders stood on the Admitted List
their numbers are carried; of equal numbers those still listed come first, then the returned ones as they are queued (log
14). -/
def State.adoptLists (is : List SummaryIsland) (s : State) : State :=
  is.foldl (fun s i => s.onIsland i.name fun t => { t with
    runList := i.runList, queue := i.queue, admitted := i.admitted
    stood := (mergeBy admitBefore i.admitted (returnedEntries i.queue)).map (·.feeder) }) s

/-- Complete the adoption (R48). -/
def State.adoptTwo (p : SummaryTwo) (s : State) : State :=
  let s1 := s.onPic fun q => { q with
    secs := PerSection.make fun x => { q.secs.get x with lastOrder := p.lastOrders.get x } }
  (((s1.adoptLists p.islands).recomputeCapacity).onStep fun t => { t with completed := t.completed + 1 }).becomeInStep

/-! ### Founding (R50, R51) -/

/-- Whether a LIVE peer heard within three rounds has a lower number (R51). -/
def State.lowerHeard (s : State) : Bool :=
  (List.range' 1 (s.own - 1)).any fun n =>
    s.isConfigured n && (s.entry n).presence == .live && (s.entry n).silence < Config.silenceLimit

/-- Whether the station founds an epoch at this round end (R51). -/
def State.mayFound (s : State) : Bool :=
  !s.inStep && Config.silenceLimit ≤ s.step.founding && s.pic.quorum && (s.entry s.own).presence == .live &&
    !s.lowerHeard && !s.link.startSilence && s.step.pendingAdoption.isNone

/-- Every stamp of the tables at 0, orders kept (R51); the run lists too, as they stand at a station that founds from JOINING
(log 35). -/
def State.zeroStamps (s : State) : State :=
  (s.onPic fun p => { p with
    delivery := 0
    secs := PerSection.make fun x =>
      let r := p.secs.get x
      { r with
        grant := 0
        queue := r.queue.map fun e => { e with entry := 0 }
        lastOrder := r.lastOrder.map fun o => { o with stamp := 0 } } }).onIsl fun t =>
    PerSection.make fun i =>
      let u := t.get i
      { u with
        runList := u.runList.map fun e => { e with entry := 0 }
        queue := u.queue.map fun e => { e with entry := 0, former := e.former.map fun _ => 0 }
        admitted := u.admitted.map fun e => { e with admission := 0 } }

/-- The serial of the epoch a station founds (R51). -/
def State.foundingSerial (s : State) : Word16 :=
  match s.step.highest with
  | some v => v + 1
  | none => 1

/-- Found an epoch (R51). -/
def State.found (s : State) : State :=
  let v := s.foundingSerial
  (s.zeroStamps.onStep fun t => { t with
    epoch := some ⟨v, s.own⟩, highest := some v, founded := t.founded + 1 }).becomeInStep

/-- The founding wait at a round end (R50). -/
def State.advanceFounding (s : State) : State :=
  if s.inStep then s.onStep fun t => { t with founding := 0 }
  else s.onStep fun t => { t with founding := satSucc 255 t.founding }

end Sys2Proof.Machine
end

