-- ==== Sys2Proof/Machine/Delivery.lean ====
section
/-!
DEFINITION. Delivered frames (R1): the picture work every delivery does, the hand-ons to the owners of the
tables, the delivery of each of the eleven frame commands, and that of a frame in which a code names no value. The order
of the owners' work within one delivery is log 11, the moment of a void log 12.
-/

namespace Sys2Proof.Machine

/-! ### Steps 1 to 5 of R1 -/

/-- The delivery number rises by one (R16). -/
def State.countDelivery (s : State) : State := s.onPic fun p => { p with delivery := p.delivery + 1 }

/-- Whether a frame of a source is a gap (R38): its entry was LIVE and holds another last sequence. -/
def StationEntry.gapAt (seq : Byte) (e : StationEntry) : Bool :=
  e.presence == .live &&
    (match e.lastSeq with
      | some q => !(seq == q + 1)
      | none => false)

/-- An entry from whose station a frame has been delivered (R3, R6, R32). -/
def StationEntry.hear (seq : Byte) (e : StationEntry) : StationEntry :=
  { e with
    presence := if e.presence == .unknown || e.presence == .dropped then .live else e.presence
    lastSeq := some seq, silence := 0, heard := true }

/-- Steps 2 and 3 of R1 for the source of a frame: its presence and last sequence, with the gap check (R38). -/
def State.noteSource (k : FrameKind) (len : Nat) (h : Header) (s : State) : State :=
  let s1 := s.onEntry h.source (StationEntry.hear h.seq)
  if (s.entry h.source).gapAt h.seq then (s1.raise .linkGap (.frame k h len)).enterDesync else s1

/-- QUORUM_LOST when the holds-quorum value has gone from held to not held (R10). -/
def State.judgeQuorum (before s : State) : State :=
  if before.pic.quorum && !s.pic.quorum then s.raise .quorumLost .none else s

/-! ### The tables' own work -/

/-- The sections whose faulted flag has turned yes, and those where it has changed, since `before` (R13). -/
def newlyFaulted (before s : State) : SectionSet :=
  PerSection.make fun x => (s.sec x).faulted && !(before.sec x).faulted

def faultChanged (before s : State) : SectionSet :=
  PerSection.make fun x => !((s.sec x).faulted == (before.sec x).faulted)

/-- The Token Unit's tables (R120, R127 to R129): what a departed station leaves, faulted sections, the frame's own
effect, and the grant checks they call for, with those of `ended` (a CLOSING report that has ended). -/
def State.tokenWork (before : State) (departed : Option Nat) (ended : SectionSet) (own : State → State) (s : State) :
    State :=
  let s1 :=
    match departed with
    | some n => (s.startLapse n).freeStation n
    | none => s
  let s2 := (SectionSet.members (newlyFaulted before s)).foldl State.faultSection s1
  let s3 := own s2
  s3.grantChecks (SectionSet.union (SectionSet.union (State.touchedSections s s3) ended) (faultChanged before s))

/-- The Admission and Dispatch Units' tables (R47, R143, R152 to R158): returns of sections turned dead, merge or
split, capacity, the frame's own effect, and shed-then-admit. While an adoption is pending only the capacity
follows. -/
def State.listWork (before : State) (capacityDue : Bool) (own : State → State) (s : State) : State :=
  if s.step.pendingAdoption.isSome then if capacityDue then s.recomputeCapacity else s
  else
    let dead := BusSection.all.filter fun x => (before.sec x).live && !(s.sec x).live
    let s1 := dead.foldl (State.returnSection before) s
    let s2 := State.regroup before s1
    let s3 := if capacityDue || State.partitionChanged before s then s2.recomputeCapacity else s2
    State.shedAll before (own s3)

/-- Changes of the flags and the partition reach the Changeover Unit and the Tie Logic (R12, R13, R167 to R173). -/
def State.roleFlags (before s : State) : State :=
  let x := s.ownSec
  let fault := !((before.sec x).faulted == (s.sec x).faulted)
  let live := !((before.sec x).live == (s.sec x).live)
  let s1 := if fault then s.changeoverFaultChange (s.sec x).faulted else s
  let s2 := if live then s1.changeoverLiveChange (s.sec x).live else s1
  let s3 := if s.islandShared x && !before.islandShared x then s2.changeoverJoined else s2
  if SectionSet.meets s.ownSections (newlyFaulted before s) then s3.tieFaulted else s3

/-- What a delivery asks of the owners of the tables. -/
structure HandOn where
  departed : Option Nat
  ended : SectionSet
  tokens : State → State
  claim : State → State
  capacityDue : Bool
  lists : State → State
  zone : State → State

/-- A delivery that asks nothing of its own. -/
def HandOn.quiet : HandOn :=
  { departed := none, ended := SectionSet.empty, tokens := id, claim := id, capacityDue := false, lists := id, zone := id }

/-- Step 6 of R1: the delivery handed on to the owners (log 11). -/
def State.handOn (w : HandOn) (before s : State) : State :=
  let s1 := (State.tokenWork before w.departed w.ended w.tokens s).judgePlace
  let s2 := State.listWork before w.capacityDue w.lists (w.claim s1).seeGrant
  State.roleFlags before (w.zone s2)

/-! ### The end of a delivery -/

/-- What is judged at the end of every delivery: the Token Unit (R117, R130), the Dispatch Unit (R144), the
feeder role (R159, R160) and the Changeover Unit (R164, R168, R170, R171). -/
def State.endDelivery (s : State) : State :=
  let s1 := s.tokenQuorum.clearAwait.releaseAtOwnStep.judgeClaim
  let s2 := s1.judgeGenerator
  let s3 := s2.judgeFeederWithdraw.judgeFeeder.judgeFeederClose
  s3.changeoverDelivery

/-- A delivery (R1): `picture` is the frame's effect on the entries (steps 3 and 4), `work` what it asks of the
owners, from the state before the delivery and the picture after it. -/
def State.deliver (k : FrameKind) (len : Nat) (h : Header) (picture : State → State) (work : State → State → State)
    (s : State) : State :=
  let s1 := s.countDelivery
  if s1.isConfigured h.source then
    ((work s (State.judgeQuorum s (picture (s1.noteSource k len h)).derive)).settle).endDelivery
  else s1

/-- A frame of the pending source of a kind that voids the adoption (R49, log 12). -/
def State.voidBy (n : Nat) (s : State) : State :=
  match s.step.pendingAdoption with
  | some a => if a.source == n then s.voidAdoption else s
  | none => s

/-! ### STATUS (R4, R7, R17, R19, R42, R44) -/

/-- The effect on its source's entry of a STATUS whose digest differs (R4). A LIVE entry that becomes MISMATCHED loses its
LIVE presence, so its stale mark is set where it holds content, as table 1.2 describes the mark: R7 says only that the
content is treated as stale (log 36). -/
def State.mismatchPicture (h : Header) (s : State) : State :=
  if h.source == s.own || !((s.entry h.source).presence == .live) then s
  else (s.onEntry h.source fun e =>
      { e with presence := .mismatched, stale := e.stale || e.content.isSome, silence := 0 }).raise .digestMismatch
    (.station h.source)

/-- The effect of a STATUS on its source's entry (R4, R7). -/
def State.statusPicture (h : Header) (b : StatusBody) (s : State) : State :=
  if b.digest == s.digest then
    s.onEntry h.source fun e =>
      { e with
        presence := if e.presence == .mismatched then .live else e.presence
        content := some b, stale := false, lapse := .none }
  else s.mismatchPicture h

/-- Whether a self-report differs from the receiver's own tables (R19). -/
def State.selfReportDiffers (n : Nat) (b : StatusBody) (s : State) : Bool :=
  !(b.tokensHeld == s.tokensOf n) || !(b.queuedFor == s.queuedOf n) ||
    !(b.admission == (if s.kindOf n == some .feeder then s.admissionOf n else .out))

/-- The cross-check (R19). -/
def State.crossCheck (n : Nat) (b : StatusBody) (s : State) : State :=
  if s.inStep && b.step == .inStep && s.step.epoch == some b.epoch && s.selfReportDiffers n b then s.enterDesync else s

/-- The newer-epoch check (R42). -/
def State.newerEpoch (b : StatusBody) (s : State) : State :=
  match s.step.epoch with
  | some e => if s.inStep && b.step == .inStep && epochNewer b.epoch e then s.enterDesync else s
  | none => s

/-- The founding wait at a STATUS that reports IN_STEP (R50). -/
def State.hearInStep (b : StatusBody) (s : State) : State :=
  if b.step == .inStep then s.onStep fun t => { t with founding := 0 } else s

/-- The sections whose closers include a station whose CLOSING report has just ended (R120). -/
def State.endedClosing (n : Nat) (before s : State) : SectionSet :=
  if (before.entry n).holds .closing && !(s.entry n).holds .closing && !(s.kindOf n == some .feeder) then s.connects n
  else SectionSet.empty

/-- Whether a stored STATUS changes what the capacity reads (R152). -/
def State.capacityChanged (n : Nat) (before s : State) : Bool :=
  (s.kindOf n == some .incomer || s.kindOf n == some .generator) &&
    (!((before.entry n).heldBreaker == (s.entry n).heldBreaker) || !((before.entry n).heldRole == (s.entry n).heldRole))

/-- The work of a STATUS whose digest matches (R17). A tie judges its ordering incomer once the tokens stand, before a grant
they show begins its close (R1, R173, log 11). -/
def State.statusWork (h : Header) (b : StatusBody) (before s : State) : State :=
  let n := h.source
  let s1 := (((s.meetEpoch b.epoch).crossCheck n b).newerEpoch b).hearInStep b
  let s2 := State.handOn { HandOn.quiet with
    ended := State.endedClosing n before s
    claim := State.tieJudgeIncomer n
    capacityDue := State.capacityChanged n before s
    lists := fun t => if t.kindOf n == some .generator then t.judgeRunList n else t
    zone := State.repairZone n b } before s1
  (if b.step == .inStep then s2 else s2.judgeSummary).voidBy n

/-- The work of a STATUS whose digest differs (R4, R128): a new MISMATCHED entry leaves its tokens and places. -/
def State.mismatchWork (h : Header) (before s : State) : State :=
  let n := h.source
  let now := (s.entry n).presence == .mismatched && !((before.entry n).presence == .mismatched)
  (State.handOn { HandOn.quiet with departed := if now then some n else none } before s).voidBy n

/-- The delivery of a STATUS (R17). -/
def State.statusDelivery (h : Header) (b : StatusBody) (s : State) : State :=
  s.deliver .status 16 h (State.statusPicture h b)
    (if b.digest == s.digest then State.statusWork h b else State.mismatchWork h)

/-- STATUS (R17). -/
def execStatus (h : Header) (b : StatusBody) (s : State) : Host.Outcome State Fault Refusal :=
  event (State.statusDelivery h b) s

/-! ### Ordered frames (R40) -/

/-- CLAIM (R118 to R120). -/
def State.claimWork (h : Header) (secs : SectionSet) (before s : State) : State :=
  let n := h.source
  let applied := s.reportsInStep n
  let test := s.claimTest n secs
  let outcome : ClaimOutcome :=
    if applied then
      match test with
      | some k => .discarded k
      | none => .appended
    else .notApplied
  (State.handOn { HandOn.quiet with
    tokens := fun t => if outcome == .appended then t.appendClaim n secs else t
    claim := fun t => if n == t.own then t.ownClaim outcome else t } before s).voidBy n

/-- The delivery of a CLAIM. -/
def State.claimDelivery (h : Header) (secs : SectionSet) (s : State) : State :=
  s.deliver .claim 1 h id (State.claimWork h secs)

/-- CLAIM (R118 to R120). -/
def execClaim (h : Header) (secs : SectionSet) (s : State) : Host.Outcome State Fault Refusal :=
  event (State.claimDelivery h secs) s

/-- RELEASE (R126, R127). -/
def State.releaseWork (h : Header) (secs : SectionSet) (cause : ReleaseCause) (before s : State) : State :=
  let n := h.source
  let applied := s.reportsInStep n
  (State.handOn { HandOn.quiet with
    tokens := fun t => if applied then t.applyRelease n secs cause else t
    claim := fun t => if n == t.own then t.ownRelease applied else t } before s).voidBy n

/-- The delivery of a RELEASE. -/
def State.releaseDelivery (h : Header) (secs : SectionSet) (cause : ReleaseCause) (s : State) : State :=
  s.deliver .release 2 h id (State.releaseWork h secs cause)

/-- RELEASE (R126, R127). -/
def execRelease (h : Header) (secs : SectionSet) (cause : ReleaseCause) (s : State) :
    Host.Outcome State Fault Refusal :=
  event (State.releaseDelivery h secs cause) s

/-- ADMIT (R154, R159). -/
def State.admitWork (h : Header) (alreadyClosed : Bool) (before s : State) : State :=
  let n := h.source
  let applied := s.reportsInStep n
  let s1 := State.handOn { HandOn.quiet with
    lists := fun t => if applied then t.applyAdmit n alreadyClosed else t } before s
  (if n == s.own then s1.ownAdmit applied else s1).voidBy n

/-- The delivery of an ADMIT. -/
def State.admitDelivery (h : Header) (alreadyClosed : Bool) (s : State) : State :=
  s.deliver .admitFeeder 1 h id (State.admitWork h alreadyClosed)

/-- ADMIT (R154, R159). -/
def execAdmit (h : Header) (alreadyClosed : Bool) (s : State) : Host.Outcome State Fault Refusal :=
  event (State.admitDelivery h alreadyClosed) s

/-- WITHDRAW (R155, R159). -/
def State.withdrawWork (h : Header) (before s : State) : State :=
  let n := h.source
  let applied := s.reportsInStep n
  let s1 := State.handOn { HandOn.quiet with
    lists := fun t => if applied then t.applyWithdraw n else t } before s
  (if n == s.own then s1.ownWithdraw applied else s1).voidBy n

/-- The delivery of a WITHDRAW. -/
def State.withdrawDelivery (h : Header) (s : State) : State := s.deliver .withdraw 0 h id (State.withdrawWork h)

/-- WITHDRAW (R155, R159). -/
def execWithdraw (h : Header) (s : State) : Host.Outcome State Fault Refusal := event (State.withdrawDelivery h) s

/-- A section order (R163): the last order of every section of the sender's island, handed to the generator of
one of them. While an adoption is pending no last order changes (R47), and nothing is handed to the generator (log 47). -/
def State.sectionOrder (x : BusSection) (o : OrderKind) (s : State) : State :=
  if s.step.pendingAdoption.isSome then s
  else
    let named := s.islandSections x
    let s1 := s.onPic fun p => { p with
      secs := PerSection.make fun y =>
        if named.get y then { p.secs.get y with lastOrder := some ⟨o, p.delivery⟩ } else p.secs.get y }
    if named.get s.ownSec then s1.generatorOrder o else s1

/-- A tie order (R163): handed to the Tie Logic of the tie it names. -/
def State.tieOrder (n : Nat) (x : BusSection) (o : OrderKind) (t : Nat) (s : State) : State :=
  if s.kindOf t == some .tie && (s.connects t).get x && t == s.own then
    match o with
    | .tieAssist => s.tieAssist n
    | .split => s.tieSplit
    | _ => s
  else s

/-- An applied ORDER (R163). -/
def State.applyOrder (n : Nat) (o : OrderKind) (tieStation : Option Nat) (s : State) : State :=
  if s.kindOf n == some .incomer then
    match s.secOf n, o.isSectionOrder, tieStation with
    | some x, true, none => s.sectionOrder x o
    | some x, false, some t => s.tieOrder n x o t
    | _, _, _ => s
  else s

/-- ORDER (R163, R164). -/
def State.orderWork (h : Header) (o : OrderKind) (tieStation : Option Nat) (before s : State) : State :=
  let n := h.source
  let applied := s.reportsInStep n
  let s1 := State.handOn HandOn.quiet before s
  let s2 := if applied then s1.applyOrder n o tieStation else s1
  (if n == s.own then s2.ownOrder applied else s2).voidBy n

/-- The delivery of an ORDER. -/
def State.orderDelivery (h : Header) (o : OrderKind) (tieStation : Option Nat) (s : State) : State :=
  s.deliver .order (if tieStation.isSome then 2 else 1) h id (State.orderWork h o tieStation)

/-- ORDER (R163, R164). -/
def execOrder (h : Header) (o : OrderKind) (tieStation : Option Nat) (s : State) : Host.Outcome State Fault Refusal :=
  event (State.orderDelivery h o tieStation) s

/-! ### BLOCK and INTERTRIP (R92, R95, R99) -/

/-- The delivery of a BLOCK. -/
def State.blockDelivery (h : Header) (on : Bool) (s : State) : State :=
  s.deliver .block 1 h id (State.handOn { HandOn.quiet with zone := State.takeBlock h.source on })

/-- BLOCK (R95). -/
def execBlock (h : Header) (on : Bool) (s : State) : Host.Outcome State Fault Refusal :=
  event (State.blockDelivery h on) s

/-- The delivery of an INTERTRIP. -/
def State.intertripDelivery (h : Header) (set : Bool) (s : State) : State :=
  s.deliver .intertrip 1 h id (State.handOn { HandOn.quiet with zone := State.takeIntertrip h.source set })

/-- INTERTRIP (R99). -/
def execIntertrip (h : Header) (set : Bool) (s : State) : Host.Outcome State Fault Refusal :=
  event (State.intertripDelivery h set) s

/-! ### DROP (R5, R34, R52, R102, R128, R155) -/

/-- Whether a DROP is applied (R34). -/
def State.appliesDrop (h : Header) (station : Nat) (s : State) : Bool :=
  s.reportsInStep h.source && !(station == h.source) && s.isConfigured station

/-- Whether an applied DROP takes its station out: one naming an entry that is already DROPPED changes nothing (R5, R33,
R123). -/
def State.takesOut (h : Header) (station : Nat) (s : State) : Bool :=
  s.appliesDrop h station && !((s.entry station).presence == .dropped)

/-- The entry a DROP takes out (R5, R32). -/
def State.dropEntry (station : Nat) (s : State) : State :=
  s.onEntry station fun e =>
    { e with presence := .dropped, stale := e.stale || e.content.isSome, silence := 0 }

/-- The effect of a DROP on the entry it names (R5, R52); the station's own unsent DROP of that station goes (R33). -/
def State.dropPicture (h : Header) (station : Nat) (s : State) : State :=
  if s.takesOut h station then
    let s1 := (s.dropEntry station).unqueueDrop station
    if station == s.own then s1.enterDesync else s1
  else if s.appliesDrop h station then s.unqueueDrop station
  else s

/-- The work of a DROP: what the station it takes out leaves, from the entry as it stood before the delivery. -/
def State.dropWork (h : Header) (station : Nat) (before s : State) : State :=
  if s.appliesDrop h station && !((before.entry station).presence == .dropped) then
    ((State.handOn { HandOn.quiet with
      departed := some station
      lists := State.leaveWaiting station
      zone := State.zoneDrop station } before s).voidBy h.source).voidBy station
  else (State.handOn HandOn.quiet before s).voidBy h.source

/-- A DROP naming the station itself ends its start silence, applied or not (R25). -/
def State.endStartSilence (s : State) : State :=
  if s.link.startSilence then (s.onLink fun l => { l with startSilence := false }).requestStatus .change else s

/-- The delivery of a DROP. -/
def State.dropDelivery (h : Header) (station : Nat) (s : State) : State :=
  let s1 := if station == s.own then s.endStartSilence else s
  s1.deliver .drop 1 h (State.dropPicture h station) (State.dropWork h station)

/-- DROP (R5, R34). -/
def execDrop (h : Header) (station : Nat) (s : State) : Host.Outcome State Fault Refusal :=
  event (State.dropDelivery h station) s

/-! ### SUMMARY (R46 to R49) -/

/-- The picture work of a part 1: the epoch met, and the carried tables when it is taken. -/
def State.partOnePicture (h : Header) (p : SummaryOne) (s : State) : State :=
  if s.takesSummary h.source p then s.adoptOne h p else s.meetEpoch p.epoch

/-- The work of a part 1: flag changes reach the Changeover Unit and the Tie Logic only (R46); one that was not
taken voids an adoption pending from its source. -/
def State.partOneWork (h : Header) (taken : Bool) (before s : State) : State :=
  if taken then State.roleFlags before s else (State.handOn HandOn.quiet before s).voidBy h.source

/-- The body length of a part 1 and of a part 2 (13.4). -/
def SummaryOne.length (p : SummaryOne) : Nat := (FrameBody.bytes (.summaryOne p)).length
def SummaryTwo.length (p : SummaryTwo) : Nat := (FrameBody.bytes (.summaryTwo p)).length

/-- The delivery of a part 1. -/
def State.partOneDelivery (h : Header) (p : SummaryOne) (s : State) : State :=
  let len := SummaryOne.length p
  let taken := ((s.countDelivery).noteSource .summary len h).takesSummary h.source p
  s.deliver .summary len h (State.partOnePicture h p) (State.partOneWork h taken)

/-- SUMMARY part 1 (R46). -/
def execSummaryPart1 (h : Header) (p : SummaryOne) (s : State) : Host.Outcome State Fault Refusal :=
  event (State.partOneDelivery h p) s

/-- The work of a part 2 (R48): completion or void of a pending adoption. A STOP among the carried last orders acts on the
generator role (R145, R146, log 17). -/
def State.partTwoWork (h : Header) (p : SummaryTwo) (before s : State) : State :=
  let s1 := State.handOn HandOn.quiet before s
  if s1.step.pendingAdoption.isSome && !s1.inStep then
    if s1.completesAdoption h.source p then State.adoptedOrder s1 (s1.adoptTwo p) else s1.voidAdoption
  else s1

/-- The delivery of a part 2. -/
def State.partTwoDelivery (h : Header) (p : SummaryTwo) (s : State) : State :=
  s.deliver .summary (SummaryTwo.length p) h (State.meetEpoch p.epoch) (State.partTwoWork h p)

/-- SUMMARY part 2 (R48). -/
def execSummaryPart2 (h : Header) (p : SummaryTwo) (s : State) : Host.Outcome State Fault Refusal :=
  event (State.partTwoDelivery h p) s

/-! ### Frames as received bytes (R21) -/

/-- The delivery a frame is, by its body. -/
def State.takeFrame (f : Frame) (s : State) : State :=
  match f.body with
  | .status b => s.statusDelivery f.header b
  | .claim secs => s.claimDelivery f.header secs
  | .release secs c => s.releaseDelivery f.header secs c
  | .admitFeeder a => s.admitDelivery f.header a
  | .withdraw => s.withdrawDelivery f.header
  | .order o t => s.orderDelivery f.header o t
  | .block on => s.blockDelivery f.header on
  | .intertrip v => s.intertripDelivery f.header v
  | .drop n => s.dropDelivery f.header n
  | .summaryOne p => s.partOneDelivery f.header p
  | .summaryTwo p => s.partTwoDelivery f.header p

/-- The effect on the picture of a frame in which a code names no value (log 3): a STATUS acts through its digest (R4), and
its content is not stored. -/
def State.unreadPicture (u : Unread) (s : State) : State :=
  if u.kind == .status then
    if u.digest == s.digest then
      s.onEntry u.header.source fun e =>
        { e with presence := if e.presence == .mismatched then .live else e.presence }
    else s.mismatchPicture u.header
  else s

/-- The void an unread frame is to a pending adoption (R48, R49): a part 2 fails its checks, and no kind but BLOCK and
INTERTRIP may come from the pending source. -/
def State.voidUnread (u : Unread) (s : State) : State :=
  if u.kind == .block || u.kind == .intertrip then s
  else if u.kind == .summary && u.part == 2 then
    if s.step.pendingAdoption.isSome && !s.inStep then s.voidAdoption else s
  else s.voidBy u.header.source

/-- The work of a frame in which a code names no value. -/
def State.unreadWork (u : Unread) (before s : State) : State :=
  if u.kind == .status && !(u.digest == s.digest) then State.mismatchWork u.header before s
  else (State.handOn HandOn.quiet before s).voidUnread u

/-- The delivery of a frame that passes the tests of R21 and holds a code that names no value: it is counted, its source is
heard, and it has no effect of its kind but those named above (R1, R3, R21; log 3). -/
def State.unreadDelivery (u : Unread) (s : State) : State :=
  s.deliver u.kind u.length u.header (State.unreadPicture u) (State.unreadWork u)

/-- The delivery that received bytes are: of the command they spell, or of a frame in which a code names no value. -/
def State.takeBytes (bs : List Byte) (s : State) : State :=
  match parseFrame bs with
  | some f => s.takeFrame f
  | none =>
    match parseUnread bs with
    | some u => s.unreadDelivery u
    | none => s

end Sys2Proof.Machine
end

