-- ==== Sys2Proof/Machine/Records.lean ====
section
/-!
DEFINITION. The eighteen records a READ returns (13.4): each is the fields its READ rule lists, in that order, in the
encodings of 13.4. The encodings that 13.4 leaves open are log 9.
-/

namespace Sys2Proof.Machine

/-! ### Encodings (13.4, log 9)

A number takes the width its chapter gives it: the bits it names, the range of section 0.6.1, or a range that ends where one,
two or four bytes do. Any other number, and every time, takes four bytes. -/

/-- A value that may be absent: a list of none or one (log 9). -/
def optional {α : Type} (f : α → List Byte) (o : Option α) : List Byte := countedBytes f o.toList

/-- An enumerated value by its number, 255 when absent. -/
def enum (n : Option Nat) : List Byte := byte1 (n.getD 255)

/-- The time left on a timer, in milliseconds; absent when it is stopped (log 9). -/
def timeLeft (t : Timer) : List Byte := optional byte4 t

/-- A signed four-byte field (log 9). -/
def signed4 (x : Int) : List Byte := byte4 (x % 4294967296).toNat

def bytes16 (x : Word16) : List Byte := byte2 x.toNat
def bytes32 (x : Word32) : List Byte := byte4 x.toNat

/-- A measurement set in the field order of section 4.1. -/
def setBytes (m : MeasurementSet) : List Byte :=
  bytes16 m.seq ++ byte2 m.lineVolts.p1 ++ byte2 m.lineAngles.p1 ++ byte2 m.lineVolts.p2 ++ byte2 m.lineAngles.p2 ++
  byte2 m.lineVolts.p3 ++ byte2 m.lineAngles.p3 ++ byte2 m.busVolts ++ byte2 m.busAngle ++ byte2 m.currents.p1 ++
  byte2 m.currents.p2 ++ byte2 m.currents.p3 ++ byte2 m.residual ++ byte4 m.lineFreq ++ byte4 m.busFreq ++
  signed2 m.realPower ++ signed2 m.reactivePower

/-! ### Numbers of enumerated values, from 0 in the order of their chapters -/

def ConfigState.code : ConfigState → Nat
  | .loading => 0
  | .configured => 1
  | .unconfigured => 2

def LoadRefusal.code : LoadRefusal → Nat
  | .noResponse => 0
  | .badLength => 1
  | .badCheck => 2
  | .badVersion => 3
  | .badStation => 4
  | .kindMismatch => 5
  | .badCounts => 6
  | .badValue => 7

def Operation.code : Operation → Nat
  | .opn => 0
  | .close => 1
  | .bar => 2
  | .unbar => 3
  | .merge => 4
  | .split => 5

def OperateState.code : OperateState → Nat
  | .idle => 0
  | .inProgress => 1
  | .done => 2
  | .refused => 3
  | .timedOut => 4

def CloseRefusal.code : CloseRefusal → Nat
  | .notOpen => 0
  | .position => 1
  | .notInStep => 2
  | .noQuorum => 3
  | .lockout => 4
  | .intertrip => 5
  | .noToken => 6
  | .notAdmitted => 7
  | .twoIncomers => 8

/-- The reasons of the operate record, numbered: R62's, then R179's, then the release causes (log 9). -/
def OperateReason.code : OperateReason → Nat
  | .close r => r.code
  | .wrongKind => 9
  | .notReady => 10
  | .claimInProgress => 11
  | .release c => 12 + c.code

def StatusCause.code : StatusCause → Nat
  | .periodic => 0
  | .change => 1

def Position.code : Position → Nat
  | .closed => 0
  | .opened => 1
  | .travelling => 2
  | .invalid => 3

def TripSource.code : TripSource → Nat
  | .protection => 0
  | .zone => 1
  | .fault => 2
  | .admission => 3
  | .changeover => 4
  | .dispatch => 5
  | .tie => 6
  | .maintenance => 7
  | .abort => 8

/-- NONE is a listed value here: 0, not 255 (log 9). -/
def FailureOrigin.code : FailureOrigin → Nat
  | .none => 0
  | .noOpen => 1
  | .disagree => 2

def ElementState.code : ElementState → Nat
  | .idle => 0
  | .picked => 1
  | .held => 2
  | .operated => 3
  | .resetting => 4

def Severity.code : Severity → Nat
  | .advisory => 0
  | .trip => 1
  | .lockout => 2

def ClaimState.code : ClaimState → Nat
  | .idle => 0
  | .wanted => 1
  | .claiming => 2
  | .queued => 3
  | .holding => 4
  | .closing => 5
  | .releasing => 6
  | .suspended => 7

def Want.code : Want → Nat
  | .dispatch => 0
  | .changeover => 1
  | .tie => 2
  | .maintenance => 3

def HoldPhase.code : HoldPhase → Nat
  | .measuring => 0
  | .deadClose => 1
  | .sync => 2
  | .blocked => 3

/-- NONE is a listed value here: 0, not 255 (log 9). -/
def SessionState.code : SessionState → Nat
  | .none => 0
  | .opened => 1
  | .offered => 2

def SessionEnd.code : SessionEnd → Nat
  | .closeBegun => 0
  | .liveChange => 1
  | .timeout => 2
  | .ended => 3
  | .replaced => 4

def Verdict.code : Verdict → Nat
  | .inWindow => 0
  | .outOfWindow => 1
  | .invalid => 2

def UnloadReason.code : UnloadReason → Nat
  | .order => 0
  | .surplus => 1
  | .barred => 2

def FeederRequest.code : FeederRequest → Nat
  | .admitFeeder => 0
  | .withdraw => 1

def MonitorState.code : MonitorState → Nat
  | .healthy => 0
  | .disturbed => 1
  | .failed => 2
  | .returning => 3

/-! ### The port's own records (13.3) -/

/-- The attention summary (R178). -/
def State.attentionSummary (s : State) : List Byte :=
  flagByte s.port.attention ++ byte1 s.settings.state.code ++ byte1 s.step.state.code ++
  byte2 (kindSetBits s.fault.pending) ++ byte1 s.port.state.code

/-- The settings record: the configured state, the refusal reason and the settings loaded with their digest. Bits and bytes
of the image that carry no setting are shown as 0 or left out (log 8). -/
def State.settingsRecord (s : State) : List Byte :=
  byte1 s.settings.state.code ++ enum (s.settings.refusal.map LoadRefusal.code) ++
  optional (fun l => bytes32 l.digest ++ l.station.bytes ++ l.campus.bytes) s.settings.loaded

/-- The operate record (13.3.1). -/
def State.operateRecord (s : State) : List Byte :=
  enum (s.port.operation.map Operation.code) ++ byte1 s.port.state.code ++ enum (s.port.reason.map OperateReason.code) ++
  timeLeft s.port.limit

/-! ### Step record and picture (R53, R178) -/

def epochBytes (e : EpochId) : List Byte := bytes16 e.serial ++ byte1 e.founder

/-- The step record (R53). -/
def State.stepRecordBytes (s : State) : List Byte :=
  byte1 s.step.state.code ++ optional epochBytes s.step.epoch ++ optional bytes16 s.step.highest ++
  byte1 s.step.founding ++
  optional (fun a => byte1 a.source ++ bytes16 a.serial ++ epochBytes a.epoch) s.step.pendingAdoption ++
  bytes16 s.step.nextSummary ++ byte4 s.step.guard ++ bytes16 s.step.completed ++ bytes16 s.step.voided ++
  bytes16 s.step.founded ++ bytes32 s.pic.delivery

/-- A Station Table entry (1.2). The stale mark of an unconfigured entry is absent (R2); it is held and sent as no (log 9). -/
def StationEntry.bytes (e : StationEntry) : List Byte :=
  flagByte e.fixed.isSome ++ enum (e.fixed.map (·.kind.code)) ++ enum (e.fixed.map (·.sec.index)) ++
  optional byte2 (e.fixed.map (·.rating)) ++ optional byte4 (e.fixed.map (·.level)) ++ byte1 e.presence.code ++
  optional (fun q => byte1 q.toNat) e.lastSeq ++ optional StatusBody.bytes e.content ++ flagByte e.stale

def queueBytes (q : List QueueEntry) : List Byte := countedBytes (fun e => byte1 e.station ++ bytes32 e.entry) q

def orderBytes (o : Option LastOrder) : List Byte :=
  enum (o.map (·.order.code)) ++ bytes32 ((o.map (·.stamp)).getD 0)

/-- A Section Record (1.4). -/
def SectionRecord.bytes (r : SectionRecord) : List Byte :=
  flagByte r.configured ++ flagByte r.live ++ flagByte r.faulted ++ enum (r.island.map (·.index)) ++ byte1 r.holder ++
  bytes32 r.grant ++ queueBytes r.queue ++ orderBytes r.lastOrder

/-- The sections of a named island. -/
def State.sectionsNamed (s : State) (i : BusSection) : SectionSet :=
  PerSection.make fun x => s.islandOf x == some i

/-- The picture: Station Table, Section Records, island partition and delivery number (R178). -/
def State.pictureBytes (s : State) : List Byte :=
  countedBytes StationEntry.bytes s.pic.table ++ countedBytes (fun x => (s.sec x).bytes) BusSection.all ++
  countedBytes (fun i => byte1 i.index ++ byte1 (SectionSet.bits (s.sectionsNamed i))) s.islandNames ++
  bytes32 s.pic.delivery

/-! ### Link, measurement, breaker and engine records (R35, R59, R72, R73) -/

/-- The kinds of the frames in the queues, numbered from 0 in the order of the body table of chapter 2, which is that of
the frame codes of 13.4 (log 9). -/
def UrgentFrame.code (f : UrgentFrame) : Nat := f.body.kind.code - 1

/-- The kind of a frame of the ORDERED queue, numbered as those of the URGENT queue (log 9). -/
def OrderedFrame.code : OrderedFrame → Nat
  | .claim _ => FrameKind.code .claim - 1
  | .release _ _ => FrameKind.code .release - 1
  | .admitFeeder _ => FrameKind.code .admitFeeder - 1
  | .withdraw => FrameKind.code .withdraw - 1
  | .order _ _ => FrameKind.code .order - 1
  | .drop _ => FrameKind.code .drop - 1
  | .summaryOne _ => FrameKind.code .summary - 1
  | .summaryTwo _ => FrameKind.code .summary - 1

/-- The configured peers, in station order. -/
def State.peers (s : State) : List Nat := s.stationsWhere fun c => !(c.number == s.own)

/-- The link record (R35). The silence count of every peer is a list of the configured peers, each with its count (log 9). -/
def State.linkBytes (s : State) : List Byte :=
  byte1 s.link.nextSeq.toNat ++ flagByte s.link.startSilence ++
  countedBytes (fun f => byte1 (UrgentFrame.code f)) s.link.urgent ++
  countedBytes (fun f => byte1 (OrderedFrame.code f)) s.link.ordered ++
  countedBytes (fun _ => byte1 (FrameKind.code .status - 1)) s.link.statusRequest.toList ++
  enum (s.link.statusRequest.map StatusCause.code) ++
  countedBytes (fun n => byte1 n ++ byte1 (s.entry n).silence) s.peers ++ bytes32 s.link.roundCount ++
  bytes32 s.link.transmitted ++ bytes32 s.link.receiveDiscard ++ bytes32 s.link.refusals

def LiveFlag.bytes (f : LiveFlag) : List Byte := flagByte f.live ++ byte4 f.liveRun ++ byte4 f.deadRun

/-- The measurement record (R59). -/
def State.measurementBytes (s : State) : List Byte :=
  optional setBytes s.meas.latest ++ optional bytes16 s.meas.lastSeq ++ flagByte s.meas.setLoss ++ s.meas.line.bytes ++
  s.meas.bus.bytes ++ bytes32 s.meas.discards

/-- The breaker record (R72). Which timers run is three yes or no bytes: close, open, disagreement (log 9). -/
def State.breakerBytes (s : State) : List Byte :=
  byte1 s.brk.state.code ++ byte1 (Position.code s.position) ++ flagByte s.brk.closeTimer.isSome ++
  flagByte s.brk.openTimer.isSome ++ flagByte s.brk.disagreementTimer.isSome ++ flagByte s.brk.watch ++
  flagByte s.brk.mark ++ countedBytes (fun x => byte1 (TripSource.code x)) s.brk.sources ++ byte1 s.brk.origin.code ++
  enum (s.brk.lastRefusal.map CloseRefusal.code)

/-- The engine record (R73). READY is not read at a station of another kind (4.9): no is returned there, and at an UNCONFIGURED
station, where no kind is loaded (log 4). -/
def State.engineBytes (s : State) : List Byte :=
  signed4 s.eng.speedBias ++ signed4 s.eng.voltageBias ++ flagByte s.eng.run ++ flagByte (s.isGenerator && s.pins.ready)

/-! ### Protection, zone and fault records (R89, R103, R115) -/

/-- The settings part of a slot as loaded, field by field in the order of 5.1. A compare absent from the image is 255. -/
def SlotSettings.fieldBytes (c : SlotSettings) : List Byte :=
  flagByte c.enabled ++ byte1 c.kindCode ++ byte4 c.pickup ++ byte1 (if c.compareCode = 2 then 255 else c.compareCode) ++
  byte4 c.qualify ++ byte2 c.delay ++ byte4 c.curve ++ flagByte c.decay ++ byte2 c.decayStep ++ flagByte c.blockable ++
  flagByte c.announces ++ byte1 c.routeCode ++ flagByte c.edge

/-- One slot: its settings part, then its running part (5.1). -/
def State.slotBytes (s : State) (n : Nat) : List Byte :=
  let r := s.slotRun n
  (s.slotSettings n).fieldBytes ++ byte1 r.state.code ++ byte2 r.count ++ byte4 r.acc ++ flagByte r.demand ++
  bytes32 r.pickups ++ bytes32 r.operations

/-- The protection record (R89). The eight slots are a list with its count, 8 (log 9). -/
def State.protectionBytes (s : State) : List Byte :=
  countedBytes s.slotBytes slotNumbers ++ flagByte s.prot.announcing ++ flagByte s.meas.setLoss

/-- The members of the intertrip demand sources: slot numbers, the lowest first, and then 9 for BREAKER_FAILURE (log 9). -/
def State.demandSources (s : State) : List Nat :=
  (slotNumbers.filter fun n => (s.slotRun n).demand) ++ (if s.zone.breakerFailure then [9] else [])

/-- The zone settings as loaded (6.1): the zone codes and the patterns as lists, the block limit as a time; two empty lists
and 0 where none are loaded (log 9). -/
def StationSettings.zoneBytes (t : StationSettings) : List Byte :=
  countedBytes byte1 t.zoneMap ++ countedBytes Pattern.bytes t.patterns ++ byte4 t.blockLimit

/-- The zone record (R103). The entries of both sets go in the order in which they were added, and accepted or masked as a yes
or no; source stations and demand sources take one byte each (log 9). -/
def State.zoneBytes (s : State) : List Byte :=
  s.station.zoneBytes ++ flagByte s.zone.blockAsserted ++ flagByte s.zone.intertripAsserted ++
  countedBytes byte1 s.demandSources ++
  countedBytes (fun e => byte1 e.source ++ bytes32 e.stamp ++ byte4 e.left) s.zone.blockList ++
  countedBytes (fun e => byte1 e.source ++ flagByte e.accepted ++ flagByte e.stale ++ bytes32 e.stamp) s.zone.intertrips

/-- A context of a capture: a number for its sort, then its data (log 9). -/
def contextBytes : FaultContext → List Byte
  | .none => byte1 255
  | .slot n => byte1 0 ++ byte1 n
  | .station n => byte1 1 ++ byte1 n
  | .set m => byte1 2 ++ setBytes m
  | .frame k h len => byte1 3 ++ byte1 k.code ++ byte1 h.source ++ [h.seq] ++ byte2 len

def captureBytes (c : Capture) : List Byte :=
  byte1 (c.kind.number - 1) ++ optional bytes16 c.setSeq ++ bytes32 c.roundCount ++ bytes32 c.delivery ++
  contextBytes c.context

/-- The kinds whose mask or severity in use differs from the image's. -/
def State.inUseDiffers (s : State) : List FaultKind :=
  FaultKind.all.filter fun k =>
    !(s.masked k == s.station.mask.get k) || !((s.severityOf k).code == s.station.severityCode.get k)

/-- The slots among the bus-fault slots. -/
def State.busFaultSlots (s : State) : List Nat := slotNumbers.filter fun n => s.fault.busSlots.getD (n - 1) false

/-- The fault record (R115). The sixteen counts and the table as loaded go without a count; the values in use that differ are a
list of kind number from 0, masked or not, and severity in use (log 9). -/
def State.faultBytes (s : State) : List Byte :=
  byte2 (kindSetBits s.fault.pending) ++ FaultKind.all.flatMap (fun k => byte1 (s.fault.count.get k)) ++
  optional captureBytes s.fault.capture ++ flagByte s.fault.lockout ++ byte1 (SectionSet.bits s.fault.busFault) ++
  countedBytes byte1 s.busFaultSlots ++ flagByte s.fault.barLatch ++ flagByte s.barred ++ s.station.maskBytes ++
  countedBytes (fun k => byte1 (k.number - 1) ++ flagByte (s.masked k) ++ byte1 (s.severityOf k).code) s.inUseDiffers

/-! ### Token and sync records (R132, R140) -/

def releaseRecordBytes (r : LastRelease) : List Byte := byte1 r.sender ++ byte1 r.cause.code ++ bytes32 r.stamp

/-- The lapse state of an entry that has one: the time left, absent once lapsed (log 9). -/
def lapseBytes : Lapse → List Byte
  | .running left => timeLeft (some left)
  | _ => timeLeft none

/-- The claim record with the time left on the hold timer (8.1). -/
def State.claimBytes (s : State) : List Byte :=
  byte1 s.token.state.code ++ enum (s.token.want.map Want.code) ++ enum (s.token.phase.map HoldPhase.code) ++
  enum (s.token.cause.map ReleaseCause.code) ++ flagByte s.token.retryRound ++ flagByte s.token.awaitOwnStep ++
  flagByte s.token.closedMark ++ timeLeft s.token.holdTimer

/-- The token record (R132). -/
def State.tokenBytes (s : State) : List Byte :=
  countedBytes (fun x =>
    byte1 (s.sec x).holder ++ bytes32 (s.sec x).grant ++ queueBytes (s.sec x).queue ++
    optional releaseRecordBytes (s.sec x).lastRelease) BusSection.all ++
  countedBytes (fun n => byte1 n ++ lapseBytes (s.entry n).lapse)
    (stationNumbers.filter fun n => !((s.entry n).lapse == .none)) ++
  s.claimBytes ++ bytes16 s.token.claims ++ bytes16 s.token.grants ++ bytes16 s.token.expiries

/-- The measured fields of a result, each absent after a broken window (R136). -/
def figureBytes (f : Option SyncFigures) : List Byte :=
  optional signed4 (f.map (·.slip)) ++ optional signed4 (f.map (·.projected)) ++ optional signed4 (f.map (·.voltage))

def resultBytes (r : SyncResult) : List Byte :=
  bytes16 r.number ++ bytes16 r.session ++ bytes16 r.first ++ bytes16 r.last ++ figureBytes r.figures ++
  byte1 r.verdict.code

/-- The sync settings as loaded, in the order of the station part, the sync timeout in milliseconds; each 0 where none are
loaded (log 9). -/
def StationSettings.syncBytes (t : StationSettings) : List Byte :=
  byte4 t.window ++ byte4 t.slipLimit ++ byte4 t.angleLimit ++ byte4 t.voltageLimit ++ byte4 (t.syncTimeout * 1000) ++
  byte4 t.speedGain ++ byte4 t.voltageGain

/-- The sync record (R140). The first set sequence of a window that holds no set is sent as 0 (log 9). -/
def State.syncBytes (s : State) : List Byte :=
  s.station.syncBytes ++ byte1 s.sync.session.code ++ bytes16 s.sync.number ++ timeLeft s.sync.timer ++
  byte4 s.sync.window.count ++ bytes16 s.sync.window.first ++ optional resultBytes s.sync.last ++
  bytes16 s.sync.resultNumber ++ signed4 s.sync.speedBias ++ signed4 s.sync.voltageBias ++
  enum (s.sync.endCause.map SessionEnd.code) ++ bytes16 s.sync.sessions ++ bytes16 s.sync.offers ++
  bytes16 s.sync.timeouts

/-! ### Role records (R151, R162, R174) -/

/-- The dispatch record (R151). -/
def State.dispatchBytes (s : State) : List Byte :=
  byte1 s.disp.role.code ++ flagByte s.disp.autonomousMark ++ enum (s.disp.reason.map UnloadReason.code) ++
  signed4 s.disp.target ++ timeLeft s.disp.startTimer ++ timeLeft s.disp.autonomousTimer ++
  timeLeft s.disp.minimumTimer ++ timeLeft s.disp.surplusTimer ++ timeLeft s.disp.cooldownTimer ++
  signed4 s.disp.lastBias ++ bytes16 s.disp.starts ++ bytes16 s.disp.failures ++
  countedBytes (fun i =>
    countedBytes (fun e => byte1 e.station ++ byte4 (s.levelOf e.station) ++ bytes32 e.entry) (s.island i).runList ++
    byte4 (s.required i) ++ countedBytes byte1 (s.neededOf i)) s.islandNames

/-- An Admission Queue entry with every field (11.2). -/
def State.waitBytes (s : State) (e : WaitEntry) : List Byte :=
  byte1 e.feeder ++ byte2 (s.ratingOf e.feeder) ++ byte4 (s.levelOf e.feeder) ++ bytes32 e.entry ++
  flagByte e.former.isSome ++ optional bytes32 e.former

/-- An Admitted List entry with every field (11.2). -/
def State.admitBytes (s : State) (e : AdmitEntry) : List Byte :=
  byte1 e.feeder ++ byte2 (s.ratingOf e.feeder) ++ bytes32 e.admission

/-- The feeder role's state, OUT at a station of another kind (R159). -/
def State.feederRole (s : State) : AdmissionState := if s.ownKind == some .feeder then s.admissionOf s.own else .out

/-- The admission record (R162). C, U and the account take four bytes (log 9). -/
def State.admissionBytes (s : State) : List Byte :=
  countedBytes (fun i =>
    byte1 (SectionSet.bits (s.sectionsNamed i)) ++ byte4 (s.island i).capacity ++
    byte4 (s.usable i) ++ signed4 (s.account i) ++ countedBytes s.waitBytes (s.island i).queue ++
    countedBytes s.admitBytes (s.island i).admitted) s.islandNames ++
  byte1 s.feederRole.code ++ flagByte s.feeder.admitOwed ++ flagByte s.feeder.withdrawOwed ++
  enum (s.feeder.inFlight.map FeederRequest.code) ++ bytes16 s.feeder.admissions ++ bytes16 s.feeder.sheds

/-- The changeover record (R174). An owed order is its code, the tie station where it has one, and whether it is the one in
flight (log 9). -/
def State.changeoverBytes (s : State) : List Byte :=
  byte1 s.chg.monitor.code ++ byte4 s.chg.run ++ timeLeft s.chg.rideTimer ++ timeLeft s.chg.returnTimer ++
  byte1 s.chg.state.code ++ flagByte s.chg.manualHold ++ timeLeft s.chg.tieTimer ++ timeLeft s.chg.parallelTimer ++
  flagByte s.chg.splitAsked ++
  countedBytes (fun o => byte1 o.order.code ++ optional byte1 o.tieStation ++ flagByte o.inFlight) s.chg.owed

/-- The tie record (R174). -/
def State.tieBytes (s : State) : List Byte := byte1 s.tie.state.code ++ byte1 s.tie.ordering

/-! ### Selectors -/

/-- The record of a selector; none for a selector that names no record (R178). -/
def State.recordOf (s : State) (selector : Nat) : Option (List Byte) :=
  match selector with
  | 1 => some s.attentionSummary
  | 2 => some s.settingsRecord
  | 3 => some s.operateRecord
  | 4 => some s.stepRecordBytes
  | 5 => some s.pictureBytes
  | 6 => some s.linkBytes
  | 7 => some s.measurementBytes
  | 8 => some s.breakerBytes
  | 9 => some s.engineBytes
  | 10 => some s.protectionBytes
  | 11 => some s.zoneBytes
  | 12 => some s.faultBytes
  | 13 => some s.tokenBytes
  | 14 => some s.syncBytes
  | 15 => some s.dispatchBytes
  | 16 => some s.admissionBytes
  | 17 => some s.changeoverBytes
  | 18 => some s.tieBytes
  | _ => none

end Sys2Proof.Machine
end

