-- ==== Sys2Proof/Machine/Port.lean ====
section
/-!
DEFINITION. The commands of the Maintenance Port (section 13.3), RESTART apart: READ, the clears, OPERATE and its
limit.
-/

namespace Sys2Proof.Machine

/-! ### READ (R176 to R178) -/

/-- What a READ of the attention summary does to the line: it lowers it, except at an UNCONFIGURED station. -/
def State.lowerAttention (s : State) : State :=
  if s.settings.state == .unconfigured then s else s.onPort fun p => { p with attention := false }

/-- A READ. While LOADING only the attention summary and the settings record are answered. -/
def State.read (selector : Nat) (s : State) : State :=
  if s.settings.state == .loading && !(selector == 1 || selector == 2) then s.answer .busy []
  else
    match s.recordOf selector with
    | none => s.answer .badSelector []
    | some bs => (if selector == 1 then s.lowerAttention else s).answer .ok bs

def execRead (selector : Nat) (s : State) : Host.Outcome State Fault Refusal := .next (s.read selector)

/-! ### CLEAR_FAULTS (R113, R114) -/

/-- Steps 1 to 3 of R113 on the store. -/
def FaultStore.clear (kinds : PerKind Bool) (f : FaultStore) : FaultStore :=
  let gone (k : FaultKind) : Bool := kinds.get k && f.pending.get k
  let bus := gone .busFault
  { f with
    pending := PerKind.make fun k => f.pending.get k && !kinds.get k
    count := PerKind.make fun k => if gone k then 0 else f.count.get k
    capture :=
      match f.capture with
      | some c => if gone c.kind then none else some c
      | none => none
    busFault := if bus then SectionSet.empty else f.busFault
    busSlots := if bus then List.replicate 8 false else f.busSlots }

/-- Whether the cause of BREAKER_DISAGREE still stands (R70, R114). -/
def State.disagreeStands (s : State) : Bool :=
  s.brk.origin == .disagree && (s.position == .travelling || s.position == .invalid)

/-- The bus-fault slots found OPERATED, which all rejoin when the cause still stands (R114). -/
def State.slotsOperated (s : State) : List Nat := s.busFaultSlots.filter fun n => (s.slotRun n).state == .operated

/-- Those of them that keep the cause standing: not a slot that operated again while held (R114, log 38). -/
def State.slotsStanding (s : State) : List Nat := s.slotsOperated.filter fun n => !(s.slotRun n).released

/-- The re-raise of BUS_FAULT: the context is the lowest slot that keeps the cause standing (log 38), and `rejoin` the slots
that rejoin the bus-fault slots (R114). -/
def State.reraiseBus (standing rejoin : List Nat) (s : State) : State :=
  match standing with
  | [] => s
  | n :: _ => rejoin.foldl (fun s k => s.joinBusFault k) (s.raise .busFault (.slot n))

/-- Step 5 of R113: the end of lockout. -/
def State.judgeLockoutEnd (s : State) : State :=
  if s.fault.lockout && !s.lockoutStands then
    (s.onFault fun f => { f with lockout := false }).tell .lockoutEnd
  else s

/-- A clear at a CONFIGURED station (R113). Where both causes stand, BREAKER_DISAGREE is raised again first (log 9). -/
def State.clearFaults (kinds : PerKind Bool) (s : State) : State :=
  let gone (k : FaultKind) : Bool := kinds.get k && s.fault.pending.get k
  let s1 := s.onFault (FaultStore.clear kinds)
  let s2 := if gone .breakerNoOpen then s1.breakerFailureEnds else s1
  let s3 := if gone .breakerDisagree && s.disagreeStands then s2.raise .breakerDisagree .none else s2
  let s4 := if gone .busFault then s3.reraiseBus s.slotsStanding s.slotsOperated else s3
  s4.judgeLockoutEnd.tellBarred s.barred

/-- A clear at an UNCONFIGURED station: on the fault store alone (R177). -/
def State.clearStore (kinds : PerKind Bool) (s : State) : State :=
  let s1 := s.onFault (FaultStore.clear kinds)
  s1.onFault fun f => { f with lockout := f.lockout && s1.lockoutStands }

def execClearFaults (kinds : PerKind Bool) (s : State) : Host.Outcome State Fault Refusal :=
  match s.settings.state with
  | .loading => .next (s.answer .busy [])
  | .unconfigured => .next ((s.clearStore kinds).answer .ok [])
  | .configured => event (fun s => (s.clearFaults kinds).answer .ok []) s

/-! ### CLEAR_STALE_INTERTRIP (R102, R178) -/

def execClearStaleIntertrip (s : State) : Host.Outcome State Fault Refusal :=
  match s.settings.state with
  | .loading => .next (s.answer .busy [])
  | .unconfigured => .next (s.answer .refused [])
  | .configured => event (fun s => s.clearStale.answer .ok []) s

/-! ### OPERATE (R178, R179) -/

/-- An OPERATE with its operation. -/
def operate (o : Operation) (s : State) : Host.Outcome State Fault Refusal :=
  match s.settings.state with
  | .loading => .next (s.answer .busy [])
  | .unconfigured => .next (s.answer .refused [])
  | .configured =>
    if s.port.state == .inProgress then .next (s.answer .busy []) else event (State.takeOperation o) s

def execOperateOpen (s : State) : Host.Outcome State Fault Refusal := operate .opn s
def execOperateClose (s : State) : Host.Outcome State Fault Refusal := operate .close s
def execOperateBar (s : State) : Host.Outcome State Fault Refusal := operate .bar s
def execOperateUnbar (s : State) : Host.Outcome State Fault Refusal := operate .unbar s
def execOperateMerge (s : State) : Host.Outcome State Fault Refusal := operate .merge s
def execOperateSplit (s : State) : Host.Outcome State Fault Refusal := operate .split s

/-- OPERATE_LIMIT_EXPIRY (R180). -/
def execOperateLimitExpiry (s : State) : Host.Outcome State Fault Refusal :=
  timerEvent (·.port.limit) State.operateTimedOut s

/-- COMMAND_DISCARD: a port command whose check fails is discarded without a response (13.4). -/
def execCommandDiscard (_bytes : List Byte) (s : State) : Host.Outcome State Fault Refusal := .next s

end Sys2Proof.Machine
end

