-- ==== Sys2Proof/Machine/Round.lean ====
section
/-!
DEFINITION. The round end (section 2.7) and the events of the medium (R21 to R23). The order of the work of a round
end is log 10.
-/

namespace Sys2Proof.Machine

/-! ### The Link Controller's own work (R25, R31 to R33) -/

/-- The round count rises, the timer runs again, and a PERIODIC STATUS is requested (R31). -/
def State.countRound (s : State) : State :=
  (s.onLink fun l => { l with roundCount := l.roundCount + 1, roundTimer := some s.campus.round }).requestStatus .periodic

/-- Start silence ends at the end of the sixth round (R25). -/
def State.judgeStartSilence (s : State) : State :=
  if s.link.roundCount.toNat == Config.startSilenceRounds then s.endStartSilence else s

/-- The silence count of one entry at a round end (R32). -/
def StationEntry.silent (own : Bool) (e : StationEntry) : StationEntry :=
  { e with
    heard := false
    silence :=
      if e.fixed.isSome && !own && e.presence == .live && !e.heard then satSucc 255 e.silence else e.silence }

/-- The silence counts advance (R32). -/
def State.advanceSilence (s : State) : State :=
  s.onPic fun p => { p with table := p.table.mapIdx fun k e => e.silent (k + 1 == s.own) }

/-- The pending source has been silent for three rounds (R49). -/
def State.judgePendingSource (s : State) : State :=
  match s.step.pendingAdoption with
  | some a => if Config.silenceLimit ≤ (s.entry a.source).silence then s.voidAdoption else s
  | none => s

/-- The summary guard is lowered by one (R44). -/
def State.lowerGuard (s : State) : State := s.onStep fun t => { t with guard := t.guard - 1 }

/-- Whether a DROP naming a station is requested (R33). -/
def State.dropDue (s : State) (n : Nat) : Bool :=
  s.isConfigured n && !(n == s.own) && Config.silenceLimit ≤ (s.entry n).silence && (s.entry n).presence == .live &&
    s.inStep && !s.link.ordered.contains (.drop n)

/-- The DROP requests, the lowest named station first (R27, R33). -/
def State.requestDrops (s : State) : State :=
  stationNumbers.foldl (fun s n => if s.dropDue n then s.requestOrdered (.drop n) else s) s

/-- The founding wait, and founding (R50, R51). -/
def State.judgeFounding (s : State) : State :=
  let s1 := s.advanceFounding
  if s1.mayFound then s1.found else s1

/-! ### The round end -/

/-- The Token Unit's round work (R117, R124, R125). -/
def State.tokenRound (s : State) : State :=
  ((s.onToken fun t => { t with retryRound := false }).judgeClaim).releaseAtRound

/-- The work of a round end. -/
def State.endRound (s : State) : State :=
  let s1 := s.countRound.judgeStartSilence.advanceSilence.judgePendingSource.lowerGuard
  let s2 := s1.requestDrops.judgeFounding.retrySummary
  let s3 := s2.tokenRound.judgeFeeder.judgeFeederClose.changeoverRound
  s3.refreshBlock.generatorRound

/-- ROUND_END. -/
def execRoundEnd (s : State) : Host.Outcome State Fault Refusal := event State.endRound s

/-! ### The medium (R21 to R24) -/

/-- Whether the medium stands idle is the medium's own state: it is followed in every configured state (log 27). -/
def State.setIdle (idle : Bool) (s : State) : State := s.onLink fun l => { l with mediumIdle := idle }

/-- MEDIUM_IDLE: the medium is found idle, and the gap is measured from this moment (R22). -/
def execMediumIdle (s : State) : Host.Outcome State Fault Refusal := .next (s.setIdle true)

/-- DEFER: another station has begun to drive the medium, and the gap is abandoned (R22). -/
def execDefer (s : State) : Host.Outcome State Fault Refusal := .next (s.setIdle false)

/-- GAP_EXPIRY: the station that contends takes the medium and transmits one frame (R22 to R24). -/
def execGapExpiry (s : State) : Host.Outcome State Fault Refusal :=
  event (fun s => if s.gap.isSome then s.transmitHead else s) s

/-- A reception: one that fails a test of R21 is counted and is no delivery; one that passes them all is a delivery (R1),
whatever its codes (logs 3 and 29). -/
def State.receive (bytes : List Byte) (s : State) : State :=
  if frameAccepted bytes then s.takeBytes bytes
  else s.onLink fun l => { l with receiveDiscard := l.receiveDiscard + 1 }

/-- RECEIVE_DISCARD (R21). -/
def execReceiveDiscard (bytes : List Byte) (s : State) : Host.Outcome State Fault Refusal :=
  event (State.receive bytes) s

end Sys2Proof.Machine
end

