-- ==== Sys2Proof/Machine/StartUp.lean ====
section
/-!
DEFINITION. Power-on, restart and the settings load (R175 to R177), with the values every block takes at a reset.
-/

namespace Sys2Proof.Machine

/-! ### What stands outside the part: its inputs -/

/-- A state with the inputs of another: the contacts, READY, the idle medium and the waiting commands. -/
def State.withInputs (from_ s : State) : State :=
  { s with pending := from_.pending, pins := from_.pins, link := { s.link with mediumIdle := from_.link.mediumIdle } }

/-! ### Power-on and restart (R176) -/

/-- Power-on: every block at its power-on values, LOADING. -/
def State.powerOn (s : State) : State := State.withInputs s State.reset

def execPowerOn (s : State) : Host.Outcome State Fault Refusal := .next s.powerOn

/-- A slot's running part after a restart: its two counters are kept (R74). -/
def SlotRun.restarted (r : SlotRun) : SlotRun := { SlotRun.initial with pickups := r.pickups, operations := r.operations }

/-- The state that a restart keeps where power-on does not (R176), over power-on values of everything else. -/
def State.restarted (s : State) : State :=
  { State.withInputs s State.reset with
    prot := { ProtectionRecord.initial with slots := s.prot.slots.map SlotRun.restarted }
    fault := { s.fault with busSlots := List.replicate 8 false }
    disp := { DispatchRecord.initial with starts := s.disp.starts, failures := s.disp.failures }
    feeder := { FeederRecord.initial with admissions := s.feeder.admissions, sheds := s.feeder.sheds }
    port := { PortRecord.initial with response := s.port.response } }

/-- A restart request: the load begins, from its first byte (R176). The values of the reset are taken at the request
(log 7). -/
def State.restart (s : State) : State :=
  { s.restarted with
    settings :=
      { state := .loading, afterRestart := true, readLimit := some Config.readLimitMs, refusal := none,
        loaded := s.settings.loaded } }

def execRestartLine (s : State) : Host.Outcome State Fault Refusal := .next s.restart

/-- RESTART: answered OK, and then the restart begins (R178). -/
def execRestart (s : State) : Host.Outcome State Fault Refusal := .next (s.answer .ok []).restart

/-! ### The end of the load (R175, R177) -/

/-- The load refuses the image: UNCONFIGURED, every block at power-on values but the fault store, attention high
(R177). -/
def State.refuseLoad (r : LoadRefusal) (s : State) : State :=
  { State.withInputs s State.reset with
    settings :=
      { state := .unconfigured, afterRestart := s.settings.afterRestart, readLimit := none, refusal := some r,
        loaded := none }
    fault := s.fault
    port := { PortRecord.initial with attention := true, response := s.port.response } }

/-- A Station Table entry as the load sets it (R2). -/
def loadedEntry (c : CampusSettings) (own n : Nat) : StationEntry :=
  match c.stations.find? fun e => e.number == n with
  | some e =>
    { StationEntry.absent with fixed := some e, presence := if n == own then .live else .unknown }
  | none => StationEntry.absent

/-- The picture as the load sets it, its derived values apart (R2, R11). -/
def loadedPicture (l : Loaded) : Picture :=
  { Picture.initial with
    table := stationNumbers.map (loadedEntry l.campus l.station.number)
    secs := PerSection.make fun x => { SectionRecord.initial with configured := l.campus.configured.get x } }

/-- The breaker record at its first position (R61). -/
def BreakerRecord.first (limit : Nat) (p : Position) : BreakerRecord :=
  match p with
  | .closed => { BreakerRecord.initial with state := .closed }
  | .opened => BreakerRecord.initial
  | _ => { BreakerRecord.initial with disagreementTimer := some limit }

/-- The kept fault store judged against the settings now in force (R105). -/
def State.judgeStore (s : State) : State :=
  s.onFault fun f => { f with
    capture :=
      match f.capture with
      | some c => if s.masked c.kind then none else some c
      | none => none
    lockout := s.lockoutStands
    busFault := if f.pending.busFault then f.busFault else SectionSet.empty
    barLatch := f.barLatch && s.isGenerator }

/-- The role records of a generator and of a feeder at reset values at a station of another kind, their kept counters
too (R178). -/
def State.otherRolesAtReset (s : State) : State :=
  (s.onDisp fun d => if s.isGenerator then d else .initial).onFeeder fun f => if s.isFeeder then f else .initial

/-- Whether an unmasked kind is pending. -/
def State.unmaskedPending (s : State) : Bool := FaultKind.all.any fun k => s.fault.pending.get k && !s.masked k

/-- Attention after a restart that reaches CONFIGURED (R176). -/
def State.announceKept (s : State) : State := if s.settings.afterRestart && s.unmaskedPending then s.attend else s

/-- The values of every block under the settings an accepted image gives (R176). -/
def State.configure (l : Loaded) (s : State) : State :=
  let s1 : State :=
    { s.restarted with
      settings :=
        { state := .configured, afterRestart := s.settings.afterRestart, readLimit := none, refusal := none,
          loaded := some l }
      pic := loadedPicture l
      fault := s.fault
      brk := BreakerRecord.first l.station.disagreementLimit s.position }
  let s2 := (s1.onLink fun k => { k with roundTimer := some l.campus.round }).onMeas fun m =>
    { m with lossTimer := some (l.station.halfMs * 4) }
  let s3 := s2.derive.judgeStore.otherRolesAtReset
  s3.onFeeder fun f => { f with
    admitOwed :=
      match (s3.entry s3.own).fixed with
      | some c => c.kind == .feeder && c.autoAdmit
      | none => false }

/-- The load accepts the image: CONFIGURED, the roles set themselves up, and the event's hand-ons are taken. -/
def State.acceptLoad (l : Loaded) (s : State) : State := State.finish s (s.configure l).announceKept.reconstruct

/-- SETTINGS_LOAD: the read completes and the image is judged (R175). It ends a load; at any other time none is in
progress. -/
def execSettingsLoad (image : List Byte) (s : State) : Host.Outcome State Fault Refusal :=
  .next
    (if s.settings.state == .loading then
      match judgeImage image with
      | .ok l => s.acceptLoad l
      | .error r => s.refuseLoad r
    else s)

/-- NO_RESPONSE: the memory does not answer within the read limit (R175 test 1). -/
def execNoResponse (s : State) : Host.Outcome State Fault Refusal :=
  .next (if s.settings.state == .loading then s.refuseLoad .noResponse else s)

end Sys2Proof.Machine
end

