-- ==== Sys2Proof/Machine/Timers.lean ====
section
/-!
DEFINITION. The expiries of the picture's, the Token Unit's, the Sync Unit's and the role units' timers. A timer that
does not run expires without effect (log 23).
-/

namespace Sys2Proof.Machine

/-! ### Token and Sync Units (R123, R125, R138) -/

/-- The CLOSING report of an entry lapses, and the sections its station can close onto are checked (R123). -/
def State.lapseReport (n : Nat) (s : State) : State :=
  match (s.entry n).lapse with
  | .running _ =>
    let s1 := s.onEntry n fun e => { e with lapse := .lapsed }
    if s1.kindOf n == some .feeder then s1 else (s1.grantChecks (s1.connects n)).seeGrant
  | _ => s

def execLapseTimerExpiry (station : Nat) (s : State) : Host.Outcome State Fault Refusal :=
  event (State.lapseReport station) s

/-- The hold timer expires in HOLDING, and the incomer's machine is told (R125, R169). -/
def State.holdEnds (s : State) : State :=
  if s.token.state == .holding then s.holdExpired.tell .holdExpired else s

def execHoldTimerExpiry (s : State) : Host.Outcome State Fault Refusal :=
  timerEvent (·.token.holdTimer) State.holdEnds s

/-- The sync timeout (R138). -/
def State.syncTimedOut (s : State) : State :=
  let s1 := s.raise .syncTimeout s.latestContext
  let s2 := (s1.onSync fun y => { y with timeouts := y.timeouts + 1 }).endSession .timeout
  s2.tokenSyncTimeout.tell .syncTimedOut

def execSyncTimeoutTimerExpiry (s : State) : Host.Outcome State Fault Refusal :=
  timerEvent (·.sync.timer) State.syncTimedOut s

/-! ### The Block List (R96) -/

def execBlockEntryExpiry (station : Nat) (s : State) : Host.Outcome State Fault Refusal :=
  event (State.removeBlock station) s

/-! ### The Dispatch Unit (R145, R147, R150) -/

def execAutonomousTimerExpiry (s : State) : Host.Outcome State Fault Refusal :=
  timerEvent (·.disp.autonomousTimer) State.autonomousExpired s

def execStartLimitExpiry (s : State) : Host.Outcome State Fault Refusal :=
  timerEvent (·.disp.startTimer) State.startLimitExpired s

def execMinimumRunExpiry (s : State) : Host.Outcome State Fault Refusal :=
  timerEvent (·.disp.minimumTimer) State.minimumExpired s

def execSurplusDwellExpiry (s : State) : Host.Outcome State Fault Refusal :=
  timerEvent (·.disp.surplusTimer) State.surplusExpired s

def execCooldownExpiry (s : State) : Host.Outcome State Fault Refusal :=
  timerEvent (·.disp.cooldownTimer) State.cooldownExpired s

/-! ### The Changeover Unit (R165, R167, R170) -/

def execRideThroughExpiry (s : State) : Host.Outcome State Fault Refusal :=
  timerEvent (·.chg.rideTimer) State.rideExpired s

def execReturnStableExpiry (s : State) : Host.Outcome State Fault Refusal :=
  timerEvent (·.chg.returnTimer) State.returnExpired s

def execTieAssistLimitExpiry (s : State) : Host.Outcome State Fault Refusal :=
  timerEvent (·.chg.tieTimer) State.tieAssistExpired s

def execParallelLimitExpiry (s : State) : Host.Outcome State Fault Refusal :=
  timerEvent (·.chg.parallelTimer) State.parallelExpired s

end Sys2Proof.Machine
end

