-- ==== Sys2Proof/Machine/Dispatch.lean ====
section
/-!
DEFINITION. The dispatch of the commands: one arm per constructor of `Instr`, each one call of its meaning.
-/

namespace Sys2Proof.Machine

/-- The effect of a command on everything but the queue. -/
def exec (i : Instr) (s : State) : Host.Outcome State Fault Refusal :=
  match i with
  | .powerOn => Sys2Proof.Machine.execPowerOn s
  | .restartLine => Sys2Proof.Machine.execRestartLine s
  | .restart => Sys2Proof.Machine.execRestart s
  | .settingsLoad image => Sys2Proof.Machine.execSettingsLoad image s
  | .noResponse => Sys2Proof.Machine.execNoResponse s
  | .setArrival m => Sys2Proof.Machine.execSetArrival m s
  | .setDiscard => Sys2Proof.Machine.execSetDiscard s
  | .setLossTimerExpiry => Sys2Proof.Machine.execSetLossTimerExpiry s
  | .positionEvent auxA auxB => Sys2Proof.Machine.execPositionEvent auxA auxB s
  | .closeLimitExpiry => Sys2Proof.Machine.execCloseLimitExpiry s
  | .openLimitExpiry => Sys2Proof.Machine.execOpenLimitExpiry s
  | .disagreementLimitExpiry => Sys2Proof.Machine.execDisagreementLimitExpiry s
  | .readyInputChange on => Sys2Proof.Machine.execReadyInputChange on s
  | .roundEnd => Sys2Proof.Machine.execRoundEnd s
  | .mediumIdle => Sys2Proof.Machine.execMediumIdle s
  | .defer => Sys2Proof.Machine.execDefer s
  | .gapExpiry => Sys2Proof.Machine.execGapExpiry s
  | .receiveDiscard bytes => Sys2Proof.Machine.execReceiveDiscard bytes s
  | .status h b => Sys2Proof.Machine.execStatus h b s
  | .claim h secs => Sys2Proof.Machine.execClaim h secs s
  | .release h secs cause => Sys2Proof.Machine.execRelease h secs cause s
  | .admitFeeder h alreadyClosed => Sys2Proof.Machine.execAdmit h alreadyClosed s
  | .withdraw h => Sys2Proof.Machine.execWithdraw h s
  | .order h o tieStation => Sys2Proof.Machine.execOrder h o tieStation s
  | .block h on => Sys2Proof.Machine.execBlock h on s
  | .intertrip h v => Sys2Proof.Machine.execIntertrip h v s
  | .drop h station => Sys2Proof.Machine.execDrop h station s
  | .summaryPart1 h p => Sys2Proof.Machine.execSummaryPart1 h p s
  | .summaryPart2 h p => Sys2Proof.Machine.execSummaryPart2 h p s
  | .lapseTimerExpiry station => Sys2Proof.Machine.execLapseTimerExpiry station s
  | .holdTimerExpiry => Sys2Proof.Machine.execHoldTimerExpiry s
  | .syncTimeoutTimerExpiry => Sys2Proof.Machine.execSyncTimeoutTimerExpiry s
  | .blockEntryExpiry station => Sys2Proof.Machine.execBlockEntryExpiry station s
  | .autonomousTimerExpiry => Sys2Proof.Machine.execAutonomousTimerExpiry s
  | .startLimitExpiry => Sys2Proof.Machine.execStartLimitExpiry s
  | .minimumRunExpiry => Sys2Proof.Machine.execMinimumRunExpiry s
  | .surplusDwellExpiry => Sys2Proof.Machine.execSurplusDwellExpiry s
  | .cooldownExpiry => Sys2Proof.Machine.execCooldownExpiry s
  | .rideThroughExpiry => Sys2Proof.Machine.execRideThroughExpiry s
  | .returnStableExpiry => Sys2Proof.Machine.execReturnStableExpiry s
  | .tieAssistLimitExpiry => Sys2Proof.Machine.execTieAssistLimitExpiry s
  | .parallelLimitExpiry => Sys2Proof.Machine.execParallelLimitExpiry s
  | .read selector => Sys2Proof.Machine.execRead selector s
  | .clearFaults kinds => Sys2Proof.Machine.execClearFaults kinds s
  | .clearStaleIntertrip => Sys2Proof.Machine.execClearStaleIntertrip s
  | .operateOpen => Sys2Proof.Machine.execOperateOpen s
  | .operateClose => Sys2Proof.Machine.execOperateClose s
  | .operateBar => Sys2Proof.Machine.execOperateBar s
  | .operateUnbar => Sys2Proof.Machine.execOperateUnbar s
  | .operateMerge => Sys2Proof.Machine.execOperateMerge s
  | .operateSplit => Sys2Proof.Machine.execOperateSplit s
  | .operateLimitExpiry => Sys2Proof.Machine.execOperateLimitExpiry s
  | .commandDiscard bytes => Sys2Proof.Machine.execCommandDiscard bytes s

end Sys2Proof.Machine
end

