-- ==== Sys2Proof/Machine/Step.lean ====
section
/-!
DEFINITION. One step: the command at the front of the queue is taken, or, when none waits, one
millisecond passes (log 1).
-/

namespace Sys2Proof.Machine

/-- The state with another queue of waiting commands. -/
def State.withPending (s : State) (cs : List Instr) : State := { s with pending := cs }

/-- One step. -/
def step (s : State) : Host.Outcome State Fault Refusal :=
  match s.pending with
  | [] => .next s.tick
  | c :: rest => exec c (s.withPending rest)

/-- The state with the command a word spells at the front of its queue; unchanged when it spells none. -/
def State.withFetchWord (s : State) (nbits w : Nat) : State :=
  match decodeTableWord nbits w with
  | some c => s.withPending (c :: s.pending)
  | none => s

end Sys2Proof.Machine
end

