-- ==== Sys2Proof/WellFormed.lean ====
section
/-!
DEFINITION. Well-formed commands: every operand within the width that section 4.1 or 13.4 gives it, received bytes that no
frame command stands for, and a port transaction such as the port would discard.
-/

namespace Sys2Proof

/-- A number of one byte. -/
def okByte (n : Nat) : Bool := n ≤ 255

/-- A number of two bytes. -/
def okWord (n : Nat) : Bool := n ≤ 65535

/-- An angle in centidegrees (0.6.1). -/
def okAngle (n : Nat) : Bool := n ≤ 35999

/-- A frequency in mHz (0.6.1). -/
def okFreq (n : Nat) : Bool := n ≤ 65535000

/-- A signed power of two bytes (0.6.1). -/
def okSigned (x : Int) : Bool := -32768 ≤ x && x ≤ 32767

def Phases.all (p : Phases) (ok : Nat → Bool) : Bool := ok p.p1 && ok p.p2 && ok p.p3

/-- A measurement set within its ranges (4.1). -/
def MeasurementSet.wf (m : MeasurementSet) : Bool :=
  m.lineVolts.all okWord && m.lineAngles.all okAngle && okWord m.busVolts && okAngle m.busAngle &&
  m.currents.all okWord && okWord m.residual && okFreq m.lineFreq && okFreq m.busFreq &&
  okSigned m.realPower && okSigned m.reactivePower

/-- A header: the source is one byte (13.4). -/
def Header.wf (h : Header) : Bool := okByte h.source

/-- A STATUS body: a founder of five bits and a role state of one byte (13.4). -/
def StatusBody.wf (b : StatusBody) : Bool :=
  b.epoch.founder ≤ 31 && okByte b.role && okSigned b.realPower && okSigned b.perUnit

/-- An entry of part 1: what is not carried stands as 0. -/
def SummaryEntry.wf (e : SummaryEntry) : Bool :=
  match e.content with
  | some b => b.wf && b.digest == 0 && b.perUnit == 0
  | none => true

/-- A section of part 1: at most the nine claimants able to close onto it (8.1). -/
def SummaryToken.wf (t : SummaryToken) : Bool :=
  okByte t.holder && t.queue.length ≤ 9 && t.queue.all fun q => 1 ≤ q.station && q.station ≤ 30

/-- Whether each claimant of the four queues bears one entry number: part 1 carries one for each (13.4). -/
def SummaryOne.numbered (p : SummaryOne) : Bool :=
  let queued := BusSection.all.flatMap fun x => (p.tokens.get x).queue
  queued.all fun q => queued.all fun r => !(q.station == r.station) || q.entry == r.entry

/-- A part 1: 30 entries, one entry number to a claimant, within the body lengths of a SUMMARY. -/
def SummaryOne.wf (p : SummaryOne) : Bool :=
  p.epoch.founder ≤ 255 && p.entries.length == 30 && p.entries.all SummaryEntry.wf &&
  p.tokens.a.wf && p.tokens.b.wf && p.tokens.c.wf && p.tokens.d.wf && p.numbered &&
  permittedLength FrameKind.summary.code p.bytes.length

/-- An island of part 2: at most 12 generators and 16 feeders a list (R142, R153). -/
def SummaryIsland.wf (i : SummaryIsland) : Bool :=
  i.runList.length ≤ 12 && i.queue.length ≤ 16 && i.admitted.length ≤ 16 &&
  i.runList.all (fun e => okByte e.station) && i.queue.all (fun e => e.feeder ≤ 127) &&
  i.admitted.all fun e => okByte e.feeder

/-- A part 2: at most four islands, within the body lengths of a SUMMARY. -/
def SummaryTwo.wf (p : SummaryTwo) : Bool :=
  p.epoch.founder ≤ 255 && p.islands.length ≤ 4 && p.islands.all SummaryIsland.wf &&
  permittedLength FrameKind.summary.code p.bytes.length

/-- A body whose operands fit its layout (13.4). -/
def FrameBody.wf : FrameBody → Bool
  | .status b => b.wf
  | .claim _ => true
  | .release _ _ => true
  | .admitFeeder _ => true
  | .withdraw => true
  | .order _ t =>
    match t with
    | some n => okByte n
    | none => true
  | .block _ => true
  | .intertrip _ => true
  | .drop n => okByte n
  | .summaryOne p => p.wf
  | .summaryTwo p => p.wf

/-- A station number (0.2). -/
def okStation (n : Nat) : Bool := 1 ≤ n && n ≤ 30

/-- A well-formed command. -/
def Instr.wf : Instr → Bool
  | .setArrival m => m.wf
  | .receiveDiscard bs => (parseFrame bs).isNone
  | .status h b => h.wf && b.wf
  | .claim h _ => h.wf
  | .release h _ _ => h.wf
  | .admitFeeder h _ => h.wf
  | .withdraw h => h.wf
  | .order h o t => h.wf && (FrameBody.order o t).wf
  | .block h _ => h.wf
  | .intertrip h _ => h.wf
  | .drop h n => h.wf && okByte n
  | .summaryPart1 h p => h.wf && p.wf
  | .summaryPart2 h p => h.wf && p.wf
  | .lapseTimerExpiry n => okStation n
  | .blockEntryExpiry n => okStation n
  | .read sel => okWord sel
  | .commandDiscard bs => !portCheck bs
  | _ => true

end Sys2Proof
end

