-- ==== Sys2Proof/Safety.lean ====
section
/-!
DEFINITION. What stays true of the station from step to step: the breaker record, the fault store, the transmit queues
and the picture's derived values each in a form the reference allows.
-/

namespace Sys2Proof.Machine

/-- A breaker record the reference allows (R60, R64 to R71): each output, timer, mark and watch only in the states that
have it, and a failure origin exactly in FAILED. -/
structure BreakerRecord.Ok (b : BreakerRecord) : Prop where
  /-- The close output is driven only in CLOSING (R64). -/
  closeOut : b.closeOut = true → b.state = .closing
  /-- The close limit runs exactly in CLOSING (R64, R65). -/
  closeTimer : b.closeTimer.isSome = true ↔ b.state = .closing
  /-- The close-after-abort mark is set only in CLOSING (R67). -/
  mark : b.mark = true → b.state = .closing
  /-- The breaker-failure watch is yes only in OPEN (R68). -/
  watch : b.watch = true → b.state = .opened
  /-- The trip output is driven exactly while the open limit runs (R66, R68 to R70). -/
  tripTimer : b.tripOut = b.openTimer.isSome
  /-- The trip output is driven only in OPENING, in FAILED, or in OPEN under the watch (R66). -/
  tripOut : b.tripOut = true → b.state = .opening ∨ b.state = .failed ∨ (b.state = .opened ∧ b.watch = true)
  /-- In OPENING and under the watch the trip output is driven (R66, R68). -/
  driven : b.state = .opening ∨ b.watch = true → b.tripOut = true
  /-- The disagreement timer runs only in CLOSED, or in OPEN without the watch (R71). -/
  disagreement : b.disagreementTimer.isSome = true → b.state = .closed ∨ (b.state = .opened ∧ b.watch = false)
  /-- There is a failure origin exactly in FAILED (R69 to R71). -/
  origin : b.origin = .none ↔ ¬ b.state = .failed

/-- A fault store the reference allows (R105 to R107, R111): a count exactly for the pending kinds, a capture of a
pending kind only, and bus-fault sections only while BUS_FAULT is pending. -/
structure FaultStore.Ok (f : FaultStore) : Prop where
  counted : ∀ k : FaultKind, f.pending.get k = true ↔ 1 ≤ f.count.get k
  saturated : ∀ k : FaultKind, f.count.get k ≤ 255
  captured : ∀ c : Capture, f.capture = some c → f.pending.get c.kind = true
  busFault : ∀ x : BusSection, f.busFault.get x = true → f.pending.get .busFault = true

/-- Transmit queues the reference allows (R26, R27): at most one BLOCK and one INTERTRIP, and at most eight ordered
frames. -/
structure LinkRecord.Ok (l : LinkRecord) : Prop where
  blocks : (l.urgent.filter fun u => u.isBlock).length ≤ 1
  intertrips : (l.urgent.filter fun u => !u.isBlock).length ≤ 1
  ordered : l.ordered.length ≤ Config.orderedCapacity

/-- What every operation on the station keeps. -/
structure Good (s : State) : Prop where
  brk : s.brk.Ok
  store : s.fault.Ok
  link : s.link.Ok
  /-- A pending kind of severity LOCKOUT is a lockout (R110). -/
  lockout : s.lockoutStands = true → s.fault.lockout = true
  /-- The Station Table has thirty entries (1.2). -/
  table : s.pic.table.length = 30
  /-- The operate limit runs exactly while an operation is in progress (R179, R180). -/
  port : s.port.limit.isSome = true ↔ s.port.state = .inProgress

/-- At a CONFIGURED station lockout stands only while a kind of severity LOCKOUT is pending (R110, R113). -/
def LockoutOnly (s : State) : Prop := s.configured = true → s.fault.lockout = true → s.lockoutStands = true

/-- A station that is not CONFIGURED drives no output and has nothing to send (R176, R177). -/
def Quiet (s : State) : Prop :=
  s.configured = false →
    s.brk.closeOut = false ∧ s.brk.tripOut = false ∧ s.eng.run = false ∧ s.link.urgent = [] ∧ s.link.ordered = [] ∧
      s.link.statusRequest = none

/-- The state between two steps. -/
structure Inv (s : State) : Prop where
  good : Good s
  lockoutOnly : LockoutOnly s
  quiet : Quiet s
  /-- Nothing waits to be handed on between events (log 5). -/
  news : s.news = []

/-- The derived values of the picture are those its table gives (R9, R12 to R14). -/
structure Derived (s : State) : Prop where
  count : s.pic.quorumCount = s.liveCount
  quorum : s.pic.quorum = s.holdsQuorum s.liveCount
  live : ∀ x, (s.sec x).live = s.liveNow x
  faulted : ∀ x, (s.sec x).faulted = s.faultedNow x
  island : ∀ x, (s.sec x).island = s.partition.get x

/-- A CONFIGURED station's picture is derived from its table. -/
def PictureDerived (s : State) : Prop := s.configured = true → Derived s

/-! ### What a command leaves as it is -/

/-- Which parts of the state a command may change beyond the blocks that act on hand-ons (log 5): the transmit queues
and the STATUS request, the breaker record, the run output, the slots, the station's own block and intertrip, the fault
store, the claim record, the session, the role records, the operate record and the attention line. -/
structure Scope where
  /-- The island tables. -/
  isl : Bool := false
  /-- Token holders, grants, claim queues, last orders and last releases of the Section Records. -/
  secs : Bool := false
  /-- The derived values of the picture. -/
  derived : Bool := false
  /-- The Station Table, its fixed fields apart. -/
  table : Bool := false
  /-- The lapse states of the Station Table. -/
  lapse : Bool := false
  /-- The delivery number. -/
  delivery : Bool := false
  /-- The step record, the summary guard apart. -/
  step : Bool := false
  /-- The Block List and the Intertrip Set. -/
  lists : Bool := false
  /-- BREAKER_FAILURE among the intertrip demand sources. -/
  failure : Bool := false
  /-- The biases sent. -/
  bias : Bool := false
  /-- The bar latch. -/
  bar : Bool := false
  /-- The operation of the operate record. -/
  operation : Bool := false

/-- An entry with its lapse state set aside. -/
def StationEntry.unlapsed (e : StationEntry) : StationEntry := { e with lapse := .none }

/-- The token part of a Section Record, its derived part set aside. -/
def SectionRecord.tokenPart (r : SectionRecord) : SectionRecord :=
  { r with configured := false, live := false, faulted := false, island := none }

/-- The derived part of a Section Record, its token part set aside. -/
def SectionRecord.derivedPart (r : SectionRecord) : SectionRecord :=
  { r with holder := 0, grant := 0, queue := [], lastOrder := none, lastRelease := none }

/-- What lies outside the scope of a command stays as it is. -/
structure Frame (sc : Scope) (s t : State) : Prop where
  pending : t.pending = s.pending
  settings : t.settings = s.settings
  pins : t.pins = s.pins
  meas : t.meas = s.meas
  nextSeq : t.link.nextSeq = s.link.nextSeq
  startSilence : t.link.startSilence = s.link.startSilence
  roundTimer : t.link.roundTimer = s.link.roundTimer
  roundCount : t.link.roundCount = s.link.roundCount
  transmitted : t.link.transmitted = s.link.transmitted
  receiveDiscard : t.link.receiveDiscard = s.link.receiveDiscard
  lastComposed : t.link.lastComposed = s.link.lastComposed
  mediumIdle : t.link.mediumIdle = s.link.mediumIdle
  sent : t.link.sent = s.link.sent
  guard : t.step.guard = s.step.guard
  step : sc.step = false → t.step = s.step
  fixed : t.pic.table.map (·.fixed) = s.pic.table.map (·.fixed)
  table : sc.table = false → t.pic.table.map (·.unlapsed) = s.pic.table.map (·.unlapsed)
  lapse : sc.table = false → sc.lapse = false → t.pic.table = s.pic.table
  delivery : sc.delivery = false → t.pic.delivery = s.pic.delivery
  quorumCount : sc.derived = false → t.pic.quorumCount = s.pic.quorumCount
  quorum : sc.derived = false → t.pic.quorum = s.pic.quorum
  derived : sc.derived = false → ∀ x, (t.sec x).derivedPart = (s.sec x).derivedPart
  configuredSec : ∀ x, (t.sec x).configured = (s.sec x).configured
  secs : sc.secs = false → ∀ x, (t.sec x).tokenPart = (s.sec x).tokenPart
  isl : sc.isl = false → t.isl = s.isl
  speedBias : sc.bias = false → t.eng.speedBias = s.eng.speedBias
  voltageBias : sc.bias = false → t.eng.voltageBias = s.eng.voltageBias
  blockList : sc.lists = false → t.zone.blockList = s.zone.blockList
  intertrips : sc.lists = false → t.zone.intertrips = s.zone.intertrips
  failure : sc.failure = false → t.zone.breakerFailure = s.zone.breakerFailure
  barLatch : sc.bar = false → t.fault.barLatch = s.fault.barLatch
  response : t.port.response = s.port.response
  operation : sc.operation = false → t.port.operation = s.port.operation
  /-- An operation that is not in progress keeps its outcome. -/
  settled : ¬ s.port.state = .inProgress →
    t.port.state = s.port.state ∧ t.port.reason = s.port.reason ∧ t.port.limit = s.port.limit
  /-- A raised attention line stays raised. -/
  attention : s.port.attention = true → t.port.attention = true
  /-- A STATUS request stays, or a newer one takes its place (R30). -/
  request : s.link.statusRequest.isSome = true → t.link.statusRequest.isSome = true
  /-- No kind ceases to be pending. -/
  stays : ∀ k, s.fault.pending.get k = true → t.fault.pending.get k = true
  /-- A capture stays (R107). -/
  capture : ∀ c, s.fault.capture = some c → t.fault.capture = some c
  /-- Lockout stays. -/
  lockout : s.fault.lockout = true → t.fault.lockout = true
  /-- No section leaves the bus-fault set. -/
  busFault : ∀ x, s.fault.busFault.get x = true → t.fault.busFault.get x = true

/-! ### Words the statements use -/

/-- What every reset leaves: every block at its power-on values, the inputs followed. -/
def AtPowerOnValues (s t : State) : Prop :=
  t.step = .initial ∧ t.pic = .initial ∧ t.isl = PerSection.fill .initial ∧ t.meas = .initial ∧ t.brk = .initial ∧
  t.eng = .initial ∧ t.zone = .initial ∧ t.token = .initial ∧ t.sync = .initial ∧ t.chg = .initial ∧ t.tie = .initial ∧
  t.link = { LinkRecord.initial with mediumIdle := s.link.mediumIdle } ∧ t.pins = s.pins ∧ t.pending = s.pending

/-- The command of an operation. -/
def Operation.command : Operation → Instr
  | .opn => .operateOpen
  | .close => .operateClose
  | .bar => .operateBar
  | .unbar => .operateUnbar
  | .merge => .operateMerge
  | .split => .operateSplit

/-- The header of the delivered frame a command is. -/
def frameHeader : Instr → Option Header
  | .status h _ => some h
  | .claim h _ => some h
  | .release h _ _ => some h
  | .admitFeeder h _ => some h
  | .withdraw h => some h
  | .order h _ _ => some h
  | .block h _ => some h
  | .intertrip h _ => some h
  | .drop h _ => some h
  | .summaryPart1 h _ => some h
  | .summaryPart2 h _ => some h
  | _ => none

/-- The state once a frame that changes no entry but its source's has been counted and its source noted, and the
derived values computed: what its own effect is judged in (R1 steps 1 to 5). -/
def State.noted (k : FrameKind) (len : Nat) (h : Header) (s : State) : State :=
  State.judgeQuorum s ((s.countDelivery).noteSource k len h).derive

end Sys2Proof.Machine
end

