-- ==== Sys2Proof/Certificates/Slice0/Obligations.lean ====
section
/-!
DEFINITION. The statements for the provers, from the numbered rules of the reference. In each statement about a command at a
CONFIGURED station, `State.finish s u` is the state after the hand-ons of an event whose own work ended in `u` (log 5),
and `Frame sc s t` says what stays as it was.
-/

open Sys2Proof Sys2Proof.Machine

/-! ### Steps -/

/-- A step takes the command at the front of the queue, and runs it with the queue's rest. -/
def Obligations.StepTakesTheFrontCommand : Prop :=
  ∀ (c : Instr) (rest : List Instr) (s : State), s.pending = c :: rest → step s = exec c (s.withPending rest)

/-- On an empty queue one millisecond passes for every running timer, and nothing else changes: the model's choice (log 1). -/
def Obligations.EmptyQueueLetsAMillisecondPass : Prop :=
  ∀ s : State, s.pending = [] → ∃ t : State, step s = .next t ∧
    t.settings = { s.settings with readLimit := s.settings.readLimit.map (· - 1) } ∧
    t.link = { s.link with roundTimer := s.link.roundTimer.map (· - 1) } ∧
    t.meas = { s.meas with lossTimer := s.meas.lossTimer.map (· - 1) } ∧
    t.brk = { s.brk with
      closeTimer := s.brk.closeTimer.map (· - 1), openTimer := s.brk.openTimer.map (· - 1)
      disagreementTimer := s.brk.disagreementTimer.map (· - 1) } ∧
    t.token = { s.token with holdTimer := s.token.holdTimer.map (· - 1) } ∧
    t.sync = { s.sync with timer := s.sync.timer.map (· - 1) } ∧
    t.disp = { s.disp with
      startTimer := s.disp.startTimer.map (· - 1), autonomousTimer := s.disp.autonomousTimer.map (· - 1)
      minimumTimer := s.disp.minimumTimer.map (· - 1), surplusTimer := s.disp.surplusTimer.map (· - 1)
      cooldownTimer := s.disp.cooldownTimer.map (· - 1) } ∧
    t.chg = { s.chg with
      rideTimer := s.chg.rideTimer.map (· - 1), returnTimer := s.chg.returnTimer.map (· - 1)
      tieTimer := s.chg.tieTimer.map (· - 1), parallelTimer := s.chg.parallelTimer.map (· - 1) } ∧
    t.port = { s.port with limit := s.port.limit.map (· - 1) } ∧
    t.zone = { s.zone with blockList := s.zone.blockList.map fun e => { e with left := e.left - 1 } } ∧
    t.pic.table.map (·.unlapsed) = s.pic.table.map (·.unlapsed) ∧
    (∀ n left, (s.entry n).lapse = .running left → (t.entry n).lapse = .running (left - 1)) ∧
    (∀ n, (∀ left, (s.entry n).lapse ≠ .running left) → (t.entry n).lapse = (s.entry n).lapse) ∧
    t.pic = { s.pic with table := t.pic.table } ∧ t.step = s.step ∧ t.isl = s.isl ∧ t.eng = s.eng ∧
    t.prot = s.prot ∧ t.fault = s.fault ∧ t.feeder = s.feeder ∧ t.tie = s.tie ∧ t.pins = s.pins ∧ t.pending = [] ∧
    t.news = s.news

/-! ### Start-up (R175 to R177) -/

/-- POWER_ON: LOADING, the read of the image begun, every block at its power-on values, outputs released (R176). Of those
values these are the model's choice: the breaker state OPEN while LOADING (log 46), the hold phase and release cause absent (log
39), the inputs and the idle medium as they stand (log 4, log 27), no refusal reason and attention low while LOADING (log 7),
and no response sent (log 28). -/
def Obligations.PowerOnBeginsTheLoad : Prop :=
  ∀ s : State, ∃ t : State, exec .powerOn s = .next t ∧ AtPowerOnValues s t ∧
    t.settings = { state := .loading, afterRestart := false, readLimit := some 500, refusal := none, loaded := none } ∧
    t.prot = .initial ∧ t.disp = .initial ∧ t.feeder = .initial ∧ t.fault = .initial ∧ t.port = .initial ∧
    t.brk.closeOut = false ∧ t.brk.tripOut = false ∧ t.eng.run = false ∧ t.port.attention = false

/-- RESTART_LINE and RESTART: LOADING again, outputs released, and what a restart keeps kept (R176); the port's answer to
RESTART is OK (R178). That the reset's values are taken at the request is the model's choice (log 7), and so are, of those
values, the breaker state OPEN until the load ends (log 46), the hold phase and release cause absent (log 39), the inputs and
the idle medium as they stand (log 4, log 27), and the response kept (log 28). -/
def Obligations.RestartKeepsTheFaultStore : Prop :=
  ∀ s : State, ∃ t u : State, exec .restartLine s = .next t ∧ exec .restart s = .next u ∧
    u = { t with port := { t.port with response := some ⟨.ok, []⟩ } } ∧ AtPowerOnValues s t ∧
    t.settings.state = .loading ∧ t.settings.readLimit = some 500 ∧
    t.fault = { s.fault with busSlots := List.replicate 8 false } ∧
    t.prot.slots = s.prot.slots.map (fun r =>
      { SlotRun.initial with pickups := r.pickups, operations := r.operations }) ∧
    t.disp = { DispatchRecord.initial with starts := s.disp.starts, failures := s.disp.failures } ∧
    t.feeder = { FeederRecord.initial with admissions := s.feeder.admissions, sheds := s.feeder.sheds } ∧
    t.port = { PortRecord.initial with response := s.port.response } ∧
    t.brk.closeOut = false ∧ t.brk.tripOut = false ∧ t.eng.run = false

/-- An image that passes every test makes the station CONFIGURED under its settings (R175, R176). -/
def Obligations.AcceptedImageConfigures : Prop :=
  ∀ (image : List Byte) (l : Loaded) (s : State), s.settings.state = .loading → judgeImage image = .ok l →
    ∃ t : State, exec (.settingsLoad image) s = .next t ∧
      t.settings = { state := .configured, afterRestart := s.settings.afterRestart, readLimit := none, refusal := none,
                     loaded := some l } ∧
      t.pic.table = stationNumbers.map (loadedEntry l.campus l.station.number) ∧ t.pic.delivery = 0 ∧
      t.step = .initial ∧ t.isl = PerSection.fill .initial ∧
      t.meas = { MeasurementRecord.initial with lossTimer := some (l.station.halfMs * 4) } ∧
      t.link.startSilence = true ∧ t.link.roundTimer = some l.campus.round ∧ t.link.roundCount = 0 ∧
      t.link.nextSeq = 0 ∧ t.zone.blockList = [] ∧ t.zone.intertrips = [] ∧ t.pins = s.pins ∧ t.pending = s.pending ∧
      (∀ k, s.fault.pending.get k = true → t.fault.pending.get k = true)

/-- The breaker's state at the load follows its first position, at a station that is no generator (R61). -/
def Obligations.FirstPositionSetsTheBreaker : Prop :=
  ∀ (image : List Byte) (l : Loaded) (s : State), s.settings.state = .loading → judgeImage image = .ok l →
    (loadedEntry l.campus l.station.number l.station.number).fixed.map (·.kind) ≠ some .generator →
    ∃ t : State, exec (.settingsLoad image) s = .next t ∧
      t.brk = { BreakerRecord.initial with
        state := if s.position = .closed then .closed else .opened
        disagreementTimer :=
          if s.position = .closed ∨ s.position = .opened then none else some l.station.disagreementLimit }

/-- An image that fails a test, or no answer in time, leaves the station UNCONFIGURED: no settings, outputs inactive,
attention high, the fault store kept (R175, R177). The model's choice are the breaker state OPEN whatever the contacts show (log
46), the hold phase and release cause absent (log 39), the inputs and the idle medium as they stand (log 4, log 27), and the
response kept (log 28). -/
def Obligations.RefusedImageLeavesUnconfigured : Prop :=
  ∀ (c : Instr) (r : LoadRefusal) (s : State), s.settings.state = .loading →
    ((∃ image, c = .settingsLoad image ∧ judgeImage image = .error r) ∨ (c = .noResponse ∧ r = .noResponse)) →
    ∃ t : State, exec c s = .next t ∧ AtPowerOnValues s t ∧
      t.settings = { state := .unconfigured, afterRestart := s.settings.afterRestart, readLimit := none,
                     refusal := some r, loaded := none } ∧
      t.fault = s.fault ∧ t.port = { PortRecord.initial with attention := true, response := s.port.response } ∧
      t.brk.closeOut = false ∧ t.brk.tripOut = false ∧ t.eng.run = false

/-- The eight tests of an image, each judged only when those before it pass, and what an accepted image gives (R175). That an
image shorter than its length field is taken as no response, and that a code that names no kind or section fails test 7, are
the model's choices (log 8). -/
def Obligations.ImageTestsRunInOrder : Prop :=
  ∀ bs : List Byte,
    let station := parseStation (imageStation bs)
    let campus := parseCampus (imageCampus bs)
    let raw := rawEntries (imageCampus bs)
    let short := bs.length < 2 ∨ bs.length < wordAt bs 0
    let badLength := ¬ (10 ≤ wordAt bs 0 ∧ wordAt bs 0 ≤ 4096)
    let badCheck := (crc32 (imageCovered bs)).toNat ≠ longAt bs 4
    let badVersion := wordAt bs 2 ≠ 1
    let badStation := ¬ (1 ≤ station.number ∧ station.number ≤ 30) ∨ ∀ e ∈ raw, e.number ≠ station.number
    let kindMismatch := ∀ e, raw.find? (fun e => e.number == station.number) = some e → e.kindCode ≠ station.kindCode
    let badCounts := countsGood raw (imageCampus bs).length campus = false
    let badValue := stationGood station = false ∨ campusGood campus (byteAt (imageCampus bs) 5) = false
    (short → judgeImage bs = .error .noResponse) ∧
    (¬ short → badLength → judgeImage bs = .error .badLength) ∧
    (¬ short → ¬ badLength → badCheck → judgeImage bs = .error .badCheck) ∧
    (¬ short → ¬ badLength → ¬ badCheck → badVersion → judgeImage bs = .error .badVersion) ∧
    (¬ short → ¬ badLength → ¬ badCheck → ¬ badVersion → badStation → judgeImage bs = .error .badStation) ∧
    (¬ short → ¬ badLength → ¬ badCheck → ¬ badVersion → ¬ badStation → kindMismatch →
      judgeImage bs = .error .kindMismatch) ∧
    (¬ short → ¬ badLength → ¬ badCheck → ¬ badVersion → ¬ badStation → ¬ kindMismatch → badCounts →
      judgeImage bs = .error .badCounts) ∧
    (¬ short → ¬ badLength → ¬ badCheck → ¬ badVersion → ¬ badStation → ¬ kindMismatch → ¬ badCounts → badValue →
      judgeImage bs = .error .badValue) ∧
    (∀ l, judgeImage bs = .ok l ↔ ¬ short ∧ ¬ badLength ∧ ¬ badCheck ∧ ¬ badVersion ∧ ¬ badStation ∧ ¬ kindMismatch ∧
      ¬ badCounts ∧ ¬ badValue ∧ l = { station := station, campus := campus, digest := crc32 (imageCampus bs) }) ∧
    (∀ l, judgeImage bs = .ok l →
      let c := l.campus
      let of (k : StationKind) (x : BusSection) := (c.stations.filter fun e => e.kind == k && e.sec == x).length
      c.count = c.stations.length ∧ 1 ≤ c.count ∧ c.count ≤ 30 ∧ (c.stations.map (·.number)).Nodup ∧
      (∀ e ∈ c.stations, c.configured.get e.sec = true ∧ 1 ≤ e.number ∧ e.number ≤ 30 ∧
        (e.kind = .tie → ∃ y, e.sec.next = some y ∧ c.configured.get y = true)) ∧
      ∀ x, c.configured.get x = true → of .incomer x = 1 ∧ of .generator x ≤ 6 ∧ of .feeder x ≤ 8 ∧
        ∀ y, x.next = some y → c.configured.get y = true → of .tie x = 1)

/-! ### The Maintenance Port (R102, R113 to R115, R176 to R180) -/

/-- READ answers the record its selector names, 1 to 18 (13.4), and lowers attention only for the attention summary of a
station that is not UNCONFIGURED (R115); an unknown selector is BAD_SELECTOR (R178), and while LOADING only selectors 1 and 2
are answered (R176). -/
def Obligations.ReadAnswersTheRecord : Prop :=
  ∀ (sel : Nat) (s : State),
    (s.settings.state ≠ .loading ∨ sel = 1 ∨ sel = 2 →
      (∀ bs, s.recordOf sel = some bs → exec (.read sel) s = .next { s with port := { s.port with
        response := some ⟨.ok, bs⟩
        attention := if sel = 1 ∧ s.settings.state ≠ .unconfigured then false else s.port.attention } }) ∧
      (s.recordOf sel = none →
        exec (.read sel) s = .next { s with port := { s.port with response := some ⟨.badSelector, []⟩ } })) ∧
    (s.settings.state = .loading → sel ≠ 1 → sel ≠ 2 →
      exec (.read sel) s = .next { s with port := { s.port with response := some ⟨.busy, []⟩ } }) ∧
    ((s.recordOf sel).isSome = true ↔ 1 ≤ sel ∧ sel ≤ 18)

/-- While LOADING the port answers BUSY to clears and operations (R176); at an UNCONFIGURED station it refuses operations and
CLEAR_STALE_INTERTRIP (R177); while an operation is in progress it answers BUSY to another. Nothing else changes (R178). -/
def Obligations.PortTurnsCommandsAway : Prop :=
  ∀ (o : Operation) (kinds : PerKind Bool) (s : State),
    (s.settings.state = .loading →
      exec o.command s = .next (s.answer .busy []) ∧
      exec (.clearFaults kinds) s = .next (s.answer .busy []) ∧
      exec .clearStaleIntertrip s = .next (s.answer .busy [])) ∧
    (s.settings.state = .unconfigured →
      exec o.command s = .next (s.answer .refused []) ∧
      exec .clearStaleIntertrip s = .next (s.answer .refused [])) ∧
    (s.settings.state = .configured → s.port.state = .inProgress →
      exec o.command s = .next (s.answer .busy []))

/-- OPERATE at a CONFIGURED station with no operation in progress: the record takes the operation, and the answer is OK
or, with the record REFUSED and attention high, REFUSED (R179). -/
def Obligations.OperationIsTaken : Prop :=
  ∀ (o : Operation) (s : State), s.settings.state = .configured → s.port.state ≠ .inProgress →
    ∃ (t : State) (c : ResponseCode), exec o.command s = .next t ∧ t.port.response = some ⟨c, []⟩ ∧
      (c = .ok ∨ c = .refused) ∧ t.port.operation = some o ∧
      (c = .refused → t.port.state = .refused ∧ t.port.limit = none ∧ t.port.attention = true) ∧
      (c = .ok → t.port.state = .inProgress ∨ t.port.state = .done ∨ t.port.state = .refused) ∧
      Frame { bar := true } { s with port := t.port } t

/-- BAR and UNBAR set and clear the bar latch of a generator; at another kind they are refused WRONG_KIND, as MERGE and
SPLIT are at a station that is no tie. CLOSE is refused NOT_READY at a generator that is not READY, and DONE at a feeder
already CLOSED (R112, R179). -/
def Obligations.OperationsByKind : Prop :=
  ∀ (o : Operation) (s : State), s.settings.state = .configured → s.port.state ≠ .inProgress →
    (s.ownKind = some .generator → o = .bar ∨ o = .unbar →
      ∃ t : State, exec o.command s = .next t ∧ t.port.response = some ⟨.ok, []⟩ ∧
        t.port.state = .done ∧ t.fault.barLatch = (o == .bar)) ∧
    ((s.ownKind ≠ some .generator ∧ (o = .bar ∨ o = .unbar)) ∨ (s.ownKind ≠ some .tie ∧ (o = .merge ∨ o = .split)) →
      ∃ t : State, exec o.command s = .next t ∧ t.port.response = some ⟨.refused, []⟩ ∧
        t.port.state = .refused ∧ t.port.reason = some .wrongKind ∧ Frame {} { s with port := t.port } t) ∧
    (s.ownKind = some .generator → s.disp.role ≠ .ready →
      ∃ t : State, exec .operateClose s = .next t ∧ t.port.response = some ⟨.refused, []⟩ ∧
        t.port.reason = some .notReady) ∧
    (s.ownKind = some .feeder → s.brk.state = .closed →
      ∃ t : State, exec .operateClose s = .next t ∧ t.port.response = some ⟨.ok, []⟩ ∧ t.port.state = .done)

/-- What each operation that begins does (R66, R159, R117, R173, R179): OPEN trips a CLOSED feeder or generator with source
MAINTENANCE, and sets an incomer's manual hold and trips it; CLOSE owes a feeder its admission, posts want MAINTENANCE at a
READY generator and clears an incomer's manual hold, whose change ON_BACKUP judges, where a CLOSE that finds no hold changes
nothing of the changeover record (R168); MERGE and CLOSE begin MERGING at an idle tie whose breaker is OPEN; SPLIT,
and OPEN taken as SPLIT, trip a CLOSED tie that is not SPLITTING, and are DONE at one that is OPEN. -/
def Obligations.OperationsBegin : Prop :=
  ∀ s : State, s.settings.state = .configured → s.port.state ≠ .inProgress →
    let begins (o : Operation) (p : State → Prop) := ∃ t u : State, exec o.command s = .next t ∧ t = State.finish s u ∧
      u.port.operation = some o ∧ u.port.response = some ⟨.ok, []⟩ ∧ p u
    let inProgress (u : State) := u.port.state = .inProgress ∧ u.port.limit = some 60000
    let tripped (u : State) (src : TripSource) := u.brk.state = .opening ∧ u.brk.tripOut = true ∧
      u.brk.openTimer = some s.station.openLimit ∧ src ∈ u.brk.sources
    (s.ownKind = some .feeder ∨ s.ownKind = some .generator → s.brk.state = .closed →
      begins .opn fun u => inProgress u ∧ tripped u .maintenance) ∧
    (s.ownKind = some .incomer → s.brk.state = .closed →
      begins .opn fun u => inProgress u ∧ u.chg.manualHold = true ∧ u.brk.state = .opening) ∧
    (s.ownKind = some .incomer → begins .close fun u => u.chg.manualHold = false ∧
      (s.chg.manualHold = false → u.chg = s.chg) ∧
      (s.chg.manualHold = true → s.chg.state = .onBackup → u.chg.state =
        if s.chg.monitor = .healthy ∧ s.brk.state = .opened ∧ s.fault.lockout = false ∧ s.islandShared s.ownSec = false then
          if (s.sec s.ownSec).live then if s.generatorServes then .retransfer else .onBackup else .openRetransfer
        else .onBackup)) ∧
    (s.ownKind = some .feeder → s.brk.state ≠ .closed → s.ownAdmission = .out →
      begins .close fun u => inProgress u ∧ u.feeder.admitOwed = true) ∧
    (s.ownKind = some .generator → s.disp.role = .ready → s.token.state = .idle → s.brk.state = .opened →
      s.brk.watch = false → begins .close fun u => inProgress u ∧ u.token.want = some .maintenance ∧
        (u.token.state = .wanted ∨ u.token.state = .claiming)) ∧
    (s.ownKind = some .tie → s.tie.state = .idle → s.brk.state = .opened →
      (begins .merge fun u => inProgress u ∧ u.tie = { state := .merging, ordering := 0 }) ∧
      (begins .close fun u => inProgress u ∧ u.tie = { state := .merging, ordering := 0 })) ∧
    (s.ownKind = some .tie → s.tie.state ≠ .splitting → ∀ o, o = .split ∨ o = .opn →
      (s.brk.state = .opened → begins o fun u => u.port.state = .done ∧ u.tie.state = .idle) ∧
      (s.brk.state = .closed →
        begins o fun u => inProgress u ∧ u.tie = { state := .splitting, ordering := 0 } ∧ tripped u .tie))

/-- The operate limit ends the operation in progress as TIMED_OUT, with attention high; its reason is the last refusal
reason where a close was refused during it, and absent otherwise. The operation is then withdrawn by kind: at a generator want
MAINTENANCE, at a tie the want of a MERGE; at a feeder a waiting place (withdraw owed) or, while OUT, the admission owed; an incomer keeps
its manual hold. A want withdrawn leaves the claim record by its state (R130, R159, R180). The tie stays MERGING while a claim
stands whose return to IDLE ends that state, its want withdrawn here or cleared before by a lockout (R173, R180). Two clauses are
the model's choice: that a MERGING tie without such a claim, where none stands or the one that stands is of a close that has
reached CLOSED with the mark clear, is IDLE at once (log 20), and that a want withdrawn is cleared at once in every state of the
claim record (log 25). -/
def Obligations.OperateLimitTimesOut : Prop :=
  ∀ s : State, s.settings.state = .configured → s.port.limit.isSome = true → s.port.state = .inProgress →
    let base : State := { s with port := { s.port with
      state := .timedOut, limit := none, attention := true
      reason := if s.port.refusedDuring then s.brk.lastRefusal.map OperateReason.close else none } }
    let withdrawn (u : State) := (s.token.state ≠ .idle → u.token.want = none) ∧
      (s.token.state = .wanted → u.token.state = .idle ∧ u.news = s.news ++ [.claimWithdrawn]) ∧
      (s.token.state = .queued ∨ s.token.state = .holding →
        u.token.state = .releasing ∧ u.token.cause = some .withdrawn) ∧
      (s.token.state = .closing → u.token.state = .closing ∧ (s.brk.state = .closing → u.brk.mark = true))
    ∃ t u : State, exec .operateLimitExpiry s = .next t ∧ t = State.finish s u ∧ u.port = base.port ∧ Frame {} base t ∧
      (s.ownKind = some .generator → s.token.want = some .maintenance → withdrawn u) ∧
      (s.ownKind = some .generator → s.token.want ≠ some .maintenance → u = base) ∧
      (s.ownKind = some .tie → s.tie.state = .merging → s.token.want = some .tie → withdrawn u) ∧
      (s.ownKind = some .tie → s.tie.state = .merging → s.token.state ≠ .idle →
        s.token.closedMark = false ∨ s.token.closedMarked = true →
        u.tie = s.tie ∧ (s.token.want ≠ some .tie → u = base)) ∧
      (s.ownKind = some .tie → s.tie.state = .merging →
        s.token.state = .idle ∨ (s.token.closedMark = true ∧ s.token.closedMarked = false) → u.tie.state = .idle) ∧
      (s.ownKind = some .tie → s.tie.state ≠ .merging → u = base) ∧
      (s.ownKind = some .feeder → s.ownAdmission = .waiting →
        u.feeder.withdrawOwed = true ∧ u.feeder.admitOwed = false) ∧
      (s.ownKind = some .feeder → s.ownAdmission = .out → u = { base with feeder := { s.feeder with admitOwed := false } }) ∧
      (s.ownKind = some .feeder → s.ownAdmission = .admitted → u = base) ∧
      (s.ownKind = some .incomer → u = base)

/-- CLEAR_FAULTS at a CONFIGURED station: the cleared kinds go with their counts, and BUS_FAULT with its sections; a kind whose
cause still stands, BREAKER_DISAGREE with a position that is neither open nor closed or BUS_FAULT with a slot that stands
OPERATED otherwise than by an operation out of HELD, is raised again with count 1, and with BUS_FAULT every bus-fault slot
found OPERATED rejoins. The capture of a cleared kind goes, and such
a re-raise takes its place; lockout stands only while a kind of severity LOCKOUT is pending (R113, R114). At an UNCONFIGURED
station it acts on the fault store alone (R177). That BREAKER_DISAGREE takes the capture where both causes stand is the model's
choice (log 9), and so is the bit that tells an operation out of HELD, and that a slot so operated does not give the context its
number beside another that keeps the cause standing (log 38). -/
def Obligations.ClearFaultsClears : Prop :=
  (∀ (kinds : PerKind Bool) (s : State), s.settings.state = .configured → Good s →
    let gone (k : FaultKind) := kinds.get k = true ∧ s.fault.pending.get k = true
    let disagrees := s.brk.origin = .disagree ∧ (s.position = .travelling ∨ s.position = .invalid)
    let operated (n : Nat) := n ∈ s.busFaultSlots ∧ (s.slotRun n).state = .operated
    let stands (n : Nat) := operated n ∧ (s.slotRun n).released = false
    let disagree := gone .breakerDisagree ∧ disagrees
    let bus := gone .busFault ∧ ∃ n, stands n
    ∃ t u : State, exec (.clearFaults kinds) s = .next t ∧ t = State.finish s (u.answer .ok []) ∧
      t.port.response = some ⟨.ok, []⟩ ∧
      (∀ k, kinds.get k = true → ¬ (k = .breakerDisagree ∧ disagree) → ¬ (k = .busFault ∧ bus) →
        u.fault.pending.get k = false ∧ u.fault.count.get k = 0) ∧
      (disagree → u.fault.pending.get .breakerDisagree = true ∧ u.fault.count.get .breakerDisagree = 1) ∧
      (bus → u.fault.pending.get .busFault = true ∧ u.fault.count.get .busFault = 1 ∧
        (∀ x, u.fault.busFault.get x = s.ownSections.get x) ∧ ∀ n, n ∈ u.busFaultSlots ↔ operated n) ∧
      (gone .busFault → ¬ bus → (∀ x, u.fault.busFault.get x = false) ∧ u.busFaultSlots = []) ∧
      (∀ k, kinds.get k = false →
        u.fault.pending.get k = s.fault.pending.get k ∧ u.fault.count.get k = s.fault.count.get k) ∧
      (∀ c, s.fault.capture = some c → kinds.get c.kind = false → u.fault.capture = some c) ∧
      (∀ c, s.fault.capture = some c → kinds.get c.kind = true →
        (¬ disagree → ¬ bus → u.fault.capture = none) ∧
        (disagree → u.fault.capture.map (fun c => (c.kind, c.context)) = some (.breakerDisagree, .none)) ∧
        (¬ disagree → bus → ∃ n, stands n ∧ (∀ m, stands m → n ≤ m) ∧
          u.fault.capture.map (fun c => (c.kind, c.context)) = some (.busFault, .slot n))) ∧
      (u.fault.lockout = true ↔ ∃ k, u.fault.pending.get k = true ∧ u.severityOf k = .lockout) ∧
      u.pic = s.pic ∧ u.meas = s.meas ∧ u.isl = s.isl ∧ u.step = s.step) ∧
  (∀ (kinds : PerKind Bool) (s : State), s.settings.state = .unconfigured →
    ∃ t : State, exec (.clearFaults kinds) s = .next t ∧ t.port.response = some ⟨.ok, []⟩ ∧
      (∀ k, t.fault.pending.get k = (s.fault.pending.get k && !kinds.get k)) ∧
      (∀ c, s.fault.capture = some c → kinds.get c.kind = true → s.fault.pending.get c.kind = true →
        t.fault.capture = none) ∧
      (t.fault.lockout = true → s.fault.lockout = true) ∧
      t = { s with fault := t.fault, port := { s.port with response := some ⟨.ok, []⟩ } })

/-- CLEAR_STALE_INTERTRIP removes every stale entry of the Intertrip Set and no other (R102). -/
def Obligations.ClearStaleIntertripKeepsTheFresh : Prop :=
  ∀ s : State, s.settings.state = .configured →
    ∃ t : State, exec .clearStaleIntertrip s = .next t ∧ t.port.response = some ⟨.ok, []⟩ ∧
      t.zone.intertrips = s.zone.intertrips.filter (fun e => !e.stale) ∧
      Frame { lists := true } { s with port := { s.port with response := some ⟨.ok, []⟩ } } t

/-! ### Measurement sets (R54 to R59) -/

/-- A set arrival stores the set, ends a set loss, restarts the set-loss timer at eight periods and advances both live
flags, from counts at 0 after a set gap, which raises SET_GAP (R54 to R56, R58). The set is then handed, with the flags as they
now stand, to the slots, the session, the utility monitor, the bias computation and the Breaker Controller in turn, and the
biases are refreshed (R54): every slot in use moves by it (R76 to R85), and at an incomer the utility monitor judges it (R165).
That the measurement which waited for the end of a set loss is made before the set is handed on, and that a session which a
measurement of this arrival opens takes this same set, is the model's choice (log 41). -/
def Obligations.SetArrivalStoresTheSet : Prop :=
  ∀ (m : MeasurementSet) (s : State), s.settings.state = .configured →
    let gap := s.meas.setLoss = false ∧ ∃ q, s.meas.lastSeq = some q ∧ m.seq ≠ q + 1
    let judged := if s.isSetGap m then s.setGap m else s
    let stored := judged.storeSet m
    let flagged := if State.flagsDiffer judged stored then State.flagChange judged stored else stored
    let handed := if s.meas.setLoss then flagged.tokenLossEnd else flagged
    (s.isSetGap m = true ↔ gap) ∧
    ∃ t u : State, exec (.setArrival m) s = .next t ∧ t = State.finish s u ∧
      u = ((((handed.evaluate m).syncSet m).monitorTake (s.isSetGap m) m).computeBias.judgeCurrents).refreshBias ∧
      (gap → t.fault.pending.get .setGap = true) ∧
      (∀ before : MeasurementRecord, (gap → before = s.meas.clearRuns) → (¬ gap → before = s.meas) →
        Frame { failure := true, bias := true }
          { s with meas :=
            { latest := some m, lastSeq := some m.seq, setLoss := false, lossTimer := some (s.station.halfMs * 4)
              line := before.line.advance (lineClass s.station m), bus := before.bus.advance (busClass s.station m)
              discards := s.meas.discards } } t) ∧
      (∀ n, 1 ≤ n → n ≤ 8 → n ≤ s.prot.slots.length →
        ((s.slotSettings n).inUse = none → u.slotRun n = s.slotRun n) ∧
        ∀ k r, (s.slotSettings n).inUse = some (k, r) →
          let v := (moveSlot (s.slotSettings n) k s.blocked t.meas.line.live m (s.slotRun n)).run
          let w := u.slotRun n
          w.state = v.state ∧ w.count = v.count ∧ w.acc = v.acc ∧ w.pickups = v.pickups ∧ w.operations = v.operations) ∧
      (s.ownKind = some .incomer →
        let near (v : Nat) := ((v : Int) - s.station.lineNominal).natAbs * 100 ≤ s.station.voltageBand * s.station.lineNominal
        let good := near m.lineVolts.p1 ∧ near m.lineVolts.p2 ∧ near m.lineVolts.p3 ∧
          ((m.lineFreq : Int) - s.station.lineFrequency).natAbs ≤ s.station.frequencyBand
        let fourth := ¬ gap ∧ 3 ≤ s.chg.run
        (s.chg.monitor = .healthy → (good → u.chg.monitor = .healthy) ∧ (¬ good → u.chg.monitor = .disturbed)) ∧
        (s.chg.monitor = .disturbed → (good ∧ fourth → u.chg.monitor = .healthy) ∧
          (¬ (good ∧ fourth) → u.chg.monitor = .disturbed)) ∧
        (s.chg.monitor = .failed → (good ∧ fourth → u.chg.monitor = .returning) ∧
          (¬ (good ∧ fourth) → u.chg.monitor = .failed)) ∧
        (s.chg.monitor = .returning → (good → u.chg.monitor = .returning) ∧ (¬ good → u.chg.monitor = .failed)))

/-- The class of a set for each live flag, judged on magnitudes alone (R57). A live flag turns yes at the fourth consecutive
high set and no at the fourth consecutive low one, and a middle set sets both counts to 0 (R58). -/
def Obligations.FourSetsTurnALiveFlag : Prop :=
  (∀ (c : StationSettings) (m : MeasurementSet),
    let high (nominal v : Nat) := 80 * nominal ≤ v * 100
    let low (nominal v : Nat) := v * 100 < 20 * nominal
    let v := m.lineVolts
    (lineClass c m = .high ↔ high c.lineNominal v.p1 ∧ high c.lineNominal v.p2 ∧ high c.lineNominal v.p3) ∧
    (lineClass c m = .low ↔ low c.lineNominal v.p1 ∧ low c.lineNominal v.p2 ∧ low c.lineNominal v.p3) ∧
    (busClass c m = .high ↔ high c.busNominal m.busVolts) ∧ (busClass c m = .low ↔ low c.busNominal m.busVolts)) ∧
  ∀ f : LiveFlag,
    ((f.advance .high).live = true ↔ f.live = true ∨ 3 ≤ f.liveRun) ∧ (f.advance .high).deadRun = 0 ∧
    (f.liveRun ≤ 4 → (f.advance .high).liveRun = min 4 (f.liveRun + 1)) ∧
    ((f.advance .low).live = true ↔ f.live = true ∧ f.deadRun < 3) ∧ (f.advance .low).liveRun = 0 ∧
    (f.deadRun ≤ 4 → (f.advance .low).deadRun = min 4 (f.deadRun + 1)) ∧
    f.advance .middle = { live := f.live, liveRun := 0, deadRun := 0 }

/-- The set-loss timer's expiry begins a set loss: raised, the run counts at 0, the live flags held, both biases 0 (R56,
R73). -/
def Obligations.SetLossBegins : Prop :=
  ∀ s : State, s.settings.state = .configured → s.meas.lossTimer.isSome = true →
    ∃ t : State, exec .setLossTimerExpiry s = .next t ∧ t.fault.pending.get .setLoss = true ∧
      t.eng.speedBias = 0 ∧ t.eng.voltageBias = 0 ∧
      Frame { bias := true }
        { s with meas := { s.meas with
          setLoss := true, lossTimer := none
          line := { s.meas.line with liveRun := 0, deadRun := 0 }
          bus := { s.meas.bus with liveRun := 0, deadRun := 0 } } } t

/-! ### The breaker (R60 to R73) -/

/-- A contact event that is no change is no event, and at a station that is not CONFIGURED the contacts are followed and
nothing more (R60, R61). That READY is followed likewise, at every kind of station (log 4) and at one that is not CONFIGURED
(log 23), is the model's choice; R73 names the input. -/
def Obligations.InputsAreFollowed : Prop :=
  ∀ (a b on : Bool) (s : State),
    (s.pins.auxA = a → s.pins.auxB = b → exec (.positionEvent a b) s = .next s) ∧
    (s.pins.ready = on → exec (.readyInputChange on) s = .next s) ∧
    (s.settings.state ≠ .configured →
      exec (.positionEvent a b) s = .next { s with pins := { s.pins with auxA := a, auxB := b } } ∧
      exec (.readyInputChange on) s = .next { s with pins := { s.pins with ready := on } }) ∧
    (s.settings.state = .configured → ¬ (s.pins.auxA = a ∧ s.pins.auxB = b) →
      ∃ t : State, exec (.positionEvent a b) s = .next t ∧
        Frame { failure := true } { s with pins := { s.pins with auxA := a, auxB := b } } t) ∧
    (s.settings.state = .configured → s.pins.ready ≠ on →
      ∃ t : State, exec (.readyInputChange on) s = .next t ∧ Frame {} { s with pins := { s.pins with ready := on } } t)

/-- Positions in CLOSING: closed makes the state CLOSED, releases the close output and stops the close limit, and with the
mark set an ABORT trip is taken once the receivers have been told; travelling or invalid releases the close output and
changes no state; open changes nothing of the breaker record, whose close runs on (R64, R67). -/
def Obligations.PositionsDuringAClose : Prop :=
  ∀ (a : Bool) (s : State), s.settings.state = .configured → s.brk.state = .closing →
    (¬ (s.pins.auxA = true ∧ s.pins.auxB = false) →
      ∃ t u v : State, exec (.positionEvent true false) s = .next t ∧
        t = State.finish { s with pins := { s.pins with auxA := true, auxB := false } } u ∧
        v.brk = { s.brk with state := .closed, closeOut := false, closeTimer := none, mark := false } ∧
        v.news = s.news ++ [.closed s.brk.mark] ∧ u = (if s.brk.mark then v.settle.trip .abort else v)) ∧
    (¬ (s.pins.auxA = a ∧ s.pins.auxB = a) →
      ∃ t u : State, exec (.positionEvent a a) s = .next t ∧
        t = State.finish { s with pins := { s.pins with auxA := a, auxB := a } } u ∧
        u = { s with pins := { s.pins with auxA := a, auxB := a }, brk := { s.brk with closeOut := false } }) ∧
    (¬ (s.pins.auxA = false ∧ s.pins.auxB = true) →
      ∃ t u : State, exec (.positionEvent false true) s = .next t ∧ t = State.finish u u ∧
        u = { s with pins := { s.pins with auxA := false, auxB := true } })

/-- A position open ends an opening: OPEN, handed on with its trip sources, the trip output released when all three currents
are below the breaker-failure current and the watch begun when not. In FAILED it leads to OPEN with the currents below,
and a breaker failure ends with it. A position other than open changes nothing of the breaker record in OPENING or FAILED
(R68, R70, R98). That the currents count as 0 before the first set is the model's choice (log 15). -/
def Obligations.OpenPositionEndsTheOpening : Prop :=
  (∀ s : State, s.settings.state = .configured → ¬ (s.pins.auxA = false ∧ s.pins.auxB = true) →
    ∃ t u : State, exec (.positionEvent false true) s = .next t ∧
      t = State.finish { s with pins := { s.pins with auxA := false, auxB := true } } u ∧
      (s.brk.state = .opening → u.news = s.news ++ [.opened s.brk.sources] ∧
        u.brk = (if s.currentsBelow then
          { s.brk with state := .opened, watch := false, openTimer := none, tripOut := false }
          else { s.brk with state := .opened, watch := true })) ∧
      (s.brk.state = .failed → s.currentsBelow = true → u.news = s.news ++ [.opened s.brk.sources] ∧
        u.brk = { s.brk with state := .opened, tripOut := false, openTimer := none, origin := .none } ∧
        (s.brk.origin = .noOpen → t.zone.breakerFailure = false)) ∧
      (s.brk.state = .failed → s.currentsBelow = false → u.brk = s.brk)) ∧
  ∀ (a b : Bool) (s : State), s.settings.state = .configured → ¬ (s.pins.auxA = a ∧ s.pins.auxB = b) →
    ¬ (a = false ∧ b = true) → s.brk.state = .opening ∨ s.brk.state = .failed →
    ∃ t u : State, exec (.positionEvent a b) s = .next t ∧ t = State.finish u u ∧
      u = { s with pins := { s.pins with auxA := a, auxB := b } }

/-- Outside an operation: an opening is spontaneous, a closing is unrequested, and a position that is neither starts the
disagreement timer once (R71). -/
def Obligations.PositionsOutsideAnOperation : Prop :=
  ∀ (a b : Bool) (s : State), s.settings.state = .configured → ¬ (s.pins.auxA = a ∧ s.pins.auxB = b) →
    ∃ t u : State, exec (.positionEvent a b) s = .next t ∧
      t = State.finish { s with pins := { s.pins with auxA := a, auxB := b } } u ∧
      (s.brk.state = .closed → a = false → b = true →
        u.brk = { s.brk with state := .opened, sources := [], disagreementTimer := none } ∧
        u.news = s.news ++ [.opened []]) ∧
      (s.brk.state = .opened → s.brk.watch = false → a = true → b = false →
        u.brk = { s.brk with state := .closed, disagreementTimer := none } ∧ u.news = s.news ++ [.closedUnrequested]) ∧
      (s.brk.state = .closed ∨ (s.brk.state = .opened ∧ s.brk.watch = false) → a = b →
        u.brk = { s.brk with disagreementTimer :=
          if s.brk.disagreementTimer.isSome then s.brk.disagreementTimer else some s.station.disagreementLimit }) ∧
      (s.brk.state = .closed → a = true → b = false → u.brk = { s.brk with disagreementTimer := none }) ∧
      (s.brk.state = .opened → s.brk.watch = false → a = false → b = true →
        u.brk = { s.brk with disagreementTimer := none }) ∧
      (s.brk.state = .opened → s.brk.watch = true → u.brk = s.brk)

/-- A trip by the breaker state (R66). -/
def Obligations.TripByState : Prop :=
  ∀ (src : TripSource) (s : State),
    (s.brk.state = .opened → s.trip src = s) ∧
    (s.brk.state = .closing →
      (s.trip src).brk = { s.brk with
        state := .opening, closeOut := false, closeTimer := none, mark := false, tripOut := true
        openTimer := some s.station.openLimit, disagreementTimer := none, sources := addSource src s.brk.sources } ∧
      (s.trip src).news = s.news ++ [.closeAborted src]) ∧
    (s.brk.state = .closed → s.trip src = { s with brk := { s.brk with
        state := .opening, tripOut := true, openTimer := some s.station.openLimit, disagreementTimer := none
        sources := addSource src s.brk.sources } }) ∧
    (s.brk.state = .opening → s.trip src = { s with brk := { s.brk with sources := addSource src s.brk.sources } }) ∧
    (s.brk.state = .failed → s.trip src = { s with brk := { s.brk with
        tripOut := true, openTimer := some s.station.openLimit, sources := addSource src s.brk.sources } })

/-- The conditions of the close permissive are judged in order, the first that fails is the reason, and a refused request
changes the last refusal reason (R62). Condition 8 is the two-incomer test (R63). That a refused request also leaves a note in
the operate record, read by R180, is the model's choice (log 21). -/
def Obligations.ClosePermissiveInOrder : Prop :=
  ∀ s : State, Good s → LockoutOnly s → s.configured = true →
    let c1 := s.brk.state = .opened ∧ s.brk.watch = false
    let c2 := s.position = .opened
    let c3 := s.step.state = .inStep
    let c4 := s.pic.quorum = true
    let c5 := ∀ k, s.fault.pending.get k = true → s.severityOf k ≠ .lockout
    let c6 := ∀ e ∈ s.zone.intertrips, e.accepted = false
    let c7 := if s.ownKind = some .feeder then s.admissionOf s.own = .admitted
      else (∃ x, s.ownSections.get x = true) ∧ ∀ x, s.ownSections.get x = true → (s.sec x).holder = s.own
    let c8 := (s.ownKind = some .incomer → ∀ n ∈ s.incomersOn s.ownSec, n = s.own) ∧
      (s.ownKind = some .tie → ∀ y, s.ownSec.next = some y → (s.incomersOn s.ownSec).length +
        (if s.sameIsland s.ownSec y = true then 0 else (s.incomersOn y).length) < 2)
    (¬ c1 → s.closeRefusal = some .notOpen) ∧ (c1 → ¬ c2 → s.closeRefusal = some .position) ∧
    (c1 → c2 → ¬ c3 → s.closeRefusal = some .notInStep) ∧
    (c1 → c2 → c3 → ¬ c4 → s.closeRefusal = some .noQuorum) ∧
    (c1 → c2 → c3 → c4 → ¬ c5 → s.closeRefusal = some .lockout) ∧
    (c1 → c2 → c3 → c4 → c5 → ¬ c6 → s.closeRefusal = some .intertrip) ∧
    (c1 → c2 → c3 → c4 → c5 → c6 → ¬ c7 →
      s.closeRefusal = some (if s.ownKind = some .feeder then .notAdmitted else .noToken)) ∧
    (c1 → c2 → c3 → c4 → c5 → c6 → c7 → ¬ c8 → s.closeRefusal = some .twoIncomers) ∧
    (c1 → c2 → c3 → c4 → c5 → c6 → c7 → c8 → s.closeRefusal = none) ∧
    (s.closeRefusal = none → s.requestClose.2 = none ∧ s.requestClose.1.brk.state = .closing) ∧
    ∀ r, s.closeRefusal = some r → s.requestClose = ({ s with
      brk := { s.brk with lastRefusal := some r }
      port := { s.port with refusedDuring := s.port.refusedDuring || s.port.state == .inProgress } }, some r)

/-- The close limit in CLOSING: OPEN with BREAKER_NO_CLOSE, which has no context, when the position is open, FAILED with
origin DISAGREE and BREAKER_DISAGREE when it is not; the close output released, the mark cleared, the requester told (R65).
The disagreement limit: FAILED with origin DISAGREE and BREAKER_DISAGREE (R71). -/
def Obligations.CloseAndDisagreementLimits : Prop :=
  ∀ s : State, s.settings.state = .configured →
    (s.brk.closeTimer.isSome = true → s.brk.state = .closing →
      ∃ t u : State, exec .closeLimitExpiry s = .next t ∧ t = State.finish s u ∧ Frame {} s t ∧
        News.closeFailed ∈ u.news ∧
        (s.position = .opened → t.fault.pending.get .breakerNoClose = true ∧
          (s.fault.pending.get .breakerNoClose = false → s.fault.capture = none → s.masked .breakerNoClose = false →
            t.fault.capture.map (fun c => (c.kind, c.context)) = some (.breakerNoClose, .none)) ∧
          u.brk = { s.brk with state := .opened, closeOut := false, closeTimer := none, mark := false }) ∧
        (s.position ≠ .opened → t.fault.pending.get .breakerDisagree = true ∧ t.fault.lockout = true ∧
          u.brk = { s.brk with
            state := .failed, origin := .disagree, closeOut := false, closeTimer := none, mark := false })) ∧
    (s.brk.disagreementTimer.isSome = true → s.brk.Ok →
      ∃ t u : State, exec .disagreementLimitExpiry s = .next t ∧ t = State.finish s u ∧ Frame {} s t ∧
        u.brk = { s.brk with state := .failed, origin := .disagree, disagreementTimer := none } ∧
        t.fault.pending.get .breakerDisagree = true ∧ t.fault.lockout = true)

/-- The open limit in OPENING or under the watch: FAILED with origin NO_OPEN, the trip output released, BREAKER_NO_OPEN
raised and breaker failure begun; in FAILED the trip output is released (R66, R68, R69, R98). -/
def Obligations.OpenLimitFailsTheBreaker : Prop :=
  ∀ s : State, s.settings.state = .configured → s.brk.openTimer.isSome = true →
    ∃ t u : State, exec .openLimitExpiry s = .next t ∧ t = State.finish s u ∧ Frame { failure := true } s t ∧
      (s.brk.state = .opening ∨ (s.brk.state = .opened ∧ s.brk.watch = true) →
        u.brk = { s.brk with
          state := .failed, origin := .noOpen, watch := false, tripOut := false, openTimer := none } ∧
        t.fault.pending.get .breakerNoOpen = true ∧ t.zone.breakerFailure = true ∧ t.fault.lockout = true ∧
        u.zone.intertripAsserted = true) ∧
      (s.brk.state = .failed → u = { s with brk := { s.brk with tripOut := false, openTimer := none } })

/-- READY lost in ONLINE trips the generator's breaker with source DISPATCH (R147). -/
def Obligations.ReadyLossTripsTheGenerator : Prop :=
  ∀ s : State, s.settings.state = .configured → s.news = [] → s.pins.ready = true → s.ownKind = some .generator →
    s.disp.role = .online → s.brk.state = .closed →
    ∃ t : State, exec (.readyInputChange false) s = .next t ∧ t.pins.ready = false ∧ t.brk.state = .opening ∧
      t.brk.tripOut = true ∧ TripSource.dispatch ∈ t.brk.sources

/-- Every move of a slot, by its state and whether the set qualifies (R78 to R82, R84). A definite slot counts from 1 at the
first qualifying set, is operated, or held where blockable and blocked, at the set that makes the count reach the delay, and is
at rest after a set that does not qualify. An inverse slot adds the excess of the largest phase current at each qualifying set
from IDLE, PICKED, RESETTING or HELD, saturating at 32 bits, with its operate point where the curve constant is reached; a set
that does not qualify takes it out of PICKED or HELD, to IDLE with INSTANT reset and into the decay with DECAY reset, and lowers
a decaying accumulator by the decay step, to IDLE at 0 (R79, R80). -/
def Obligations.SlotsReachTheirOperatePoint : Prop :=
  (∀ (c : SlotSettings) (blocked : Bool) (r : SlotRun),
    let held := c.blockable = true ∧ blocked = true
    let count := if r.count < 65535 then r.count + 1 else 65535
    let rest : SlotMove := ⟨{ r with state := .idle, count := 0, acc := 0, demand := false }, false, false⟩
    (r.state = .idle → c.delay ≤ 1 → ¬ held →
      moveDefinite c blocked true r = ⟨{ r with state := .operated, count := 1 }, true, !blocked⟩) ∧
    (r.state = .idle → c.delay ≤ 1 → held →
      moveDefinite c blocked true r = ⟨{ r with state := .held, count := 1 }, false, false⟩) ∧
    (r.state = .idle → 1 < c.delay →
      moveDefinite c blocked true r = ⟨{ r with state := .picked, count := 1 }, false, false⟩) ∧
    (r.state = .picked → count < c.delay → moveDefinite c blocked true r = ⟨{ r with count := count }, false, false⟩) ∧
    (r.state = .picked → c.delay ≤ count → ¬ held →
      moveDefinite c blocked true r = ⟨{ r with state := .operated, count := count }, true, !blocked⟩) ∧
    (r.state = .picked → c.delay ≤ count → held →
      moveDefinite c blocked true r = ⟨{ r with state := .held, count := count }, false, false⟩) ∧
    (r.state = .held → blocked = true → moveDefinite c blocked true r = ⟨{ r with count := count }, false, false⟩) ∧
    (r.state = .held → blocked = false →
      moveDefinite c blocked true r = ⟨{ r with state := .operated, count := count }, true, false⟩) ∧
    (r.state = .operated → moveDefinite c blocked true r = ⟨r, false, false⟩) ∧
    (r.state = .idle → moveDefinite c blocked false r = ⟨r, false, false⟩) ∧
    (r.state ≠ .idle → moveDefinite c blocked false r = rest)) ∧
  (∀ (c : SlotSettings) (blocked : Bool) (m : MeasurementSet) (r : SlotRun),
    let held := c.blockable = true ∧ blocked = true
    let e := max m.currents.p1 (max m.currents.p2 m.currents.p3) - c.pickup
    let acc := min ((if r.state = .idle then 0 else r.acc) + e) 4294967295
    let rest : SlotMove := ⟨{ r with state := .idle, count := 0, acc := 0, demand := false }, false, false⟩
    let timing := r.state = .idle ∨ r.state = .picked ∨ r.state = .resetting
    let left := r.state = .picked ∨ r.state = .held
    let v := moveInverse c blocked true (c.excess m) r
    let w := moveInverse c blocked false (c.excess m) r
    (timing → acc < c.curve → v = ⟨{ r with state := .picked, acc := acc }, false, false⟩) ∧
    (timing → c.curve ≤ acc → ¬ held → v = ⟨{ r with state := .operated, acc := acc }, true, !blocked⟩) ∧
    (timing → c.curve ≤ acc → held → v = ⟨{ r with state := .held, acc := acc }, false, false⟩) ∧
    (r.state = .held → blocked = true → v = ⟨{ r with acc := acc }, false, false⟩) ∧
    (r.state = .held → blocked = false → v = ⟨{ r with state := .operated, acc := acc }, true, false⟩) ∧
    (r.state = .operated → v = ⟨r, false, false⟩ ∧ w = rest) ∧
    (r.state = .idle → w = ⟨r, false, false⟩) ∧
    (left → c.decay = false → w = ⟨{ r with state := .idle, acc := 0 }, false, false⟩) ∧
    (r.state = .resetting ∨ (left ∧ c.decay = true) →
      (c.decayStep < r.acc → w = ⟨{ r with state := .resetting, acc := r.acc - c.decayStep }, false, false⟩) ∧
      (r.acc ≤ c.decayStep → w = ⟨{ r with state := .idle, acc := 0 }, false, false⟩)))

/-! ### Protection and faults (chapters 5 and 7) -/

/-- An operation raises ELEMENT_OPERATED; LOCAL_TRIP and BOTH trip a CLOSED breaker, UPSTREAM and BOTH demand the
intertrip, and a bus fault is raised under R88's conditions, and under no others, for the sections the breaker connects (R83,
R88, R97). Only they do: under UPSTREAM and ALARM the breaker is not tripped with source PROTECTION, and is as it was while
ELEMENT_OPERATED is advisory; under LOCAL_TRIP and ALARM no intertrip is demanded and no frame is placed (R83, R108). -/
def Obligations.OperationActsByItsRoute : Prop :=
  ∀ (n : Nat) (k : ElementKind) (r : Route) (empty : Bool) (s : State), 1 ≤ n → n ≤ s.prot.slots.length →
    let t := s.operate n k r empty
    let overcurrent := k = .phaseDefinite ∨ k = .phaseInverse ∨ k = .earth
    let busFaults := overcurrent ∧ (r = .localTrip ∨ r = .both) ∧ s.ownKind ≠ some .feeder ∧ empty = true
    t.fault.pending.get .elementOperated = true ∧
    (r = .localTrip ∨ r = .both → s.brk.state = .closed →
      t.brk.state = .opening ∧ TripSource.protection ∈ t.brk.sources) ∧
    (r = .upstream ∨ r = .both → (t.slotRun n).demand = true ∧ t.zone.intertripAsserted = true) ∧
    (busFaults → t.fault.pending.get .busFault = true ∧
      ∀ x, s.ownSections.get x = true → t.fault.busFault.get x = true) ∧
    (¬ busFaults → t.fault.pending.get .busFault = s.fault.pending.get .busFault ∧ t.fault.busFault = s.fault.busFault) ∧
    (r = .upstream ∨ r = .alarm →
      (TripSource.protection ∈ t.brk.sources → TripSource.protection ∈ s.brk.sources) ∧
      (s.severityOf .elementOperated = .advisory → t.brk = s.brk)) ∧
    (r = .localTrip ∨ r = .alarm → (t.slotRun n).demand = (s.slotRun n).demand ∧ t.zone = s.zone ∧ t.link = s.link)

/-- A new raise makes its kind pending with count 1, a repeat counts up to 255; the first unmasked raise is captured, and
no other kind is touched (R106, R107). Severity acts at every raise, masked or not, and that of an ADVISORY kind has no effect
on the breaker or on closing (R108). -/
def Obligations.RaiseRecordsTheKind : Prop :=
  ∀ (k : FaultKind) (ctx : FaultContext) (s : State),
    (s.raise k ctx).fault.pending.get k = true ∧
    (s.fault.pending.get k = false → (s.raise k ctx).fault.count.get k = 1) ∧
    (s.fault.pending.get k = true → s.fault.count.get k < 255 →
      (s.raise k ctx).fault.count.get k = s.fault.count.get k + 1) ∧
    (s.fault.pending.get k = true → 255 ≤ s.fault.count.get k → (s.raise k ctx).fault.count.get k = 255) ∧
    (s.fault.pending.get k = false → s.fault.capture = none → s.masked k = false →
      (s.raise k ctx).fault.capture = some
        { kind := k, setSeq := s.meas.lastSeq, roundCount := s.link.roundCount, delivery := s.pic.delivery
          context := ctx }) ∧
    (s.fault.pending.get k = true ∨ s.fault.capture.isSome = true ∨ s.masked k = true →
      (s.raise k ctx).fault.capture = s.fault.capture) ∧
    (∀ j, j ≠ k → (s.raise k ctx).fault.pending.get j = s.fault.pending.get j ∧
      (s.raise k ctx).fault.count.get j = s.fault.count.get j) ∧
    (s.masked k = false → (s.raise k ctx).port.attention = true) ∧
    (s.masked k = true → (s.raise k ctx).port = s.port) ∧
    (s.severityOf k = .advisory → (s.raise k ctx).brk = s.brk ∧ (s.raise k ctx).fault.lockout = s.fault.lockout) ∧
    (s.severityOf k = .trip → (s.raise k ctx).brk = (s.trip .fault).brk) ∧
    (s.severityOf k = .lockout → (s.raise k ctx).fault.lockout = true)

/-- MEDIUM_IDLE and DEFER say whether the medium stands idle (R22): that the station follows them in every configured state is
the model's choice (log 27). The gap of a station that contends is twenty bit times
a station number above the base of the highest class whose queue is not empty; there is none in start silence, or with
nothing to send (R22, R23, R25). -/
def Obligations.GapByClassAndStation : Prop :=
  (∀ s : State, exec .mediumIdle s = .next { s with link := { s.link with mediumIdle := true } } ∧
    exec .defer s = .next { s with link := { s.link with mediumIdle := false } }) ∧
  ∀ s : State, s.settings.state = .configured → s.link.mediumIdle = true →
    (s.link.startSilence = true → s.gap = none) ∧
    (s.link.startSilence = false →
      (s.link.urgent ≠ [] → s.gap = some (20 + 20 * s.own)) ∧
      (s.link.urgent = [] → s.link.ordered ≠ [] → s.gap = some (640 + 20 * s.own)) ∧
      (s.link.urgent = [] → s.link.ordered = [] → s.link.statusRequest.isSome = true →
        s.gap = some (1260 + 20 * s.own)) ∧
      (s.link.urgent = [] → s.link.ordered = [] → s.link.statusRequest = none → s.gap = none))

/-! ### The medium and the round (chapter 2) -/

/-- The gap runs out: one frame is transmitted, the head of the highest class, with the next frame sequence, and it leaves its
queue; the sequence and the transmitted counter rise. A STATUS is composed at that moment, and its request is gone; a summary's
part 1 sets the guard (R23, R24, R28, R30, R44). Nothing else is the event's own work. That the frame sent is recorded, and the
idle medium held in a bit, is the model's choice (log 28, log 27). -/
def Obligations.GapExpiryTransmitsTheHead : Prop :=
  ∀ s : State, s.settings.state = .configured → s.gap.isSome = true →
    let sending (body : FrameBody) : LinkRecord := { s.link with
      sent := some ⟨⟨s.own, s.link.nextSeq⟩, body⟩, nextSeq := s.link.nextSeq + 1
      transmitted := s.link.transmitted + 1, mediumIdle := false }
    ∃ t u : State, exec .gapExpiry s = .next t ∧ t = State.finish s u ∧ Frame {} u t ∧
      (∀ f fs, s.link.urgent = f :: fs → u = { s with link := { sending f.body with urgent := fs } }) ∧
      (s.link.urgent = [] → ∀ f fs, s.link.ordered = f :: fs →
        let sent : State := { s with link := { sending (s.orderedBody f) with ordered := fs } }
        ((∃ serial, f = .summaryOne serial) → u = { sent with step := { s.step with guard := 2 } }) ∧
        (¬ (∃ serial, f = .summaryOne serial) → u = sent)) ∧
      (s.link.urgent = [] → s.link.ordered = [] → ∀ c, s.link.statusRequest = some c →
        u = { s with link := { sending (.status (s.composeStatus c)) with
          statusRequest := none, lastComposed := some (s.composeStatus c) } })

/-- A discarded set and a discarded reception are counted and do nothing else; a port command whose check fails is
discarded without a response (R21, R54, 13.4). A reception that passes the tests is a delivery: of the frame its bytes spell,
or, where a code in it names no value (the model's choice, log 3), one that takes a delivery number and notes its source (R1,
R3, R6, R21). That RECEIVE_DISCARD carries the received bytes, and is the delivery they spell where they pass the tests, is the
model's choice too (log 29). -/
def Obligations.DiscardsAreOnlyCounted : Prop :=
  ∀ (bytes : List Byte) (s : State),
    (s.settings.state = .configured → exec .setDiscard s = .next (State.finish s
      { s with meas := { s.meas with discards := s.meas.discards + 1 } })) ∧
    (s.settings.state = .configured → frameAccepted bytes = false → exec (.receiveDiscard bytes) s =
      .next (State.finish s { s with link := { s.link with receiveDiscard := s.link.receiveDiscard + 1 } })) ∧
    (∀ f, parseFrame bytes = some f → exec (.receiveDiscard bytes) s = exec f.command s) ∧
    (s.settings.state = .configured → frameAccepted bytes = true → parseFrame bytes = none →
      ∃ t : State, exec (.receiveDiscard bytes) s = .next t ∧ t.pic.delivery = s.pic.delivery + 1 ∧
        t.link.receiveDiscard = s.link.receiveDiscard ∧
        (s.isConfigured (byteAt bytes 1) = true →
          let e := t.entry (byteAt bytes 1)
          e.lastSeq = some (BitVec.ofNat 8 (byteAt bytes 2)) ∧ e.heard = true ∧ e.silence = 0 ∧ e.presence ≠ .unknown ∧
            e.presence ≠ .dropped ∧ e.content = (s.entry (byteAt bytes 1)).content)) ∧
    exec (.commandDiscard bytes) s = .next s

/-- A round end: the round count rises, the round timer runs again, a STATUS is requested, the guard falls by one, the
silence counts of LIVE peers not heard rise, and start silence ends at the sixth (R25, R31, R32, R44). An IN_STEP station
requests a DROP naming each LIVE peer whose count has reached three, unless the queue is full (R33), and the source of a
refused summary pair requests it again while a station still asks (R44). A station that is out of step founds an epoch exactly
under the conditions of R51, its founding wait advanced by one (R50): IN_STEP in the new epoch, the delivery number and every
stamp at 0. That founding is judged once start silence, the pending source and the guard of this round end have been judged is
the model's choice (log 10), and so is that run lists are kept, with entry numbers 0, at a station that founds from JOINING
(log 35). -/
def Obligations.RoundEndCounts : Prop :=
  ∀ s : State, s.settings.state = .configured →
    let o := s.countRound.judgeStartSilence.advanceSilence.judgePendingSource.lowerGuard
    let wait := if o.step.state = .inStep then 0 else if o.step.founding < 255 then o.step.founding + 1 else 255
    let founds := o.step.state ≠ .inStep ∧ 3 ≤ wait ∧ s.pic.quorum = true ∧ (o.entry s.own).presence = .live ∧
      (∀ n, 1 ≤ n → n < s.own → s.isConfigured n = true → (o.entry n).presence = .live → 3 ≤ (o.entry n).silence) ∧
      o.link.startSilence = false ∧ o.step.pendingAdoption = none
    let serial : Word16 := (s.step.highest.map (· + 1)).getD 1
    ∃ t u : State, exec .roundEnd s = .next t ∧ t = State.finish s u ∧ t.link.roundCount = s.link.roundCount + 1 ∧
      t.link.roundTimer = some s.campus.round ∧ t.link.statusRequest.isSome = true ∧
      t.link.startSilence = (s.link.startSilence && !(decide ((s.link.roundCount + 1).toNat = 6))) ∧
      t.step.guard = s.step.guard - 1 ∧
      t.pic.table = s.pic.table.mapIdx (fun k e => { e with
        heard := false
        silence := if e.fixed.isSome && !(k + 1 == s.own) && e.presence == .live && !e.heard then
          (if e.silence < 255 then e.silence + 1 else 255) else e.silence }) ∧
      (∀ n, 1 ≤ n → n ≤ 30 → s.isConfigured n = true → n ≠ s.own → 3 ≤ (t.entry n).silence →
        (t.entry n).presence = .live → s.step.state = .inStep →
        OrderedFrame.drop n ∈ u.link.ordered ∨ 8 ≤ u.link.ordered.length) ∧
      (∀ n, OrderedFrame.drop n ∈ u.link.ordered → OrderedFrame.drop n ∈ s.link.ordered ∨ (s.isConfigured n = true ∧
        n ≠ s.own ∧ 3 ≤ (t.entry n).silence ∧ (t.entry n).presence = .live ∧ s.step.state = .inStep)) ∧
      (s.step.state = .inStep → s.step.pairRefused = true → o.summarySource = true → s.step.guard ≤ 1 →
        o.someoneAsks = true →
        (OrderedFrame.summaryOne s.step.nextSummary ∈ u.link.ordered ∧
          OrderedFrame.summaryTwo s.step.nextSummary ∈ u.link.ordered) ∨
        (7 ≤ u.link.ordered.length ∧ t.step.pairRefused = true)) ∧
      (founds → t.step.state = .inStep ∧ t.step.epoch = some ⟨serial, s.own⟩ ∧ t.step.highest = some serial ∧
        t.step.founding = 0 ∧ t.step.founded = s.step.founded + 1 ∧ t.pic.delivery = 0 ∧
        (∀ x, (t.sec x).holder = (s.sec x).holder ∧ (t.sec x).grant = 0 ∧
          (t.sec x).queue = (s.sec x).queue.map (fun q => { q with entry := 0 }) ∧
          (t.sec x).lastOrder = (s.sec x).lastOrder.map (fun o => { o with stamp := 0 })) ∧
        (∀ i, (t.island i).runList = (s.island i).runList.map (fun e => { e with entry := 0 }) ∧
          (t.island i).queue = (s.island i).queue.map (fun e => { e with entry := 0, former := e.former.map fun _ => 0 }) ∧
          (t.island i).admitted = (s.island i).admitted.map (fun e => { e with admission := 0 }))) ∧
      (¬ founds → t.step.state = o.step.state ∧ t.step.epoch = s.step.epoch ∧ t.step.founding = wait ∧
        t.step.founded = s.step.founded ∧ t.pic.delivery = s.pic.delivery ∧ t.isl = s.isl ∧ t.pic.secs = s.pic.secs) ∧
      Frame { isl := true, secs := true, delivery := true, step := true }
        { s with link := { t.link with statusRequest := s.link.statusRequest }
                 step := { s.step with guard := s.step.guard - 1 }, pic := { s.pic with table := t.pic.table } } t

/-- A delivered frame of a source that is not configured takes a delivery number and nothing else happens, but that a DROP
naming the station itself ends its start silence, whatever its sender (R25). That of a configured source notes its sequence
and clears its silence count; a part 1 that is taken sets the delivery number it carries, plus one, instead (R1, R3, R6, R16,
R32, R46). -/
def Obligations.DeliveryIsCountedAndItsSourceNoted : Prop :=
  ∀ (c : Instr) (h : Header) (s : State), s.settings.state = .configured → frameHeader c = some h →
    (s.isConfigured h.source = false →
      let heard := if c = .drop h s.own then s.endStartSilence else s
      exec c s = .next (State.finish s { heard with pic := { s.pic with delivery := s.pic.delivery + 1 } })) ∧
    (s.isConfigured h.source = true →
      ∃ t : State, exec c s = .next t ∧ (t.entry h.source).lastSeq = some h.seq ∧ (t.entry h.source).heard = true ∧
        (t.entry h.source).silence = 0 ∧ (t.entry h.source).presence ≠ .unknown ∧
        ((∀ p, c ≠ .summaryPart1 h p) → t.pic.delivery = s.pic.delivery + 1) ∧
        Frame { isl := true, secs := true, derived := true, table := true, lapse := true, delivery := true
                step := true, lists := true }
          { s with link := { s.link with startSilence := t.link.startSilence } } t)

/-! ### Deliveries (chapters 1 to 3) -/

/-- A frame whose sequence does not follow the last one of its LIVE source raises LINK_GAP, and an IN_STEP station
enters DESYNC (R38, R39). -/
def Obligations.LinkGapLosesStep : Prop :=
  ∀ (c : Instr) (h : Header) (q : Byte) (s : State), s.settings.state = .configured → frameHeader c = some h →
    s.isConfigured h.source = true → (s.entry h.source).presence = .live → (s.entry h.source).lastSeq = some q →
    h.seq ≠ q + 1 →
    ∃ t : State, exec c s = .next t ∧ t.fault.pending.get .linkGap = true ∧
      (s.step.state = .inStep → (∀ p, c ≠ .summaryPart2 h p) → t.step.state = .desync)

/-- A STATUS whose digest matches makes its source's entry LIVE and current with the STATUS as its content, and no other
entry changes. One of a LIVE peer with another digest makes the entry MISMATCHED, keeps its content and raises
DIGEST_MISMATCH (R4, R7, R17). -/
def Obligations.StatusBecomesTheContent : Prop :=
  ∀ (h : Header) (b : StatusBody) (s : State), s.settings.state = .configured → s.isConfigured h.source = true →
    (b.digest = s.digest → ∃ t : State, exec (.status h b) s = .next t ∧ (t.entry h.source).content = some b ∧
      (t.entry h.source).stale = false ∧ (t.entry h.source).presence = .live ∧
      (∀ n, n ≠ h.source → (t.entry n).unlapsed = (s.entry n).unlapsed)) ∧
    (b.digest ≠ s.digest → h.source ≠ s.own → (s.entry h.source).presence = .live →
      ∃ t : State, exec (.status h b) s = .next t ∧ (t.entry h.source).presence = .mismatched ∧
        (t.entry h.source).content = (s.entry h.source).content ∧ t.fault.pending.get .digestMismatch = true)

/-- An applied CLAIM is queued for each section it names under the delivery number, or granted at once; a CLAIM that is
not applied, or that a test discards, changes no token while no faulted flag changes (R40, R119 to R121). -/
def Obligations.ClaimIsQueuedOrGranted : Prop :=
  ∀ (h : Header) (secs : SectionSet) (s u : State), s.settings.state = .configured →
    s.isConfigured h.source = true → u = s.noted .claim 1 h →
    ∃ t : State, exec (.claim h secs) s = .next t ∧
      (u.reportsInStep h.source = true → u.claimTest h.source secs = none → ∀ x, secs.get x = true →
        (t.sec x).holder = h.source ∨ ⟨h.source, u.pic.delivery⟩ ∈ (t.sec x).queue) ∧
      (u.reportsInStep h.source = false ∨ (u.claimTest h.source secs).isSome = true →
        (∀ x, (u.sec x).faulted = (s.sec x).faulted) → ∀ x, (t.sec x).tokenPart = (s.sec x).tokenPart)

/-- The five tests of a claim, and the number of the first that discards it; a discarded CLAIM changes no token and no queue,
while no faulted flag changes at its delivery (R119). -/
def Obligations.ClaimTestsInOrder : Prop :=
  (∀ (n : Nat) (secs : SectionSet) (s : State),
    let t1 := secs ≠ s.connects n ∨ (∀ x, secs.get x = false) ∨ s.kindOf n = some .feeder ∨
      ∃ x, secs.get x = true ∧ (s.sec x).configured = false
    let t2 := ∃ x, secs.get x = true ∧ (s.sec x).faulted = true
    let t3 := s.kindOf n = some .incomer ∧ ∃ x y, secs.get x = true ∧ x ≠ y ∧ s.sameIsland x y = true
    let t4 := s.kindOf n = some .tie ∧ ∀ x, (s.connects n).get x = true → s.incomersOn x ≠ []
    let t5 := ∃ x, secs.get x = true ∧ ((s.sec x).holder = n ∨ (s.sec x).queues n = true)
    (t1 → s.claimTest n secs = some 1) ∧ (¬ t1 → t2 → s.claimTest n secs = some 2) ∧
    (¬ t1 → ¬ t2 → t3 → s.claimTest n secs = some 3) ∧
    (¬ t1 → ¬ t2 → ¬ t3 → t4 → s.claimTest n secs = some 4) ∧
    (¬ t1 → ¬ t2 → ¬ t3 → ¬ t4 → t5 → s.claimTest n secs = some 5) ∧
    (¬ t1 → ¬ t2 → ¬ t3 → ¬ t4 → ¬ t5 → s.claimTest n secs = none)) ∧
  ∀ (h : Header) (secs : SectionSet) (s u : State), s.settings.state = .configured →
    s.isConfigured h.source = true → u = s.noted .claim 1 h → u.reportsInStep h.source = true →
    (u.claimTest h.source secs).isSome = true → (∀ x, (u.sec x).faulted = (s.sec x).faulted) →
    ∃ t : State, exec (.claim h secs) s = .next t ∧ ∀ x, (t.sec x).tokenPart = (s.sec x).tokenPart

/-- The grant check of a section: a ready section's token goes to the head of its queue, under the delivery number (R121); a
tie at the head is granted both its sections or neither (R122). -/
def Obligations.GrantCheckServesTheHead : Prop :=
  ∀ (x : BusSection) (s : State),
    let counts (n : Nat) := (s.entry n).holds .closing = true ∧ (s.entry n).presence ≠ .unknown ∧ (s.entry n).lapse ≠ .lapsed
    let ready (y : BusSection) := (s.sec y).configured = true ∧ (s.sec y).faulted = false ∧ (s.sec y).holder = 0 ∧
      ∀ n ∈ s.closersOnto y, ¬ counts n
    let granted (n : Nat) (y : BusSection) (r : SectionRecord) := r = { s.sec y with
      holder := n, grant := s.pic.delivery, queue := (s.sec y).queue.filter (fun e => !(e.station == n)) }
    let t := s.grantCheck x
    ((s.sec x).queue = [] ∨ ¬ ready x → t = s) ∧
    ∀ (q : QueueEntry) (rest : List QueueEntry), (s.sec x).queue = q :: rest → ready x →
      let both := ∀ y, (s.connects q.station).get y = true → y ≠ x →
        ready y ∧ (s.sec y).queue.head?.map (·.station) = some q.station
      (s.kindOf q.station ≠ some .tie → granted q.station x (t.sec x) ∧ ∀ y, y ≠ x → t.sec y = s.sec y) ∧
      (s.kindOf q.station = some .tie → ¬ both → t = s) ∧
      (s.kindOf q.station = some .tie → both →
        ∀ y, if (s.connects q.station).get y then granted q.station y (t.sec y) else t.sec y = s.sec y) ∧
      (s.kindOf q.station ≠ some .tie ∨ both →
        t.token.grants = if q.station = s.own then s.token.grants + 1 else s.token.grants)

/-- An applied RELEASE is recorded on each section it names; a sender that waits nowhere holds none of them any more, and
one that held none of them waits nowhere any more (R127). That a feeder's RELEASE naming its own section is recorded as well is
the model's choice (log 48). -/
def Obligations.ReleaseFreesTheTokens : Prop :=
  ∀ (h : Header) (secs : SectionSet) (cause : ReleaseCause) (s u : State), s.settings.state = .configured →
    s.isConfigured h.source = true → u = s.noted .release 2 h → u.reportsInStep h.source = true →
    secs = u.connects h.source →
    ∃ t : State, exec (.release h secs cause) s = .next t ∧
      (∀ x, secs.get x = true → (t.sec x).lastRelease = some ⟨h.source, cause, u.pic.delivery⟩) ∧
      ((∀ y, (u.sec y).queues h.source = false) → ∀ x, secs.get x = true → (t.sec x).holder ≠ h.source) ∧
      ((∀ x, secs.get x = true → (u.sec x).holder ≠ h.source) → ∀ y, (t.sec y).queues h.source = false)

/-- An applied ADMIT of a feeder that is OUT puts it in a list of its island, and of no other, under this delivery's number
(R154). A closed feeder of a live section is placed on the Admitted List, and stands in the Admission Queue after it only as
shed, a returned entry; any other is queued, not returned, and stands on the Admitted List after it only as admitted. In a dead
island it waits. After the shed and admit steps the account is not below 0, and in a live island the head of a queue does not
fit it (R158). An applied WITHDRAW takes the feeder out of every list (R155). -/
def Obligations.AdmitAndWithdrawMoveTheFeeder : Prop :=
  (∀ (h : Header) (alreadyClosed : Bool) (x i : BusSection) (s u : State), s.settings.state = .configured →
    s.isConfigured h.source = true → u = s.noted .admitFeeder 1 h → u.reportsInStep h.source = true →
    u.step.pendingAdoption = none → u.kindOf h.source = some .feeder → u.admissionOf h.source = .out →
    u.secOf h.source = some x → u.islandOf x = some i →
    ∃ t : State, exec (.admitFeeder h alreadyClosed) s = .next t ∧
      let n := h.source
      let d := u.pic.delivery
      let island := t.island i
      (alreadyClosed = true ∧ (u.sec x).live = true → ⟨n, d⟩ ∈ island.admitted ∨ ⟨n, d, some d⟩ ∈ island.queue) ∧
      (¬ (alreadyClosed = true ∧ (u.sec x).live = true) → ⟨n, d, none⟩ ∈ island.queue ∨ ⟨n, d⟩ ∈ island.admitted) ∧
      (u.islandLive i = false → ⟨n, d, none⟩ ∈ island.queue) ∧
      (∀ j, j ≠ i → (∀ e ∈ (t.island j).queue, e.feeder ≠ n) ∧ ∀ e ∈ (t.island j).admitted, e.feeder ≠ n) ∧
      0 ≤ t.account i ∧
      (u.islandLive i = true → ∀ w rest, island.queue = w :: rest → t.account i < t.ratingOf w.feeder)) ∧
  (∀ (h : Header) (s u : State), s.settings.state = .configured → s.isConfigured h.source = true →
    u = s.noted .withdraw 0 h → u.reportsInStep h.source = true → u.step.pendingAdoption = none →
    ∃ t : State, exec (.withdraw h) s = .next t ∧ t.admissionOf h.source = .out)

/-- An applied section order of an incomer becomes the last order of every section of its island, and of no other; an
ORDER that is not applied, or whose sender is no incomer, changes no last order (R163). -/
def Obligations.SectionOrderReachesItsIsland : Prop :=
  ∀ (h : Header) (o : OrderKind) (tie : Option Nat) (x : BusSection) (s u : State), s.settings.state = .configured →
    s.isConfigured h.source = true → u = s.noted .order (if tie.isSome then 2 else 1) h →
    u.step.pendingAdoption = none → u.secOf h.source = some x →
    ∃ t : State, exec (.order h o tie) s = .next t ∧
      (u.reportsInStep h.source = true → u.kindOf h.source = some .incomer → tie = none → o.isSectionOrder = true →
        ∀ y, (t.sec y).lastOrder =
          if u.sameIsland x y then some ⟨o, u.pic.delivery⟩ else (s.sec y).lastOrder) ∧
      (u.reportsInStep h.source = false ∨ u.kindOf h.source ≠ some .incomer ∨ o.isSectionOrder = false →
        ∀ y, (t.sec y).lastOrder = (s.sec y).lastOrder)

/-- A TIE_ASSIST taken by an idle tie whose breaker is OPEN makes it ASSISTING for the ordering incomer and posts its want; a
SPLIT makes an idle or closing tie SPLITTING and trips it with source TIE, unless its breaker is OPEN (R173). A delivered ORDER
reaches the tie role exactly where it is applied, its sender is an incomer, its order is TIE_ASSIST or SPLIT, and the tie it
names is this station and joins the sender's section; an ORDER discarded for its tie station changes nothing more than any
frame of its source does (R163). Two points are the model's choice: that the order finds the station as `w`, once the delivery
has been handed on (log 11), and that an adoption it voids is voided after its own work (log 12). -/
def Obligations.TieTakesItsOrders : Prop :=
  (∀ (n : Nat) (s : State), s.ownKind = some .tie →
    (s.tie.state = .idle → s.brk.state = .opened → (s.tieAssist n).tie = { state := .assisting, ordering := n } ∧
      (s.token.state = .idle → s.brk.watch = false → (s.tieAssist n).token.want = some .tie)) ∧
    (s.tie.state ≠ .idle ∨ s.brk.state ≠ .opened → s.tieAssist n = s) ∧
    (s.tie.state = .idle → s.brk.state = .closed → s.tieSplit.tie = { state := .splitting, ordering := 0 } ∧
      s.tieSplit.brk.state = .opening ∧ TripSource.tie ∈ s.tieSplit.brk.sources) ∧
    (s.tie.state = .idle → s.brk.state = .opened → s.tieSplit.tie.state = .idle) ∧
    (s.tie.state = .assisting ∨ s.tie.state = .merging →
      (s.brk.state = .opened → s.tieSplit.tie = { state := .idle, ordering := 0 }) ∧
      (s.brk.state ≠ .opened → s.tieSplit.tie = { state := .splitting, ordering := 0 } ∧
        TripSource.tie ∈ s.tieSplit.brk.sources)) ∧
    (s.tie.state = .splitting → s.tieSplit = s.trip .tie)) ∧
  ∀ (h : Header) (o : OrderKind) (tie : Option Nat) (s u w : State), s.settings.state = .configured →
    s.isConfigured h.source = true → h.source ≠ s.own → u = s.noted .order (if tie.isSome then 2 else 1) h →
    w = State.handOn HandOn.quiet s u →
    let taken := u.reportsInStep h.source = true ∧ u.kindOf h.source = some .incomer ∧ o.isSectionOrder = false ∧
      s.ownKind = some .tie ∧ tie = some s.own ∧ ∃ x, u.secOf h.source = some x ∧ (u.connects s.own).get x = true
    ∃ t v : State, exec (.order h o tie) s = .next t ∧ t = State.finish s (v.settle).endDelivery ∧
      ((∀ x, (u.sec x).faulted = (s.sec x).faulted) → w.tie = s.tie) ∧
      (taken → o = .tieAssist → v = (w.tieAssist h.source).voidBy h.source) ∧
      (taken → o = .split → v = w.tieSplit.voidBy h.source) ∧
      (taken → o = .tieAssist → w.tie.state = .idle → w.brk.state = .opened →
        v.tie = { state := .assisting, ordering := h.source }) ∧
      (taken → o = .split → w.tie.state = .idle → w.brk.state = .closed →
        v.tie = { state := .splitting, ordering := 0 } ∧ TripSource.tie ∈ v.brk.sources) ∧
      (¬ taken → o.isSectionOrder = false ∨ tie.isSome = true → v = w.voidBy h.source ∧ v.tie = w.tie)

/-- A delivered BLOCK of a downstream station is listed with the delivery number and a full limit, or unlisted; that of
any other station changes nothing in the list (R92, R95). The expiry of an entry removes
it, and the emptying of the list is handed on (R96). -/
def Obligations.BlockIsListed : Prop :=
  (∀ (h : Header) (on : Bool) (s u : State), s.settings.state = .configured → s.isConfigured h.source = true →
    u = s.noted .block 1 h →
    ∃ t : State, exec (.block h on) s = .next t ∧
      (u.downstream h.source = true → on = true →
        (∃ e ∈ t.zone.blockList, e.source = h.source ∧ e.stamp = u.pic.delivery ∧ e.left = s.station.blockLimit) ∧
        ∀ e ∈ s.zone.blockList, e.source ≠ h.source → e ∈ t.zone.blockList) ∧
      (u.downstream h.source = true → on = false →
        t.zone.blockList = s.zone.blockList.filter (fun e => !(e.source == h.source))) ∧
      (u.downstream h.source = false → t.zone.blockList = s.zone.blockList) ∧ t.zone.intertrips = s.zone.intertrips) ∧
  ∀ (n : Nat) (s : State), s.settings.state = .configured →
    ∃ t u : State, exec (.blockEntryExpiry n) s = .next t ∧ t = State.finish s u ∧ Frame { lists := true } s t ∧
      t.zone.blockList = s.zone.blockList.filter (fun e => !(e.source == n)) ∧
      u = { s with
        zone := { s.zone with blockList := s.zone.blockList.filter (fun e => !(e.source == n)) }
        news := if s.zone.blockList ≠ [] ∧ ∀ e ∈ s.zone.blockList, e.source = n then s.news ++ [.blockListEmptied]
          else s.news }

/-- A delivered INTERTRIP of a peer: set, it is listed, accepted exactly when the peer is downstream, and an accepted one
raises INTERTRIP; set again, it is fresh; clear, it goes (R92, R99). An entry accepted anew trips a breaker that is CLOSED or
CLOSING with source ZONE, and no other; one that is not accepted trips nothing (R99). That the Set is kept in the order in which
its entries were added is the model's choice (log 9). -/
def Obligations.IntertripIsListed : Prop :=
  (∀ (h : Header) (v : Bool) (s u : State), s.settings.state = .configured → s.isConfigured h.source = true →
    u = s.noted .intertrip 1 h → h.source ≠ s.own →
    ∃ t : State, exec (.intertrip h v) s = .next t ∧ t.zone.blockList = s.zone.blockList ∧
      (v = true → s.intertripListed h.source = false →
        t.zone.intertrips = s.zone.intertrips ++
          [{ source := h.source, accepted := u.downstream h.source, stale := false, stamp := u.pic.delivery }] ∧
        (u.downstream h.source = true → t.fault.pending.get .intertrip = true)) ∧
      (v = true → s.intertripListed h.source = true → t.zone.intertrips =
        s.zone.intertrips.map (fun e => if e.source == h.source then { e with stale := false } else e)) ∧
      (v = false → t.zone.intertrips = s.zone.intertrips.filter (fun e => !(e.source == h.source)))) ∧
  ∀ (n : Nat) (s : State), s.isConfigured n = true → n ≠ s.own →
    let t := s.takeIntertrip n true
    (s.intertripListed n = false → s.downstream n = true →
      (s.brk.state = .closed ∨ s.brk.state = .closing →
        t.brk.state = .opening ∧ t.brk.tripOut = true ∧ TripSource.zone ∈ t.brk.sources) ∧
      (s.brk.state = .closing → News.closeAborted .zone ∈ t.news) ∧
      (s.brk.state ≠ .closed → s.brk.state ≠ .closing → s.severityOf .intertrip = .advisory → t.brk = s.brk)) ∧
    (s.intertripListed n = true ∨ s.downstream n = false → t.brk = s.brk ∧ t.fault = s.fault)

/-- An applied DROP makes the entry it names DROPPED, its content stale, takes the station's tokens, queue places, waiting
place and block, makes its intertrip stale, and takes an IN_STEP station it names itself to DESYNC (R5, R34, R52, R102,
R128, R155). One that names an entry already DROPPED changes no entry, block, intertrip or step state (R5, R123). -/
def Obligations.DropTakesTheStationOut : Prop :=
  ∀ (h : Header) (n : Nat) (s u : State), s.settings.state = .configured → s.isConfigured h.source = true →
    u = (if n = s.own then s.endStartSilence else s).noted .drop 1 h → u.appliesDrop h n = true →
    ∃ t : State, exec (.drop h n) s = .next t ∧ (t.entry n).presence = .dropped ∧
      (t.entry n).content = (s.entry n).content ∧ (t.entry n).lastSeq = (s.entry n).lastSeq ∧
      (∀ k, k ≠ n → (t.entry k).unlapsed = (u.entry k).unlapsed) ∧
      ((u.entry n).presence ≠ .dropped →
        ((u.entry n).content.isSome = true → (t.entry n).stale = true) ∧ (t.entry n).silence = 0 ∧
        (∀ y, (t.sec y).holder ≠ n ∧ (t.sec y).queues n = false) ∧
        (∀ e ∈ t.zone.blockList, e.source ≠ n) ∧ (∀ e ∈ t.zone.intertrips, e.source = n → e.stale = true) ∧
        (u.step.pendingAdoption = none → (∀ i, ∀ e ∈ (s.island i).admitted, e.feeder ≠ n) →
          ∀ i, ∀ e ∈ (t.island i).queue, e.feeder ≠ n) ∧
        (n = s.own → u.step.state = .inStep → t.step.state = .desync)) ∧
      ((u.entry n).presence = .dropped → (t.entry n).unlapsed = (u.entry n).unlapsed ∧
        t.zone.blockList = s.zone.blockList ∧ t.zone.intertrips = s.zone.intertrips ∧
        (u.step.pendingAdoption = none → t.step = u.step))

/-- A part 1 that is taken: the carried delivery number plus one, the epoch, the pending adoption, the carried tokens and
queues, empty lists, and no last order (R46). The Station Table is replaced by the carried one: presence, last sequence, stale
mark and content, with the receiver's own digest and the per-unit load of the carried power, silence at 0 (R2, R46); the source
is LIVE with this frame's sequence. The last releases are emptied, and a carried DROPPED or MISMATCHED entry that shows CLOSING
has lapsed (R116). That adopted content takes the receiver's own digest, which is not carried, is the model's choice (log
13). -/
def Obligations.PartOneCarriesTheTables : Prop :=
  ∀ (h : Header) (p : SummaryOne) (s : State), s.settings.state = .configured → s.isConfigured h.source = true →
    ((s.countDelivery).noteSource .summary (SummaryOne.length p) h).takesSummary h.source p = true →
    ∃ t : State, exec (.summaryPart1 h p) s = .next t ∧ t.pic.delivery = p.delivery + 1 ∧
      t.step.epoch = some p.epoch ∧ t.step.pendingAdoption = some ⟨h.source, p.serial, p.epoch⟩ ∧
      t.step.state ≠ .inStep ∧
      (∀ x, (t.sec x).holder = (p.tokens.get x).holder ∧ (t.sec x).grant = (p.tokens.get x).grant ∧
        (t.sec x).queue = (p.tokens.get x).queue ∧ (t.sec x).lastOrder = none ∧ (t.sec x).lastRelease = none) ∧
      (∀ i, (t.island i).runList = [] ∧ (t.island i).queue = [] ∧ (t.island i).admitted = []) ∧
      (∀ k c, s.isConfigured (k + 1) = true → p.entries[k]? = some c →
        let e := t.entry (k + 1)
        e.fixed = (s.entry (k + 1)).fixed ∧ e.stale = c.stale ∧ e.silence = 0 ∧
        e.content = c.content.map (fun b => { b with digest := s.digest, perUnit := s.perUnitOf (k + 1) b.realPower }) ∧
        (k + 1 ≠ h.source → e.presence = c.presence ∧ e.lastSeq = c.lastSeq ∧
          (c.presence = .dropped ∨ c.presence = .mismatched → e.holds .closing = true → e.lapse = .lapsed))) ∧
      (t.entry h.source).presence = .live ∧ (t.entry h.source).lastSeq = some h.seq

/-- A part 2 of the pending adoption that follows its part 1 completes it: IN_STEP, the carried last orders and lists; any
other part 2 voids it (R48, R49). -/
def Obligations.PartTwoCompletesTheAdoption : Prop :=
  ∀ (h : Header) (p : SummaryTwo) (a : Adoption) (s : State), s.settings.state = .configured →
    s.isConfigured h.source = true → s.step.pendingAdoption = some a → s.step.state ≠ .inStep →
    ∃ t : State, exec (.summaryPart2 h p) s = .next t ∧ t.step.pendingAdoption = none ∧
      (a = ⟨h.source, p.serial, p.epoch⟩ → p.delivery = s.pic.delivery →
        t.step.state = .inStep ∧ t.step.completed = s.step.completed + 1 ∧
        (∀ x, (t.sec x).lastOrder = p.lastOrders.get x) ∧
        ((p.islands.map (·.name)).Nodup → ∀ i ∈ p.islands, (t.island i.name).runList = i.runList ∧
          (t.island i.name).queue = i.queue ∧ (t.island i.name).admitted = i.admitted)) ∧
      (a ≠ ⟨h.source, p.serial, p.epoch⟩ ∨ p.delivery ≠ s.pic.delivery →
        t.step.state = .desync ∧ t.step.voided = s.step.voided + 1)

/-- The hold timer in HOLDING: a RELEASE with cause EXPIRED, the expiry counted, TOKEN_EXPIRED raised (R125). A CLOSING report
whose lapse timer expires has lapsed (R123). -/
def Obligations.ClaimTimersAct : Prop :=
  ∀ (n left : Nat) (s : State), s.settings.state = .configured →
    (s.token.holdTimer.isSome = true → s.token.state = .holding →
      ∃ t u : State, exec .holdTimerExpiry s = .next t ∧ t = State.finish s u ∧ Frame {} s t ∧
        u.token.state = .releasing ∧ u.token.cause = some .expired ∧ u.token.holdTimer = none ∧
        u.token.expiries = s.token.expiries + 1 ∧ u.sync.session = .none ∧
        t.fault.pending.get .tokenExpired = true) ∧
    ((s.entry n).lapse = .running left →
      ∃ t : State, exec (.lapseTimerExpiry n) s = .next t ∧ (t.entry n).lapse = .lapsed ∧
        Frame { secs := true, lapse := true } s t)

/-! ### Timers -/

/-- The sync timeout ends the session with cause TIMEOUT, raises SYNC_TIMEOUT, and in HOLDING calls for a RELEASE with
cause EXPIRED (R125, R138). -/
def Obligations.SyncTimeoutEndsTheSession : Prop :=
  ∀ s : State, s.settings.state = .configured → s.sync.timer.isSome = true → s.sync.session ≠ .none →
    ∃ t u : State, exec .syncTimeoutTimerExpiry s = .next t ∧ t = State.finish s u ∧ Frame {} s t ∧
      u.sync.session = .none ∧ u.sync.endCause = some .timeout ∧ u.sync.timeouts = s.sync.timeouts + 1 ∧
      u.sync.timer = none ∧ t.fault.pending.get .syncTimeout = true ∧
      (s.token.state = .holding → u.token.state = .releasing ∧ u.token.cause = some .expired)

/-- A set that completes a window publishes a result: mean slip and voltage difference rounded towards zero, the angle
projected over one close limit, in the window exactly when all three are within their limits (R135, R136). -/
def Obligations.CompleteWindowPublishesAResult : Prop :=
  ∀ (m : MeasurementSet) (s : State), s.sync.session ≠ .none → s.sync.window.count + 1 = s.station.window →
    let w := s.sync.window
    let slip := Int.tdiv (w.slipSum + ((m.lineFreq : Int) - m.busFreq)) s.station.window
    let volt := Int.tdiv (w.voltSum + voltageSample s.station m) s.station.window
    let angle := wrapAngle (angleSample m + Int.tdiv (slip * 36 * s.station.closeLimit) 1000)
    let inWindow := slip.natAbs ≤ s.station.slipLimit ∧ angle.natAbs ≤ s.station.angleLimit ∧
      volt.natAbs ≤ s.station.voltageLimit
    ∃ r : SyncResult, (s.syncTake m).1.sync.last = some r ∧ r.number = s.sync.resultNumber + 1 ∧
      r.session = s.sync.number ∧ r.last = m.seq ∧ r.figures = some ⟨slip, angle, volt⟩ ∧
      (r.verdict = .inWindow ↔ inWindow) ∧ (s.syncTake m).1.sync.window = .empty ∧
      ((s.syncTake m).2 = true ↔ s.sync.session = .opened ∧ inWindow)

/-- The generator's timers: an autonomous start, a failed start, a surplus that unloads, a cooldown that ends (R145, R147,
R150). -/
def Obligations.GeneratorTimersAct : Prop :=
  ∀ s : State, s.settings.state = .configured → s.ownKind = some .generator →
    (s.disp.autonomousTimer.isSome = true → s.disp.role = .standby → s.barred = false →
      ∃ t u : State, exec .autonomousTimerExpiry s = .next t ∧ t = State.finish s u ∧ Frame {} s t ∧
        u.disp.role = .starting ∧ u.disp.autonomousMark = true ∧ u.eng.run = true ∧
        u.disp.starts = s.disp.starts + 1 ∧ u.disp.startTimer = some (s.station.startLimit * 1000)) ∧
    (s.disp.startTimer.isSome = true → s.disp.role = .starting →
      ∃ t u : State, exec .startLimitExpiry s = .next t ∧ t = State.finish s u ∧ Frame { bar := true } s t ∧
        u.disp.role = .startFailed ∧ u.eng.run = false ∧ u.disp.failures = s.disp.failures + 1 ∧
        t.fault.barLatch = true ∧ t.fault.pending.get .startFailed = true) ∧
    (s.disp.minimumTimer.isSome = true → s.disp.role = .online →
      ∃ t u : State, exec .minimumRunExpiry s = .next t ∧ t = State.finish s u ∧ Frame {} s t ∧
        u.disp.minimumTimer = none ∧ u.disp.role = .online ∧
        (s.needed = false → u.disp.surplusTimer =
          if s.disp.surplusTimer.isSome then s.disp.surplusTimer else some (s.station.surplusDwell * 1000))) ∧
    (s.disp.surplusTimer.isSome = true → s.disp.role = .online →
      ∃ t u : State, exec .surplusDwellExpiry s = .next t ∧ t = State.finish s u ∧ Frame {} s t ∧
        u.disp.role = .unloading ∧ u.disp.reason = some .surplus ∧ u.disp.target = clampInt 0 1000 s.ownLoad) ∧
    (s.disp.cooldownTimer.isSome = true → s.disp.role = .cooldown →
      ∃ t u : State, exec .cooldownExpiry s = .next t ∧ t = State.finish s u ∧ Frame {} s t ∧
        u.disp.role = .standby ∧ u.eng.run = false ∧ u.disp.cooldownTimer = none)

/-- The incomer's timers: the utility FAILED after the ride-through and HEALTHY after the stable time, TIE_WAIT left for
ON_BACKUP with START owed, and PARALLEL_LIMIT raised with OPEN_SOURCES owed (R165, R167, R170). ON_BACKUP is judged at its
entry: it stays, unless the supply is healthy, the breaker OPEN, and neither a manual hold, a lockout nor another section of the
island stands against a retransfer (R168). -/
def Obligations.ChangeoverTimersAct : Prop :=
  ∀ s : State, s.settings.state = .configured → s.ownKind = some .incomer →
    (s.chg.rideTimer.isSome = true → s.chg.monitor = .disturbed →
      ∃ t u : State, exec .rideThroughExpiry s = .next t ∧ Frame {} s t ∧
        u = { s with chg := { s.chg with rideTimer := none, monitor := .failed, run := 0 } } ∧
        t = State.finish s (u.monitorChanged .disturbed .failed)) ∧
    (s.chg.returnTimer.isSome = true → s.chg.monitor = .returning →
      ∃ t u : State, exec .returnStableExpiry s = .next t ∧ Frame {} s t ∧
        u = { s with chg := { s.chg with returnTimer := none, monitor := .healthy } } ∧
        t = State.finish s (u.monitorChanged .returning .healthy)) ∧
    (s.chg.tieTimer.isSome = true → s.chg.state = .tieWait →
      ∃ t u : State, exec .tieAssistLimitExpiry s = .next t ∧ Frame {} s t ∧
        u = { s with chg := { s.chg with tieTimer := none } } ∧
        let v := ((u.owe .start).moveTo .onBackup).judgeBackup
        t = State.finish s v ∧ (∃ x ∈ v.chg.owed, x.order = .start) ∧ v.chg.tieTimer = none ∧
        v.chg.state =
          if s.chg.monitor = .healthy ∧ s.chg.manualHold = false ∧ s.brk.state = .opened ∧ s.fault.lockout = false ∧
              s.islandShared s.ownSec = false then
            if (s.sec s.ownSec).live then if s.generatorServes then .retransfer else .onBackup else .openRetransfer
          else .onBackup) ∧
    (s.chg.parallelTimer.isSome = true → s.chg.state = .parallel →
      ∃ t u : State, exec .parallelLimitExpiry s = .next t ∧ Frame {} s t ∧ t = State.finish s u ∧
        u.chg.parallelTimer = none ∧ (∃ o ∈ u.chg.owed, o.order = .openSources) ∧
        t.fault.pending.get .parallelLimit = true)

/-! ### Invariants -/

/-- The state right after power is applied is in form, and LOADING. -/
def Obligations.InvariantAtReset : Prop :=
  Inv State.reset ∧ PictureDerived State.reset ∧ State.reset.settings.state = .loading ∧ State.reset.pending = []

/-- Every step answers a next state, and keeps the form of the state: breaker record, fault store, queues, lockout, the
port's limit, and no output driven while the station is not CONFIGURED. -/
def Obligations.StepKeepsTheInvariant : Prop :=
  ∀ s : State, ∃ t : State, step s = .next t ∧ (Inv s → Inv t)

/-- Every step keeps the picture's derived values those of its table: quorum, live and faulted flags, islands (R9, R12 to
R15). -/
def Obligations.StepKeepsThePictureDerived : Prop :=
  ∀ s t : State, PictureDerived s → step s = .next t → PictureDerived t

/-- What follows an event's own work leaves everything outside the blocks that act on hand-ons as it is (log 5). -/
def Obligations.HandOnsStayInFrame : Prop :=
  ∀ before s : State, Frame {} s (State.finish before s) ∧ (Good s → Good (State.finish before s)) ∧
    (State.finish before s).news = []

/-- The bytes of every well-formed frame, the two parts of a SUMMARY among them, read back as that frame: no field of a layout
is dropped (R21, 13.4). -/
def Obligations.FrameBytesReadBack : Prop :=
  ∀ f : Frame, f.header.wf = true → f.body.wf = true → parseFrame f.bytes = some f
end

