-- ==== Sys2Proof/Laws/State.lean ====
section
/-!
SUPPORT. One lemma for each field under each change of one block, and for hand-ons: what the change makes of that
field, all by definition. Below them the same for the questions asked most.
-/

namespace Sys2Proof.Machine


/-! ### Changing `settings` -/

section
variable (f : SettingsUnit → SettingsUnit) (s : State)

@[simp] theorem onSettings_pending : (s.onSettings f).pending = s.pending := rfl
@[simp] theorem onSettings_settings : (s.onSettings f).settings = f s.settings := rfl
@[simp] theorem onSettings_pins : (s.onSettings f).pins = s.pins := rfl
@[simp] theorem onSettings_step : (s.onSettings f).step = s.step := rfl
@[simp] theorem onSettings_pic : (s.onSettings f).pic = s.pic := rfl
@[simp] theorem onSettings_isl : (s.onSettings f).isl = s.isl := rfl
@[simp] theorem onSettings_link : (s.onSettings f).link = s.link := rfl
@[simp] theorem onSettings_meas : (s.onSettings f).meas = s.meas := rfl
@[simp] theorem onSettings_brk : (s.onSettings f).brk = s.brk := rfl
@[simp] theorem onSettings_eng : (s.onSettings f).eng = s.eng := rfl
@[simp] theorem onSettings_prot : (s.onSettings f).prot = s.prot := rfl
@[simp] theorem onSettings_zone : (s.onSettings f).zone = s.zone := rfl
@[simp] theorem onSettings_fault : (s.onSettings f).fault = s.fault := rfl
@[simp] theorem onSettings_token : (s.onSettings f).token = s.token := rfl
@[simp] theorem onSettings_sync : (s.onSettings f).sync = s.sync := rfl
@[simp] theorem onSettings_disp : (s.onSettings f).disp = s.disp := rfl
@[simp] theorem onSettings_feeder : (s.onSettings f).feeder = s.feeder := rfl
@[simp] theorem onSettings_chg : (s.onSettings f).chg = s.chg := rfl
@[simp] theorem onSettings_tie : (s.onSettings f).tie = s.tie := rfl
@[simp] theorem onSettings_port : (s.onSettings f).port = s.port := rfl
@[simp] theorem onSettings_news : (s.onSettings f).news = s.news := rfl
@[simp] theorem onSettings_entry (n : Nat) : (s.onSettings f).entry n = s.entry n := rfl
@[simp] theorem onSettings_sec (x : BusSection) : (s.onSettings f).sec x = s.sec x := rfl
end

/-! ### Changing `pins` -/

section
variable (f : Pins → Pins) (s : State)

@[simp] theorem onPins_pending : (s.onPins f).pending = s.pending := rfl
@[simp] theorem onPins_settings : (s.onPins f).settings = s.settings := rfl
@[simp] theorem onPins_pins : (s.onPins f).pins = f s.pins := rfl
@[simp] theorem onPins_step : (s.onPins f).step = s.step := rfl
@[simp] theorem onPins_pic : (s.onPins f).pic = s.pic := rfl
@[simp] theorem onPins_isl : (s.onPins f).isl = s.isl := rfl
@[simp] theorem onPins_link : (s.onPins f).link = s.link := rfl
@[simp] theorem onPins_meas : (s.onPins f).meas = s.meas := rfl
@[simp] theorem onPins_brk : (s.onPins f).brk = s.brk := rfl
@[simp] theorem onPins_eng : (s.onPins f).eng = s.eng := rfl
@[simp] theorem onPins_prot : (s.onPins f).prot = s.prot := rfl
@[simp] theorem onPins_zone : (s.onPins f).zone = s.zone := rfl
@[simp] theorem onPins_fault : (s.onPins f).fault = s.fault := rfl
@[simp] theorem onPins_token : (s.onPins f).token = s.token := rfl
@[simp] theorem onPins_sync : (s.onPins f).sync = s.sync := rfl
@[simp] theorem onPins_disp : (s.onPins f).disp = s.disp := rfl
@[simp] theorem onPins_feeder : (s.onPins f).feeder = s.feeder := rfl
@[simp] theorem onPins_chg : (s.onPins f).chg = s.chg := rfl
@[simp] theorem onPins_tie : (s.onPins f).tie = s.tie := rfl
@[simp] theorem onPins_port : (s.onPins f).port = s.port := rfl
@[simp] theorem onPins_news : (s.onPins f).news = s.news := rfl
@[simp] theorem onPins_station : (s.onPins f).station = s.station := rfl
@[simp] theorem onPins_campus : (s.onPins f).campus = s.campus := rfl
@[simp] theorem onPins_configured : (s.onPins f).configured = s.configured := rfl
@[simp] theorem onPins_own : (s.onPins f).own = s.own := rfl
@[simp] theorem onPins_entry (n : Nat) : (s.onPins f).entry n = s.entry n := rfl
@[simp] theorem onPins_sec (x : BusSection) : (s.onPins f).sec x = s.sec x := rfl
end

/-! ### Changing `step` -/

section
variable (f : StepRecord → StepRecord) (s : State)

@[simp] theorem onStep_pending : (s.onStep f).pending = s.pending := rfl
@[simp] theorem onStep_settings : (s.onStep f).settings = s.settings := rfl
@[simp] theorem onStep_pins : (s.onStep f).pins = s.pins := rfl
@[simp] theorem onStep_step : (s.onStep f).step = f s.step := rfl
@[simp] theorem onStep_pic : (s.onStep f).pic = s.pic := rfl
@[simp] theorem onStep_isl : (s.onStep f).isl = s.isl := rfl
@[simp] theorem onStep_link : (s.onStep f).link = s.link := rfl
@[simp] theorem onStep_meas : (s.onStep f).meas = s.meas := rfl
@[simp] theorem onStep_brk : (s.onStep f).brk = s.brk := rfl
@[simp] theorem onStep_eng : (s.onStep f).eng = s.eng := rfl
@[simp] theorem onStep_prot : (s.onStep f).prot = s.prot := rfl
@[simp] theorem onStep_zone : (s.onStep f).zone = s.zone := rfl
@[simp] theorem onStep_fault : (s.onStep f).fault = s.fault := rfl
@[simp] theorem onStep_token : (s.onStep f).token = s.token := rfl
@[simp] theorem onStep_sync : (s.onStep f).sync = s.sync := rfl
@[simp] theorem onStep_disp : (s.onStep f).disp = s.disp := rfl
@[simp] theorem onStep_feeder : (s.onStep f).feeder = s.feeder := rfl
@[simp] theorem onStep_chg : (s.onStep f).chg = s.chg := rfl
@[simp] theorem onStep_tie : (s.onStep f).tie = s.tie := rfl
@[simp] theorem onStep_port : (s.onStep f).port = s.port := rfl
@[simp] theorem onStep_news : (s.onStep f).news = s.news := rfl
@[simp] theorem onStep_station : (s.onStep f).station = s.station := rfl
@[simp] theorem onStep_campus : (s.onStep f).campus = s.campus := rfl
@[simp] theorem onStep_configured : (s.onStep f).configured = s.configured := rfl
@[simp] theorem onStep_own : (s.onStep f).own = s.own := rfl
@[simp] theorem onStep_entry (n : Nat) : (s.onStep f).entry n = s.entry n := rfl
@[simp] theorem onStep_sec (x : BusSection) : (s.onStep f).sec x = s.sec x := rfl
end

/-! ### Changing `pic` -/

section
variable (f : Picture → Picture) (s : State)

@[simp] theorem onPic_pending : (s.onPic f).pending = s.pending := rfl
@[simp] theorem onPic_settings : (s.onPic f).settings = s.settings := rfl
@[simp] theorem onPic_pins : (s.onPic f).pins = s.pins := rfl
@[simp] theorem onPic_step : (s.onPic f).step = s.step := rfl
@[simp] theorem onPic_pic : (s.onPic f).pic = f s.pic := rfl
@[simp] theorem onPic_isl : (s.onPic f).isl = s.isl := rfl
@[simp] theorem onPic_link : (s.onPic f).link = s.link := rfl
@[simp] theorem onPic_meas : (s.onPic f).meas = s.meas := rfl
@[simp] theorem onPic_brk : (s.onPic f).brk = s.brk := rfl
@[simp] theorem onPic_eng : (s.onPic f).eng = s.eng := rfl
@[simp] theorem onPic_prot : (s.onPic f).prot = s.prot := rfl
@[simp] theorem onPic_zone : (s.onPic f).zone = s.zone := rfl
@[simp] theorem onPic_fault : (s.onPic f).fault = s.fault := rfl
@[simp] theorem onPic_token : (s.onPic f).token = s.token := rfl
@[simp] theorem onPic_sync : (s.onPic f).sync = s.sync := rfl
@[simp] theorem onPic_disp : (s.onPic f).disp = s.disp := rfl
@[simp] theorem onPic_feeder : (s.onPic f).feeder = s.feeder := rfl
@[simp] theorem onPic_chg : (s.onPic f).chg = s.chg := rfl
@[simp] theorem onPic_tie : (s.onPic f).tie = s.tie := rfl
@[simp] theorem onPic_port : (s.onPic f).port = s.port := rfl
@[simp] theorem onPic_news : (s.onPic f).news = s.news := rfl
@[simp] theorem onPic_station : (s.onPic f).station = s.station := rfl
@[simp] theorem onPic_campus : (s.onPic f).campus = s.campus := rfl
@[simp] theorem onPic_configured : (s.onPic f).configured = s.configured := rfl
@[simp] theorem onPic_own : (s.onPic f).own = s.own := rfl
end

/-! ### Changing `isl` -/

section
variable (f : PerSection IslandTables → PerSection IslandTables) (s : State)

@[simp] theorem onIsl_pending : (s.onIsl f).pending = s.pending := rfl
@[simp] theorem onIsl_settings : (s.onIsl f).settings = s.settings := rfl
@[simp] theorem onIsl_pins : (s.onIsl f).pins = s.pins := rfl
@[simp] theorem onIsl_step : (s.onIsl f).step = s.step := rfl
@[simp] theorem onIsl_pic : (s.onIsl f).pic = s.pic := rfl
@[simp] theorem onIsl_isl : (s.onIsl f).isl = f s.isl := rfl
@[simp] theorem onIsl_link : (s.onIsl f).link = s.link := rfl
@[simp] theorem onIsl_meas : (s.onIsl f).meas = s.meas := rfl
@[simp] theorem onIsl_brk : (s.onIsl f).brk = s.brk := rfl
@[simp] theorem onIsl_eng : (s.onIsl f).eng = s.eng := rfl
@[simp] theorem onIsl_prot : (s.onIsl f).prot = s.prot := rfl
@[simp] theorem onIsl_zone : (s.onIsl f).zone = s.zone := rfl
@[simp] theorem onIsl_fault : (s.onIsl f).fault = s.fault := rfl
@[simp] theorem onIsl_token : (s.onIsl f).token = s.token := rfl
@[simp] theorem onIsl_sync : (s.onIsl f).sync = s.sync := rfl
@[simp] theorem onIsl_disp : (s.onIsl f).disp = s.disp := rfl
@[simp] theorem onIsl_feeder : (s.onIsl f).feeder = s.feeder := rfl
@[simp] theorem onIsl_chg : (s.onIsl f).chg = s.chg := rfl
@[simp] theorem onIsl_tie : (s.onIsl f).tie = s.tie := rfl
@[simp] theorem onIsl_port : (s.onIsl f).port = s.port := rfl
@[simp] theorem onIsl_news : (s.onIsl f).news = s.news := rfl
@[simp] theorem onIsl_station : (s.onIsl f).station = s.station := rfl
@[simp] theorem onIsl_campus : (s.onIsl f).campus = s.campus := rfl
@[simp] theorem onIsl_configured : (s.onIsl f).configured = s.configured := rfl
@[simp] theorem onIsl_own : (s.onIsl f).own = s.own := rfl
@[simp] theorem onIsl_entry (n : Nat) : (s.onIsl f).entry n = s.entry n := rfl
@[simp] theorem onIsl_sec (x : BusSection) : (s.onIsl f).sec x = s.sec x := rfl
end

/-! ### Changing `link` -/

section
variable (f : LinkRecord → LinkRecord) (s : State)

@[simp] theorem onLink_pending : (s.onLink f).pending = s.pending := rfl
@[simp] theorem onLink_settings : (s.onLink f).settings = s.settings := rfl
@[simp] theorem onLink_pins : (s.onLink f).pins = s.pins := rfl
@[simp] theorem onLink_step : (s.onLink f).step = s.step := rfl
@[simp] theorem onLink_pic : (s.onLink f).pic = s.pic := rfl
@[simp] theorem onLink_isl : (s.onLink f).isl = s.isl := rfl
@[simp] theorem onLink_link : (s.onLink f).link = f s.link := rfl
@[simp] theorem onLink_meas : (s.onLink f).meas = s.meas := rfl
@[simp] theorem onLink_brk : (s.onLink f).brk = s.brk := rfl
@[simp] theorem onLink_eng : (s.onLink f).eng = s.eng := rfl
@[simp] theorem onLink_prot : (s.onLink f).prot = s.prot := rfl
@[simp] theorem onLink_zone : (s.onLink f).zone = s.zone := rfl
@[simp] theorem onLink_fault : (s.onLink f).fault = s.fault := rfl
@[simp] theorem onLink_token : (s.onLink f).token = s.token := rfl
@[simp] theorem onLink_sync : (s.onLink f).sync = s.sync := rfl
@[simp] theorem onLink_disp : (s.onLink f).disp = s.disp := rfl
@[simp] theorem onLink_feeder : (s.onLink f).feeder = s.feeder := rfl
@[simp] theorem onLink_chg : (s.onLink f).chg = s.chg := rfl
@[simp] theorem onLink_tie : (s.onLink f).tie = s.tie := rfl
@[simp] theorem onLink_port : (s.onLink f).port = s.port := rfl
@[simp] theorem onLink_news : (s.onLink f).news = s.news := rfl
@[simp] theorem onLink_station : (s.onLink f).station = s.station := rfl
@[simp] theorem onLink_campus : (s.onLink f).campus = s.campus := rfl
@[simp] theorem onLink_configured : (s.onLink f).configured = s.configured := rfl
@[simp] theorem onLink_own : (s.onLink f).own = s.own := rfl
@[simp] theorem onLink_entry (n : Nat) : (s.onLink f).entry n = s.entry n := rfl
@[simp] theorem onLink_sec (x : BusSection) : (s.onLink f).sec x = s.sec x := rfl
end

/-! ### Changing `meas` -/

section
variable (f : MeasurementRecord → MeasurementRecord) (s : State)

@[simp] theorem onMeas_pending : (s.onMeas f).pending = s.pending := rfl
@[simp] theorem onMeas_settings : (s.onMeas f).settings = s.settings := rfl
@[simp] theorem onMeas_pins : (s.onMeas f).pins = s.pins := rfl
@[simp] theorem onMeas_step : (s.onMeas f).step = s.step := rfl
@[simp] theorem onMeas_pic : (s.onMeas f).pic = s.pic := rfl
@[simp] theorem onMeas_isl : (s.onMeas f).isl = s.isl := rfl
@[simp] theorem onMeas_link : (s.onMeas f).link = s.link := rfl
@[simp] theorem onMeas_meas : (s.onMeas f).meas = f s.meas := rfl
@[simp] theorem onMeas_brk : (s.onMeas f).brk = s.brk := rfl
@[simp] theorem onMeas_eng : (s.onMeas f).eng = s.eng := rfl
@[simp] theorem onMeas_prot : (s.onMeas f).prot = s.prot := rfl
@[simp] theorem onMeas_zone : (s.onMeas f).zone = s.zone := rfl
@[simp] theorem onMeas_fault : (s.onMeas f).fault = s.fault := rfl
@[simp] theorem onMeas_token : (s.onMeas f).token = s.token := rfl
@[simp] theorem onMeas_sync : (s.onMeas f).sync = s.sync := rfl
@[simp] theorem onMeas_disp : (s.onMeas f).disp = s.disp := rfl
@[simp] theorem onMeas_feeder : (s.onMeas f).feeder = s.feeder := rfl
@[simp] theorem onMeas_chg : (s.onMeas f).chg = s.chg := rfl
@[simp] theorem onMeas_tie : (s.onMeas f).tie = s.tie := rfl
@[simp] theorem onMeas_port : (s.onMeas f).port = s.port := rfl
@[simp] theorem onMeas_news : (s.onMeas f).news = s.news := rfl
@[simp] theorem onMeas_station : (s.onMeas f).station = s.station := rfl
@[simp] theorem onMeas_campus : (s.onMeas f).campus = s.campus := rfl
@[simp] theorem onMeas_configured : (s.onMeas f).configured = s.configured := rfl
@[simp] theorem onMeas_own : (s.onMeas f).own = s.own := rfl
@[simp] theorem onMeas_entry (n : Nat) : (s.onMeas f).entry n = s.entry n := rfl
@[simp] theorem onMeas_sec (x : BusSection) : (s.onMeas f).sec x = s.sec x := rfl
end

/-! ### Changing `brk` -/

section
variable (f : BreakerRecord → BreakerRecord) (s : State)

@[simp] theorem onBrk_pending : (s.onBrk f).pending = s.pending := rfl
@[simp] theorem onBrk_settings : (s.onBrk f).settings = s.settings := rfl
@[simp] theorem onBrk_pins : (s.onBrk f).pins = s.pins := rfl
@[simp] theorem onBrk_step : (s.onBrk f).step = s.step := rfl
@[simp] theorem onBrk_pic : (s.onBrk f).pic = s.pic := rfl
@[simp] theorem onBrk_isl : (s.onBrk f).isl = s.isl := rfl
@[simp] theorem onBrk_link : (s.onBrk f).link = s.link := rfl
@[simp] theorem onBrk_meas : (s.onBrk f).meas = s.meas := rfl
@[simp] theorem onBrk_brk : (s.onBrk f).brk = f s.brk := rfl
@[simp] theorem onBrk_eng : (s.onBrk f).eng = s.eng := rfl
@[simp] theorem onBrk_prot : (s.onBrk f).prot = s.prot := rfl
@[simp] theorem onBrk_zone : (s.onBrk f).zone = s.zone := rfl
@[simp] theorem onBrk_fault : (s.onBrk f).fault = s.fault := rfl
@[simp] theorem onBrk_token : (s.onBrk f).token = s.token := rfl
@[simp] theorem onBrk_sync : (s.onBrk f).sync = s.sync := rfl
@[simp] theorem onBrk_disp : (s.onBrk f).disp = s.disp := rfl
@[simp] theorem onBrk_feeder : (s.onBrk f).feeder = s.feeder := rfl
@[simp] theorem onBrk_chg : (s.onBrk f).chg = s.chg := rfl
@[simp] theorem onBrk_tie : (s.onBrk f).tie = s.tie := rfl
@[simp] theorem onBrk_port : (s.onBrk f).port = s.port := rfl
@[simp] theorem onBrk_news : (s.onBrk f).news = s.news := rfl
@[simp] theorem onBrk_station : (s.onBrk f).station = s.station := rfl
@[simp] theorem onBrk_campus : (s.onBrk f).campus = s.campus := rfl
@[simp] theorem onBrk_configured : (s.onBrk f).configured = s.configured := rfl
@[simp] theorem onBrk_own : (s.onBrk f).own = s.own := rfl
@[simp] theorem onBrk_entry (n : Nat) : (s.onBrk f).entry n = s.entry n := rfl
@[simp] theorem onBrk_sec (x : BusSection) : (s.onBrk f).sec x = s.sec x := rfl
end

/-! ### Changing `eng` -/

section
variable (f : EngineRecord → EngineRecord) (s : State)

@[simp] theorem onEng_pending : (s.onEng f).pending = s.pending := rfl
@[simp] theorem onEng_settings : (s.onEng f).settings = s.settings := rfl
@[simp] theorem onEng_pins : (s.onEng f).pins = s.pins := rfl
@[simp] theorem onEng_step : (s.onEng f).step = s.step := rfl
@[simp] theorem onEng_pic : (s.onEng f).pic = s.pic := rfl
@[simp] theorem onEng_isl : (s.onEng f).isl = s.isl := rfl
@[simp] theorem onEng_link : (s.onEng f).link = s.link := rfl
@[simp] theorem onEng_meas : (s.onEng f).meas = s.meas := rfl
@[simp] theorem onEng_brk : (s.onEng f).brk = s.brk := rfl
@[simp] theorem onEng_eng : (s.onEng f).eng = f s.eng := rfl
@[simp] theorem onEng_prot : (s.onEng f).prot = s.prot := rfl
@[simp] theorem onEng_zone : (s.onEng f).zone = s.zone := rfl
@[simp] theorem onEng_fault : (s.onEng f).fault = s.fault := rfl
@[simp] theorem onEng_token : (s.onEng f).token = s.token := rfl
@[simp] theorem onEng_sync : (s.onEng f).sync = s.sync := rfl
@[simp] theorem onEng_disp : (s.onEng f).disp = s.disp := rfl
@[simp] theorem onEng_feeder : (s.onEng f).feeder = s.feeder := rfl
@[simp] theorem onEng_chg : (s.onEng f).chg = s.chg := rfl
@[simp] theorem onEng_tie : (s.onEng f).tie = s.tie := rfl
@[simp] theorem onEng_port : (s.onEng f).port = s.port := rfl
@[simp] theorem onEng_news : (s.onEng f).news = s.news := rfl
@[simp] theorem onEng_station : (s.onEng f).station = s.station := rfl
@[simp] theorem onEng_campus : (s.onEng f).campus = s.campus := rfl
@[simp] theorem onEng_configured : (s.onEng f).configured = s.configured := rfl
@[simp] theorem onEng_own : (s.onEng f).own = s.own := rfl
@[simp] theorem onEng_entry (n : Nat) : (s.onEng f).entry n = s.entry n := rfl
@[simp] theorem onEng_sec (x : BusSection) : (s.onEng f).sec x = s.sec x := rfl
end

/-! ### Changing `prot` -/

section
variable (f : ProtectionRecord → ProtectionRecord) (s : State)

@[simp] theorem onProt_pending : (s.onProt f).pending = s.pending := rfl
@[simp] theorem onProt_settings : (s.onProt f).settings = s.settings := rfl
@[simp] theorem onProt_pins : (s.onProt f).pins = s.pins := rfl
@[simp] theorem onProt_step : (s.onProt f).step = s.step := rfl
@[simp] theorem onProt_pic : (s.onProt f).pic = s.pic := rfl
@[simp] theorem onProt_isl : (s.onProt f).isl = s.isl := rfl
@[simp] theorem onProt_link : (s.onProt f).link = s.link := rfl
@[simp] theorem onProt_meas : (s.onProt f).meas = s.meas := rfl
@[simp] theorem onProt_brk : (s.onProt f).brk = s.brk := rfl
@[simp] theorem onProt_eng : (s.onProt f).eng = s.eng := rfl
@[simp] theorem onProt_prot : (s.onProt f).prot = f s.prot := rfl
@[simp] theorem onProt_zone : (s.onProt f).zone = s.zone := rfl
@[simp] theorem onProt_fault : (s.onProt f).fault = s.fault := rfl
@[simp] theorem onProt_token : (s.onProt f).token = s.token := rfl
@[simp] theorem onProt_sync : (s.onProt f).sync = s.sync := rfl
@[simp] theorem onProt_disp : (s.onProt f).disp = s.disp := rfl
@[simp] theorem onProt_feeder : (s.onProt f).feeder = s.feeder := rfl
@[simp] theorem onProt_chg : (s.onProt f).chg = s.chg := rfl
@[simp] theorem onProt_tie : (s.onProt f).tie = s.tie := rfl
@[simp] theorem onProt_port : (s.onProt f).port = s.port := rfl
@[simp] theorem onProt_news : (s.onProt f).news = s.news := rfl
@[simp] theorem onProt_station : (s.onProt f).station = s.station := rfl
@[simp] theorem onProt_campus : (s.onProt f).campus = s.campus := rfl
@[simp] theorem onProt_configured : (s.onProt f).configured = s.configured := rfl
@[simp] theorem onProt_own : (s.onProt f).own = s.own := rfl
@[simp] theorem onProt_entry (n : Nat) : (s.onProt f).entry n = s.entry n := rfl
@[simp] theorem onProt_sec (x : BusSection) : (s.onProt f).sec x = s.sec x := rfl
end

/-! ### Changing `zone` -/

section
variable (f : ZoneRecord → ZoneRecord) (s : State)

@[simp] theorem onZone_pending : (s.onZone f).pending = s.pending := rfl
@[simp] theorem onZone_settings : (s.onZone f).settings = s.settings := rfl
@[simp] theorem onZone_pins : (s.onZone f).pins = s.pins := rfl
@[simp] theorem onZone_step : (s.onZone f).step = s.step := rfl
@[simp] theorem onZone_pic : (s.onZone f).pic = s.pic := rfl
@[simp] theorem onZone_isl : (s.onZone f).isl = s.isl := rfl
@[simp] theorem onZone_link : (s.onZone f).link = s.link := rfl
@[simp] theorem onZone_meas : (s.onZone f).meas = s.meas := rfl
@[simp] theorem onZone_brk : (s.onZone f).brk = s.brk := rfl
@[simp] theorem onZone_eng : (s.onZone f).eng = s.eng := rfl
@[simp] theorem onZone_prot : (s.onZone f).prot = s.prot := rfl
@[simp] theorem onZone_zone : (s.onZone f).zone = f s.zone := rfl
@[simp] theorem onZone_fault : (s.onZone f).fault = s.fault := rfl
@[simp] theorem onZone_token : (s.onZone f).token = s.token := rfl
@[simp] theorem onZone_sync : (s.onZone f).sync = s.sync := rfl
@[simp] theorem onZone_disp : (s.onZone f).disp = s.disp := rfl
@[simp] theorem onZone_feeder : (s.onZone f).feeder = s.feeder := rfl
@[simp] theorem onZone_chg : (s.onZone f).chg = s.chg := rfl
@[simp] theorem onZone_tie : (s.onZone f).tie = s.tie := rfl
@[simp] theorem onZone_port : (s.onZone f).port = s.port := rfl
@[simp] theorem onZone_news : (s.onZone f).news = s.news := rfl
@[simp] theorem onZone_station : (s.onZone f).station = s.station := rfl
@[simp] theorem onZone_campus : (s.onZone f).campus = s.campus := rfl
@[simp] theorem onZone_configured : (s.onZone f).configured = s.configured := rfl
@[simp] theorem onZone_own : (s.onZone f).own = s.own := rfl
@[simp] theorem onZone_entry (n : Nat) : (s.onZone f).entry n = s.entry n := rfl
@[simp] theorem onZone_sec (x : BusSection) : (s.onZone f).sec x = s.sec x := rfl
end

/-! ### Changing `fault` -/

section
variable (f : FaultStore → FaultStore) (s : State)

@[simp] theorem onFault_pending : (s.onFault f).pending = s.pending := rfl
@[simp] theorem onFault_settings : (s.onFault f).settings = s.settings := rfl
@[simp] theorem onFault_pins : (s.onFault f).pins = s.pins := rfl
@[simp] theorem onFault_step : (s.onFault f).step = s.step := rfl
@[simp] theorem onFault_pic : (s.onFault f).pic = s.pic := rfl
@[simp] theorem onFault_isl : (s.onFault f).isl = s.isl := rfl
@[simp] theorem onFault_link : (s.onFault f).link = s.link := rfl
@[simp] theorem onFault_meas : (s.onFault f).meas = s.meas := rfl
@[simp] theorem onFault_brk : (s.onFault f).brk = s.brk := rfl
@[simp] theorem onFault_eng : (s.onFault f).eng = s.eng := rfl
@[simp] theorem onFault_prot : (s.onFault f).prot = s.prot := rfl
@[simp] theorem onFault_zone : (s.onFault f).zone = s.zone := rfl
@[simp] theorem onFault_fault : (s.onFault f).fault = f s.fault := rfl
@[simp] theorem onFault_token : (s.onFault f).token = s.token := rfl
@[simp] theorem onFault_sync : (s.onFault f).sync = s.sync := rfl
@[simp] theorem onFault_disp : (s.onFault f).disp = s.disp := rfl
@[simp] theorem onFault_feeder : (s.onFault f).feeder = s.feeder := rfl
@[simp] theorem onFault_chg : (s.onFault f).chg = s.chg := rfl
@[simp] theorem onFault_tie : (s.onFault f).tie = s.tie := rfl
@[simp] theorem onFault_port : (s.onFault f).port = s.port := rfl
@[simp] theorem onFault_news : (s.onFault f).news = s.news := rfl
@[simp] theorem onFault_station : (s.onFault f).station = s.station := rfl
@[simp] theorem onFault_campus : (s.onFault f).campus = s.campus := rfl
@[simp] theorem onFault_configured : (s.onFault f).configured = s.configured := rfl
@[simp] theorem onFault_own : (s.onFault f).own = s.own := rfl
@[simp] theorem onFault_entry (n : Nat) : (s.onFault f).entry n = s.entry n := rfl
@[simp] theorem onFault_sec (x : BusSection) : (s.onFault f).sec x = s.sec x := rfl
end

/-! ### Changing `token` -/

section
variable (f : TokenRecord → TokenRecord) (s : State)

@[simp] theorem onToken_pending : (s.onToken f).pending = s.pending := rfl
@[simp] theorem onToken_settings : (s.onToken f).settings = s.settings := rfl
@[simp] theorem onToken_pins : (s.onToken f).pins = s.pins := rfl
@[simp] theorem onToken_step : (s.onToken f).step = s.step := rfl
@[simp] theorem onToken_pic : (s.onToken f).pic = s.pic := rfl
@[simp] theorem onToken_isl : (s.onToken f).isl = s.isl := rfl
@[simp] theorem onToken_link : (s.onToken f).link = s.link := rfl
@[simp] theorem onToken_meas : (s.onToken f).meas = s.meas := rfl
@[simp] theorem onToken_brk : (s.onToken f).brk = s.brk := rfl
@[simp] theorem onToken_eng : (s.onToken f).eng = s.eng := rfl
@[simp] theorem onToken_prot : (s.onToken f).prot = s.prot := rfl
@[simp] theorem onToken_zone : (s.onToken f).zone = s.zone := rfl
@[simp] theorem onToken_fault : (s.onToken f).fault = s.fault := rfl
@[simp] theorem onToken_token : (s.onToken f).token = f s.token := rfl
@[simp] theorem onToken_sync : (s.onToken f).sync = s.sync := rfl
@[simp] theorem onToken_disp : (s.onToken f).disp = s.disp := rfl
@[simp] theorem onToken_feeder : (s.onToken f).feeder = s.feeder := rfl
@[simp] theorem onToken_chg : (s.onToken f).chg = s.chg := rfl
@[simp] theorem onToken_tie : (s.onToken f).tie = s.tie := rfl
@[simp] theorem onToken_port : (s.onToken f).port = s.port := rfl
@[simp] theorem onToken_news : (s.onToken f).news = s.news := rfl
@[simp] theorem onToken_station : (s.onToken f).station = s.station := rfl
@[simp] theorem onToken_campus : (s.onToken f).campus = s.campus := rfl
@[simp] theorem onToken_configured : (s.onToken f).configured = s.configured := rfl
@[simp] theorem onToken_own : (s.onToken f).own = s.own := rfl
@[simp] theorem onToken_entry (n : Nat) : (s.onToken f).entry n = s.entry n := rfl
@[simp] theorem onToken_sec (x : BusSection) : (s.onToken f).sec x = s.sec x := rfl
end

/-! ### Changing `sync` -/

section
variable (f : SyncRecord → SyncRecord) (s : State)

@[simp] theorem onSync_pending : (s.onSync f).pending = s.pending := rfl
@[simp] theorem onSync_settings : (s.onSync f).settings = s.settings := rfl
@[simp] theorem onSync_pins : (s.onSync f).pins = s.pins := rfl
@[simp] theorem onSync_step : (s.onSync f).step = s.step := rfl
@[simp] theorem onSync_pic : (s.onSync f).pic = s.pic := rfl
@[simp] theorem onSync_isl : (s.onSync f).isl = s.isl := rfl
@[simp] theorem onSync_link : (s.onSync f).link = s.link := rfl
@[simp] theorem onSync_meas : (s.onSync f).meas = s.meas := rfl
@[simp] theorem onSync_brk : (s.onSync f).brk = s.brk := rfl
@[simp] theorem onSync_eng : (s.onSync f).eng = s.eng := rfl
@[simp] theorem onSync_prot : (s.onSync f).prot = s.prot := rfl
@[simp] theorem onSync_zone : (s.onSync f).zone = s.zone := rfl
@[simp] theorem onSync_fault : (s.onSync f).fault = s.fault := rfl
@[simp] theorem onSync_token : (s.onSync f).token = s.token := rfl
@[simp] theorem onSync_sync : (s.onSync f).sync = f s.sync := rfl
@[simp] theorem onSync_disp : (s.onSync f).disp = s.disp := rfl
@[simp] theorem onSync_feeder : (s.onSync f).feeder = s.feeder := rfl
@[simp] theorem onSync_chg : (s.onSync f).chg = s.chg := rfl
@[simp] theorem onSync_tie : (s.onSync f).tie = s.tie := rfl
@[simp] theorem onSync_port : (s.onSync f).port = s.port := rfl
@[simp] theorem onSync_news : (s.onSync f).news = s.news := rfl
@[simp] theorem onSync_station : (s.onSync f).station = s.station := rfl
@[simp] theorem onSync_campus : (s.onSync f).campus = s.campus := rfl
@[simp] theorem onSync_configured : (s.onSync f).configured = s.configured := rfl
@[simp] theorem onSync_own : (s.onSync f).own = s.own := rfl
@[simp] theorem onSync_entry (n : Nat) : (s.onSync f).entry n = s.entry n := rfl
@[simp] theorem onSync_sec (x : BusSection) : (s.onSync f).sec x = s.sec x := rfl
end

/-! ### Changing `disp` -/

section
variable (f : DispatchRecord → DispatchRecord) (s : State)

@[simp] theorem onDisp_pending : (s.onDisp f).pending = s.pending := rfl
@[simp] theorem onDisp_settings : (s.onDisp f).settings = s.settings := rfl
@[simp] theorem onDisp_pins : (s.onDisp f).pins = s.pins := rfl
@[simp] theorem onDisp_step : (s.onDisp f).step = s.step := rfl
@[simp] theorem onDisp_pic : (s.onDisp f).pic = s.pic := rfl
@[simp] theorem onDisp_isl : (s.onDisp f).isl = s.isl := rfl
@[simp] theorem onDisp_link : (s.onDisp f).link = s.link := rfl
@[simp] theorem onDisp_meas : (s.onDisp f).meas = s.meas := rfl
@[simp] theorem onDisp_brk : (s.onDisp f).brk = s.brk := rfl
@[simp] theorem onDisp_eng : (s.onDisp f).eng = s.eng := rfl
@[simp] theorem onDisp_prot : (s.onDisp f).prot = s.prot := rfl
@[simp] theorem onDisp_zone : (s.onDisp f).zone = s.zone := rfl
@[simp] theorem onDisp_fault : (s.onDisp f).fault = s.fault := rfl
@[simp] theorem onDisp_token : (s.onDisp f).token = s.token := rfl
@[simp] theorem onDisp_sync : (s.onDisp f).sync = s.sync := rfl
@[simp] theorem onDisp_disp : (s.onDisp f).disp = f s.disp := rfl
@[simp] theorem onDisp_feeder : (s.onDisp f).feeder = s.feeder := rfl
@[simp] theorem onDisp_chg : (s.onDisp f).chg = s.chg := rfl
@[simp] theorem onDisp_tie : (s.onDisp f).tie = s.tie := rfl
@[simp] theorem onDisp_port : (s.onDisp f).port = s.port := rfl
@[simp] theorem onDisp_news : (s.onDisp f).news = s.news := rfl
@[simp] theorem onDisp_station : (s.onDisp f).station = s.station := rfl
@[simp] theorem onDisp_campus : (s.onDisp f).campus = s.campus := rfl
@[simp] theorem onDisp_configured : (s.onDisp f).configured = s.configured := rfl
@[simp] theorem onDisp_own : (s.onDisp f).own = s.own := rfl
@[simp] theorem onDisp_entry (n : Nat) : (s.onDisp f).entry n = s.entry n := rfl
@[simp] theorem onDisp_sec (x : BusSection) : (s.onDisp f).sec x = s.sec x := rfl
end

/-! ### Changing `feeder` -/

section
variable (f : FeederRecord → FeederRecord) (s : State)

@[simp] theorem onFeeder_pending : (s.onFeeder f).pending = s.pending := rfl
@[simp] theorem onFeeder_settings : (s.onFeeder f).settings = s.settings := rfl
@[simp] theorem onFeeder_pins : (s.onFeeder f).pins = s.pins := rfl
@[simp] theorem onFeeder_step : (s.onFeeder f).step = s.step := rfl
@[simp] theorem onFeeder_pic : (s.onFeeder f).pic = s.pic := rfl
@[simp] theorem onFeeder_isl : (s.onFeeder f).isl = s.isl := rfl
@[simp] theorem onFeeder_link : (s.onFeeder f).link = s.link := rfl
@[simp] theorem onFeeder_meas : (s.onFeeder f).meas = s.meas := rfl
@[simp] theorem onFeeder_brk : (s.onFeeder f).brk = s.brk := rfl
@[simp] theorem onFeeder_eng : (s.onFeeder f).eng = s.eng := rfl
@[simp] theorem onFeeder_prot : (s.onFeeder f).prot = s.prot := rfl
@[simp] theorem onFeeder_zone : (s.onFeeder f).zone = s.zone := rfl
@[simp] theorem onFeeder_fault : (s.onFeeder f).fault = s.fault := rfl
@[simp] theorem onFeeder_token : (s.onFeeder f).token = s.token := rfl
@[simp] theorem onFeeder_sync : (s.onFeeder f).sync = s.sync := rfl
@[simp] theorem onFeeder_disp : (s.onFeeder f).disp = s.disp := rfl
@[simp] theorem onFeeder_feeder : (s.onFeeder f).feeder = f s.feeder := rfl
@[simp] theorem onFeeder_chg : (s.onFeeder f).chg = s.chg := rfl
@[simp] theorem onFeeder_tie : (s.onFeeder f).tie = s.tie := rfl
@[simp] theorem onFeeder_port : (s.onFeeder f).port = s.port := rfl
@[simp] theorem onFeeder_news : (s.onFeeder f).news = s.news := rfl
@[simp] theorem onFeeder_station : (s.onFeeder f).station = s.station := rfl
@[simp] theorem onFeeder_campus : (s.onFeeder f).campus = s.campus := rfl
@[simp] theorem onFeeder_configured : (s.onFeeder f).configured = s.configured := rfl
@[simp] theorem onFeeder_own : (s.onFeeder f).own = s.own := rfl
@[simp] theorem onFeeder_entry (n : Nat) : (s.onFeeder f).entry n = s.entry n := rfl
@[simp] theorem onFeeder_sec (x : BusSection) : (s.onFeeder f).sec x = s.sec x := rfl
end

/-! ### Changing `chg` -/

section
variable (f : ChangeoverRecord → ChangeoverRecord) (s : State)

@[simp] theorem onChg_pending : (s.onChg f).pending = s.pending := rfl
@[simp] theorem onChg_settings : (s.onChg f).settings = s.settings := rfl
@[simp] theorem onChg_pins : (s.onChg f).pins = s.pins := rfl
@[simp] theorem onChg_step : (s.onChg f).step = s.step := rfl
@[simp] theorem onChg_pic : (s.onChg f).pic = s.pic := rfl
@[simp] theorem onChg_isl : (s.onChg f).isl = s.isl := rfl
@[simp] theorem onChg_link : (s.onChg f).link = s.link := rfl
@[simp] theorem onChg_meas : (s.onChg f).meas = s.meas := rfl
@[simp] theorem onChg_brk : (s.onChg f).brk = s.brk := rfl
@[simp] theorem onChg_eng : (s.onChg f).eng = s.eng := rfl
@[simp] theorem onChg_prot : (s.onChg f).prot = s.prot := rfl
@[simp] theorem onChg_zone : (s.onChg f).zone = s.zone := rfl
@[simp] theorem onChg_fault : (s.onChg f).fault = s.fault := rfl
@[simp] theorem onChg_token : (s.onChg f).token = s.token := rfl
@[simp] theorem onChg_sync : (s.onChg f).sync = s.sync := rfl
@[simp] theorem onChg_disp : (s.onChg f).disp = s.disp := rfl
@[simp] theorem onChg_feeder : (s.onChg f).feeder = s.feeder := rfl
@[simp] theorem onChg_chg : (s.onChg f).chg = f s.chg := rfl
@[simp] theorem onChg_tie : (s.onChg f).tie = s.tie := rfl
@[simp] theorem onChg_port : (s.onChg f).port = s.port := rfl
@[simp] theorem onChg_news : (s.onChg f).news = s.news := rfl
@[simp] theorem onChg_station : (s.onChg f).station = s.station := rfl
@[simp] theorem onChg_campus : (s.onChg f).campus = s.campus := rfl
@[simp] theorem onChg_configured : (s.onChg f).configured = s.configured := rfl
@[simp] theorem onChg_own : (s.onChg f).own = s.own := rfl
@[simp] theorem onChg_entry (n : Nat) : (s.onChg f).entry n = s.entry n := rfl
@[simp] theorem onChg_sec (x : BusSection) : (s.onChg f).sec x = s.sec x := rfl
end

/-! ### Changing `tie` -/

section
variable (f : TieRecord → TieRecord) (s : State)

@[simp] theorem onTie_pending : (s.onTie f).pending = s.pending := rfl
@[simp] theorem onTie_settings : (s.onTie f).settings = s.settings := rfl
@[simp] theorem onTie_pins : (s.onTie f).pins = s.pins := rfl
@[simp] theorem onTie_step : (s.onTie f).step = s.step := rfl
@[simp] theorem onTie_pic : (s.onTie f).pic = s.pic := rfl
@[simp] theorem onTie_isl : (s.onTie f).isl = s.isl := rfl
@[simp] theorem onTie_link : (s.onTie f).link = s.link := rfl
@[simp] theorem onTie_meas : (s.onTie f).meas = s.meas := rfl
@[simp] theorem onTie_brk : (s.onTie f).brk = s.brk := rfl
@[simp] theorem onTie_eng : (s.onTie f).eng = s.eng := rfl
@[simp] theorem onTie_prot : (s.onTie f).prot = s.prot := rfl
@[simp] theorem onTie_zone : (s.onTie f).zone = s.zone := rfl
@[simp] theorem onTie_fault : (s.onTie f).fault = s.fault := rfl
@[simp] theorem onTie_token : (s.onTie f).token = s.token := rfl
@[simp] theorem onTie_sync : (s.onTie f).sync = s.sync := rfl
@[simp] theorem onTie_disp : (s.onTie f).disp = s.disp := rfl
@[simp] theorem onTie_feeder : (s.onTie f).feeder = s.feeder := rfl
@[simp] theorem onTie_chg : (s.onTie f).chg = s.chg := rfl
@[simp] theorem onTie_tie : (s.onTie f).tie = f s.tie := rfl
@[simp] theorem onTie_port : (s.onTie f).port = s.port := rfl
@[simp] theorem onTie_news : (s.onTie f).news = s.news := rfl
@[simp] theorem onTie_station : (s.onTie f).station = s.station := rfl
@[simp] theorem onTie_campus : (s.onTie f).campus = s.campus := rfl
@[simp] theorem onTie_configured : (s.onTie f).configured = s.configured := rfl
@[simp] theorem onTie_own : (s.onTie f).own = s.own := rfl
@[simp] theorem onTie_entry (n : Nat) : (s.onTie f).entry n = s.entry n := rfl
@[simp] theorem onTie_sec (x : BusSection) : (s.onTie f).sec x = s.sec x := rfl
end

/-! ### Changing `port` -/

section
variable (f : PortRecord → PortRecord) (s : State)

@[simp] theorem onPort_pending : (s.onPort f).pending = s.pending := rfl
@[simp] theorem onPort_settings : (s.onPort f).settings = s.settings := rfl
@[simp] theorem onPort_pins : (s.onPort f).pins = s.pins := rfl
@[simp] theorem onPort_step : (s.onPort f).step = s.step := rfl
@[simp] theorem onPort_pic : (s.onPort f).pic = s.pic := rfl
@[simp] theorem onPort_isl : (s.onPort f).isl = s.isl := rfl
@[simp] theorem onPort_link : (s.onPort f).link = s.link := rfl
@[simp] theorem onPort_meas : (s.onPort f).meas = s.meas := rfl
@[simp] theorem onPort_brk : (s.onPort f).brk = s.brk := rfl
@[simp] theorem onPort_eng : (s.onPort f).eng = s.eng := rfl
@[simp] theorem onPort_prot : (s.onPort f).prot = s.prot := rfl
@[simp] theorem onPort_zone : (s.onPort f).zone = s.zone := rfl
@[simp] theorem onPort_fault : (s.onPort f).fault = s.fault := rfl
@[simp] theorem onPort_token : (s.onPort f).token = s.token := rfl
@[simp] theorem onPort_sync : (s.onPort f).sync = s.sync := rfl
@[simp] theorem onPort_disp : (s.onPort f).disp = s.disp := rfl
@[simp] theorem onPort_feeder : (s.onPort f).feeder = s.feeder := rfl
@[simp] theorem onPort_chg : (s.onPort f).chg = s.chg := rfl
@[simp] theorem onPort_tie : (s.onPort f).tie = s.tie := rfl
@[simp] theorem onPort_port : (s.onPort f).port = f s.port := rfl
@[simp] theorem onPort_news : (s.onPort f).news = s.news := rfl
@[simp] theorem onPort_station : (s.onPort f).station = s.station := rfl
@[simp] theorem onPort_campus : (s.onPort f).campus = s.campus := rfl
@[simp] theorem onPort_configured : (s.onPort f).configured = s.configured := rfl
@[simp] theorem onPort_own : (s.onPort f).own = s.own := rfl
@[simp] theorem onPort_entry (n : Nat) : (s.onPort f).entry n = s.entry n := rfl
@[simp] theorem onPort_sec (x : BusSection) : (s.onPort f).sec x = s.sec x := rfl
end

/-! ### Handing on -/

section
variable (n : News) (s : State)

@[simp] theorem tell_pending : (s.tell n).pending = s.pending := rfl
@[simp] theorem tell_settings : (s.tell n).settings = s.settings := rfl
@[simp] theorem tell_pins : (s.tell n).pins = s.pins := rfl
@[simp] theorem tell_step : (s.tell n).step = s.step := rfl
@[simp] theorem tell_pic : (s.tell n).pic = s.pic := rfl
@[simp] theorem tell_isl : (s.tell n).isl = s.isl := rfl
@[simp] theorem tell_link : (s.tell n).link = s.link := rfl
@[simp] theorem tell_meas : (s.tell n).meas = s.meas := rfl
@[simp] theorem tell_brk : (s.tell n).brk = s.brk := rfl
@[simp] theorem tell_eng : (s.tell n).eng = s.eng := rfl
@[simp] theorem tell_prot : (s.tell n).prot = s.prot := rfl
@[simp] theorem tell_zone : (s.tell n).zone = s.zone := rfl
@[simp] theorem tell_fault : (s.tell n).fault = s.fault := rfl
@[simp] theorem tell_token : (s.tell n).token = s.token := rfl
@[simp] theorem tell_sync : (s.tell n).sync = s.sync := rfl
@[simp] theorem tell_disp : (s.tell n).disp = s.disp := rfl
@[simp] theorem tell_feeder : (s.tell n).feeder = s.feeder := rfl
@[simp] theorem tell_chg : (s.tell n).chg = s.chg := rfl
@[simp] theorem tell_tie : (s.tell n).tie = s.tie := rfl
@[simp] theorem tell_port : (s.tell n).port = s.port := rfl
@[simp] theorem tell_news : (s.tell n).news = s.news ++ [n] := rfl
@[simp] theorem tell_station : (s.tell n).station = s.station := rfl
@[simp] theorem tell_campus : (s.tell n).campus = s.campus := rfl
@[simp] theorem tell_configured : (s.tell n).configured = s.configured := rfl
@[simp] theorem tell_own : (s.tell n).own = s.own := rfl
@[simp] theorem tell_entry (k : Nat) : (s.tell n).entry k = s.entry k := rfl
@[simp] theorem tell_sec (x : BusSection) : (s.tell n).sec x = s.sec x := rfl
end

end Sys2Proof.Machine
end

