-- ==== Sys2Proof/Laws/Tables.lean ====
section
/-!
SUPPORT. The tables of one value a section and one value a fault kind: reading what was written.
-/

namespace Sys2Proof

section
variable {α : Type}

@[simp] theorem PerSection.get_set_self (t : PerSection α) (x : BusSection) (v : α) : (t.set x v).get x = v := by
  cases x <;> rfl

@[simp] theorem PerSection.get_set_of_ne (t : PerSection α) {x y : BusSection} (v : α) (h : ¬ y = x) :
    (t.set x v).get y = t.get y := by
  cases x <;> cases y <;> first | rfl | exact absurd rfl h

@[simp] theorem PerSection.get_make (f : BusSection → α) (x : BusSection) : (PerSection.make f).get x = f x := by
  cases x <;> rfl

@[simp] theorem PerSection.get_fill (v : α) (x : BusSection) : (PerSection.fill v).get x = v := by
  cases x <;> rfl

@[simp] theorem SectionSet.get_empty (x : BusSection) : PerSection.get SectionSet.empty x = false := by
  cases x <;> rfl

@[simp] theorem SectionSet.get_union (t u : SectionSet) (x : BusSection) :
    PerSection.get (SectionSet.union t u) x = (t.get x || u.get x) := by
  cases x <;> rfl

@[simp] theorem SectionSet.mem_members (t : SectionSet) (x : BusSection) :
    x ∈ SectionSet.members t ↔ t.get x = true := by
  cases x <;> simp [SectionSet.members, BusSection.all]

theorem BusSection.mem_all (x : BusSection) : x ∈ BusSection.all := by
  cases x <;> simp [BusSection.all]

/-- Tables with the same values are the same. -/
theorem PerSection.eq_of_get {t u : PerSection α} (h : ∀ x, t.get x = u.get x) : t = u := by
  have a := h .A
  have b := h .B
  have c := h .C
  have d := h .D
  cases t; cases u
  simp only [PerSection.get] at a b c d
  simp [a, b, c, d]

@[simp] theorem PerKind.get_set_self (t : PerKind α) (k : FaultKind) (v : α) : (t.set k v).get k = v := by
  cases k <;> rfl

@[simp] theorem PerKind.get_make (f : FaultKind → α) (k : FaultKind) : (PerKind.make f).get k = f k := by
  cases k <;> rfl

@[simp] theorem PerKind.get_fill (v : α) (k : FaultKind) : (PerKind.fill v).get k = v := by
  cases k <;> rfl

theorem FaultKind.mem_all (k : FaultKind) : k ∈ FaultKind.all := by
  cases k <;> simp [FaultKind.all]

/-- A fault kind is the one its number gives. -/
theorem FaultKind.number_injective {j k : FaultKind} (h : j.number = k.number) : j = k := by
  cases j <;> cases k <;> first | rfl | (simp [FaultKind.number] at h)

@[simp] theorem PerKind.get_set_of_ne (t : PerKind α) {k j : FaultKind} (v : α) (h : ¬ j = k) :
    (t.set k v).get j = t.get j := by
  cases k <;> cases j <;> first | rfl | exact absurd rfl h

@[simp] theorem updateAt_length (f : α → α) (n : Nat) (l : List α) : (updateAt f n l).length = l.length := by
  induction l generalizing n with
  | nil => cases n <;> rfl
  | cons x xs ih => cases n <;> simp [updateAt, ih]

/-- A change of one element keeps what the change keeps of it. -/
theorem updateAt_map {β : Type} (f : α → α) (g : α → β) (h : ∀ x, g (f x) = g x) (n : Nat) (l : List α) :
    (updateAt f n l).map g = l.map g := by
  induction l generalizing n with
  | nil => cases n <;> rfl
  | cons x xs ih => cases n <;> simp [updateAt, ih, h]

/-- Reading an element after one was changed. -/
theorem updateAt_getD (f : α → α) (d : α) (n m : Nat) (l : List α) :
    (updateAt f n l).getD m d = if m = n ∧ m < l.length then f (l.getD m d) else l.getD m d := by
  induction l generalizing n m with
  | nil => cases n <;> simp [updateAt]
  | cons x xs ih =>
    cases n <;> cases m <;> simp [updateAt]
    simpa using ih _ _

end

/-- A saturated count is at least one and at most its ceiling. -/
theorem satSucc_pos (top n : Nat) (h : 1 ≤ top) : 1 ≤ satSucc top n := by
  unfold satSucc; split <;> omega

theorem satSucc_le (top n : Nat) : satSucc top n ≤ top := by
  unfold satSucc; split <;> omega

end Sys2Proof
end

