-- ==== Sys2Proof/Laws/Within.lean ====
section
/-!
SUPPORT. `Within sc s t`: what an operation from `s` to `t` may change lies within the scope `sc`, and the operation
keeps `Good`. One lemma `Within.op` for each operation says once everything it can change; they are stated from an earlier
state, so that chains of operations are simplified to the state they began in.
-/

namespace Sys2Proof.Machine

/-- What lies outside the scope of an operation stays as it is, and the form of the state is kept. -/
structure Within (sc : Scope) (s t : State) : Prop where
  pending : t.pending = s.pending
  settings : t.settings = s.settings
  pins : t.pins = s.pins
  meas : t.meas = s.meas
  nextSeq : t.link.nextSeq = s.link.nextSeq
  startSilence : t.link.startSilence = s.link.startSilence
  roundTimer : t.link.roundTimer = s.link.roundTimer
  roundCount : t.link.roundCount = s.link.roundCount
  transmitted : t.link.transmitted = s.link.transmitted
  receiveDiscard : t.link.receiveDiscard = s.link.receiveDiscard
  lastComposed : t.link.lastComposed = s.link.lastComposed
  mediumIdle : t.link.mediumIdle = s.link.mediumIdle
  sent : t.link.sent = s.link.sent
  guard : t.step.guard = s.step.guard
  step : sc.step = false → t.step = s.step
  fixed : t.pic.table.map (·.fixed) = s.pic.table.map (·.fixed)
  table : sc.table = false → t.pic.table.map (·.unlapsed) = s.pic.table.map (·.unlapsed)
  lapse : sc.table = false → sc.lapse = false → t.pic.table = s.pic.table
  delivery : sc.delivery = false → t.pic.delivery = s.pic.delivery
  quorumCount : sc.derived = false → t.pic.quorumCount = s.pic.quorumCount
  quorum : sc.derived = false → t.pic.quorum = s.pic.quorum
  derived : sc.derived = false → ∀ x, (t.sec x).derivedPart = (s.sec x).derivedPart
  configuredSec : ∀ x, (t.sec x).configured = (s.sec x).configured
  secs : sc.secs = false → ∀ x, (t.sec x).tokenPart = (s.sec x).tokenPart
  isl : sc.isl = false → t.isl = s.isl
  speedBias : sc.bias = false → t.eng.speedBias = s.eng.speedBias
  voltageBias : sc.bias = false → t.eng.voltageBias = s.eng.voltageBias
  blockList : sc.lists = false → t.zone.blockList = s.zone.blockList
  intertrips : sc.lists = false → t.zone.intertrips = s.zone.intertrips
  failure : sc.failure = false → t.zone.breakerFailure = s.zone.breakerFailure
  barLatch : sc.bar = false → t.fault.barLatch = s.fault.barLatch
  response : t.port.response = s.port.response
  operation : sc.operation = false → t.port.operation = s.port.operation
  /-- An operation that is not in progress keeps its outcome. -/
  settled : ¬ s.port.state = .inProgress →
    t.port.state = s.port.state ∧ t.port.reason = s.port.reason ∧ t.port.limit = s.port.limit
  /-- A raised attention line stays raised. -/
  attention : s.port.attention = true → t.port.attention = true
  /-- A STATUS request stays, or a newer one takes its place (R30). -/
  request : s.link.statusRequest.isSome = true → t.link.statusRequest.isSome = true
  /-- No kind ceases to be pending. -/
  stays : ∀ k, s.fault.pending.get k = true → t.fault.pending.get k = true
  /-- A capture stays (R107). -/
  capture : ∀ c, s.fault.capture = some c → t.fault.capture = some c
  /-- Lockout stays. -/
  lockout : s.fault.lockout = true → t.fault.lockout = true
  /-- No section leaves the bus-fault set. -/
  busFault : ∀ x, s.fault.busFault.get x = true → t.fault.busFault.get x = true
  good : Good s → Good t
  only : LockoutOnly s → LockoutOnly t

namespace Within

variable {sc : Scope} {s0 s t u : State}

theorem refl (sc : Scope) (s : State) : Within sc s s := by
  constructor <;> intros <;> first | rfl | assumption | exact ⟨rfl, rfl, rfl⟩

theorem trans (h : Within sc s t) (k : Within sc t u) : Within sc s u where
  pending := k.pending.trans h.pending
  settings := k.settings.trans h.settings
  pins := k.pins.trans h.pins
  meas := k.meas.trans h.meas
  nextSeq := k.nextSeq.trans h.nextSeq
  startSilence := k.startSilence.trans h.startSilence
  roundTimer := k.roundTimer.trans h.roundTimer
  roundCount := k.roundCount.trans h.roundCount
  transmitted := k.transmitted.trans h.transmitted
  receiveDiscard := k.receiveDiscard.trans h.receiveDiscard
  lastComposed := k.lastComposed.trans h.lastComposed
  mediumIdle := k.mediumIdle.trans h.mediumIdle
  sent := k.sent.trans h.sent
  guard := k.guard.trans h.guard
  step p := (k.step p).trans (h.step p)
  fixed := k.fixed.trans h.fixed
  table p := (k.table p).trans (h.table p)
  lapse p q := (k.lapse p q).trans (h.lapse p q)
  delivery p := (k.delivery p).trans (h.delivery p)
  quorumCount p := (k.quorumCount p).trans (h.quorumCount p)
  quorum p := (k.quorum p).trans (h.quorum p)
  derived p x := (k.derived p x).trans (h.derived p x)
  configuredSec x := (k.configuredSec x).trans (h.configuredSec x)
  secs p x := (k.secs p x).trans (h.secs p x)
  isl p := (k.isl p).trans (h.isl p)
  speedBias p := (k.speedBias p).trans (h.speedBias p)
  voltageBias p := (k.voltageBias p).trans (h.voltageBias p)
  blockList p := (k.blockList p).trans (h.blockList p)
  intertrips p := (k.intertrips p).trans (h.intertrips p)
  failure p := (k.failure p).trans (h.failure p)
  barLatch p := (k.barLatch p).trans (h.barLatch p)
  response := k.response.trans h.response
  operation p := (k.operation p).trans (h.operation p)
  settled p := by
    have a := h.settled p
    have b := k.settled (by rw [a.1]; exact p)
    exact ⟨b.1.trans a.1, b.2.1.trans a.2.1, b.2.2.trans a.2.2⟩
  attention p := k.attention (h.attention p)
  request p := k.request (h.request p)
  stays c p := k.stays c (h.stays c p)
  capture c p := k.capture c (h.capture c p)
  lockout p := k.lockout (h.lockout p)
  busFault x p := k.busFault x (h.busFault x p)
  good g := k.good (h.good g)
  only g := k.only (h.only g)

/-- What is outside the scope, as a frame. -/
theorem frame (h : Within sc s t) : Frame sc s t :=
  ⟨h.pending, h.settings, h.pins, h.meas, h.nextSeq, h.startSilence, h.roundTimer, h.roundCount, h.transmitted, h.receiveDiscard, h.lastComposed, h.mediumIdle, h.sent,
    h.guard, h.step, h.fixed, h.table, h.lapse, h.delivery, h.quorumCount, h.quorum, h.derived,
    h.configuredSec, h.secs, h.isl, h.speedBias, h.voltageBias, h.blockList, h.intertrips, h.failure, h.barLatch, h.response,
    h.operation, h.settled, h.attention, h.request, h.stays, h.capture, h.lockout, h.busFault⟩

/-! ### Chains -/

@[simp] theorem ite {c : Prop} [Decidable c] {a b : State} :
    Within sc s0 (if c then a else b) ↔ (c → Within sc s0 a) ∧ (¬ c → Within sc s0 b) := by
  by_cases h : c <;> simp [h]

theorem foldl {α : Type} (f : State → α → State) (hf : ∀ s a, Within sc s0 s → Within sc s0 (f s a)) (l : List α) :
    ∀ s, Within sc s0 s → Within sc s0 (l.foldl f s) := by
  induction l with
  | nil => intro s h; exact h
  | cons a l ih => intro s h; exact ih _ (hf s a h)

/-! ### Changes of one block -/

@[simp] theorem onToken (h : Within sc s0 s) (f : TokenRecord → TokenRecord) : Within sc s0 (s.onToken f) :=
  h.trans (by
    constructor <;> intros <;> first
      | rfl | assumption | exact ⟨rfl, rfl, rfl⟩
      | (rename_i g; exact ⟨g.brk, g.store, g.link, g.lockout, g.table, g.port⟩))

@[simp] theorem onSync (h : Within sc s0 s) (f : SyncRecord → SyncRecord) : Within sc s0 (s.onSync f) :=
  h.trans (by
    constructor <;> intros <;> first
      | rfl | assumption | exact ⟨rfl, rfl, rfl⟩
      | (rename_i g; exact ⟨g.brk, g.store, g.link, g.lockout, g.table, g.port⟩))

@[simp] theorem onDisp (h : Within sc s0 s) (f : DispatchRecord → DispatchRecord) : Within sc s0 (s.onDisp f) :=
  h.trans (by
    constructor <;> intros <;> first
      | rfl | assumption | exact ⟨rfl, rfl, rfl⟩
      | (rename_i g; exact ⟨g.brk, g.store, g.link, g.lockout, g.table, g.port⟩))

@[simp] theorem onFeeder (h : Within sc s0 s) (f : FeederRecord → FeederRecord) : Within sc s0 (s.onFeeder f) :=
  h.trans (by
    constructor <;> intros <;> first
      | rfl | assumption | exact ⟨rfl, rfl, rfl⟩
      | (rename_i g; exact ⟨g.brk, g.store, g.link, g.lockout, g.table, g.port⟩))

@[simp] theorem onChg (h : Within sc s0 s) (f : ChangeoverRecord → ChangeoverRecord) : Within sc s0 (s.onChg f) :=
  h.trans (by
    constructor <;> intros <;> first
      | rfl | assumption | exact ⟨rfl, rfl, rfl⟩
      | (rename_i g; exact ⟨g.brk, g.store, g.link, g.lockout, g.table, g.port⟩))

@[simp] theorem onTie (h : Within sc s0 s) (f : TieRecord → TieRecord) : Within sc s0 (s.onTie f) :=
  h.trans (by
    constructor <;> intros <;> first
      | rfl | assumption | exact ⟨rfl, rfl, rfl⟩
      | (rename_i g; exact ⟨g.brk, g.store, g.link, g.lockout, g.table, g.port⟩))

@[simp] theorem onProt (h : Within sc s0 s) (f : ProtectionRecord → ProtectionRecord) : Within sc s0 (s.onProt f) :=
  h.trans (by
    constructor <;> intros <;> first
      | rfl | assumption | exact ⟨rfl, rfl, rfl⟩
      | (rename_i g; exact ⟨g.brk, g.store, g.link, g.lockout, g.table, g.port⟩))

@[simp] theorem tell (h : Within sc s0 s) (n : News) : Within sc s0 (s.tell n) :=
  h.trans (by
    constructor <;> intros <;> first
      | rfl | assumption | exact ⟨rfl, rfl, rfl⟩
      | (rename_i g; exact ⟨g.brk, g.store, g.link, g.lockout, g.table, g.port⟩))

@[simp] theorem news (h : Within sc s0 s) (l : List News) : Within sc s0 { s with news := l } :=
  h.trans (by
    constructor <;> intros <;> first
      | rfl | assumption | exact ⟨rfl, rfl, rfl⟩
      | (rename_i g; exact ⟨g.brk, g.store, g.link, g.lockout, g.table, g.port⟩))

theorem onBrk (h : Within sc s0 s) (f : BreakerRecord → BreakerRecord) (ok : Good s → (f s.brk).Ok) :
    Within sc s0 (s.onBrk f) :=
  h.trans (by
    constructor <;> intros <;> first
      | rfl | assumption | exact ⟨rfl, rfl, rfl⟩
      | (rename_i g; exact ⟨ok g, g.store, g.link, g.lockout, g.table, g.port⟩))

theorem onPort (h : Within sc s0 s) (f : PortRecord → PortRecord) (resp : (f s.port).response = s.port.response)
    (op : (f s.port).operation = s.port.operation)
    (settled : ¬ s.port.state = .inProgress →
      (f s.port).state = s.port.state ∧ (f s.port).reason = s.port.reason ∧ (f s.port).limit = s.port.limit)
    (limit : Good s → ((f s.port).limit.isSome = true ↔ (f s.port).state = .inProgress))
    (attention : s.port.attention = true → (f s.port).attention = true) :
    Within sc s0 (s.onPort f) :=
  h.trans (by
    constructor <;> intros <;> first
      | rfl | assumption | exact settled (by assumption) | exact attention (by assumption)
      | (rename_i g; exact ⟨g.brk, g.store, g.link, g.lockout, g.table, limit g⟩))

@[simp] theorem drive (h : Within sc s0 s) (on : Bool) : Within sc s0 (s.drive on) :=
  h.trans (by
    constructor <;> intros <;> first
      | rfl | assumption | exact ⟨rfl, rfl, rfl⟩
      | (rename_i g; exact ⟨g.brk, g.store, g.link, g.lockout, g.table, g.port⟩))

theorem onEng (hb : sc.bias = true) (h : Within sc s0 s) (f : EngineRecord → EngineRecord) : Within sc s0 (s.onEng f) :=
  h.trans (by
    constructor <;> intros <;> first
      | rfl | assumption | exact ⟨rfl, rfl, rfl⟩ | simp_all
      | (rename_i g; exact ⟨g.brk, g.store, g.link, g.lockout, g.table, g.port⟩))

theorem onIsl (hi : sc.isl = true) (h : Within sc s0 s) (f : PerSection IslandTables → PerSection IslandTables) :
    Within sc s0 (s.onIsl f) :=
  h.trans (by
    constructor <;> intros <;> first
      | rfl | assumption | exact ⟨rfl, rfl, rfl⟩ | (exfalso; simp_all)
      | (rename_i g; exact ⟨g.brk, g.store, g.link, g.lockout, g.table, g.port⟩))

theorem onStep (hs : sc.step = true) (h : Within sc s0 s) (f : StepRecord → StepRecord)
    (guard : (f s.step).guard = s.step.guard) : Within sc s0 (s.onStep f) :=
  h.trans (by
    constructor <;> intros <;> first
      | rfl | assumption | exact ⟨rfl, rfl, rfl⟩ | (exfalso; simp_all)
      | (rename_i g; exact ⟨g.brk, g.store, g.link, g.lockout, g.table, g.port⟩))

theorem onZone (h : Within sc s0 s) (f : ZoneRecord → ZoneRecord)
    (blocks : sc.lists = false → (f s.zone).blockList = s.zone.blockList)
    (trips : sc.lists = false → (f s.zone).intertrips = s.zone.intertrips)
    (failure : sc.failure = false → (f s.zone).breakerFailure = s.zone.breakerFailure) : Within sc s0 (s.onZone f) :=
  h.trans (by
    constructor <;> intros <;> first
      | rfl | exact blocks (by assumption) | exact trips (by assumption) | exact failure (by assumption)
      | assumption | exact ⟨rfl, rfl, rfl⟩
      | (rename_i g; exact ⟨g.brk, g.store, g.link, g.lockout, g.table, g.port⟩))

theorem onPic (h : Within sc s0 s) (f : Picture → Picture)
    (fixed : (f s.pic).table.map (·.fixed) = s.pic.table.map (·.fixed))
    (table : sc.table = false → (f s.pic).table.map (·.unlapsed) = s.pic.table.map (·.unlapsed))
    (lapse : sc.table = false → sc.lapse = false → (f s.pic).table = s.pic.table)
    (delivery : sc.delivery = false → (f s.pic).delivery = s.pic.delivery)
    (count : sc.derived = false → (f s.pic).quorumCount = s.pic.quorumCount)
    (quorum : sc.derived = false → (f s.pic).quorum = s.pic.quorum)
    (derived : sc.derived = false → ∀ x, ((f s.pic).secs.get x).derivedPart = (s.pic.secs.get x).derivedPart)
    (configured : ∀ x, ((f s.pic).secs.get x).configured = (s.pic.secs.get x).configured)
    (secs : sc.secs = false → ∀ x, ((f s.pic).secs.get x).tokenPart = (s.pic.secs.get x).tokenPart) :
    Within sc s0 (s.onPic f) :=
  h.trans (by
    constructor <;> intros <;> first
      | rfl | exact fixed | exact table (by assumption) | exact lapse (by assumption) (by assumption)
      | exact delivery (by assumption) | exact count (by assumption) | exact quorum (by assumption)
      | exact derived (by assumption) _ | exact configured _ | exact secs (by assumption) _
      | assumption | exact ⟨rfl, rfl, rfl⟩
      | (rename_i g
         exact ⟨g.brk, g.store, g.link, g.lockout, by
          have e := congrArg List.length fixed
          simp only [List.length_map] at e
          exact e.trans g.table, g.port⟩))

/-- A change of the token parts of the Section Records. -/
theorem onSecs (hs : sc.secs = true) (h : Within sc s0 s) (g : Picture → BusSection → SectionRecord)
    (derived : ∀ x, (g s.pic x).derivedPart = (s.pic.secs.get x).derivedPart) :
    Within sc s0 (s.onPic fun p => { p with secs := PerSection.make fun x => g p x }) :=
  h.onPic _ rfl (fun _ => rfl) (fun _ _ => rfl) (fun _ => rfl) (fun _ => rfl) (fun _ => rfl)
    (fun _ x => by simpa using derived x)
    (fun x => by
      have e : (g s.pic x).configured = (s.pic.secs.get x).configured :=
        (congrArg SectionRecord.configured (derived x) :)
      simpa using e)
    (fun p => by simp [hs] at p)

/-- A change of one entry's lapse state. -/
theorem onLapse (hl : sc.lapse = true) (h : Within sc s0 s) (n : Nat) (f : StationEntry → StationEntry)
    (hf : ∀ e, (f e).unlapsed = e.unlapsed) : Within sc s0 (s.onEntry n f) := by
  unfold State.onEntry
  split
  · exact h
  · refine h.onPic _ (updateAt_map f _ (fun e => (congrArg StationEntry.fixed (hf e) :)) _ _)
      (fun _ => updateAt_map _ _ hf _ _) (fun _ q => by simp [hl] at q) (fun _ => rfl) (fun _ => rfl) (fun _ => rfl)
      (fun _ _ => rfl) (fun _ => rfl) (fun _ _ => rfl)

/-- A change of one entry, its fixed fields apart. -/
theorem onEntry (ht : sc.table = true) (h : Within sc s0 s) (n : Nat) (f : StationEntry → StationEntry)
    (hf : ∀ e, (f e).fixed = e.fixed) : Within sc s0 (s.onEntry n f) := by
  unfold State.onEntry
  split
  · exact h
  · refine h.onPic _ (updateAt_map _ _ hf _ _)
      (fun q => by simp [ht] at q) (fun q => by simp [ht] at q) (fun _ => rfl) (fun _ => rfl) (fun _ => rfl)
      (fun _ _ => rfl) (fun _ => rfl) (fun _ _ => rfl)

theorem onLink (h : Within sc s0 s) (f : LinkRecord → LinkRecord) (ok : Good s → (f s.link).Ok)
    (request : s.link.statusRequest.isSome = true → (f s.link).statusRequest.isSome = true)
    (e : ∀ l : LinkRecord, { f l with urgent := l.urgent, ordered := l.ordered, statusRequest := l.statusRequest, refusals := l.refusals } = l) :
    Within sc s0 (s.onLink f) := by
  have e' := e s.link
  exact h.trans (by
    constructor <;> intros <;> first
      | rfl | assumption | exact ⟨rfl, rfl, rfl⟩
      | exact request (by assumption) | exact (congrArg LinkRecord.nextSeq e' :) | exact (congrArg LinkRecord.startSilence e' :)
      | exact (congrArg LinkRecord.roundTimer e' :) | exact (congrArg LinkRecord.roundCount e' :)
      | exact (congrArg LinkRecord.transmitted e' :) | exact (congrArg LinkRecord.receiveDiscard e' :)
      | exact (congrArg LinkRecord.lastComposed e' :) | exact (congrArg LinkRecord.mediumIdle e' :)
      | exact (congrArg LinkRecord.sent e' :)
      | (rename_i g; exact ⟨g.brk, g.store, ok g, g.lockout, g.table, g.port⟩))

end Within
end Sys2Proof.Machine
end

