-- ==== Sys2Proof/Laws/Link.lean ====
section
/-!
SUPPORT. What the transmit queue operations can do (R26 to R31).
-/

namespace Sys2Proof.Machine

/-! ### The URGENT queue -/

/-- Replacing the first element of a kind keeps how many there are of each. -/
theorem replaceFirst_count {α : Type} (p q : α → Bool) (v : α) (hq : ∀ x, p x = true → q x = q v) :
    ∀ l l', replaceFirst p v l = some l' → (l'.filter q).length = (l.filter q).length := by
  intro l
  induction l with
  | nil => intro l' h; simp [replaceFirst] at h
  | cons x xs ih =>
    intro l' h
    unfold replaceFirst at h
    split at h
    · rename_i hp
      obtain rfl := Option.some.inj h
      simp only [List.filter_cons, hq x hp]
      split <;> simp
    · obtain ⟨ys, hy, rfl⟩ := Option.map_eq_some_iff.mp h
      have e := ih ys hy
      simp only [List.filter_cons]
      split <;> simp [e]

/-- No element of a kind is there when none was replaced. -/
theorem replaceFirst_none {α : Type} (p : α → Bool) (v : α) :
    ∀ l, replaceFirst p v l = none → ∀ x ∈ l, p x = false := by
  intro l
  induction l with
  | nil => intro _ x hx; simp at hx
  | cons y ys ih =>
    intro h x hx
    unfold replaceFirst at h
    split at h
    · simp at h
    · rename_i hp
      rcases List.mem_cons.mp hx with rfl | hx
      · simpa using hp
      · exact ih (Option.map_eq_none_iff.mp h) x hx

/-- The URGENT queue holds at most one frame of each kind after one is placed (R26). -/
theorem LinkRecord.Ok.placed {l : LinkRecord} (h : l.Ok) (f : UrgentFrame) :
    LinkRecord.Ok { l with urgent := placedUrgent f l.urgent } := by
  have key : ∀ q : UrgentFrame → Bool, (∀ x y, UrgentFrame.isBlock x = UrgentFrame.isBlock y → q x = q y) →
      (∀ x, q x = true → q f = true → UrgentFrame.isBlock x = UrgentFrame.isBlock f) →
      (l.urgent.filter q).length ≤ 1 → ((placedUrgent f l.urgent).filter q).length ≤ 1 := by
    intro q hq hf hl
    unfold placedUrgent
    cases hr : replaceFirst (fun g => g.isBlock == f.isBlock) f l.urgent with
    | some l' =>
      have := replaceFirst_count _ q f (fun x hx => hq x f (by simpa using hx)) _ _ hr
      simpa [this] using hl
    | none =>
      have hn := replaceFirst_none _ _ _ hr
      simp only [Option.getD_none, List.filter_append, List.length_append]
      cases hqf : q f with
      | false => simp [hqf]; exact hl
      | true =>
        have : l.urgent.filter q = [] := by
          apply List.filter_eq_nil_iff.mpr
          intro x hx hqx
          have a := hn x hx
          have b := hf x hqx hqf
          simp [b] at a
        simp [this, hqf]
  refine ⟨key _ (fun x y e => e) (fun x a b => a.trans b.symm) h.blocks,
    key _ (fun x y e => by rw [e]) (fun x a b => ?_) h.intertrips, h.ordered⟩
  revert a b
  cases UrgentFrame.isBlock x <;> cases UrgentFrame.isBlock f <;> simp

/-! ### The operations -/

namespace Within

variable {sc : Scope} {s0 s : State}

@[simp] theorem placeUrgent (h : Within sc s0 s) (f : UrgentFrame) : Within sc s0 (s.placeUrgent f) :=
  h.onLink _ (fun g => g.link.placed f) (fun r => r) fun _ => rfl

@[simp] theorem requestStatus (h : Within sc s0 s) (c : StatusCause) : Within sc s0 (s.requestStatus c) :=
  h.onLink _ (fun g => ⟨g.link.blocks, g.link.intertrips, g.link.ordered⟩) (fun _ => rfl) fun _ => rfl

@[simp] theorem requestOrdered (h : Within sc s0 s) (f : OrderedFrame) : Within sc s0 (s.requestOrdered f) := by
  unfold State.requestOrdered
  split
  · rename_i ha
    refine h.onLink _ (fun g => ⟨g.link.blocks, g.link.intertrips, ?_⟩) (fun r => r) fun _ => rfl
    simp only [State.acceptsOrdered, Bool.and_eq_true, decide_eq_true_eq] at ha
    simp only [List.length_append, List.length_singleton]
    omega
  · split
    · exact h.onLink _ (fun g => ⟨g.link.blocks, g.link.intertrips, g.link.ordered⟩) (fun r => r) fun _ => rfl
    · exact h

@[simp] theorem unqueueDrop (h : Within sc s0 s) (n : Nat) : Within sc s0 (s.unqueueDrop n) :=
  h.onLink _ (fun g => ⟨g.link.blocks, g.link.intertrips, (List.length_filter_le _ _).trans g.link.ordered⟩) (fun r => r) fun _ => rfl

@[simp] theorem purgeOrdered (h : Within sc s0 s) : Within sc s0 s.purgeOrdered := by
  have h1 : Within sc s0 (s.onLink fun l => { l with ordered := l.ordered.filter (·.isDrop) }) :=
    h.onLink _ (fun g => ⟨g.link.blocks, g.link.intertrips, (List.length_filter_le _ _).trans g.link.ordered⟩) (fun r => r) fun _ => rfl
  unfold State.purgeOrdered
  simp [h1]

@[simp] theorem requestPair (hs : sc.step = true) (h : Within sc s0 s) : Within sc s0 s.requestPair := by
  unfold State.requestPair
  split
  · rename_i ha
    apply onStep hs
    · refine h.onLink _ (fun g => ⟨g.link.blocks, g.link.intertrips, ?_⟩) (fun r => r) fun _ => rfl
      simp only [State.acceptsPair, decide_eq_true_eq] at ha
      simpa using ha
    · rfl
  · apply onStep hs
    · exact h.onLink _ (fun g => ⟨g.link.blocks, g.link.intertrips, g.link.ordered⟩) (fun r => r) fun _ => rfl
    · rfl

@[simp] theorem changeStatus (h : Within sc s0 s) (before : State) : Within sc s0 (State.changeStatus before s) := by
  unfold State.changeStatus
  split
  · exact h
  · simp [h]

@[simp] theorem tracking {f : State → State} (h : Within sc s0 (f s)) : Within sc s0 (State.tracking f s) :=
  changeStatus h s

end Within
end Sys2Proof.Machine
end

