-- ==== Sys2Proof/Laws/Breaker.lean ====
section
/-!
SUPPORT. What the Sync Unit's, the Breaker Controller's and the Fault Unit's shared operations can do (chapters 9, 4
and 7).
-/

namespace Sys2Proof.Machine

namespace Within

variable {sc : Scope} {s0 s : State}

/-! ### Sync Unit (R134 to R139) -/

@[simp] theorem endSession (h : Within sc s0 s) (c : SessionEnd) : Within sc s0 (s.endSession c) := by
  unfold State.endSession; simp [h]

@[simp] theorem openSession (h : Within sc s0 s) : Within sc s0 s.openSession := by
  unfold State.openSession; simp [h]

@[simp] theorem publish (h : Within sc s0 s) (f : Option SyncFigures) : Within sc s0 (s.publish f) := by
  unfold State.publish; simp [h]

@[simp] theorem breakWindow (h : Within sc s0 s) : Within sc s0 s.breakWindow := by
  unfold State.breakWindow; simp [h]

@[simp] theorem syncBiases (h : Within sc s0 s) (f : SyncFigures) : Within sc s0 (s.syncBiases f) := by
  unfold State.syncBiases; simp [h]

@[simp] theorem syncTake (h : Within sc s0 s) (m : MeasurementSet) : Within sc s0 (s.syncTake m).1 := by
  unfold State.syncTake
  dsimp only
  (repeat' split) <;> simp (maxDischargeDepth := 30) [h]

@[simp] theorem syncFlagChange (h : Within sc s0 s) : Within sc s0 s.syncFlagChange := by
  unfold State.syncFlagChange; simp [h]

/-! ### Breaker Controller (R62 to R67) -/

@[simp] theorem beginOpening (h : Within sc s0 s) (src : TripSource) (hs : s.brk.state = .closed) :
    Within sc s0 (s.beginOpening src) := by
  refine h.onBrk _ fun g => ?_
  have b := g.brk
  have ho := b.origin
  have hc := b.closeOut
  have ht := b.closeTimer
  have hm := b.mark
  have hw := b.watch
  constructor <;> simp_all

@[simp] theorem withdrawClose (h : Within sc s0 s) : Within sc s0 s.withdrawClose := by
  unfold State.withdrawClose
  split
  · rename_i hs
    refine h.onBrk _ fun g => ?_
    have b := g.brk
    exact ⟨b.closeOut, b.closeTimer, fun _ => by simpa using hs, b.watch, b.tripTimer, b.tripOut, b.driven,
      b.disagreement, b.origin⟩
  · exact h

@[simp] theorem trip (h : Within sc s0 s) (src : TripSource) : Within sc s0 (s.trip src) := by
  unfold State.trip
  split
  · exact h
  · rename_i hs
    refine tell ?_ _
    show Within sc s0 (s.onBrk fun b => { b with
      closeOut := false, closeTimer := none, mark := false, state := .opening, tripOut := true,
      openTimer := some s.station.openLimit, disagreementTimer := none, sources := addSource src b.sources })
    refine h.onBrk _ fun g => ?_
    have := g.brk.watch
    have := g.brk.origin
    constructor <;> simp_all
  · rename_i hs; simp [h, hs]
  · rename_i hs
    refine h.onBrk _ fun g => ?_
    have b := g.brk
    exact ⟨b.closeOut, b.closeTimer, b.mark, b.watch, b.tripTimer, b.tripOut, b.driven, b.disagreement, b.origin⟩
  · rename_i hs
    refine h.onBrk _ fun g => ?_
    have b := g.brk
    have := b.watch
    have := b.closeOut
    have := b.closeTimer
    have := b.mark
    have := b.disagreement
    have := b.origin
    constructor <;> simp_all

@[simp] theorem recordRefusal (h : Within sc s0 s) (r : CloseRefusal) : Within sc s0 (s.recordRefusal r) := by
  unfold State.recordRefusal
  refine onPort ?_ _ rfl rfl (fun _ => ⟨rfl, rfl, rfl⟩) (fun g => g.port) fun a => a
  refine h.onBrk _ fun g => ?_
  have b := g.brk
  exact ⟨b.closeOut, b.closeTimer, b.mark, b.watch, b.tripTimer, b.tripOut, b.driven, b.disagreement, b.origin⟩

/-- A close begins only in OPEN without the watch (R62, R64). -/
theorem beginClose (h : Within sc s0 s) (hs : s.brk.state = .opened) (hw : s.brk.watch = false) :
    Within sc s0 s.beginClose := by
  unfold State.beginClose
  refine endSession ?_ _
  refine h.onBrk _ fun g => ?_
  have b := g.brk
  have := b.tripOut
  have := b.origin
  have := b.tripTimer
  constructor <;> simp_all

end Within

/-- Where no condition fails, the breaker is OPEN without the watch (R62). -/
theorem closeRefusal_none {s : State} (h : s.closeRefusal = none) : s.brk.state = .opened ∧ s.brk.watch = false := by
  unfold State.closeRefusal at h
  split at h
  · simp at h
  · rename_i hc; simpa using hc

namespace Within

variable {sc : Scope} {s0 s : State}

@[simp] theorem requestClose (h : Within sc s0 s) : Within sc s0 s.requestClose.1 := by
  unfold State.requestClose
  split
  · simp [h]
  · rename_i hn
    exact h.beginClose (closeRefusal_none hn).1 (closeRefusal_none hn).2

end Within
end Sys2Proof.Machine
end

