-- ==== Sys2Proof/Laws/Fault.lean ====
section
/-!
SUPPORT. What a raise can do (R106 to R112).
-/

namespace Sys2Proof.Machine

namespace FaultStore.Ok

variable {f : FaultStore}

/-- Recording a raise keeps the store in form (R106, R107). -/
theorem recorded (h : f.Ok) (k : FaultKind) (cap : Option Capture)
    (hc : ∀ c, cap = some c → f.pending.get c.kind = true ∨ c.kind = k) :
    FaultStore.Ok { f with pending := f.pending.set k true, count := f.count.set k 1, capture := cap } where
  counted j := by
    by_cases e : j = k
    · subst e; simp
    · simp [e, h.counted]
  saturated j := by
    by_cases e : j = k
    · subst e; simp
    · simp [e, h.saturated]
  captured c p := by
    by_cases e : c.kind = k
    · simp [e]
    · simpa [e] using (hc c p).resolve_right e
  busFault x p := by
    by_cases e : FaultKind.busFault = k
    · simp [e]
    · simpa [e] using h.busFault x p

/-- A repeat raise keeps the store in form (R106). -/
theorem repeated (h : f.Ok) (k : FaultKind) (hk : f.pending.get k = true) :
    FaultStore.Ok { f with count := f.count.set k (satSucc 255 (f.count.get k)) } where
  counted j := by
    by_cases e : j = k
    · subst e; simpa [hk] using satSucc_pos 255 _ (by omega)
    · simp [e, h.counted]
  saturated j := by
    by_cases e : j = k
    · subst e; simpa using satSucc_le 255 _
    · simp [e, h.saturated]
  captured := h.captured
  busFault := h.busFault

end FaultStore.Ok

/-! ### Lockout (R110) -/

/-- Lockout stands exactly while a kind of severity LOCKOUT is pending. -/
theorem lockoutStands_iff (s : State) :
    s.lockoutStands = true ↔ ∃ k, s.fault.pending.get k = true ∧ s.severityOf k = .lockout := by
  simp [State.lockoutStands, FaultKind.mem_all]

/-- The severities are read from the settings alone. -/
theorem severityOf_congr {s t : State} (h : t.settings = s.settings) (k : FaultKind) : t.severityOf k = s.severityOf k := by
  simp [State.severityOf, h]

/-- So is what is masked. -/
theorem masked_congr {s t : State} (h : t.settings = s.settings) (k : FaultKind) : t.masked k = s.masked k := by
  simp [State.masked, h]

namespace Within

variable {sc : Scope} {s0 s : State}

/-- A change of the fault store under which no kind ceases to be pending. -/
theorem onFault (h : Within sc s0 s) (f : FaultStore → FaultStore) (ok : Good s → (f s.fault).Ok)
    (bar : sc.bar = false → (f s.fault).barLatch = s.fault.barLatch)
    (stays : ∀ k, s.fault.pending.get k = true → (f s.fault).pending.get k = true)
    (capture : ∀ c, s.fault.capture = some c → (f s.fault).capture = some c)
    (lockout : s.fault.lockout = true → (f s.fault).lockout = true)
    (bus : ∀ x, s.fault.busFault.get x = true → (f s.fault).busFault.get x = true)
    (stands : Good s → (∃ k, (f s.fault).pending.get k = true ∧ s.severityOf k = .lockout) → (f s.fault).lockout = true)
    (only : LockoutOnly s → s.configured = true → (f s.fault).lockout = true →
      ∃ k, (f s.fault).pending.get k = true ∧ s.severityOf k = .lockout) :
    Within sc s0 (s.onFault f) :=
  h.trans (by
    constructor <;> intros <;> first
      | rfl | exact bar (by assumption) | assumption | exact ⟨rfl, rfl, rfl⟩
      | exact stays _ (by assumption) | exact capture _ (by assumption) | exact lockout (by assumption)
      | exact bus _ (by assumption)
      | (rename_i g
         exact ⟨g.brk, ok g, g.link, fun p => stands g ((lockoutStands_iff _).mp p), g.table, g.port⟩)
      | (rename_i g; exact fun c p => (lockoutStands_iff _).mpr (only g c p)))

@[simp] theorem attend (h : Within sc s0 s) : Within sc s0 s.attend :=
  h.onPort _ rfl rfl (fun _ => ⟨rfl, rfl, rfl⟩) (fun g => g.port) fun _ => rfl

/-- Recording a kind that is no lockout, or any kind while lockout stands already. -/
theorem record (h : Within sc s0 s) (k : FaultKind) (ctx : FaultContext)
    (hk : s.severityOf k = .lockout → s.fault.lockout = true) : Within sc s0 (s.record k ctx) := by
  unfold State.record
  split
  · rename_i hp
    exact h.onFault _ (fun g => g.store.repeated k hp) (fun _ => rfl) (fun _ p => p) (fun _ p => p) (fun p => p)
      (fun _ p => p) (fun g p => g.lockout ((lockoutStands_iff _).mpr p))
      (fun g c p => (lockoutStands_iff _).mp (g c p))
  · refine h.onFault _ (fun g => g.store.recorded k _ fun c p => ?_) (fun _ => rfl) (fun j p => ?_) (fun c p => ?_)
      (fun p => p) (fun _ p => p) (fun g p => ?_) (fun g c p => ?_)
    · split at p
      · exact .inr (by obtain rfl := Option.some.inj p; rfl)
      · exact .inl (g.store.captured c p)
    · by_cases e : j = k
      · simp [e]
      · simpa [e] using p
    · simp [p]
    · obtain ⟨j, hj, hs⟩ := p
      by_cases e : j = k
      · exact hk (e ▸ hs)
      · exact g.lockout ((lockoutStands_iff _).mpr ⟨j, by simpa [e] using hj, hs⟩)
    · obtain ⟨j, hj, hs⟩ := (lockoutStands_iff _).mp (g c p)
      refine ⟨j, ?_, hs⟩
      by_cases e : j = k
      · simp [e]
      · simpa [e] using hj

/-- Recording a kind of severity LOCKOUT with its onset (R110). -/
theorem recordOnset (h : Within sc s0 s) (k : FaultKind) (ctx : FaultContext) (hk : s.severityOf k = .lockout) :
    Within sc s0 ((s.record k ctx).onFault fun f => { f with lockout := true }) := by
  have e : (s.record k ctx).onFault (fun f => { f with lockout := true }) =
      s.onFault fun f => { (s.record k ctx).fault with lockout := true } := by
    unfold State.record
    split <;> rfl
  have pend : (s.record k ctx).fault.pending.get k = true := by
    unfold State.record
    split
    · rename_i hp; simpa using hp
    · simp
  rw [e]
  have okay : Good s → FaultStore.Ok (s.record k ctx).fault := by
    intro g
    unfold State.record
    split
    · rename_i hp; exact g.store.repeated k hp
    · refine g.store.recorded k _ fun c p => ?_
      split at p
      · exact .inr (by obtain rfl := Option.some.inj p; rfl)
      · exact .inl (g.store.captured c p)
  refine h.onFault _ (fun g => ⟨(okay g).counted, (okay g).saturated, (okay g).captured, (okay g).busFault⟩) (fun _ => ?_)
    (fun j p => ?_) (fun c p => ?_) (fun p => rfl) (fun x p => ?_) (fun g p => rfl) (fun g c p => ⟨k, pend, hk⟩)
  · unfold State.record; split <;> rfl
  · unfold State.record; split
    · simpa using p
    · by_cases e : j = k
      · simp [e]
      · simpa [e] using p
  · unfold State.record; split <;> simp [p]
  · unfold State.record; split <;> simpa using p

/-- The severity of a recorded kind acts (R108 to R110). -/
theorem severityActs {r : State} (k : FaultKind) (calm : ¬ s.severityOf k = .lockout ∨ s.fault.lockout = true → Within sc s0 r)
    (onset : s.severityOf k = .lockout → Within sc s0 (r.onFault fun f => { f with lockout := true }))
    (sev : r.severityOf k = s.severityOf k) (lock : r.fault.lockout = s.fault.lockout) :
    Within sc s0 (r.severityActs k) := by
  unfold State.severityActs
  split
  · rename_i q; exact calm (.inl (by rw [← sev, q]; simp))
  · rename_i q; exact (calm (.inl (by rw [← sev, q]; simp))).trip _
  · rename_i q
    split
    · rename_i l; exact calm (.inr (by rw [← lock]; exact l))
    · unfold State.lockoutOnset
      exact ((onset (by rw [← sev, q])).withdrawClose).tell _

/-- A raise recorded, announced and acted on (R106 steps 1 to 4). -/
theorem acted (h : Within sc s0 s) (k : FaultKind) (ctx : FaultContext) :
    Within sc s0 ((if s.masked k then s.record k ctx else (s.record k ctx).attend).severityActs k) := by
  have set : (s.record k ctx).settings = s.settings := by unfold State.record; split <;> rfl
  have lock : (s.record k ctx).fault.lockout = s.fault.lockout := by unfold State.record; split <;> rfl
  have calm : ¬ s.severityOf k = .lockout ∨ s.fault.lockout = true → Within sc s0 (s.record k ctx) :=
    fun c => h.record k ctx fun q => c.resolve_left fun r => r q
  split
  · exact severityActs k calm (h.recordOnset k ctx) (severityOf_congr set k) lock
  · exact severityActs k (fun c => (calm c).attend) (fun c => (h.recordOnset k ctx c).attend)
      (severityOf_congr (t := (s.record k ctx).attend) set k) lock

end Within

/-! ### What a raise makes of the fault store -/

@[simp] theorem attend_fault (s : State) : s.attend.fault = s.fault := rfl

@[simp] theorem trip_fault (s : State) (src : TripSource) : (s.trip src).fault = s.fault := by
  unfold State.trip; split <;> rfl

@[simp] theorem withdrawClose_fault (s : State) : s.withdrawClose.fault = s.fault := by
  unfold State.withdrawClose; split <;> rfl

@[simp] theorem tellBarred_fault (s : State) (b : Bool) : (State.tellBarred b s).fault = s.fault := by
  unfold State.tellBarred; split <;> rfl

/-- A severity changes lockout only. -/
theorem severityActs_fault (s : State) (k : FaultKind) :
    (s.severityActs k).fault = { s.fault with lockout := s.fault.lockout || s.severityOf k == .lockout } := by
  unfold State.severityActs
  split
  · rename_i q; rw [q, show (Severity.advisory == .lockout) = false from rfl, Bool.or_false]
  · rename_i q; rw [q, show (Severity.trip == .lockout) = false from rfl, Bool.or_false, trip_fault]
  · rename_i q
    rw [q, show (Severity.lockout == .lockout) = true from rfl, Bool.or_true]
    split
    · rename_i l; rw [← l]
    · simp [State.lockoutOnset]

/-- A recorded kind is pending. -/
theorem record_pending (s : State) (k : FaultKind) (ctx : FaultContext) : (s.record k ctx).fault.pending.get k = true := by
  unfold State.record
  split
  · rename_i hp; simpa using hp
  · simp

namespace Within

variable {sc : Scope} {s0 s : State}

@[simp] theorem tellBarred (h : Within sc s0 s) (b : Bool) : Within sc s0 (State.tellBarred b s) := by
  unfold State.tellBarred; simp [h]

/-- The sections of a bus fault join its set while BUS_FAULT is pending (R111). -/
theorem joinBusFault (h : Within sc s0 s) (n : Nat) (hp : s.fault.pending.get .busFault = true) :
    Within sc s0 (s.joinBusFault n) :=
  h.onFault _ (fun g => ⟨g.store.counted, g.store.saturated, g.store.captured, fun _ _ => hp⟩) (fun _ => rfl)
    (fun _ p => p) (fun _ p => p) (fun p => p) (fun x p => by simp [p])
    (fun g p => g.lockout ((lockoutStands_iff _).mpr p)) (fun g c p => (lockoutStands_iff _).mp (g c p))

/-- The bar latch (R112). -/
theorem setLatch (hb : sc.bar = true) (h : Within sc s0 s) (b : Bool) :
    Within sc s0 (s.onFault fun f => { f with barLatch := b }) :=
  h.onFault _ (fun g => ⟨g.store.counted, g.store.saturated, g.store.captured, g.store.busFault⟩)
    (fun p => by simp [hb] at p) (fun _ p => p) (fun _ p => p) (fun p => p) (fun _ p => p)
    (fun g p => g.lockout ((lockoutStands_iff _).mpr p)) (fun g c p => (lockoutStands_iff _).mp (g c p))

/-- A raise (R106): only START_FAILED sets the bar latch. -/
@[simp] theorem raise (h : Within sc s0 s) (k : FaultKind) (ctx : FaultContext) (hb : k = .startFailed → sc.bar = true) :
    Within sc s0 (s.raise k ctx) := by
  have w := h.acted k ctx
  have m : (s.record k ctx).masked k = s.masked k :=
    masked_congr (by unfold State.record; split <;> rfl) k
  unfold State.raise State.raiseActs
  refine tellBarred ?_ _
  simp only [m]
  split
  · refine joinBusFault w _ ?_
    rename_i n
    have p := record_pending s .busFault (.slot n)
    rw [severityActs_fault]
    split <;> simpa using p
  · exact setLatch (hb rfl) w true
  · exact w

end Within

/-- What has been raised is pending. -/
theorem raise_pending (s : State) (k : FaultKind) (ctx : FaultContext) : (s.raise k ctx).fault.pending.get k = true := by
  have p := record_pending s k ctx
  unfold State.raise State.raiseActs
  rw [tellBarred_fault]
  dsimp only
  split <;> (try simp only [State.joinBusFault, onFault_fault]) <;> rw [severityActs_fault] <;> split <;> simpa using p

end Sys2Proof.Machine
end

