-- ==== Sys2Proof/Laws/Zone.lean ====
section
/-!
SUPPORT. What the Zone Unit's operations can do (chapter 6).
-/

namespace Sys2Proof.Machine.Within

variable {sc : Scope} {s0 s : State}

/-! ### The station's own block and intertrip -/

@[simp] theorem blockMark (h : Within sc s0 s) (b : Bool) : Within sc s0 (s.onZone fun z => { z with blockAsserted := b }) :=
  h.onZone _ (fun _ => rfl) (fun _ => rfl) fun _ => rfl

@[simp] theorem intertripMark (h : Within sc s0 s) (b : Bool) :
    Within sc s0 (s.onZone fun z => { z with intertripAsserted := b }) :=
  h.onZone _ (fun _ => rfl) (fun _ => rfl) fun _ => rfl

@[simp] theorem startBlock (h : Within sc s0 s) : Within sc s0 s.startBlock := by
  unfold State.startBlock; simp (maxDischargeDepth := 30) [h]

@[simp] theorem endBlock (h : Within sc s0 s) : Within sc s0 s.endBlock := by
  unfold State.endBlock; simp (maxDischargeDepth := 30) [h]

@[simp] theorem refreshBlock (h : Within sc s0 s) : Within sc s0 s.refreshBlock := by
  unfold State.refreshBlock; simp [h]

@[simp] theorem judgeIntertrip (h : Within sc s0 s) : Within sc s0 s.judgeIntertrip := by
  unfold State.judgeIntertrip; simp (maxDischargeDepth := 30) [h]

@[simp] theorem breakerFailureBegins (hf : sc.failure = true) (h : Within sc s0 s) : Within sc s0 s.breakerFailureBegins := by
  unfold State.breakerFailureBegins
  exact (h.onZone _ (fun _ => rfl) (fun _ => rfl) fun p => by simp [hf] at p).judgeIntertrip

@[simp] theorem breakerFailureEnds (hf : sc.failure = true) (h : Within sc s0 s) : Within sc s0 s.breakerFailureEnds := by
  unfold State.breakerFailureEnds
  exact (h.onZone _ (fun _ => rfl) (fun _ => rfl) fun p => by simp [hf] at p).judgeIntertrip

/-! ### The lists -/

@[simp] theorem onBlockList (hl : sc.lists = true) (h : Within sc s0 s) (f : ZoneRecord → List BlockEntry) :
    Within sc s0 (s.onZone fun z => { z with blockList := f z }) :=
  h.onZone _ (fun p => by simp [hl] at p) (fun _ => rfl) fun _ => rfl

@[simp] theorem onIntertrips (hl : sc.lists = true) (h : Within sc s0 s) (f : ZoneRecord → List IntertripEntry) :
    Within sc s0 (s.onZone fun z => { z with intertrips := f z }) :=
  h.onZone _ (fun _ => rfl) (fun p => by simp [hl] at p) fun _ => rfl

@[simp] theorem addBlock (hl : sc.lists = true) (h : Within sc s0 s) (n : Nat) : Within sc s0 (s.addBlock n) := by
  unfold State.addBlock; simp [h, hl]

@[simp] theorem refreshEntry (hl : sc.lists = true) (h : Within sc s0 s) (n : Nat) : Within sc s0 (s.refreshEntry n) := by
  unfold State.refreshEntry; simp [h, hl]

@[simp] theorem removeBlock (hl : sc.lists = true) (h : Within sc s0 s) (n : Nat) : Within sc s0 (s.removeBlock n) := by
  unfold State.removeBlock; simp (maxDischargeDepth := 30) [h, hl]

@[simp] theorem takeBlock (hl : sc.lists = true) (h : Within sc s0 s) (n : Nat) (on : Bool) :
    Within sc s0 (s.takeBlock n on) := by
  unfold State.takeBlock; simp [h, hl]

@[simp] theorem tellAccepted (h : Within sc s0 s) (b : Bool) : Within sc s0 (State.tellAccepted b s) := by
  unfold State.tellAccepted; simp [h]

@[simp] theorem addIntertrip (hl : sc.lists = true) (h : Within sc s0 s) (n : Nat) : Within sc s0 (s.addIntertrip n) := by
  unfold State.addIntertrip; simp (maxDischargeDepth := 30) [h, hl]

@[simp] theorem freshenIntertrip (hl : sc.lists = true) (h : Within sc s0 s) (n : Nat) :
    Within sc s0 (s.freshenIntertrip n) := by
  unfold State.freshenIntertrip; simp [h, hl]

@[simp] theorem keepIntertrips (hl : sc.lists = true) (h : Within sc s0 s) (p : IntertripEntry → Bool) :
    Within sc s0 (s.keepIntertrips p) := by
  unfold State.keepIntertrips; simp [h, hl]

@[simp] theorem takeIntertrip (hl : sc.lists = true) (h : Within sc s0 s) (n : Nat) (v : Bool) :
    Within sc s0 (s.takeIntertrip n v) := by
  unfold State.takeIntertrip; simp [h, hl]

@[simp] theorem repairZone (hl : sc.lists = true) (h : Within sc s0 s) (n : Nat) (b : StatusBody) :
    Within sc s0 (s.repairZone n b) := by
  unfold State.repairZone; simp (maxDischargeDepth := 30) [h, hl]

@[simp] theorem zoneDrop (hl : sc.lists = true) (h : Within sc s0 s) (n : Nat) : Within sc s0 (s.zoneDrop n) := by
  unfold State.zoneDrop; simp (maxDischargeDepth := 30) [h, hl]

@[simp] theorem clearStale (hl : sc.lists = true) (h : Within sc s0 s) : Within sc s0 s.clearStale := by
  unfold State.clearStale; simp [h, hl]

end Sys2Proof.Machine.Within
end

