-- ==== Sys2Proof/Laws/Token.lean ====
section
/-!
SUPPORT. What the Token Unit's operations can do (chapter 8).
-/

namespace Sys2Proof.Machine.Within

variable {sc : Scope} {s0 s : State}

/-! ### The claim record -/

@[simp] theorem sendRelease (h : Within sc s0 s) : Within sc s0 s.sendRelease := by
  unfold State.sendRelease
  (repeat' split) <;> simp (maxDischargeDepth := 30) [h]

@[simp] theorem requestRelease (h : Within sc s0 s) (c : ReleaseCause) : Within sc s0 (s.requestRelease c) := by
  unfold State.requestRelease
  simp (maxDischargeDepth := 30) [h]

@[simp] theorem claimToIdle (h : Within sc s0 s) (c : Option ReleaseCause) : Within sc s0 (s.claimToIdle c) := by
  unfold State.claimToIdle
  simp (maxDischargeDepth := 30) [h]

@[simp] theorem claimToWanted (h : Within sc s0 s) : Within sc s0 s.claimToWanted := by
  unfold State.claimToWanted
  simp (maxDischargeDepth := 30) [h]

@[simp] theorem closeForClaim (h : Within sc s0 s) : Within sc s0 s.closeForClaim := by
  have w := h.requestClose
  unfold State.closeForClaim
  generalize s.requestClose = p at w ⊢
  obtain ⟨s1, r⟩ := p
  (repeat' split) <;> simp_all

@[simp] theorem measureSides (h : Within sc s0 s) : Within sc s0 s.measureSides := by
  unfold State.measureSides
  dsimp only
  (repeat' split) <;> simp (maxDischargeDepth := 30) [h]

@[simp] theorem enterHolding (h : Within sc s0 s) : Within sc s0 s.enterHolding := by
  unfold State.enterHolding
  simp (maxDischargeDepth := 30) [h]

@[simp] theorem tokenFlagChange (h : Within sc s0 s) : Within sc s0 s.tokenFlagChange := by
  unfold State.tokenFlagChange
  (repeat' split) <;> simp (maxDischargeDepth := 30) [h]

@[simp] theorem tokenLossEnd (h : Within sc s0 s) : Within sc s0 s.tokenLossEnd := by
  unfold State.tokenLossEnd
  (repeat' split) <;> simp (maxDischargeDepth := 30) [h]

@[simp] theorem tokenOffer (h : Within sc s0 s) : Within sc s0 s.tokenOffer := by
  unfold State.tokenOffer
  (repeat' split) <;> simp (maxDischargeDepth := 30) [h]

@[simp] theorem tokenAcceptedNone (h : Within sc s0 s) : Within sc s0 s.tokenAcceptedNone := by
  unfold State.tokenAcceptedNone
  (repeat' split) <;> simp (maxDischargeDepth := 30) [h]

@[simp] theorem judgeClaim (h : Within sc s0 s) : Within sc s0 s.judgeClaim := by
  unfold State.judgeClaim
  dsimp only
  (repeat' split) <;> simp (maxDischargeDepth := 30) [h]

@[simp] theorem postWant (h : Within sc s0 s) (w : Want) : Within sc s0 (s.postWant w).1 := by
  unfold State.postWant
  (repeat' split) <;> simp (maxDischargeDepth := 30) [h]

@[simp] theorem forgetClose (h : Within sc s0 s) : Within sc s0 s.forgetClose := onToken h _

@[simp] theorem dropWant (h : Within sc s0 s) : Within sc s0 s.dropWant := by
  unfold State.dropWant
  (repeat' split) <;> simp (maxDischargeDepth := 30) [h]

@[simp] theorem withdrawWant (h : Within sc s0 s) (w : Want) : Within sc s0 (s.withdrawWant w) := by
  unfold State.withdrawWant
  (repeat' split) <;> simp (maxDischargeDepth := 30) [h]

@[simp] theorem tokenLockout (h : Within sc s0 s) : Within sc s0 s.tokenLockout := by
  unfold State.tokenLockout
  (repeat' split) <;> simp (maxDischargeDepth := 30) [h]

@[simp] theorem tokenQuorum (h : Within sc s0 s) : Within sc s0 s.tokenQuorum := by
  unfold State.tokenQuorum
  (repeat' split) <;> simp (maxDischargeDepth := 30) [h]

@[simp] theorem suspendClaim (h : Within sc s0 s) : Within sc s0 s.suspendClaim := by
  unfold State.suspendClaim
  (repeat' split) <;> simp (maxDischargeDepth := 30) [h]

@[simp] theorem resumeClaim (h : Within sc s0 s) : Within sc s0 s.resumeClaim := by
  unfold State.resumeClaim
  (repeat' split) <;> simp (maxDischargeDepth := 30) [h]

@[simp] theorem closeEnded (h : Within sc s0 s) (c : ReleaseCause) : Within sc s0 (s.closeEnded c) := by
  unfold State.closeEnded
  (repeat' split) <;> simp (maxDischargeDepth := 30) [h]

@[simp] theorem tokenClosed (h : Within sc s0 s) (mark : Bool) : Within sc s0 (s.tokenClosed mark) := by
  unfold State.tokenClosed
  (repeat' split) <;> simp (maxDischargeDepth := 30) [h]

@[simp] theorem tokenCloseFailed (h : Within sc s0 s) : Within sc s0 s.tokenCloseFailed := by
  unfold State.tokenCloseFailed
  simp (maxDischargeDepth := 30) [h]

/-! ### Tokens and queues -/

@[simp] theorem grant (hs : sc.secs = true) (h : Within sc s0 s) (n : Nat) (secs : SectionSet) :
    Within sc s0 (State.grant n secs s) := by
  unfold State.grant
  have w : ∀ s, Within sc s0 s → Within sc s0 (s.onPic fun p => { p with
      secs := PerSection.make fun x =>
        if secs.get x then
          { p.secs.get x with holder := n, grant := p.delivery, queue := unqueue n (p.secs.get x).queue }
        else p.secs.get x }) :=
    fun s h => onSecs hs h (fun p x => if secs.get x then
      { p.secs.get x with holder := n, grant := p.delivery, queue := unqueue n (p.secs.get x).queue }
      else p.secs.get x) fun x => by split <;> rfl
  dsimp only
  split
  · exact (w s h).onToken _
  · exact w s h

@[simp] theorem grantCheck (hs : sc.secs = true) (h : Within sc s0 s) (x : BusSection) :
    Within sc s0 (s.grantCheck x) := by
  unfold State.grantCheck
  (repeat' split) <;> simp (maxDischargeDepth := 30) [h, hs]

@[simp] theorem grantChecks (hs : sc.secs = true) (h : Within sc s0 s) (secs : SectionSet) :
    Within sc s0 (s.grantChecks secs) :=
  foldl _ (fun _ x w => grantCheck hs w x) _ _ h

@[simp] theorem freeTokens (hs : sc.secs = true) (h : Within sc s0 s) (n : Nat) (secs : SectionSet) :
    Within sc s0 (s.freeTokens n secs) :=
  onSecs hs h (fun p x => if secs.get x && (p.secs.get x).holder == n then { p.secs.get x with holder := 0 }
    else p.secs.get x) fun x => by split <;> rfl

@[simp] theorem leaveQueues (hs : sc.secs = true) (h : Within sc s0 s) (n : Nat) : Within sc s0 (s.leaveQueues n) :=
  onSecs hs h (fun p x => { p.secs.get x with queue := unqueue n (p.secs.get x).queue }) fun _ => rfl

@[simp] theorem freeStation (hs : sc.secs = true) (h : Within sc s0 s) (n : Nat) :
    Within sc s0 (s.freeStation n) := by
  unfold State.freeStation
  simp (maxDischargeDepth := 30) [h, hs]

@[simp] theorem appendClaim (hs : sc.secs = true) (h : Within sc s0 s) (n : Nat) (secs : SectionSet) :
    Within sc s0 (s.appendClaim n secs) :=
  onSecs hs h (fun p x => if secs.get x then { p.secs.get x with queue := (p.secs.get x).queue ++ [⟨n, p.delivery⟩] }
    else p.secs.get x) fun x => by split <;> rfl

@[simp] theorem applyRelease (hs : sc.secs = true) (h : Within sc s0 s) (n : Nat) (secs : SectionSet)
    (c : ReleaseCause) : Within sc s0 (s.applyRelease n secs c) := by
  unfold State.applyRelease
  split
  · have w : ∀ s, Within sc s0 s → Within sc s0 (s.onPic fun p => { p with
        secs := PerSection.make fun x =>
          if secs.get x then { p.secs.get x with lastRelease := some ⟨n, c, p.delivery⟩ } else p.secs.get x }) :=
      fun s h => onSecs hs h (fun p x => if secs.get x then
        { p.secs.get x with lastRelease := some ⟨n, c, p.delivery⟩ } else p.secs.get x) fun x => by split <;> rfl
    dsimp only
    exact w _ (by simp [h, hs])
  · exact h

@[simp] theorem startLapse (hl : sc.lapse = true) (h : Within sc s0 s) (n : Nat) : Within sc s0 (s.startLapse n) :=
  onLapse hl h n _ fun e => by split <;> rfl

/-- A queue emptied. -/
theorem emptyQueue (hs : sc.secs = true) (h : Within sc s0 s) (x : BusSection) :
    Within sc s0 (s.onSec x fun r => { r with queue := [] }) := by
  have key : ∀ y, ((s.pic.secs.set x { s.pic.secs.get x with queue := [] }).get y).derivedPart =
      (s.pic.secs.get y).derivedPart := by
    intro y
    by_cases e : y = x
    · subst e; simp [SectionRecord.derivedPart]
    · simp [e]
  exact h.onPic _ rfl (fun _ => rfl) (fun _ _ => rfl) (fun _ => rfl) (fun _ => rfl) (fun _ => rfl)
    (fun _ y => key y) (fun y => (congrArg SectionRecord.configured (key y) :)) fun p => by simp [hs] at p

@[simp] theorem faultSection (hs : sc.secs = true) (h : Within sc s0 s) (x : BusSection) :
    Within sc s0 (s.faultSection x) := by
  have w := emptyQueue hs (foldl _ (fun _ n w => leaveQueues hs w n) (s.queuedTies x) _ h) x
  unfold State.faultSection
  simp [w, hs]

/-! ### The own record after the tables -/

@[simp] theorem seeGrant (h : Within sc s0 s) : Within sc s0 s.seeGrant := by
  unfold State.seeGrant
  (repeat' split) <;> simp (maxDischargeDepth := 30) [h]

@[simp] theorem judgePlace (h : Within sc s0 s) : Within sc s0 s.judgePlace := by
  unfold State.judgePlace
  dsimp only
  (repeat' split) <;> simp (maxDischargeDepth := 30) [h]

@[simp] theorem ownClaim (h : Within sc s0 s) (o : ClaimOutcome) : Within sc s0 (s.ownClaim o) := by
  unfold State.ownClaim
  (repeat' split) <;> simp (maxDischargeDepth := 30) [h]

@[simp] theorem ownRelease (h : Within sc s0 s) (applied : Bool) : Within sc s0 (s.ownRelease applied) := by
  unfold State.ownRelease
  (repeat' split) <;> simp (maxDischargeDepth := 30) [h]

@[simp] theorem releaseAtOwnStep (h : Within sc s0 s) : Within sc s0 s.releaseAtOwnStep := by
  unfold State.releaseAtOwnStep
  (repeat' split) <;> simp (maxDischargeDepth := 30) [h]

@[simp] theorem releaseAtRound (h : Within sc s0 s) : Within sc s0 s.releaseAtRound := by
  unfold State.releaseAtRound
  (repeat' split) <;> simp (maxDischargeDepth := 30) [h]

@[simp] theorem clearAwait (h : Within sc s0 s) : Within sc s0 s.clearAwait := by
  unfold State.clearAwait
  (repeat' split) <;> simp (maxDischargeDepth := 30) [h]

@[simp] theorem holdExpired (h : Within sc s0 s) : Within sc s0 s.holdExpired := by
  unfold State.holdExpired
  simp (maxDischargeDepth := 30) [h]

@[simp] theorem tokenSyncTimeout (h : Within sc s0 s) : Within sc s0 s.tokenSyncTimeout := by
  unfold State.tokenSyncTimeout
  (repeat' split) <;> simp (maxDischargeDepth := 30) [h]

end Sys2Proof.Machine.Within
end

