-- ==== Sys2Proof/Laws/Protection.lean ====
section
/-!
SUPPORT. What the Protection Engine's operations can do (chapter 5).
-/

namespace Sys2Proof.Machine.Within

variable {sc : Scope} {s0 s : State}

@[simp] theorem onSlot (h : Within sc s0 s) (n : Nat) (f : SlotRun → SlotRun) : Within sc s0 (s.onSlot n f) :=
  h.onProt _

@[simp] theorem judgeAnnouncement (h : Within sc s0 s) : Within sc s0 s.judgeAnnouncement := by
  unfold State.judgeAnnouncement
  (repeat' split) <;> simp (maxDischargeDepth := 30) [h]

@[simp] theorem operate (h : Within sc s0 s) (n : Nat) (k : ElementKind) (r : Route) (e : Bool) :
    Within sc s0 (s.operate n k r e) := by
  unfold State.operate
  (repeat' split) <;> simp (maxDischargeDepth := 30) [h]

@[simp] theorem evaluateSlot (h : Within sc s0 s) (m : MeasurementSet) (n : Nat) :
    Within sc s0 (State.evaluateSlot m s n) := by
  unfold State.evaluateSlot
  dsimp only
  (repeat' split) <;> simp (maxDischargeDepth := 30) [h]

@[simp] theorem evaluate (h : Within sc s0 s) (m : MeasurementSet) : Within sc s0 (s.evaluate m) :=
  foldl _ (fun _ n w => evaluateSlot w m n) _ _ h

@[simp] theorem releaseSlot (h : Within sc s0 s) (n : Nat) : Within sc s0 (s.releaseSlot n) := by
  unfold State.releaseSlot
  (repeat' split) <;> simp (maxDischargeDepth := 30) [h]

@[simp] theorem releaseHeld (h : Within sc s0 s) : Within sc s0 s.releaseHeld := by
  unfold State.releaseHeld
  split
  · exact h
  · exact foldl _ (fun _ n w => releaseSlot w n) _ _ h

end Sys2Proof.Machine.Within
end

