-- ==== Sys2Proof/Laws/Generator.lean ====
section
/-!
SUPPORT. What the generator role's operations can do (chapter 10).
-/

namespace Sys2Proof.Machine.Within

variable {sc : Scope} {s0 s : State}

@[simp] theorem changeRole (h : Within sc s0 s) (f : DispatchRecord → DispatchRecord) : Within sc s0 (s.changeRole f) :=
  tracking (onDisp h f)

@[simp] theorem judgeWant (h : Within sc s0 s) : Within sc s0 s.judgeWant := by
  unfold State.judgeWant
  (repeat' split) <;> simp (maxDischargeDepth := 30) [h]

@[simp] theorem withdrawEither (h : Within sc s0 s) : Within sc s0 s.withdrawEither := by
  unfold State.withdrawEither
  (repeat' split) <;> simp (maxDischargeDepth := 30) [h]

@[simp] theorem judgeSurplus (h : Within sc s0 s) : Within sc s0 s.judgeSurplus := by
  unfold State.judgeSurplus
  (repeat' split) <;> simp (maxDischargeDepth := 30) [h]

@[simp] theorem enterStandby (h : Within sc s0 s) : Within sc s0 s.enterStandby := by
  unfold State.enterStandby
  simp (maxDischargeDepth := 30) [h]

@[simp] theorem enterStarting (h : Within sc s0 s) : Within sc s0 s.enterStarting := by
  unfold State.enterStarting
  simp (maxDischargeDepth := 30) [h]

@[simp] theorem startEngine (h : Within sc s0 s) : Within sc s0 s.startEngine := by
  unfold State.startEngine
  simp (maxDischargeDepth := 30) [h]

@[simp] theorem enterReady (h : Within sc s0 s) : Within sc s0 s.enterReady := by
  unfold State.enterReady
  simp (maxDischargeDepth := 30) [h]

@[simp] theorem enterOnline (h : Within sc s0 s) : Within sc s0 s.enterOnline := by
  unfold State.enterOnline
  simp (maxDischargeDepth := 30) [h]

@[simp] theorem resumeOnline (h : Within sc s0 s) : Within sc s0 s.resumeOnline := by
  unfold State.resumeOnline
  simp (maxDischargeDepth := 30) [h]

@[simp] theorem enterCooldown (h : Within sc s0 s) : Within sc s0 s.enterCooldown := by
  unfold State.enterCooldown
  dsimp only
  (repeat' split) <;> simp (maxDischargeDepth := 30) [h]

@[simp] theorem unloadTrip (h : Within sc s0 s) : Within sc s0 s.unloadTrip := by
  unfold State.unloadTrip
  (repeat' split) <;> simp (maxDischargeDepth := 30) [h]

@[simp] theorem enterUnloading (h : Within sc s0 s) (r : UnloadReason) : Within sc s0 (s.enterUnloading r) := by
  unfold State.enterUnloading
  simp (maxDischargeDepth := 30) [h]

@[simp] theorem leaveReady (h : Within sc s0 s) : Within sc s0 s.leaveReady := by
  unfold State.leaveReady
  simp (maxDischargeDepth := 30) [h]

@[simp] theorem judgeGenerator (h : Within sc s0 s) : Within sc s0 s.judgeGenerator := by
  unfold State.judgeGenerator
  (repeat' split) <;> simp (maxDischargeDepth := 30) [h]

@[simp] theorem openSources (h : Within sc s0 s) : Within sc s0 s.openSources := by
  unfold State.openSources
  simp (maxDischargeDepth := 30) [h]

@[simp] theorem resumeByOrder (h : Within sc s0 s) : Within sc s0 s.resumeByOrder := by
  unfold State.resumeByOrder
  (repeat' split) <;> simp (maxDischargeDepth := 30) [h]

@[simp] theorem endCooldown (h : Within sc s0 s) : Within sc s0 s.endCooldown := by
  unfold State.endCooldown
  (repeat' split) <;> simp (maxDischargeDepth := 30) [h]

@[simp] theorem orderBecomesStop (h : Within sc s0 s) : Within sc s0 s.orderBecomesStop := by
  unfold State.orderBecomesStop
  (repeat' split) <;> simp (maxDischargeDepth := 30) [h]

@[simp] theorem adoptedOrder (h : Within sc s0 s) (before : State) : Within sc s0 (State.adoptedOrder before s) := by
  unfold State.adoptedOrder
  split <;> simp [h]

@[simp] theorem generatorOrder (h : Within sc s0 s) (o : OrderKind) : Within sc s0 (s.generatorOrder o) := by
  unfold State.generatorOrder
  dsimp only
  (repeat' split) <;> simp (maxDischargeDepth := 30) [h]

@[simp] theorem generatorBarred (h : Within sc s0 s) (b : Bool) : Within sc s0 (s.generatorBarred b) := by
  unfold State.generatorBarred
  (repeat' split) <;> simp (maxDischargeDepth := 30) [h]

@[simp] theorem judgeEngine (h : Within sc s0 s) : Within sc s0 s.judgeEngine := by
  unfold State.judgeEngine
  (repeat' split) <;> simp (maxDischargeDepth := 30) [h]

@[simp] theorem generatorReadyChange (h : Within sc s0 s) : Within sc s0 s.generatorReadyChange := by
  unfold State.generatorReadyChange
  (repeat' split) <;> simp (maxDischargeDepth := 30) [h]

@[simp] theorem generatorFlagChange (h : Within sc s0 s) (l : Bool) : Within sc s0 (State.generatorFlagChange l s) := by
  unfold State.generatorFlagChange
  (repeat' split) <;> simp (maxDischargeDepth := 30) [h]

@[simp] theorem generatorClosed (h : Within sc s0 s) (r : Bool) : Within sc s0 (s.generatorClosed r) := by
  unfold State.generatorClosed
  (repeat' split) <;> simp (maxDischargeDepth := 30) [h]

@[simp] theorem generatorOpened (h : Within sc s0 s) : Within sc s0 s.generatorOpened := by
  unfold State.generatorOpened
  (repeat' split) <;> simp (maxDischargeDepth := 30) [h]

@[simp] theorem startLimitExpired (hb : sc.bar = true) (h : Within sc s0 s) : Within sc s0 s.startLimitExpired := by
  unfold State.startLimitExpired
  simp (maxDischargeDepth := 30) [h, hb]

@[simp] theorem autonomousExpired (h : Within sc s0 s) : Within sc s0 s.autonomousExpired := by
  unfold State.autonomousExpired
  dsimp only
  (repeat' split) <;> simp (maxDischargeDepth := 30) [h]

@[simp] theorem judgeAutonomous (h : Within sc s0 s) : Within sc s0 s.judgeAutonomous := by
  unfold State.judgeAutonomous
  (repeat' split) <;> simp (maxDischargeDepth := 30) [h]

@[simp] theorem minimumExpired (h : Within sc s0 s) : Within sc s0 s.minimumExpired := by
  unfold State.minimumExpired
  simp (maxDischargeDepth := 30) [h]

@[simp] theorem surplusExpired (h : Within sc s0 s) : Within sc s0 s.surplusExpired := by
  unfold State.surplusExpired
  simp (maxDischargeDepth := 30) [h]

@[simp] theorem cooldownExpired (h : Within sc s0 s) : Within sc s0 s.cooldownExpired := by
  unfold State.cooldownExpired
  simp (maxDischargeDepth := 30) [h]

@[simp] theorem generatorRound (h : Within sc s0 s) : Within sc s0 s.generatorRound := by
  unfold State.generatorRound
  (repeat' split) <;> simp (maxDischargeDepth := 30) [h]

@[simp] theorem computeBias (h : Within sc s0 s) : Within sc s0 s.computeBias := by
  unfold State.computeBias
  (repeat' split) <;> simp (maxDischargeDepth := 30) [h]

/-- The bias outputs refreshed (R73). -/
@[simp] theorem refreshBias (hb : sc.bias = true) (h : Within sc s0 s) : Within sc s0 s.refreshBias := by
  unfold State.refreshBias
  (repeat' split) <;> first | exact onEng hb h _ | exact h

@[simp] theorem zeroBias (hb : sc.bias = true) (h : Within sc s0 s) : Within sc s0 s.zeroBias := onEng hb h _

@[simp] theorem reconstruct (h : Within sc s0 s) : Within sc s0 s.reconstruct := by
  unfold State.reconstruct
  dsimp only
  (repeat' split) <;> simp (maxDischargeDepth := 30) [h]

end Sys2Proof.Machine.Within
end

