-- ==== Sys2Proof/Laws/Changeover.lean ====
section
/-!
SUPPORT. What the Changeover Unit's operations can do (chapter 12).
-/

namespace Sys2Proof.Machine.Within

variable {sc : Scope} {s0 s : State}

@[simp] theorem requestOwed (h : Within sc s0 s) : Within sc s0 s.requestOwed := by
  unfold State.requestOwed
  dsimp only
  (repeat' split) <;> simp (maxDischargeDepth := 30) [h]

@[simp] theorem owe (h : Within sc s0 s) (o : OrderKind) : Within sc s0 (s.owe o) := by
  unfold State.owe
  simp (maxDischargeDepth := 30) [h]

@[simp] theorem oweTie (h : Within sc s0 s) (o : OrderKind) (tie : Nat) : Within sc s0 (s.oweTie o tie) := by
  unfold State.oweTie
  simp (maxDischargeDepth := 30) [h]

@[simp] theorem ownOrder (h : Within sc s0 s) (applied : Bool) : Within sc s0 (s.ownOrder applied) := by
  unfold State.ownOrder
  (repeat' split) <;> simp (maxDischargeDepth := 30) [h]

@[simp] theorem moveTo (h : Within sc s0 s) (c : ChangeoverState) : Within sc s0 (s.moveTo c) := by
  unfold State.moveTo
  simp (maxDischargeDepth := 30) [h]

@[simp] theorem postChangeover (h : Within sc s0 s) : Within sc s0 s.postChangeover := by
  have w := h.postWant .changeover
  unfold State.postChangeover
  generalize s.postWant .changeover = p at w ⊢
  obtain ⟨s1, a⟩ := p
  split <;> simp_all

@[simp] theorem withdrawChangeover (h : Within sc s0 s) : Within sc s0 s.withdrawChangeover := by
  unfold State.withdrawChangeover
  simp (maxDischargeDepth := 30) [h]

@[simp] theorem enterRetransfer (h : Within sc s0 s) : Within sc s0 s.enterRetransfer := by
  unfold State.enterRetransfer
  simp (maxDischargeDepth := 30) [h]

@[simp] theorem enterOpenRetransfer (h : Within sc s0 s) : Within sc s0 s.enterOpenRetransfer := by
  unfold State.enterOpenRetransfer
  dsimp only
  (repeat' split) <;> simp (maxDischargeDepth := 30) [h]

@[simp] theorem judgeBackup (h : Within sc s0 s) : Within sc s0 s.judgeBackup := by
  have w : ∀ (l : List Nat) (s : State), Within sc s0 s → Within sc s0 (l.foldl (fun s n => s.oweTie .split n) s) :=
    fun l s h => foldl _ (fun _ n w => oweTie w .split n) l s h
  unfold State.judgeBackup
  dsimp only
  (repeat' split) <;> first
    | (apply w; simp [h])
    | simp (maxDischargeDepth := 30) [h]

@[simp] theorem enterBackup (h : Within sc s0 s) : Within sc s0 s.enterBackup := by
  unfold State.enterBackup
  simp (maxDischargeDepth := 30) [h]

@[simp] theorem judgeIsolating (h : Within sc s0 s) : Within sc s0 s.judgeIsolating := by
  unfold State.judgeIsolating
  (repeat' split) <;> simp (maxDischargeDepth := 30) [h]

@[simp] theorem enterIsolating (h : Within sc s0 s) : Within sc s0 s.enterIsolating := by
  unfold State.enterIsolating
  simp (maxDischargeDepth := 30) [h]

@[simp] theorem enterNormal (h : Within sc s0 s) : Within sc s0 s.enterNormal := by
  unfold State.enterNormal
  dsimp only
  (repeat' split) <;> simp (maxDischargeDepth := 30) [h]

@[simp] theorem judgeParallel (h : Within sc s0 s) : Within sc s0 s.judgeParallel := by
  unfold State.judgeParallel
  (repeat' split) <;> simp (maxDischargeDepth := 30) [h]

@[simp] theorem enterParallel (h : Within sc s0 s) : Within sc s0 s.enterParallel := by
  unfold State.enterParallel
  simp (maxDischargeDepth := 30) [h]

@[simp] theorem leaveParallel (h : Within sc s0 s) : Within sc s0 s.leaveParallel := by
  unfold State.leaveParallel
  simp (maxDischargeDepth := 30) [h]

@[simp] theorem leaveTieWait (h : Within sc s0 s) : Within sc s0 s.leaveTieWait := by
  unfold State.leaveTieWait
  simp (maxDischargeDepth := 30) [h]

@[simp] theorem giveUp (h : Within sc s0 s) : Within sc s0 s.giveUp := by
  unfold State.giveUp
  simp (maxDischargeDepth := 30) [h]

@[simp] theorem enterLocked (h : Within sc s0 s) : Within sc s0 s.enterLocked := by
  unfold State.enterLocked
  simp (maxDischargeDepth := 30) [h]

@[simp] theorem judgeStart (h : Within sc s0 s) : Within sc s0 s.judgeStart := by
  unfold State.judgeStart
  (repeat' split) <;> simp (maxDischargeDepth := 30) [h]

@[simp] theorem monitorChanged (h : Within sc s0 s) (l n : MonitorState) :
    Within sc s0 (State.monitorChanged l n s) := by
  unfold State.monitorChanged
  dsimp only
  (repeat' split) <;> simp (maxDischargeDepth := 30) [h]

@[simp] theorem changeoverClosed (h : Within sc s0 s) (mark : Bool) : Within sc s0 (s.changeoverClosed mark) := by
  unfold State.changeoverClosed
  (repeat' split) <;> simp (maxDischargeDepth := 30) [h]

@[simp] theorem changeoverOpened (h : Within sc s0 s) : Within sc s0 s.changeoverOpened := by
  unfold State.changeoverOpened
  (repeat' split) <;> simp (maxDischargeDepth := 30) [h]

@[simp] theorem changeoverUnrequested (h : Within sc s0 s) : Within sc s0 s.changeoverUnrequested := by
  unfold State.changeoverUnrequested
  (repeat' split) <;> simp (maxDischargeDepth := 30) [h]

@[simp] theorem changeoverClaimIdle (h : Within sc s0 s) (c : Option ReleaseCause) (m : Bool) :
    Within sc s0 (s.changeoverClaimIdle c m) := by
  unfold State.changeoverClaimIdle
  (repeat' split) <;> simp (maxDischargeDepth := 30) [h]

@[simp] theorem changeoverClaimTest (h : Within sc s0 s) (k : Nat) : Within sc s0 (s.changeoverClaimTest k) := by
  unfold State.changeoverClaimTest
  (repeat' split) <;> simp (maxDischargeDepth := 30) [h]

@[simp] theorem changeoverHoldLost (h : Within sc s0 s) : Within sc s0 s.changeoverHoldLost := by
  unfold State.changeoverHoldLost
  (repeat' split) <;> simp (maxDischargeDepth := 30) [h]

@[simp] theorem changeoverLockoutEnd (h : Within sc s0 s) : Within sc s0 s.changeoverLockoutEnd := by
  unfold State.changeoverLockoutEnd
  simp (maxDischargeDepth := 30) [h]

@[simp] theorem changeoverLiveChange (h : Within sc s0 s) (live : Bool) :
    Within sc s0 (s.changeoverLiveChange live) := by
  unfold State.changeoverLiveChange
  (repeat' split) <;> simp (maxDischargeDepth := 30) [h]

@[simp] theorem changeoverFaultChange (h : Within sc s0 s) (faulted : Bool) :
    Within sc s0 (s.changeoverFaultChange faulted) := by
  unfold State.changeoverFaultChange
  (repeat' split) <;> simp (maxDischargeDepth := 30) [h]

@[simp] theorem changeoverJoined (h : Within sc s0 s) : Within sc s0 s.changeoverJoined := by
  unfold State.changeoverJoined
  (repeat' split) <;> simp (maxDischargeDepth := 30) [h]

@[simp] theorem changeoverDelivery (h : Within sc s0 s) : Within sc s0 s.changeoverDelivery := by
  unfold State.changeoverDelivery
  dsimp only
  (repeat' split) <;> simp (maxDischargeDepth := 30) [h]

@[simp] theorem changeoverRound (h : Within sc s0 s) : Within sc s0 s.changeoverRound := by
  unfold State.changeoverRound
  dsimp only
  (repeat' split) <;> simp (maxDischargeDepth := 30) [h]

@[simp] theorem maintenanceOpen (h : Within sc s0 s) : Within sc s0 s.maintenanceOpen := by
  unfold State.maintenanceOpen
  dsimp only
  (repeat' split) <;> simp (maxDischargeDepth := 30) [h]

@[simp] theorem maintenanceClose (h : Within sc s0 s) : Within sc s0 s.maintenanceClose := by
  unfold State.maintenanceClose
  split <;> simp (maxDischargeDepth := 30) [h]

@[simp] theorem rideExpired (h : Within sc s0 s) : Within sc s0 s.rideExpired := by
  unfold State.rideExpired
  dsimp only
  (repeat' split) <;> simp (maxDischargeDepth := 30) [h]

@[simp] theorem returnExpired (h : Within sc s0 s) : Within sc s0 s.returnExpired := by
  unfold State.returnExpired
  dsimp only
  (repeat' split) <;> simp (maxDischargeDepth := 30) [h]

@[simp] theorem tieAssistExpired (h : Within sc s0 s) : Within sc s0 s.tieAssistExpired := by
  unfold State.tieAssistExpired
  dsimp only
  (repeat' split) <;> simp (maxDischargeDepth := 30) [h]

@[simp] theorem parallelExpired (h : Within sc s0 s) : Within sc s0 s.parallelExpired := by
  unfold State.parallelExpired
  dsimp only
  (repeat' split) <;> simp (maxDischargeDepth := 30) [h]

@[simp] theorem monitorTake (h : Within sc s0 s) (gap : Bool) (m : MeasurementSet) :
    Within sc s0 (s.monitorTake gap m) := by
  unfold State.monitorTake
  dsimp only
  (repeat' split) <;> simp (maxDischargeDepth := 30) [h]

end Sys2Proof.Machine.Within
end

