-- ==== Sys2Proof/Laws/Roles.lean ====
section
/-!
SUPPORT. What the tie and feeder roles' operations, the island tables' operations and the operate record's can do (chapters
11 to 13).
-/

namespace Sys2Proof.Machine.Within

variable {sc : Scope} {s0 s : State}

/-! ### Tie Logic (R173) -/

@[simp] theorem setTie (h : Within sc s0 s) (t : TieRecord) : Within sc s0 (s.setTie t) := tracking (onTie h _)

@[simp] theorem tieToIdle (h : Within sc s0 s) : Within sc s0 s.tieToIdle := by
  unfold State.tieToIdle
  simp (maxDischargeDepth := 30) [h]

@[simp] theorem tieAssist (h : Within sc s0 s) (n : Nat) : Within sc s0 (s.tieAssist n) := by
  unfold State.tieAssist
  (repeat' split) <;> simp (maxDischargeDepth := 30) [h]

@[simp] theorem tieMerge (h : Within sc s0 s) : Within sc s0 s.tieMerge.1 := by
  unfold State.tieMerge
  split <;> simp (maxDischargeDepth := 30) [h]

@[simp] theorem tieTrip (h : Within sc s0 s) : Within sc s0 s.tieTrip := by
  unfold State.tieTrip
  (repeat' split) <;> simp (maxDischargeDepth := 30) [h]

@[simp] theorem tieSplit (h : Within sc s0 s) : Within sc s0 s.tieSplit := by
  unfold State.tieSplit
  (repeat' split) <;> simp (maxDischargeDepth := 30) [h]

@[simp] theorem tieOpened (h : Within sc s0 s) : Within sc s0 s.tieOpened := by
  unfold State.tieOpened
  (repeat' split) <;> simp (maxDischargeDepth := 30) [h]

@[simp] theorem tieClosed (h : Within sc s0 s) (mark : Bool) : Within sc s0 (s.tieClosed mark) := by
  unfold State.tieClosed
  (repeat' split) <;> simp (maxDischargeDepth := 30) [h]

@[simp] theorem tieClaimIdle (h : Within sc s0 s) (c m : Bool) : Within sc s0 (s.tieClaimIdle c m) := by
  unfold State.tieClaimIdle
  (repeat' split) <;> simp (maxDischargeDepth := 30) [h]

@[simp] theorem tieUnrequested (h : Within sc s0 s) : Within sc s0 s.tieUnrequested := by
  unfold State.tieUnrequested
  (repeat' split) <;> simp (maxDischargeDepth := 30) [h]

@[simp] theorem tieGiveUp (h : Within sc s0 s) : Within sc s0 s.tieGiveUp := by
  unfold State.tieGiveUp
  simp (maxDischargeDepth := 30) [h]

@[simp] theorem tieJudgeIncomer (h : Within sc s0 s) (n : Nat) : Within sc s0 (s.tieJudgeIncomer n) := by
  unfold State.tieJudgeIncomer
  (repeat' split) <;> simp (maxDischargeDepth := 30) [h]

@[simp] theorem tieFaulted (h : Within sc s0 s) : Within sc s0 s.tieFaulted := by
  unfold State.tieFaulted
  (repeat' split) <;> simp (maxDischargeDepth := 30) [h]

/-! ### The feeder's own station (R159 to R162) -/

@[simp] theorem requestFeeder (h : Within sc s0 s) (f : OrderedFrame) (r : FeederRequest) :
    Within sc s0 (s.requestFeeder f r) := by
  unfold State.requestFeeder
  (repeat' split) <;> simp (maxDischargeDepth := 30) [h]

@[simp] theorem settleMarks (h : Within sc s0 s) : Within sc s0 s.settleMarks := by
  unfold State.settleMarks
  (repeat' split) <;> simp (maxDischargeDepth := 30) [h]

@[simp] theorem dueRequest (h : Within sc s0 s) : Within sc s0 s.dueRequest := by
  unfold State.dueRequest
  (repeat' split) <;> simp (maxDischargeDepth := 30) [h]

@[simp] theorem judgeFeeder (h : Within sc s0 s) : Within sc s0 s.judgeFeeder := by
  unfold State.judgeFeeder
  (repeat' split) <;> simp (maxDischargeDepth := 30) [h]

@[simp] theorem oweWithdraw (h : Within sc s0 s) : Within sc s0 s.oweWithdraw := by
  unfold State.oweWithdraw
  simp (maxDischargeDepth := 30) [h]

@[simp] theorem giveUpPlace (h : Within sc s0 s) : Within sc s0 s.giveUpPlace := by
  unfold State.giveUpPlace
  (repeat' split) <;> simp (maxDischargeDepth := 30) [h]

@[simp] theorem oweAdmit (h : Within sc s0 s) : Within sc s0 s.oweAdmit := by
  unfold State.oweAdmit
  simp (maxDischargeDepth := 30) [h]

@[simp] theorem judgeFeederClose (h : Within sc s0 s) : Within sc s0 s.judgeFeederClose := by
  unfold State.judgeFeederClose
  (repeat' split) <;> simp (maxDischargeDepth := 30) [h]

@[simp] theorem judgeFeederWithdraw (h : Within sc s0 s) : Within sc s0 s.judgeFeederWithdraw := by
  unfold State.judgeFeederWithdraw
  (repeat' split) <;> simp (maxDischargeDepth := 30) [h]

@[simp] theorem feederOpened (h : Within sc s0 s) (l : List TripSource) : Within sc s0 (s.feederOpened l) := by
  unfold State.feederOpened
  (repeat' split) <;> simp (maxDischargeDepth := 30) [h]

@[simp] theorem feederCloseFailed (h : Within sc s0 s) : Within sc s0 s.feederCloseFailed := by
  unfold State.feederCloseFailed
  simp (maxDischargeDepth := 30) [h]

@[simp] theorem feederAborted (h : Within sc s0 s) (src : TripSource) : Within sc s0 (s.feederAborted src) := by
  unfold State.feederAborted
  (repeat' split) <;> simp (maxDischargeDepth := 30) [h]

@[simp] theorem feederUnrequested (h : Within sc s0 s) : Within sc s0 s.feederUnrequested := by
  unfold State.feederUnrequested
  (repeat' split) <;> simp (maxDischargeDepth := 30) [h]

@[simp] theorem ownAdmit (h : Within sc s0 s) (applied : Bool) : Within sc s0 (s.ownAdmit applied) := by
  unfold State.ownAdmit
  simp (maxDischargeDepth := 30) [h]

@[simp] theorem ownWithdraw (h : Within sc s0 s) (applied : Bool) : Within sc s0 (s.ownWithdraw applied) := by
  unfold State.ownWithdraw
  simp (maxDischargeDepth := 30) [h]

@[simp] theorem feederLeft (h : Within sc s0 s) (n : Nat) : Within sc s0 (s.feederLeft n) := by
  unfold State.feederLeft
  (repeat' split) <;> simp (maxDischargeDepth := 30) [h]

@[simp] theorem feederShed (h : Within sc s0 s) (n : Nat) : Within sc s0 (s.feederShed n) := by
  unfold State.feederShed
  (repeat' split) <;> simp (maxDischargeDepth := 30) [h]

@[simp] theorem feederAdmitted (h : Within sc s0 s) (n : Nat) : Within sc s0 (s.feederAdmitted n) := by
  unfold State.feederAdmitted
  (repeat' split) <;> simp (maxDischargeDepth := 30) [h]

/-! ### The island tables (R142, R143, R152 to R158) -/

@[simp] theorem onIsland (hi : sc.isl = true) (h : Within sc s0 s) (i : BusSection) (f : IslandTables → IslandTables) :
    Within sc s0 (s.onIsland i f) := onIsl hi h _

@[simp] theorem recomputeCapacity (hi : sc.isl = true) (h : Within sc s0 s) : Within sc s0 s.recomputeCapacity :=
  onIsl hi h _

@[simp] theorem judgeRunList (hi : sc.isl = true) (h : Within sc s0 s) (n : Nat) :
    Within sc s0 (s.judgeRunList n) := by
  unfold State.judgeRunList
  (repeat' split) <;> first | exact onIsl hi h _ | exact h

@[simp] theorem regroup (hi : sc.isl = true) (h : Within sc s0 s) (before : State) :
    Within sc s0 (State.regroup before s) := by
  unfold State.regroup
  split <;> first | exact onIsl hi h _ | exact h

@[simp] theorem moveFeeder (hi : sc.isl = true) (h : Within sc s0 s) (i : BusSection) (n : Nat)
    (f : IslandTables → IslandTables) : Within sc s0 (s.moveFeeder i n f) := by
  unfold State.moveFeeder
  split
  · exact tracking (onIsland hi h i f)
  · exact onIsland hi h i f

@[simp] theorem appendAdmitted (hi : sc.isl = true) (h : Within sc s0 s) (i : BusSection) (n : Nat) :
    Within sc s0 (s.appendAdmitted i n) := by
  unfold State.appendAdmitted
  simp (maxDischargeDepth := 30) [h, hi]

@[simp] theorem applyAdmit (hi : sc.isl = true) (h : Within sc s0 s) (n : Nat) (b : Bool) :
    Within sc s0 (s.applyAdmit n b) := by
  unfold State.applyAdmit
  dsimp only
  (repeat' split) <;> simp (maxDischargeDepth := 30) [h, hi]

@[simp] theorem leaveWaiting (hi : sc.isl = true) (h : Within sc s0 s) (n : Nat) : Within sc s0 (s.leaveWaiting n) :=
  onIsl hi h _

@[simp] theorem leaveAdmitted (hi : sc.isl = true) (h : Within sc s0 s) (n : Nat) : Within sc s0 (s.leaveAdmitted n) :=
  onIsl hi h _

@[simp] theorem applyWithdraw (hi : sc.isl = true) (h : Within sc s0 s) (n : Nat) :
    Within sc s0 (s.applyWithdraw n) := by
  unfold State.applyWithdraw
  (repeat' split) <;> simp (maxDischargeDepth := 30) [h, hi]

@[simp] theorem returnEntry (hi : sc.isl = true) (h : Within sc s0 s) (i : BusSection) (e : AdmitEntry) :
    Within sc s0 (s.returnEntry i e) := by
  unfold State.returnEntry
  simp (maxDischargeDepth := 30) [h, hi]

@[simp] theorem returnSection (hi : sc.isl = true) (h : Within sc s0 s) (before : State) (x : BusSection) :
    Within sc s0 (State.returnSection before s x) := by
  unfold State.returnSection
  split
  · exact foldl _ (fun _ e w => feederLeft (returnEntry hi w _ e) _) _ _ h
  · exact h

@[simp] theorem shedStep (hi : sc.isl = true) (i : BusSection) :
    ∀ (k : Nat) (s : State), Within sc s0 s → Within sc s0 (State.shedStep i k s) := by
  intro k
  induction k with
  | zero => intro s h; exact h
  | succ k ih =>
    intro s h
    unfold State.shedStep
    (repeat' split) <;> first | exact h | exact ih _ (feederShed (returnEntry hi h _ _) _)

@[simp] theorem admitStep (hi : sc.isl = true) (i : BusSection) :
    ∀ (k : Nat) (s : State), Within sc s0 s → Within sc s0 (State.admitStep i k s) := by
  intro k
  induction k with
  | zero => intro s h; exact h
  | succ k ih =>
    intro s h
    unfold State.admitStep
    (repeat' split) <;> first | exact h | exact ih _ (appendAdmitted hi (onIsland hi h _ _) _ _)

@[simp] theorem shedThenAdmit (hi : sc.isl = true) (h : Within sc s0 s) (i : BusSection) : Within sc s0 (s.shedThenAdmit i) :=
  admitStep hi i _ _ (shedStep hi i _ _ h)

@[simp] theorem shedAll (hi : sc.isl = true) (h : Within sc s0 s) (before : State) : Within sc s0 (State.shedAll before s) :=
  foldl _ (fun _ i w => shedThenAdmit hi w i) _ _ h

/-! ### The operate record (R179, R180) -/

/-- An operation in progress ends. -/
theorem endOperation (h : Within sc s0 s) (hp : s.port.state = .inProgress) (st : OperateState)
    (hst : ¬ st = .inProgress) (r : Option OperateReason) : Within sc s0 (s.endOperation st r) :=
  (h.onPort (fun p => { p with state := st, reason := r, limit := none }) rfl rfl (fun q => absurd hp q)
    (fun _ => by simp [hst]) (fun a => a)).attend

@[simp] theorem operateClosed (h : Within sc s0 s) : Within sc s0 s.operateClosed := by
  unfold State.operateClosed
  split
  · rename_i c
    refine h.endOperation ?_ .done (by decide) none
    simp only [State.closingByClaim, State.operating] at c
    simp_all
    tauto
  · exact h

@[simp] theorem operateOpened (h : Within sc s0 s) : Within sc s0 s.operateOpened := by
  unfold State.operateOpened
  split
  · rename_i c
    refine h.endOperation ?_ .done (by decide) none
    simp only [State.operatingOpen, State.operating] at c
    simp_all
    tauto
  · exact h

@[simp] theorem operateClaimIdle (h : Within sc s0 s) (c : Option ReleaseCause) (b : Bool) :
    Within sc s0 (s.operateClaimIdle c b) := by
  unfold State.operateClaimIdle
  split
  · rename_i c
    refine h.endOperation ?_ .refused (by decide) _
    simp only [State.closingByClaim, State.operating] at c
    simp_all
    tauto
  · exact h

@[simp] theorem judgeOperation (h : Within sc s0 s) : Within sc s0 s.judgeOperation := by
  unfold State.judgeOperation
  (repeat' split)
  · rename_i c
    refine h.endOperation ?_ .done (by decide) none
    simp only [State.operatingOpen, State.operating] at c
    simp_all
    tauto
  · rename_i c
    refine h.endOperation ?_ .done (by decide) none
    simp only [State.operating] at c
    simp_all
  · exact h

@[simp] theorem actOpen (h : Within sc s0 s) : Within sc s0 s.actOpen.1 := by
  unfold State.actOpen
  dsimp only
  (repeat' split) <;> simp (maxDischargeDepth := 30) [h]

@[simp] theorem actMerge (h : Within sc s0 s) : Within sc s0 s.actMerge.1 := by
  have w := h.tieMerge
  unfold State.actMerge
  generalize s.tieMerge = p at w ⊢
  obtain ⟨s1, b⟩ := p
  cases b <;> exact w

@[simp] theorem actClose (h : Within sc s0 s) : Within sc s0 s.actClose.1 := by
  have w := h.postWant .maintenance
  unfold State.actClose
  generalize s.postWant .maintenance = p at w ⊢
  obtain ⟨s1, a⟩ := p
  dsimp only
  (repeat' split) <;> simp_all

@[simp] theorem setBar (hb : sc.bar = true) (h : Within sc s0 s) (on : Bool) : Within sc s0 (s.setBar on) :=
  (setLatch hb h on).tellBarred _

@[simp] theorem act (hb : sc.bar = true) (h : Within sc s0 s) (o : Operation) : Within sc s0 (s.act o).1 := by
  unfold State.act
  dsimp only
  (repeat' split) <;> simp [h, hb]

@[simp] theorem withdrawOperation (h : Within sc s0 s) : Within sc s0 s.withdrawOperation := by
  unfold State.withdrawOperation
  (repeat' split) <;> simp [h]

theorem operateTimedOut (h : Within sc s0 s) (hp : s.port.state = .inProgress) : Within sc s0 s.operateTimedOut :=
  (h.endOperation hp .timedOut (by decide) _).withdrawOperation

end Sys2Proof.Machine.Within
end

