-- ==== Sys2Proof/Laws/Settle.lean ====
section
/-!
SUPPORT. What follows an event's own work can do: hand-ons, and what is judged at its end (log 5).
-/

namespace Sys2Proof.Machine.Within

variable {sc : Scope} {s0 s : State}

@[simp] theorem roleOpened (h : Within sc s0 s) (l : List TripSource) : Within sc s0 (s.roleOpened l) := by
  unfold State.roleOpened
  (repeat' split) <;> simp (maxDischargeDepth := 30) [h]

@[simp] theorem roleClosed (h : Within sc s0 s) (m : Bool) : Within sc s0 (s.roleClosed m) := by
  unfold State.roleClosed
  (repeat' split) <;> simp (maxDischargeDepth := 30) [h]

@[simp] theorem roleUnrequested (h : Within sc s0 s) : Within sc s0 s.roleUnrequested := by
  unfold State.roleUnrequested
  (repeat' split) <;> simp (maxDischargeDepth := 30) [h]

@[simp] theorem roleClaimIdle (h : Within sc s0 s) (c : Option ReleaseCause) (a b : Bool) :
    Within sc s0 (s.roleClaimIdle c a b) := by
  unfold State.roleClaimIdle
  (repeat' split) <;> simp (maxDischargeDepth := 30) [h]

@[simp] theorem takeNews (h : Within sc s0 s) (n : News) : Within sc s0 (s.takeNews n) := by
  unfold State.takeNews
  (repeat' split) <;> simp (maxDischargeDepth := 30) [h]

theorem settleFor (k : Nat) : ∀ s, Within sc s0 s → Within sc s0 (Machine.settleFor k s) := by
  induction k with
  | zero => intro s h; exact h
  | succ k ih =>
    intro s h
    unfold Machine.settleFor
    split
    · exact h
    · exact ih _ (foldl _ (fun _ n w => takeNews w n) _ _ (h.news []))

@[simp] theorem settle (h : Within sc s0 s) : Within sc s0 s.settle := settleFor _ s h

@[simp] theorem wrapUp (h : Within sc s0 s) : Within sc s0 s.wrapUp := by
  unfold State.wrapUp
  simp (maxDischargeDepth := 30) [h]

/-- What follows an event's own work stays within every scope. -/
@[simp] theorem finish (h : Within sc s0 s) (before : State) : Within sc s0 (State.finish before s) := by
  unfold State.finish
  exact ((h.settle.wrapUp.settle).news []).changeStatus _

end Sys2Proof.Machine.Within

namespace Sys2Proof.Machine

/-- Between events nothing waits to be handed on (log 5). -/
theorem finish_news (before s : State) : (State.finish before s).news = [] := by
  unfold State.finish State.changeStatus
  split
  · rfl
  · dsimp only
    split <;> rfl

end Sys2Proof.Machine
end

