-- ==== Sys2Proof/Laws/Delivery.lean ====
section
/-!
SUPPORT. What leaving and regaining step, adoption, founding and the work of a delivery can do (chapters 1 and 3).
-/

namespace Sys2Proof.Machine.Within

variable {sc : Scope} {s0 s : State}

/-! ### Step (R36 to R51) -/

@[simp] theorem loseStep (hs : sc.step = true) (h : Within sc s0 s) : Within sc s0 s.loseStep :=
  requestStatus (purgeOrdered (onStep hs h _ rfl)) _

@[simp] theorem enterDesync (hs : sc.step = true) (h : Within sc s0 s) : Within sc s0 s.enterDesync := by
  unfold State.enterDesync
  split
  · exact (loseStep hs h).suspendClaim
  · exact h

@[simp] theorem becomeInStep (hs : sc.step = true) (h : Within sc s0 s) : Within sc s0 s.becomeInStep := by
  unfold State.becomeInStep
  exact (onStep hs h _ rfl).resumeClaim

@[simp] theorem voidAdoption (hs : sc.step = true) (h : Within sc s0 s) : Within sc s0 s.voidAdoption := by
  unfold State.voidAdoption
  dsimp only
  split
  · exact loseStep hs (onStep hs h _ rfl)
  · exact onStep hs h _ rfl

@[simp] theorem meetEpoch (hs : sc.step = true) (h : Within sc s0 s) (e : EpochId) :
    Within sc s0 (s.meetEpoch e) := by
  unfold State.meetEpoch
  split
  · exact h
  · exact onStep hs h _ rfl

@[simp] theorem judgeSummary (hs : sc.step = true) (h : Within sc s0 s) : Within sc s0 s.judgeSummary := by
  unfold State.judgeSummary
  (repeat' split) <;> simp (maxDischargeDepth := 30) [h, hs]

@[simp] theorem retrySummary (hs : sc.step = true) (h : Within sc s0 s) : Within sc s0 s.retrySummary := by
  unfold State.retrySummary
  have w : Within sc s0 (s.onStep fun t => { t with pairRefused := false }) := onStep hs h _ rfl
  dsimp only
  (repeat' split) <;> simp [w, h, hs]

@[simp] theorem advanceFounding (hs : sc.step = true) (h : Within sc s0 s) : Within sc s0 s.advanceFounding := by
  unfold State.advanceFounding
  split <;> exact onStep hs h _ rfl

@[simp] theorem zeroStamps (hs : sc.secs = true) (hd : sc.delivery = true) (hi : sc.isl = true) (h : Within sc s0 s) :
    Within sc s0 s.zeroStamps :=
  onIsl hi (h.onPic _ rfl (fun _ => rfl) (fun _ _ => rfl) (fun p => by simp [hd] at p) (fun _ => rfl) (fun _ => rfl)
    (fun _ x => by simp [SectionRecord.derivedPart]) (fun x => by simp) fun p => by simp [hs] at p) _

@[simp] theorem found (hs : sc.secs = true) (hd : sc.delivery = true) (hi : sc.isl = true) (ht : sc.step = true)
    (h : Within sc s0 s) : Within sc s0 s.found :=
  becomeInStep ht (onStep ht (zeroStamps hs hd hi h) _ rfl)

/-- The carried table (R46). -/
theorem adoptTable (ht : sc.table = true) (h : Within sc s0 s) (p : SummaryOne) : Within sc s0 (s.adoptTable p) := by
  refine h.onPic _ ?_ (fun q => by simp [ht] at q) (fun q => by simp [ht] at q) (fun _ => rfl) (fun _ => rfl)
    (fun _ => rfl) (fun _ _ => rfl) (fun _ => rfl) (fun _ _ => rfl)
  apply List.ext_getElem
  · simp
  · intro i h1 h2
    simp only [List.getElem_map, List.getElem_mapIdx]
    split
    · unfold StationEntry.adopt StationEntry.adoptedLapse
      split <;> rfl
    · rfl

/-- A part 1 taken (R46). -/
theorem adoptOne (ht : sc.table = true) (hs : sc.step = true) (hd : sc.delivery = true) (hc : sc.secs = true)
    (hi : sc.isl = true) (h : Within sc s0 s) (k : Header) (p : SummaryOne) : Within sc s0 (s.adoptOne k p) := by
  unfold State.adoptOne
  refine meetEpoch hs (onStep hs (onIsl hi (onPic ?_ _ ?_ ?_ ?_ ?_ ?_ ?_ ?_ ?_ ?_) _) _ rfl) _
  · refine onEntry ht (adoptTable ht ?_ p) _ _ fun _ => rfl
    split <;> simp [h, hs]
  · rfl
  · exact fun _ => rfl
  · exact fun _ _ => rfl
  · exact fun q => by simp [hd] at q
  · exact fun _ => rfl
  · exact fun _ => rfl
  · exact fun _ x => by simp [SectionRecord.derivedPart]
  · exact fun x => by simp
  · exact fun q => by simp [hc] at q

@[simp] theorem adoptLists (hi : sc.isl = true) (h : Within sc s0 s) (l : List SummaryIsland) :
    Within sc s0 (s.adoptLists l) :=
  foldl _ (fun _ _ w => onIsland hi w _ _) _ _ h

/-- A part 2 that completes an adoption (R48). -/
theorem adoptTwo (hs : sc.step = true) (hc : sc.secs = true) (hi : sc.isl = true) (h : Within sc s0 s) (p : SummaryTwo) :
    Within sc s0 (s.adoptTwo p) := by
  unfold State.adoptTwo
  refine becomeInStep hs (onStep hs (recomputeCapacity hi (adoptLists hi (onSecs hc h
    (fun q x => { q.secs.get x with lastOrder := p.lastOrders.get x }) fun _ => rfl) _)) _ rfl)

/-! ### Deliveries (R1) -/

theorem countDelivery (hd : sc.delivery = true) (h : Within sc s0 s) : Within sc s0 s.countDelivery :=
  h.onPic _ rfl (fun _ => rfl) (fun _ _ => rfl) (fun p => by simp [hd] at p) (fun _ => rfl) (fun _ => rfl)
    (fun _ _ => rfl) (fun _ => rfl) fun _ _ => rfl

theorem noteSource (ht : sc.table = true) (hs : sc.step = true) (h : Within sc s0 s) (k : FrameKind) (len : Nat)
    (d : Header) : Within sc s0 (s.noteSource k len d) := by
  have w : Within sc s0 (s.onEntry d.source (StationEntry.hear d.seq)) := onEntry ht h _ _ fun _ => rfl
  unfold State.noteSource
  simp [w, hs]

theorem derive (hd : sc.derived = true) (h : Within sc s0 s) : Within sc s0 s.derive := by
  unfold State.derive State.deriveSections
  have w : Within sc s0 s.deriveQuorum :=
    h.onPic _ rfl (fun _ => rfl) (fun _ _ => rfl) (fun _ => rfl) (fun p => by simp [hd] at p) (fun p => by simp [hd] at p)
      (fun _ _ => rfl) (fun _ => rfl) fun _ _ => rfl
  exact w.onPic _ rfl (fun _ => rfl) (fun _ _ => rfl) (fun _ => rfl) (fun _ => rfl) (fun _ => rfl)
    (fun p => by simp [hd] at p) (fun x => by simp) fun _ x => by simp [SectionRecord.tokenPart]

@[simp] theorem judgeQuorum (h : Within sc s0 s) (before : State) : Within sc s0 (State.judgeQuorum before s) := by
  unfold State.judgeQuorum
  simp [h]

/-- Work on the tables that stays within a scope wherever it begins. -/
def Stays (sc : Scope) (f : State → State) : Prop := ∀ s0 s, Within sc s0 s → Within sc s0 (f s)

theorem tokenWork (hs : sc.secs = true) (hl : sc.lapse = true) {own : State → State} (w : Stays sc own)
    (h : Within sc s0 s) (before : State) (departed : Option Nat) (ended : SectionSet) :
    Within sc s0 (State.tokenWork before departed ended own s) := by
  unfold State.tokenWork
  refine grantChecks hs (w _ _ (foldl _ (fun _ x v => faultSection hs v x) _ _ ?_)) _
  split
  · exact freeStation hs (startLapse hl h _) _
  · exact h

theorem listWork (hi : sc.isl = true) {own : State → State} (w : Stays sc own) (h : Within sc s0 s) (before : State)
    (due : Bool) : Within sc s0 (State.listWork before due own s) := by
  unfold State.listWork
  split
  · split
    · exact recomputeCapacity hi h
    · exact h
  · refine shedAll hi (w _ _ ?_) _
    have v : Within sc s0 (State.regroup before
        ((BusSection.all.filter fun x => (before.sec x).live && !(s.sec x).live).foldl (State.returnSection before) s)) :=
      regroup hi (foldl _ (fun _ x v => returnSection hi v before x) _ _ h) before
    split
    · exact recomputeCapacity hi v
    · exact v

@[simp] theorem roleFlags (h : Within sc s0 s) (before : State) : Within sc s0 (State.roleFlags before s) := by
  unfold State.roleFlags
  dsimp only
  have a : Within sc s0 (if !((before.sec s.ownSec).faulted == (s.sec s.ownSec).faulted) then
      s.changeoverFaultChange (s.sec s.ownSec).faulted else s) := by simp [h]
  generalize (if !((before.sec s.ownSec).faulted == (s.sec s.ownSec).faulted) then
      s.changeoverFaultChange (s.sec s.ownSec).faulted else s) = s1 at a ⊢
  have b : Within sc s0 (if !((before.sec s.ownSec).live == (s.sec s.ownSec).live) then
      s1.changeoverLiveChange (s.sec s.ownSec).live else s1) := by simp [a]
  generalize (if !((before.sec s.ownSec).live == (s.sec s.ownSec).live) then
      s1.changeoverLiveChange (s.sec s.ownSec).live else s1) = s2 at b ⊢
  have c : Within sc s0 (if s.islandShared s.ownSec && !before.islandShared s.ownSec then s2.changeoverJoined else s2) := by
    simp [b]
  generalize (if s.islandShared s.ownSec && !before.islandShared s.ownSec then s2.changeoverJoined else s2) = s3 at c ⊢
  simp [c]

/-- The tables' own work of a delivery (R1 step 6). -/
theorem handOn (hs : sc.secs = true) (hl : sc.lapse = true) (hi : sc.isl = true) {w : HandOn} (wt : Stays sc w.tokens)
    (wc : Stays sc w.claim) (wl : Stays sc w.lists) (wz : Stays sc w.zone) (h : Within sc s0 s) (before : State) :
    Within sc s0 (State.handOn w before s) := by
  unfold State.handOn
  exact (wz _ _ (listWork hi wl (wc _ _ (tokenWork hs hl wt h before _ _).judgePlace).seeGrant before _)).roleFlags before

theorem stays_id (sc : Scope) : Stays sc id := fun _ _ h => h

/-- A delivery that asks nothing of its own. -/
theorem handOnQuiet (hs : sc.secs = true) (hl : sc.lapse = true) (hi : sc.isl = true) (h : Within sc s0 s)
    (before : State) : Within sc s0 (State.handOn HandOn.quiet before s) :=
  handOn hs hl hi (stays_id sc) (stays_id sc) (stays_id sc) (stays_id sc) h before

@[simp] theorem endDelivery (h : Within sc s0 s) : Within sc s0 s.endDelivery := by
  unfold State.endDelivery
  dsimp only
  simp (maxDischargeDepth := 30) [h]

/-- A delivery's picture and work both stay within the scope (R1). -/
theorem deliver (hd : sc.delivery = true) (ht : sc.table = true) (hs : sc.step = true) (hv : sc.derived = true)
    {picture : State → State} {work : State → State → State} (wp : Stays sc picture)
    (ww : ∀ before, Stays sc (work before)) (h : Within sc s0 s) (k : FrameKind) (len : Nat) (d : Header) :
    Within sc s0 (s.deliver k len d picture work) := by
  have c := countDelivery hd h
  unfold State.deliver
  dsimp only
  split
  · exact ((ww s _ _ ((derive hv (wp _ _ (noteSource ht hs c k len d))).judgeQuorum s)).settle).endDelivery
  · exact c

@[simp] theorem voidBy (hs : sc.step = true) (h : Within sc s0 s) (n : Nat) : Within sc s0 (s.voidBy n) := by
  unfold State.voidBy
  (repeat' split) <;> simp (maxDischargeDepth := 30) [h, hs]

end Sys2Proof.Machine.Within
end

