-- ==== Sys2Proof/Laws/Frames.lean ====
section
/-!
SUPPORT. What the frame commands and a frame in which a code names no value can do: the picture and the work of each
stays within its own scope, and after the picture work nothing touches the Station Table (its lapse states apart), the
delivery number or the derived values.
-/

namespace Sys2Proof.Machine.Within

variable {sc : Scope} {s0 s : State}

/-! ### STATUS -/

@[simp] theorem mismatchPicture (ht : sc.table = true) (h : Within sc s0 s) (d : Header) :
    Within sc s0 (s.mismatchPicture d) := by
  unfold State.mismatchPicture
  split
  · exact h
  · have w : Within sc s0 (s.onEntry d.source fun e =>
        { e with presence := .mismatched, stale := e.stale || e.content.isSome, silence := 0 }) :=
      onEntry ht h _ _ fun _ => rfl
    exact w.raise .digestMismatch _ (by simp)

@[simp] theorem statusPicture (ht : sc.table = true) (h : Within sc s0 s) (d : Header) (b : StatusBody) :
    Within sc s0 (s.statusPicture d b) := by
  unfold State.statusPicture
  (repeat' split)
  · exact onEntry ht h _ _ fun _ => rfl
  · exact mismatchPicture ht h d

@[simp] theorem crossCheck (hs : sc.step = true) (h : Within sc s0 s) (n : Nat) (b : StatusBody) :
    Within sc s0 (s.crossCheck n b) := by
  unfold State.crossCheck
  simp [h, hs]

@[simp] theorem newerEpoch (hs : sc.step = true) (h : Within sc s0 s) (b : StatusBody) : Within sc s0 (s.newerEpoch b) := by
  unfold State.newerEpoch
  (repeat' split) <;> simp [h, hs]

@[simp] theorem hearInStep (hs : sc.step = true) (h : Within sc s0 s) (b : StatusBody) : Within sc s0 (s.hearInStep b) := by
  unfold State.hearInStep
  split
  · exact onStep hs h _ rfl
  · exact h

theorem statusWork (hc : sc.secs = true) (hl : sc.lapse = true) (hi : sc.isl = true) (hs : sc.step = true)
    (hz : sc.lists = true) (h : Within sc s0 s) (d : Header) (b : StatusBody) (before : State) :
    Within sc s0 (State.statusWork d b before s) := by
  unfold State.statusWork
  dsimp only
  refine voidBy hs ?_ _
  have w : Within sc s0 (State.handOn { HandOn.quiet with
      ended := State.endedClosing d.source before s
      claim := State.tieJudgeIncomer d.source
      capacityDue := State.capacityChanged d.source before s
      lists := fun t => if t.kindOf d.source == some .generator then t.judgeRunList d.source else t
      zone := State.repairZone d.source b } before
      ((((s.meetEpoch b.epoch).crossCheck d.source b).newerEpoch b).hearInStep b)) := by
    refine handOn hc hl hi (stays_id sc) (fun _ t v => v.tieJudgeIncomer _) (fun _ t v => ?_)
      (fun _ t v => repairZone hz v _ _) ?_ before
    · simp [v, hi]
    · simp (maxDischargeDepth := 30) [h, hs]
  split
  · exact w
  · exact w.judgeSummary hs

theorem mismatchWork (hc : sc.secs = true) (hl : sc.lapse = true) (hi : sc.isl = true) (hs : sc.step = true)
    (h : Within sc s0 s) (d : Header) (before : State) : Within sc s0 (State.mismatchWork d before s) :=
  voidBy hs (handOn hc hl hi (stays_id sc) (stays_id sc) (stays_id sc) (stays_id sc) h before) _

/-! ### Ordered frames -/

theorem claimWork (hc : sc.secs = true) (hl : sc.lapse = true) (hi : sc.isl = true) (hs : sc.step = true)
    (h : Within sc s0 s) (d : Header) (secs : SectionSet) (before : State) :
    Within sc s0 (State.claimWork d secs before s) := by
  unfold State.claimWork
  refine voidBy hs (handOn hc hl hi (fun _ t v => ?_) (fun _ t v => ?_) (stays_id sc) (stays_id sc) h before) _
  · simp [v, hc]
  · simp [v]

theorem releaseWork (hc : sc.secs = true) (hl : sc.lapse = true) (hi : sc.isl = true) (hs : sc.step = true)
    (h : Within sc s0 s) (d : Header) (secs : SectionSet) (c : ReleaseCause) (before : State) :
    Within sc s0 (State.releaseWork d secs c before s) := by
  unfold State.releaseWork
  refine voidBy hs (handOn hc hl hi (fun _ t v => ?_) (fun _ t v => ?_) (stays_id sc) (stays_id sc) h before) _
  · simp [v, hc]
  · simp [v]

theorem admitWork (hc : sc.secs = true) (hl : sc.lapse = true) (hi : sc.isl = true) (hs : sc.step = true)
    (h : Within sc s0 s) (d : Header) (b : Bool) (before : State) : Within sc s0 (State.admitWork d b before s) := by
  unfold State.admitWork
  dsimp only
  have w : Within sc s0 (State.handOn { HandOn.quiet with
      lists := fun t => if s.reportsInStep d.source then t.applyAdmit d.source b else t } before s) :=
    handOn hc hl hi (stays_id sc) (stays_id sc) (fun _ t v => by simp [v, hi]) (stays_id sc) h before
  refine voidBy hs ?_ _
  simp [w]

theorem withdrawWork (hc : sc.secs = true) (hl : sc.lapse = true) (hi : sc.isl = true) (hs : sc.step = true)
    (h : Within sc s0 s) (d : Header) (before : State) : Within sc s0 (State.withdrawWork d before s) := by
  unfold State.withdrawWork
  dsimp only
  have w : Within sc s0 (State.handOn { HandOn.quiet with
      lists := fun t => if s.reportsInStep d.source then t.applyWithdraw d.source else t } before s) :=
    handOn hc hl hi (stays_id sc) (stays_id sc) (fun _ t v => by simp [v, hi]) (stays_id sc) h before
  refine voidBy hs ?_ _
  simp [w]

@[simp] theorem sectionOrder (hc : sc.secs = true) (h : Within sc s0 s) (x : BusSection) (o : OrderKind) :
    Within sc s0 (s.sectionOrder x o) := by
  unfold State.sectionOrder
  split
  · exact h
  · have w : Within sc s0 (s.onPic fun p => { p with
        secs := PerSection.make fun y =>
          if (s.islandSections x).get y then { p.secs.get y with lastOrder := some ⟨o, p.delivery⟩ }
          else p.secs.get y }) :=
      onSecs hc h (fun p y => if (s.islandSections x).get y then
        { p.secs.get y with lastOrder := some ⟨o, p.delivery⟩ } else p.secs.get y) fun y => by split <;> rfl
    dsimp only
    split
    · exact w.generatorOrder _
    · exact w

@[simp] theorem tieOrder (h : Within sc s0 s) (n : Nat) (x : BusSection) (o : OrderKind) (t : Nat) :
    Within sc s0 (s.tieOrder n x o t) := by
  unfold State.tieOrder
  (repeat' split) <;> simp [h]

@[simp] theorem applyOrder (hc : sc.secs = true) (h : Within sc s0 s) (n : Nat) (o : OrderKind) (t : Option Nat) :
    Within sc s0 (s.applyOrder n o t) := by
  unfold State.applyOrder
  (repeat' split) <;> simp [h, hc]

theorem orderWork (hc : sc.secs = true) (hl : sc.lapse = true) (hi : sc.isl = true) (hs : sc.step = true)
    (h : Within sc s0 s) (d : Header) (o : OrderKind) (t : Option Nat) (before : State) :
    Within sc s0 (State.orderWork d o t before s) := by
  have w := handOnQuiet hc hl hi h before
  unfold State.orderWork
  dsimp only
  refine voidBy hs ?_ _
  simp [w, hc]

/-! ### BLOCK, INTERTRIP, DROP -/

theorem blockWork (hc : sc.secs = true) (hl : sc.lapse = true) (hi : sc.isl = true) (hz : sc.lists = true)
    (h : Within sc s0 s) (n : Nat) (on : Bool) (before : State) :
    Within sc s0 (State.handOn { HandOn.quiet with zone := State.takeBlock n on } before s) :=
  handOn hc hl hi (stays_id sc) (stays_id sc) (stays_id sc) (fun _ _ v => takeBlock hz v n on) h before

theorem intertripWork (hc : sc.secs = true) (hl : sc.lapse = true) (hi : sc.isl = true) (hz : sc.lists = true)
    (h : Within sc s0 s) (n : Nat) (v : Bool) (before : State) :
    Within sc s0 (State.handOn { HandOn.quiet with zone := State.takeIntertrip n v } before s) :=
  handOn hc hl hi (stays_id sc) (stays_id sc) (stays_id sc) (fun _ _ w => takeIntertrip hz w n v) h before

@[simp] theorem dropEntry (ht : sc.table = true) (h : Within sc s0 s) (n : Nat) : Within sc s0 (s.dropEntry n) :=
  onEntry ht h _ _ fun _ => rfl

theorem dropPicture (ht : sc.table = true) (hs : sc.step = true) (h : Within sc s0 s) (d : Header) (n : Nat) :
    Within sc s0 (s.dropPicture d n) := by
  unfold State.dropPicture
  dsimp only
  split
  · have w := (dropEntry ht h n).unqueueDrop n
    split
    · exact enterDesync hs w
    · exact w
  · simp [h]

theorem dropWork (hc : sc.secs = true) (hl : sc.lapse = true) (hi : sc.isl = true) (hs : sc.step = true)
    (hz : sc.lists = true) (h : Within sc s0 s) (d : Header) (n : Nat) (before : State) :
    Within sc s0 (State.dropWork d n before s) := by
  unfold State.dropWork
  split
  · exact voidBy hs (voidBy hs (handOn hc hl hi (stays_id sc) (stays_id sc) (fun _ _ v => leaveWaiting hi v n)
      (fun _ _ v => zoneDrop hz v n) h before) _) _
  · exact voidBy hs (handOnQuiet hc hl hi h before) _

/-! ### SUMMARY -/

theorem partOnePicture (ht : sc.table = true) (hs : sc.step = true) (hd : sc.delivery = true) (hc : sc.secs = true)
    (hi : sc.isl = true) (h : Within sc s0 s) (d : Header) (p : SummaryOne) : Within sc s0 (s.partOnePicture d p) := by
  unfold State.partOnePicture
  split
  · exact adoptOne ht hs hd hc hi h d p
  · exact meetEpoch hs h _

theorem partOneWork (hc : sc.secs = true) (hl : sc.lapse = true) (hi : sc.isl = true) (hs : sc.step = true)
    (h : Within sc s0 s) (d : Header) (taken : Bool) (before : State) :
    Within sc s0 (State.partOneWork d taken before s) := by
  unfold State.partOneWork
  split
  · exact roleFlags h before
  · exact voidBy hs (handOnQuiet hc hl hi h before) _

theorem partTwoWork (hc : sc.secs = true) (hl : sc.lapse = true) (hi : sc.isl = true) (hs : sc.step = true)
    (h : Within sc s0 s) (d : Header) (p : SummaryTwo) (before : State) :
    Within sc s0 (State.partTwoWork d p before s) := by
  have w := handOnQuiet hc hl hi h before
  unfold State.partTwoWork
  dsimp only
  (repeat' split)
  · exact (adoptTwo hs hc hi w p).adoptedOrder _
  · exact voidAdoption hs w
  · exact w

/-! ### A frame in which a code names no value (R21, log 3) -/

theorem unreadPicture (ht : sc.table = true) (h : Within sc s0 s) (u : Unread) : Within sc s0 (s.unreadPicture u) := by
  unfold State.unreadPicture
  (repeat' split)
  · exact onEntry ht h _ _ fun _ => rfl
  · exact mismatchPicture ht h _
  · exact h

theorem voidUnread (hs : sc.step = true) (h : Within sc s0 s) (u : Unread) : Within sc s0 (s.voidUnread u) := by
  unfold State.voidUnread
  (repeat' split) <;> simp [h, hs]

theorem unreadWork (hc : sc.secs = true) (hl : sc.lapse = true) (hi : sc.isl = true) (hs : sc.step = true)
    (h : Within sc s0 s) (u : Unread) (before : State) : Within sc s0 (State.unreadWork u before s) := by
  unfold State.unreadWork
  split
  · exact mismatchWork hc hl hi hs h _ before
  · exact voidUnread hs (handOnQuiet hc hl hi h before) u

end Sys2Proof.Machine.Within
end

