-- ==== Sys2Proof/Laws/Cell.lean ====
section
/-!
SUPPORT. What the cell's commands can do (chapters 4 and 5): positions, the breaker's timers, measurement sets.
-/

namespace Sys2Proof.Machine

namespace Within

variable {sc : Scope} {s0 s : State}

/-! ### Positions (R64, R68, R70, R71) -/

theorem outsidePosition (h : Within sc s0 s) (hs : s.brk.state = .closed ∨ (s.brk.state = .opened ∧ s.brk.watch = false)) :
    Within sc s0 s.outsidePosition := by
  have ok : Good s → BreakerRecord.Ok { s.brk with disagreementTimer := none } := fun g =>
    ⟨g.brk.closeOut, g.brk.closeTimer, g.brk.mark, g.brk.watch, g.brk.tripTimer, g.brk.tripOut, g.brk.driven,
      by simp, g.brk.origin⟩
  unfold State.outsidePosition
  split
  · rename_i q p
    refine tell (h.onBrk _ fun g => ?_) _
    have := g.brk.closeOut
    have := g.brk.closeTimer
    have := g.brk.mark
    have := g.brk.watch
    have := g.brk.tripTimer
    have := g.brk.tripOut
    have := g.brk.origin
    constructor <;> simp_all
  · rename_i q p
    refine tell (h.onBrk _ fun g => ?_) _
    have := g.brk.closeOut
    have := g.brk.closeTimer
    have := g.brk.mark
    have := g.brk.watch
    have := g.brk.tripTimer
    have := g.brk.tripOut
    have := g.brk.origin
    constructor <;> simp_all
  · exact h.onBrk _ ok
  · exact h.onBrk _ ok
  · split
    · exact h
    · exact h.onBrk _ fun g =>
        ⟨g.brk.closeOut, g.brk.closeTimer, g.brk.mark, g.brk.watch, g.brk.tripTimer, g.brk.tripOut, g.brk.driven,
          fun _ => hs, g.brk.origin⟩

theorem reachClosed (h : Within sc s0 s) (hs : s.brk.state = .closing) : Within sc s0 s.reachClosed := by
  have w : Within sc s0 ((s.onBrk fun b => { b with
      state := .closed, closeOut := false, closeTimer := none, mark := false }).tell (.closed s.brk.mark)) := by
    refine tell (h.onBrk _ fun g => ?_) _
    have := g.brk.watch
    have := g.brk.tripTimer
    have := g.brk.tripOut
    have := g.brk.disagreement
    have := g.brk.origin
    constructor <;> simp_all
  unfold State.reachClosed
  dsimp only
  split
  · exact w.settle.trip _
  · exact w

theorem reachOpen (h : Within sc s0 s) (hs : s.brk.state = .opening) : Within sc s0 s.reachOpen := by
  unfold State.reachOpen
  refine tell (h.onBrk _ fun g => ?_) _
  have := g.brk.closeOut
  have := g.brk.closeTimer
  have := g.brk.mark
  have := g.brk.watch
  have := g.brk.tripTimer
  have := g.brk.driven
  have := g.brk.disagreement
  have := g.brk.origin
  split <;> constructor <;> simp_all

theorem leaveFailed (hf : sc.failure = true) (h : Within sc s0 s) (hs : s.brk.state = .failed) :
    Within sc s0 s.leaveFailed := by
  unfold State.leaveFailed
  split
  · have w : Within sc s0 (s.onBrk fun b => { b with
        state := .opened, tripOut := false, openTimer := none, origin := .none }) := by
      refine h.onBrk _ fun g => ?_
      have := g.brk.closeOut
      have := g.brk.closeTimer
      have := g.brk.mark
      have := g.brk.watch
      have := g.brk.disagreement
      constructor <;> simp_all
    dsimp only
    refine tell ?_ _
    simp [w, hf]
  · exact h

theorem takePosition (hf : sc.failure = true) (h : Within sc s0 s) : Within sc s0 s.takePosition := by
  unfold State.takePosition
  split
  · rename_i hs
    (repeat' split)
    · exact h.reachClosed hs
    · exact h
    · exact h.onBrk _ fun g =>
        ⟨by simp, g.brk.closeTimer, g.brk.mark, g.brk.watch, g.brk.tripTimer, g.brk.tripOut, g.brk.driven,
          g.brk.disagreement, g.brk.origin⟩
  · rename_i hs
    split
    · exact h.reachOpen hs
    · exact h
  · rename_i hs; exact leaveFailed hf h hs
  · rename_i hs; exact h.outsidePosition (.inl hs)
  · rename_i hs
    split
    · exact h
    · rename_i hw; exact h.outsidePosition (.inr ⟨hs, by simpa using hw⟩)

/-! ### The breaker's timers (R65, R69, R71) -/

theorem closeLimitExpired (h : Within sc s0 s) : Within sc s0 s.closeLimitExpired := by
  unfold State.closeLimitExpired
  split
  · rename_i hs
    have hs : s.brk.state = .closing := by simpa using hs
    split
    · refine (tell (h.onBrk _ fun g => ?_) _).raise _ _ (by simp)
      have := g.brk.watch
      have := g.brk.tripTimer
      have := g.brk.tripOut
      have := g.brk.disagreement
      have := g.brk.origin
      constructor <;> simp_all
    · refine (tell (h.onBrk _ fun g => ?_) _).raise _ _ (by simp)
      have := g.brk.watch
      have := g.brk.tripTimer
      have := g.brk.tripOut
      have := g.brk.disagreement
      constructor <;> simp_all
  · exact h

theorem openLimitExpired (hf : sc.failure = true) (h : Within sc s0 s) : Within sc s0 s.openLimitExpired := by
  unfold State.openLimitExpired
  split
  · rename_i hs
    have w : Within sc s0 (s.onBrk fun b => { b with
        state := .failed, origin := .noOpen, watch := false, tripOut := false, openTimer := none }) := by
      refine h.onBrk _ fun g => ?_
      have := g.brk.closeOut
      have := g.brk.closeTimer
      have := g.brk.mark
      have := g.brk.disagreement
      simp only [Bool.or_eq_true, Bool.and_eq_true, beq_iff_eq] at hs
      rcases hs with hs | hs <;> constructor <;> simp_all
    exact breakerFailureBegins hf (w.raise _ _ (by simp))
  · rename_i hs
    refine h.onBrk _ fun g => ?_
    have := g.brk.closeOut
    have := g.brk.closeTimer
    have := g.brk.mark
    have := g.brk.watch
    have := g.brk.disagreement
    have := g.brk.origin
    simp only [Bool.or_eq_true, Bool.and_eq_true, beq_iff_eq] at hs
    cases hw : s.brk.watch <;> constructor <;> simp_all

theorem disagreementExpired (h : Within sc s0 s) (hs : s.brk.disagreementTimer.isSome = true) :
    Within sc s0 s.disagreementExpired := by
  unfold State.disagreementExpired
  refine (h.onBrk _ fun g => ?_).raise _ _ (by simp)
  have := g.brk.closeOut
  have := g.brk.closeTimer
  have := g.brk.mark
  have := g.brk.watch
  have := g.brk.tripTimer
  have := g.brk.tripOut
  rcases g.brk.disagreement hs with d | ⟨d, v⟩ <;> constructor <;> simp_all

/-! ### After a set is stored (R54) -/

@[simp] theorem flagChange (h : Within sc s0 s) (before : State) : Within sc s0 (State.flagChange before s) := by
  unfold State.flagChange
  simp (maxDischargeDepth := 30) [h]

@[simp] theorem syncSet (h : Within sc s0 s) (m : MeasurementSet) : Within sc s0 (s.syncSet m) := by
  have w := h.syncTake m
  unfold State.syncSet
  generalize s.syncTake m = p at w ⊢
  obtain ⟨s1, b⟩ := p
  cases b
  · exact w
  · exact w.tokenOffer

theorem judgeCurrents (hf : sc.failure = true) (h : Within sc s0 s) : Within sc s0 s.judgeCurrents := by
  unfold State.judgeCurrents
  split
  · rename_i hs
    split
    · have w : Within sc s0 (s.onBrk fun b => { b with watch := false, openTimer := none, tripOut := false }) := by
        refine h.onBrk _ fun g => ?_
        have := g.brk.closeOut
        have := g.brk.closeTimer
        have := g.brk.mark
        have := g.brk.disagreement
        have := g.brk.origin
        constructor <;> simp_all
      dsimp only
      split
      · exact w
      · exact w.outsidePosition (.inr ⟨hs, rfl⟩)
    · exact h
  · rename_i hs; exact leaveFailed hf h hs
  · exact h

end Within

/-- The state in which an arriving set is stored: a set gap is taken first (R55). -/
def State.gapped (m : MeasurementSet) (s : State) : State := if s.isSetGap m then s.setGap m else s

/-- After a set is stored only the breaker-failure demand and the biases leave the common scope (R54). -/
theorem takeSet_within (s : State) (m : MeasurementSet) :
    Within { failure := true, bias := true } ((s.gapped m).storeSet m) (s.takeSet m) := by
  unfold State.takeSet State.gapped
  dsimp only
  have w : ∀ u t : State, ∀ b : Bool, Within { failure := true, bias := true } t
      (if s.meas.setLoss then (if b then State.flagChange u t else t).tokenLossEnd
        else if b then State.flagChange u t else t) := by
    intro u t b
    simp [Within.refl]
  refine Within.refreshBias rfl (Within.judgeCurrents rfl ?_)
  simp (maxDischargeDepth := 30) [w]

end Sys2Proof.Machine
end

