-- ==== Sys2Proof/Laws/Commands.lean ====
section
/-!
SUPPORT. What the timers', the round's, the medium's, the port's and the start-up commands can do, and that each keeps
the form of the state.
-/

namespace Sys2Proof.Machine

/-! ### Forms that read only part of the state -/

/-- The form of the state is that of the blocks it reads. -/
theorem Good.congr {s t : State} (g : Good s) (settings : t.settings.loaded = s.settings.loaded) (brk : t.brk = s.brk)
    (fault : t.fault = s.fault) (link : t.link.Ok) (table : t.pic.table.length = s.pic.table.length)
    (limit : t.port.limit = s.port.limit) (state : t.port.state = s.port.state) : Good t where
  brk := brk ▸ g.brk
  store := fault ▸ g.store
  link := link
  lockout p := by
    rw [fault]
    refine g.lockout ?_
    rw [← p]
    simp [State.lockoutStands, State.severityOf, settings, fault]
  table := table.trans g.table
  port := by rw [limit, state]; exact g.port

theorem LockoutOnly.congr {s t : State} (g : LockoutOnly s) (settings : t.settings = s.settings) (fault : t.fault = s.fault) :
    LockoutOnly t := by
  intro c l
  have := g (by rw [← c]; simp [State.configured, settings]) (by rw [← fault]; exact l)
  rw [← this]
  simp [State.lockoutStands, State.severityOf, settings, fault]

theorem Good.answer {s : State} (g : Good s) (c : ResponseCode) (d : List Byte) : Good (s.answer c d) :=
  g.congr rfl rfl rfl g.link rfl rfl rfl

theorem Good.onMeas {s : State} (g : Good s) (f : MeasurementRecord → MeasurementRecord) : Good (s.onMeas f) :=
  g.congr rfl rfl rfl g.link rfl rfl rfl

theorem Good.onPins {s : State} (g : Good s) (f : Pins → Pins) : Good (s.onPins f) :=
  g.congr rfl rfl rfl g.link rfl rfl rfl

theorem Good.withPending {s : State} (g : Good s) (cs : List Instr) : Good (s.withPending cs) :=
  g.congr rfl rfl rfl g.link rfl rfl rfl

/-- The guard lowered. -/
theorem Good.lowerGuard {s : State} (g : Good s) : Good s.lowerGuard := g.congr rfl rfl rfl g.link rfl rfl rfl

/-- A change of the link record that leaves its queues. -/
theorem Good.onLink {s : State} (g : Good s) (f : LinkRecord → LinkRecord) (urgent : (f s.link).urgent = s.link.urgent)
    (ordered : (f s.link).ordered = s.link.ordered) : Good (s.onLink f) :=
  g.congr rfl rfl rfl ⟨urgent ▸ g.link.blocks, urgent ▸ g.link.intertrips, ordered ▸ g.link.ordered⟩ rfl rfl rfl

/-- The form after a head has left its queue (R23, R24). -/
theorem Good.transmitHead {s : State} (g : Good s) : Good s.transmitHead := by
  have a := g.link.blocks
  have b := g.link.intertrips
  have c := g.link.ordered
  unfold State.transmitHead
  split
  · rename_i u us h
    refine g.congr rfl rfl rfl ⟨?_, ?_, c⟩ rfl rfl rfl
    · rw [h, List.filter_cons] at a
      split at a
      · simp only [List.length_cons] at a; exact le_trans (by simp) a
      · exact a
    · rw [h, List.filter_cons] at b
      split at b
      · simp only [List.length_cons] at b; exact le_trans (by simp) b
      · exact b
  · split
    · rename_i f fs h
      have c' : fs.length ≤ Config.orderedCapacity := by
        rw [h, List.length_cons] at c; omega
      dsimp only
      split <;> exact g.congr rfl rfl rfl ⟨a, b, c'⟩ rfl rfl rfl
    · split
      · exact g.congr rfl rfl rfl ⟨a, b, c⟩ rfl rfl rfl
      · exact g

/-! ### Timers -/

namespace Within

variable {sc : Scope} {s0 s : State}

@[simp] theorem lapseReport (hc : sc.secs = true) (hl : sc.lapse = true) (h : Within sc s0 s) (n : Nat) :
    Within sc s0 (s.lapseReport n) := by
  unfold State.lapseReport
  split
  · have w : Within sc s0 (s.onEntry n fun e => { e with lapse := .lapsed }) := onLapse hl h _ _ fun _ => rfl
    dsimp only
    split
    · exact w
    · exact (grantChecks hc w _).seeGrant
  · exact h

@[simp] theorem holdEnds (h : Within sc s0 s) : Within sc s0 s.holdEnds := by
  unfold State.holdEnds
  simp [h]

@[simp] theorem syncTimedOut (h : Within sc s0 s) : Within sc s0 s.syncTimedOut := by
  unfold State.syncTimedOut
  simp (maxDischargeDepth := 30) [h]

/-! ### The round end -/

@[simp] theorem judgePendingSource (hs : sc.step = true) (h : Within sc s0 s) : Within sc s0 s.judgePendingSource := by
  unfold State.judgePendingSource
  (repeat' split) <;> simp [h, hs]

@[simp] theorem requestDrops (h : Within sc s0 s) : Within sc s0 s.requestDrops :=
  foldl _ (fun _ n w => by simp [w]) _ _ h

@[simp] theorem judgeFounding (hs : sc.secs = true) (hd : sc.delivery = true) (hi : sc.isl = true) (ht : sc.step = true)
    (h : Within sc s0 s) : Within sc s0 s.judgeFounding := by
  have w := advanceFounding ht h
  unfold State.judgeFounding
  dsimp only
  split
  · exact found hs hd hi ht w
  · exact w

@[simp] theorem tokenRound (h : Within sc s0 s) : Within sc s0 s.tokenRound := by
  unfold State.tokenRound
  simp (maxDischargeDepth := 30) [h]

end Within

/-- A round end up to the lowering of the guard (R25, R31, R32, R44, R49). -/
def State.roundOpened (s : State) : State :=
  s.countRound.judgeStartSilence.advanceSilence.judgePendingSource.lowerGuard

/-- The rest of a round end: step, the tables' stamps and the delivery number change only by founding (R51). -/
theorem endRound_within (s : State) :
    Within { isl := true, secs := true, delivery := true, step := true } s.roundOpened s.endRound := by
  have w := Within.refl { isl := true, secs := true, delivery := true, step := true } s.roundOpened
  unfold State.endRound
  dsimp only
  refine Within.generatorRound (Within.refreshBlock (Within.changeoverRound (Within.judgeFeederClose (Within.judgeFeeder
    (Within.tokenRound (Within.retrySummary rfl (Within.judgeFounding rfl rfl rfl rfl (Within.requestDrops w))))))))

theorem Good.countRound {s : State} (g : Good s) : Good s.countRound :=
  g.congr rfl rfl rfl ⟨g.link.blocks, g.link.intertrips, g.link.ordered⟩ rfl rfl rfl

theorem Good.endStartSilence {s : State} (g : Good s) : Good s.endStartSilence := by
  unfold State.endStartSilence
  split
  · exact g.congr rfl rfl rfl ⟨g.link.blocks, g.link.intertrips, g.link.ordered⟩ rfl rfl rfl
  · exact g

theorem Good.advanceSilence {s : State} (g : Good s) : Good s.advanceSilence :=
  g.congr rfl rfl rfl g.link (by simp [State.advanceSilence]) rfl rfl

theorem Good.roundOpened {s : State} (g : Good s) : Good s.roundOpened := by
  have a : Good s.countRound.judgeStartSilence := by
    unfold State.judgeStartSilence
    split
    · exact g.countRound.endStartSilence
    · exact g.countRound
  have w := Within.judgePendingSource (sc := { step := true }) rfl (Within.refl _ s.countRound.judgeStartSilence.advanceSilence)
  exact (w.good a.advanceSilence).lowerGuard

/-! ### Clearing (R113, R114, R177) -/

/-- A clear keeps the store in form (R113). -/
theorem FaultStore.Ok.clear {f : FaultStore} (h : f.Ok) (kinds : PerKind Bool) : (FaultStore.clear kinds f).Ok where
  counted k := by
    have c := h.counted k
    simp only [FaultStore.clear, PerKind.get_make]
    by_cases hk : kinds.get k = true <;> by_cases hp : f.pending.get k = true <;> simp_all
  saturated k := by
    have c := h.saturated k
    simp only [FaultStore.clear, PerKind.get_make]
    split
    · omega
    · exact c
  captured c p := by
    simp only [FaultStore.clear, PerKind.get_make] at p ⊢
    split at p
    · rename_i d hd
      split at p
      · simp at p
      · rename_i hg
        obtain rfl := Option.some.inj p
        have q := h.captured d hd
        simp only [q, Bool.and_true, Bool.not_eq_true] at hg
        simp [q, hg]
    · simp at p
  busFault x p := by
    simp only [FaultStore.clear, PerKind.get_make] at p ⊢
    split at p
    · simp at p
    · rename_i hg
      have q := h.busFault x p
      simp only [q, Bool.and_true, Bool.not_eq_true] at hg
      simp [q, hg]

/-- What is pending after a clear was pending. -/
theorem clear_pending (kinds : PerKind Bool) (f : FaultStore) (k : FaultKind) :
    (FaultStore.clear kinds f).pending.get k = (f.pending.get k && !kinds.get k) := by
  simp [FaultStore.clear]

theorem Good.cleared {s : State} (g : Good s) (kinds : PerKind Bool) : Good (s.onFault (FaultStore.clear kinds)) where
  brk := g.brk
  store := g.store.clear kinds
  link := g.link
  lockout p := by
    obtain ⟨k, hk, hs⟩ := (lockoutStands_iff _).mp p
    rw [onFault_fault, clear_pending] at hk
    exact g.lockout ((lockoutStands_iff _).mpr ⟨k, by simp_all, hs⟩)
  table := g.table
  port := g.port

/-- The re-raise of a standing bus fault (R114). -/
theorem Within.reraiseBus {sc : Scope} {s0 s : State} (h : Within sc s0 s) (standing rejoin : List Nat) :
    Within sc s0 (s.reraiseBus standing rejoin) := by
  unfold State.reraiseBus
  split
  · exact h
  · rename_i n _
    have w := h.raise .busFault (.slot n) (by simp)
    have p := raise_pending s .busFault (.slot n)
    generalize s.raise .busFault (.slot n) = t at w p ⊢
    induction rejoin generalizing t with
    | nil => exact w
    | cons a l ih => exact ih _ (w.joinBusFault a p) p

/-- Up to the end of lockout a clear only takes from the store and raises again. -/
theorem Good.judgeLockoutEnd {s : State} (g : Good s) : Good s.judgeLockoutEnd := by
  unfold State.judgeLockoutEnd
  split
  · rename_i c
    exact ⟨g.brk, ⟨g.store.counted, g.store.saturated, g.store.captured, g.store.busFault⟩, g.link,
      fun p => by
        have p' : s.lockoutStands = true := p
        simp [p'] at c,
      g.table, g.port⟩
  · exact g

theorem lockoutOnly_judgeLockoutEnd (s : State) : LockoutOnly s.judgeLockoutEnd := by
  intro c l
  unfold State.judgeLockoutEnd at l ⊢
  split at l
  · simp [State.tell] at l
  · rename_i h
    simp only [h]
    simp only [Bool.and_eq_true, Bool.not_eq_true', not_and, Bool.not_eq_false] at h
    exact h l

/-- A clear at a CONFIGURED station, up to the end of lockout (R113). -/
def State.clearedUp (kinds : PerKind Bool) (s : State) : State :=
  let gone (k : FaultKind) : Bool := kinds.get k && s.fault.pending.get k
  let s1 := s.onFault (FaultStore.clear kinds)
  let s2 := if gone .breakerNoOpen then s1.breakerFailureEnds else s1
  let s3 := if gone .breakerDisagree && s.disagreeStands then s2.raise .breakerDisagree .none else s2
  if gone .busFault then s3.reraiseBus s.slotsStanding s.slotsOperated else s3

theorem clearedUp_within (kinds : PerKind Bool) (s : State) :
    Within { failure := true } (s.onFault (FaultStore.clear kinds)) (s.clearedUp kinds) := by
  have w := Within.refl { failure := true } (s.onFault (FaultStore.clear kinds))
  unfold State.clearedUp
  dsimp only
  have a : Within { failure := true } (s.onFault (FaultStore.clear kinds))
      (if kinds.get .breakerNoOpen && s.fault.pending.get .breakerNoOpen then
        (s.onFault (FaultStore.clear kinds)).breakerFailureEnds else s.onFault (FaultStore.clear kinds)) := by
    simp [w]
  generalize (if kinds.get .breakerNoOpen && s.fault.pending.get .breakerNoOpen then
        (s.onFault (FaultStore.clear kinds)).breakerFailureEnds else s.onFault (FaultStore.clear kinds)) = s2 at a ⊢
  split
  · refine Within.reraiseBus ?_ _ _
    simp [a]
  · simp [a]

theorem Good.clearFaults {s : State} (g : Good s) (kinds : PerKind Bool) : Good (s.clearFaults kinds) := by
  have a : Good (s.clearedUp kinds).judgeLockoutEnd := ((clearedUp_within kinds s).good (g.cleared kinds)).judgeLockoutEnd
  exact ((Within.refl {} _).tellBarred _).good a

theorem lockoutOnly_clearFaults (s : State) (kinds : PerKind Bool) : LockoutOnly (s.clearFaults kinds) :=
  ((Within.refl {} _).tellBarred _).only (lockoutOnly_judgeLockoutEnd (s.clearedUp kinds))

theorem Good.clearStore {s : State} (g : Good s) (kinds : PerKind Bool) : Good (s.clearStore kinds) := by
  have c := g.cleared kinds
  exact ⟨c.brk, ⟨c.store.counted, c.store.saturated, c.store.captured, c.store.busFault⟩, c.link,
    fun p => by
      have p' : (s.onFault (FaultStore.clear kinds)).lockoutStands = true := p
      have q := c.lockout p'
      simp only [State.clearStore, onFault_fault, p', Bool.and_true] at q ⊢
      exact q,
    c.table, c.port⟩

/-! ### Operations and the port -/

/-- The record in progress with an operation (R179). -/
def State.inProgressWith (o : Operation) (s : State) : State :=
  s.onPort fun p => { p with
    operation := some o, state := .inProgress, reason := none, refusedDuring := false,
    limit := some Config.operateLimitMs }

theorem Good.inProgressWith {s : State} (g : Good s) (o : Operation) : Good (s.inProgressWith o) :=
  ⟨g.brk, g.store, g.link, g.lockout, g.table, by simp [State.inProgressWith]⟩

theorem Good.endOperation {s : State} (g : Good s) (st : OperateState) (hst : ¬ st = .inProgress) (r : Option OperateReason) :
    Good (s.endOperation st r) :=
  ⟨g.brk, g.store, g.link, g.lockout, g.table, by simp [State.endOperation, State.attend, hst]⟩

theorem Good.takeOperation {s : State} (g : Good s) (o : Operation) : Good (s.takeOperation o) := by
  have w := Within.act (sc := { bar := true }) rfl (Within.refl _ (s.inProgressWith o)) o
  have e : s.takeOperation o = match (s.inProgressWith o).act o with
      | (s1, .begun) => s1.answer .ok []
      | (s1, .done) => (s1.endOperation .done none).answer .ok []
      | (s1, .refused r) => (s1.endOperation .refused (some r)).answer .refused [] := rfl
  have q := w.good (g.inProgressWith o)
  rw [e]
  generalize (s.inProgressWith o).act o = p at q ⊢
  obtain ⟨s1, a⟩ := p
  cases a
  · exact q.answer _ _
  · exact (q.endOperation _ (by decide) _).answer _ _
  · exact (q.endOperation _ (by decide) _).answer _ _

theorem Good.read {s : State} (g : Good s) (sel : Nat) : Good (s.read sel) := by
  unfold State.read State.lowerAttention
  (repeat' split)
  · exact g.answer _ _
  · exact g.answer _ _
  · exact g.answer _ _
  · refine Good.answer ?_ _ _
    exact g.congr rfl rfl rfl g.link rfl rfl rfl
  · exact g.answer _ _

/-! ### Start-up (R175 to R177) -/

/-- The form of a reset state that keeps a fault store. -/
theorem good_reset : Good State.reset where
  brk := by constructor <;> simp [State.reset, BreakerRecord.initial]
  store := by
    constructor
    · intro k; simp [State.reset, FaultStore.initial]
    · intro k; simp [State.reset, FaultStore.initial]
    · intro c h; simp [State.reset, FaultStore.initial] at h
    · intro x h; simp [State.reset, FaultStore.initial] at h
  link := by constructor <;> simp [State.reset, LinkRecord.initial]
  lockout := by
    intro p
    obtain ⟨k, hk, _⟩ := (lockoutStands_iff _).mp p
    simp [State.reset, FaultStore.initial] at hk
  table := by simp [State.reset, Picture.initial]
  port := by simp [State.reset, PortRecord.initial]

theorem Good.powerOn (s : State) : Good s.powerOn :=
  good_reset.congr rfl rfl rfl ⟨good_reset.link.blocks, good_reset.link.intertrips, good_reset.link.ordered⟩ rfl rfl rfl

/-- A restart keeps the store's form; nothing else of it is kept that the form reads (R176). -/
theorem Good.restart {s : State} (g : Good s) : Good s.restart where
  brk := good_reset.brk
  store := ⟨g.store.counted, g.store.saturated, g.store.captured, g.store.busFault⟩
  link := ⟨good_reset.link.blocks, good_reset.link.intertrips, good_reset.link.ordered⟩
  lockout p := g.lockout (by rw [← p]; rfl)
  table := good_reset.table
  port := good_reset.port

/-- A kind whose severity the table makes LOCKOUT has it under every setting (7.1, R104). -/
theorem severity_of_table (s : State) (k : FaultKind) (h : FaultKindTable.severity k = .lockout) :
    s.severityOf k = .lockout := by
  unfold State.severityOf
  split
  · cases k <;> simp_all [FaultKindTable.severity, FaultKindTable.settable]
  · exact h

theorem Good.refuseLoad {s : State} (g : Good s) (r : LoadRefusal) : Good (s.refuseLoad r) where
  brk := good_reset.brk
  store := g.store
  link := ⟨good_reset.link.blocks, good_reset.link.intertrips, good_reset.link.ordered⟩
  lockout p := by
    obtain ⟨k, hk, hs⟩ := (lockoutStands_iff _).mp p
    exact g.lockout ((lockoutStands_iff _).mpr ⟨k, hk, severity_of_table s k hs⟩)
  table := good_reset.table
  port := by simp [State.refuseLoad, PortRecord.initial]

/-- The breaker record at its first position is in form (R61). -/
theorem first_ok (limit : Nat) (p : Position) : (BreakerRecord.first limit p).Ok := by
  unfold BreakerRecord.first
  split <;> constructor <;> simp [BreakerRecord.initial]

theorem configure_parts (l : Loaded) (s : State) :
    (s.configure l).brk = BreakerRecord.first l.station.disagreementLimit s.position ∧
    (s.configure l).pic.table = stationNumbers.map (loadedEntry l.campus l.station.number) ∧
    (s.configure l).settings =
      { state := .configured, afterRestart := s.settings.afterRestart, readLimit := none, refusal := none,
        loaded := some l } ∧
    (s.configure l).port = { PortRecord.initial with response := s.port.response } ∧
    (s.configure l).link.urgent = [] ∧ (s.configure l).link.ordered = [] ∧
    (s.configure l).fault.pending = s.fault.pending ∧ (s.configure l).fault.count = s.fault.count ∧
    (s.configure l).fault.lockout = (s.configure l).lockoutStands :=
  ⟨rfl, rfl, rfl, rfl, rfl, rfl, rfl, rfl, rfl⟩

/-- The kept store judged against new settings is in form (R105). -/
theorem judgeStore_ok {s : State} (h : s.fault.Ok) : s.judgeStore.fault.Ok where
  counted := h.counted
  saturated := h.saturated
  captured c p := by
    simp only [State.judgeStore, onFault_fault] at p ⊢
    split at p
    · rename_i d hd
      split at p
      · simp at p
      · obtain rfl := Option.some.inj p
        exact h.captured d hd
    · simp at p
  busFault x p := by
    simp only [State.judgeStore, onFault_fault] at p ⊢
    split at p
    · assumption
    · simp at p

theorem Good.configure {s : State} (g : Good s) (l : Loaded) : Good (s.configure l) where
  brk := first_ok _ _
  store := by
    unfold State.configure
    dsimp only
    exact judgeStore_ok g.store
  link := by constructor <;> simp [(configure_parts l s).2.2.2.2.1, (configure_parts l s).2.2.2.2.2.1]
  lockout p := p
  table := by rw [(configure_parts l s).2.1]; rfl
  port := by rw [(configure_parts l s).2.2.2.1]; simp [PortRecord.initial]

theorem lockoutOnly_configure (s : State) (l : Loaded) : LockoutOnly (s.configure l) := fun _ p => p

/-- After the blocks have their values the roles set themselves up within the common scope (R141, R176). -/
theorem acceptLoad_within (l : Loaded) (s : State) : Within {} (s.configure l) (s.acceptLoad l) := by
  have w : Within {} (s.configure l) (s.configure l).announceKept := by
    unfold State.announceKept
    simp [Within.refl]
  exact (w.reconstruct).finish _

/-! ### Time -/

/-- One millisecond keeps the form. -/
theorem Good.tick {s : State} (g : Good s) : Good s.tick where
  brk := by
    have b := g.brk
    exact ⟨b.closeOut, by simpa [State.tick, Timer.tick] using b.closeTimer, b.mark, b.watch,
      by simpa [State.tick, Timer.tick] using b.tripTimer, b.tripOut, b.driven,
      fun p => b.disagreement (by simpa [State.tick, Timer.tick] using p), b.origin⟩
  store := g.store
  link := ⟨g.link.blocks, g.link.intertrips, g.link.ordered⟩
  lockout := g.lockout
  table := by simpa [State.tick] using g.table
  port := by simpa [State.tick, Timer.tick] using g.port

/-! ### Deliveries and receptions (R1, R21) -/

/-- The scope of a delivery: every part its picture and its work may change. -/
abbrev Scope.delivered : Scope :=
  { isl := true, secs := true, derived := true, table := true, lapse := true, delivery := true, step := true, lists := true }

/-- A delivery of any frame stays in the scope of deliveries (R1); a DROP that names the station itself does so from the end of
its start silence on (R25). -/
theorem Within.takeFrame {s0 s : State} (h : Within .delivered s0 s) (f : Sys2Proof.Frame)
    (hd : ∀ n, f.body = .drop n → n = s.own → s.link.startSilence = false) : Within .delivered s0 (s.takeFrame f) := by
  unfold State.takeFrame
  split
  · refine Within.deliver rfl rfl rfl rfl (fun _ _ v => Within.statusPicture rfl v _ _) (fun b _ t v => ?_) h ..
    split
    · exact Within.statusWork rfl rfl rfl rfl rfl v ..
    · exact Within.mismatchWork rfl rfl rfl rfl v ..
  · exact Within.deliver rfl rfl rfl rfl (Within.stays_id _) (fun _ _ _ v => Within.claimWork rfl rfl rfl rfl v ..) h ..
  · exact Within.deliver rfl rfl rfl rfl (Within.stays_id _) (fun _ _ _ v => Within.releaseWork rfl rfl rfl rfl v ..) h ..
  · exact Within.deliver rfl rfl rfl rfl (Within.stays_id _) (fun _ _ _ v => Within.admitWork rfl rfl rfl rfl v ..) h ..
  · exact Within.deliver rfl rfl rfl rfl (Within.stays_id _) (fun _ _ _ v => Within.withdrawWork rfl rfl rfl rfl v ..) h ..
  · exact Within.deliver rfl rfl rfl rfl (Within.stays_id _) (fun _ _ _ v => Within.orderWork rfl rfl rfl rfl v ..) h ..
  · exact Within.deliver rfl rfl rfl rfl (Within.stays_id _) (fun _ _ _ v => Within.blockWork rfl rfl rfl rfl v ..) h ..
  · exact Within.deliver rfl rfl rfl rfl (Within.stays_id _) (fun _ _ _ v => Within.intertripWork rfl rfl rfl rfl v ..) h ..
  · rename_i n hb
    have e : (if n == s.own then s.endStartSilence else s) = s := by
      split
      · rename_i hn
        simp [State.endStartSilence, hd n hb (by simpa using hn)]
      · rfl
    unfold State.dropDelivery
    rw [e]
    exact Within.deliver rfl rfl rfl rfl (fun _ _ v => Within.dropPicture rfl rfl v ..)
      (fun _ _ _ v => Within.dropWork rfl rfl rfl rfl rfl v ..) h ..
  · exact Within.deliver rfl rfl rfl rfl (fun _ _ v => Within.partOnePicture rfl rfl rfl rfl rfl v ..)
      (fun _ _ _ v => Within.partOneWork rfl rfl rfl rfl v ..) h ..
  · exact Within.deliver rfl rfl rfl rfl (fun _ _ v => Within.meetEpoch rfl v _)
      (fun _ _ _ v => Within.partTwoWork rfl rfl rfl rfl v ..) h ..

/-- So does a frame in which a code names no value (log 3). -/
theorem Within.unreadDelivery {s0 s : State} (h : Within .delivered s0 s) (u : Unread) :
    Within .delivered s0 (s.unreadDelivery u) :=
  Within.deliver rfl rfl rfl rfl (fun _ _ v => Within.unreadPicture rfl v u)
    (fun _ _ _ v => Within.unreadWork rfl rfl rfl rfl v u _) h ..

/-- A reception keeps the form of the state, whatever its bytes (R21). -/
theorem Good.receive {s : State} (g : Good s) (bs : List Byte) : Good (s.receive bs) := by
  have frame (f : Sys2Proof.Frame) : Good (s.takeFrame f) := by
    by_cases hd : ∃ n, f.body = .drop n ∧ n = s.own
    · obtain ⟨n, hb, rfl⟩ := hd
      have e : s.takeFrame f = s.endStartSilence.takeFrame f := by
        unfold State.takeFrame State.dropDelivery
        rw [hb]
        by_cases hs : s.link.startSilence <;> simp [State.endStartSilence, hs, State.own, State.station, State.requestStatus]
      rw [e]
      refine (Within.takeFrame (Within.refl _ _) f fun _ _ _ => ?_).good g.endStartSilence
      unfold State.endStartSilence
      split <;> simp_all [State.requestStatus]
    · exact (Within.takeFrame (Within.refl _ _) f fun n hb hn => absurd ⟨n, hb, hn⟩ hd).good g
  unfold State.receive State.takeBytes
  (repeat' split)
  · exact frame _
  · exact (Within.unreadDelivery (Within.refl _ _) _).good g
  · exact g
  · exact g.onLink _ rfl rfl

end Sys2Proof.Machine
end

