-- ==== Sys2Proof/Laws/Layout.lean ====
section
/-!
SUPPORT. Reading back what a layout writes (13.4): a field that stands at an offset of a body, and the two SUMMARY bodies
whole.
-/

namespace Sys2Proof

open Sys2Proof.Machine

/-! ### Fields at an offset -/

/-- The bytes `bs` stand in `p` at offset `o`. -/
def Stands (p : List Byte) (o : Nat) (bs : List Byte) : Prop := ∃ a c, p = a ++ (bs ++ c) ∧ a.length = o

theorem Stands.whole (p c : List Byte) : Stands (p ++ c) 0 p := ⟨[], c, rfl, rfl⟩

theorem Stands.left {p bs cs : List Byte} {o : Nat} (h : Stands p o (bs ++ cs)) : Stands p o bs := by
  obtain ⟨a, c, rfl, rfl⟩ := h
  exact ⟨a, cs ++ c, by simp, rfl⟩

theorem Stands.right {p bs cs : List Byte} {o : Nat} (h : Stands p o (bs ++ cs)) : Stands p (o + bs.length) cs := by
  obtain ⟨a, c, rfl, rfl⟩ := h
  exact ⟨a ++ bs, c, by simp, by simp⟩

theorem stands_append {p bs cs : List Byte} {o : Nat} :
    Stands p o (bs ++ cs) ↔ Stands p o bs ∧ Stands p (o + bs.length) cs := by
  refine ⟨fun h => ⟨h.left, h.right⟩, ?_⟩
  rintro ⟨⟨a, c, rfl, rfl⟩, ⟨a', c', h, l⟩⟩
  refine ⟨a, c', ?_, rfl⟩
  rw [← List.append_assoc] at h
  obtain ⟨_, rfl⟩ := List.append_inj h (by simp [l])
  simp

theorem Stands.getD {p bs : List Byte} {o : Nat} (h : Stands p o bs) {i : Nat} (hi : i < bs.length) :
    p.getD (o + i) 0 = bs.getD i 0 := by
  obtain ⟨a, c, rfl, rfl⟩ := h
  rw [List.getD_append_right _ _ _ _ (by omega), Nat.add_sub_cancel_left, List.getD_append _ _ _ _ hi]

theorem Stands.byteAt {p : List Byte} {o n : Nat} (h : Stands p o (byte1 n)) (hn : n < 256) : byteAt p o = n := by
  have := h.getD (i := 0) (by simp [byte1])
  simp only [Nat.add_zero] at this
  rw [Machine.byteAt, this]
  simp [byte1, Nat.mod_eq_of_lt hn]

theorem Stands.wordAt {p : List Byte} {o n : Nat} (h : Stands p o (byte2 n)) (hn : n < 65536) : wordAt p o = n := by
  have h0 := h.getD (i := 0) (by simp [byte2])
  have h1 := h.getD (i := 1) (by simp [byte2])
  simp only [Nat.add_zero] at h0
  simp only [Machine.wordAt, Machine.byteAt, h0, h1]
  simp [byte2]
  omega

theorem Stands.longAt {p : List Byte} {o n : Nat} (h : Stands p o (byte4 n)) (hn : n < 4294967296) : longAt p o = n := by
  have a : Stands p o (byte2 (n / 65536)) := h.left
  have b : Stands p (o + 2) (byte2 (n % 65536)) := by
    have := h.right
    simpa [byte2, show BitVec.ofNat 8 (n / 256) = BitVec.ofNat 8 (n % 65536 / 256) from by
        apply BitVec.eq_of_toNat_eq; simp; omega,
      show BitVec.ofNat 8 n = BitVec.ofNat 8 (n % 65536) from by apply BitVec.eq_of_toNat_eq; simp] using this
  rw [Machine.longAt, a.wordAt (by omega), b.wordAt (by omega)]
  omega

@[simp] theorem length_byte1 (n : Nat) : (byte1 n).length = 1 := rfl
@[simp] theorem length_byte2 (n : Nat) : (byte2 n).length = 2 := rfl
@[simp] theorem length_byte4 (n : Nat) : (byte4 n).length = 4 := rfl
@[simp] theorem length_signed2 (x : Int) : (signed2 x).length = 2 := rfl

/-- A list of fields of one length: each stands at its own offset. -/
theorem Stands.flatMap {α : Type} {f : α → List Byte} {k : Nat} {p : List Byte} (hk : ∀ x, (f x).length = k) :
    ∀ {xs : List α} {o : Nat}, Stands p o (xs.flatMap f) → ∀ (i : Nat) (hi : i < xs.length),
      Stands p (o + k * i) (f (xs[i])) := by
  intro xs
  induction xs with
  | nil => intro o _ i hi; simp at hi
  | cons x xs ih =>
    intro o h i hi
    rw [List.flatMap_cons] at h
    match i with
    | 0 => simpa using h.left
    | i + 1 =>
      have := ih h.right i (by simpa using hi)
      rw [hk x] at this
      simpa [Nat.mul_add, Nat.add_assoc, Nat.add_comm, Nat.add_left_comm] using this

theorem length_flatMap_const {α : Type} {f : α → List Byte} {k : Nat} (hk : ∀ x, (f x).length = k) (xs : List α) :
    (xs.flatMap f).length = k * xs.length := by
  induction xs with
  | nil => simp
  | cons x xs ih => simp [ih, hk, Nat.mul_add, Nat.add_comm]

/-- A list read element by element is the list. -/
theorem map_range_eq {α : Type} {xs : List α} {f : Nat → α} (h : ∀ i (hi : i < xs.length), f i = xs[i]) :
    (List.range xs.length).map f = xs := by
  apply List.ext_getElem
  · simp
  · intro i h1 h2
    simp [h i (by simpa using h1)]

theorem filterMap_range_eq {α : Type} {xs : List α} {f : Nat → Option α} (h : ∀ i (hi : i < xs.length), f i = some xs[i]) :
    (List.range xs.length).filterMap f = xs := by
  have e : (List.range xs.length).filterMap f = ((List.range xs.length).map f).filterMap id := by simp [List.filterMap_map]
  have m : (List.range xs.length).map f = xs.map some := by
    have := map_range_eq (xs := xs.map some) (f := f) (by simpa using h)
    simpa using this
  rw [e, m]
  simp [List.filterMap_map]

/-! ### Bits -/

theorem bits_lt (t : SectionSet) : SectionSet.bits t < 16 := by
  obtain ⟨a, b, c, d⟩ := t
  revert a b c d
  decide

theorem ofNat_bits (t : SectionSet) (k : Nat) : SectionSet.ofNat (SectionSet.bits t + 16 * k) = t := by
  have h (i : Nat) (hi : i < 4) : bitOf (SectionSet.bits t + 16 * k) i = bitOf (SectionSet.bits t) i := by
    unfold bitOf
    rcases i with _ | _ | _ | _ | i <;> simp <;> omega
  unfold SectionSet.ofNat
  rw [h 0 (by omega), h 1 (by omega), h 2 (by omega), h 3 (by omega)]
  obtain ⟨a, b, c, d⟩ := t
  clear h
  revert a b c d
  decide

theorem bits_byte8 : ∀ b0 b1 b2 b3 b4 b5 b6 k : Bool,
    let n := ofBits [b0, b1, b2, b3, b4, b5, b6] + 128 * k.toNat
    bitOf n 0 = b0 ∧ bitOf n 1 = b1 ∧ bitOf n 2 = b2 ∧ bitOf n 3 = b3 ∧ bitOf n 4 = b4 ∧ bitOf n 5 = b5 ∧
      bitOf n 6 = b6 ∧ bitOf n 7 = k ∧ n < 256 := by
  decide

theorem signedOf_mod (x : Int) (h1 : -32768 ≤ x) (h2 : x ≤ 32767) : signedOf (x % 65536).toNat = x := by
  unfold signedOf
  split <;> omega

theorem ofCode_step (s : StepState) : StepState.ofCode s.code = some s := by cases s <;> rfl
theorem ofCode_breaker (s : BreakerState) : BreakerState.ofCode s.code = some s := by cases s <;> rfl
theorem ofCode_admission (s : AdmissionState) : AdmissionState.ofCode s.code = some s := by cases s <;> rfl
theorem ofCode_presence (s : Presence) : Presence.ofCode s.code = some s := by cases s <;> rfl

/-- The fields that STATUS and SUMMARY share are read from their own bytes. -/
theorem statusOf_bytes (b : StatusBody) (h : b.epoch.founder ≤ 31) (p1 : -32768 ≤ b.realPower) (p2 : b.realPower ≤ 32767)
    (d : Word32) (k : Bool) (m unit : Nat) :
    statusOf b.byte0 b.epoch.serial.toNat b.byte3 d (b.byte8 + 128 * k.toNat) b.role (b.realPower % 65536).toNat unit
      (SectionSet.bits b.busFault + 16 * m) b.byte15 = some { b with digest := d, perUnit := signedOf unit } := by
  have st : b.byte0 / 32 % 4 = b.step.code := by
    unfold StatusBody.byte0
    cases b.step <;> cases b.admission <;> cases b.cause <;> rfl
  have ad : b.byte0 / 8 % 4 = b.admission.code := by
    unfold StatusBody.byte0
    cases b.step <;> cases b.admission <;> cases b.cause <;> rfl
  have ca : (if bitOf b.byte0 7 then StatusCause.change else .periodic) = b.cause := by
    unfold StatusBody.byte0
    cases b.step <;> cases b.admission <;> cases b.cause <;> rfl
  have br : b.byte3 % 8 = b.breaker.code := by
    unfold StatusBody.byte3
    cases b.breaker <;> simp [BreakerState.code]
  have fo : b.byte3 / 8 = b.epoch.founder := by
    unfold StatusBody.byte3
    cases b.breaker <;> simp [BreakerState.code] <;> omega
  have hi : b.byte15 / 16 = SectionSet.bits b.tokensHeld := by
    unfold StatusBody.byte15
    have := bits_lt b.queuedFor
    omega
  have lo : SectionSet.ofNat b.byte15 = b.queuedFor := by
    unfold StatusBody.byte15
    rw [Nat.add_comm]
    exact ofNat_bits _ _
  have th := ofNat_bits b.tokensHeld 0
  obtain ⟨e0, e1, e2, e3, e4, e5, e6, e7, _⟩ := bits_byte8 b.quorumHeld b.lineLive b.busLive b.lockout b.blockAsserted
    b.intertripAsserted b.barred k
  have e8 : b.byte8 = ofBits [b.quorumHeld, b.lineLive, b.busLive, b.lockout, b.blockAsserted, b.intertripAsserted,
    b.barred] := rfl
  unfold statusOf
  rw [st, ad, br, ofCode_step, ofCode_breaker, ofCode_admission, ca, fo, hi, lo, e8, e0, e1, e2, e3, e4, e5, e6,
    ofNat_bits, signedOf_mod _ p1 p2]
  simp only [Nat.mul_zero, Nat.add_zero] at th
  rw [th]
  simp

/-! ### SUMMARY part 1 -/

theorem byte0_lt (b : StatusBody) : b.byte0 < 256 := by
  unfold StatusBody.byte0
  cases b.step <;> cases b.admission <;> cases b.cause <;> decide

theorem byte3_lt (b : StatusBody) : b.byte3 < 256 := by
  unfold StatusBody.byte3
  cases b.breaker <;> simp [BreakerState.code] <;> omega

theorem byte15_lt (b : StatusBody) : b.byte15 < 256 := by
  unfold StatusBody.byte15
  have := bits_lt b.queuedFor
  have := bits_lt b.tokensHeld
  omega

theorem length_entry (e : SummaryEntry) : e.bytes.length = 11 := by
  unfold SummaryEntry.bytes
  cases e.content <;> simp

/-- The marks of an entry, in its byte 9. -/
theorem marks_read (pr : Presence) (st c : Bool) (t : Nat) (ht : t < 16) :
    let n := t + (16 * pr.code + 64 * st.toNat + 128 * c.toNat)
    n / 16 % 4 = pr.code ∧ bitOf n 6 = st ∧ bitOf n 7 = c ∧ n < 256 := by
  unfold bitOf
  cases pr <;> cases st <;> cases c <;> simp [Presence.code] <;> omega

/-- An entry of part 1 reads back. -/
theorem parseSummaryEntry_bytes (e : SummaryEntry) (p : List Byte) (o : Nat) (w : e.wf = true) (h : Stands p o e.bytes) :
    parseSummaryEntry p o = some e := by
  obtain ⟨pr, seq, st, content⟩ := e
  have s0 : ((seq.map (·.toNat)).getD 0) < 256 := by
    cases seq with
    | none => simp
    | some v => exact v.isLt
  cases content with
  | none =>
    obtain ⟨m1, m2, m3, m4⟩ := marks_read pr st false 0 (by omega)
    simp only [Nat.zero_add, Bool.toNat_false, Nat.mul_zero, Nat.add_zero] at m1 m2 m3 m4
    simp only [SummaryEntry.bytes, List.append_assoc, stands_append, length_byte1, length_byte2, Nat.add_assoc,
      Nat.reduceAdd, Option.isSome_none, Bool.toNat_false, Nat.mul_zero, Nat.add_zero] at h
    obtain ⟨h0, _, _, _, h5, _, _, h9, _⟩ := h
    have q5 := h5.byteAt (by cases seq <;> simp)
    unfold parseSummaryEntry
    simp only [h0.byteAt s0, q5, h9.byteAt m4, m1, m2, m3, ofCode_presence]
    cases seq <;> simp [bitOf]
  | some b =>
    simp only [SummaryEntry.wf, StatusBody.wf, okByte, okSigned, Bool.and_eq_true, decide_eq_true_eq, beq_iff_eq] at w
    obtain ⟨⟨⟨⟨⟨wf, wr⟩, w1, w2⟩, _⟩, wd⟩, wu⟩ := w
    obtain ⟨m1, m2, m3, m4⟩ := marks_read pr st true (SectionSet.bits b.busFault) (bits_lt _)
    obtain ⟨_, _, _, _, _, _, _, e7, e8⟩ := bits_byte8 b.quorumHeld b.lineLive b.busLive b.lockout b.blockAsserted
      b.intertripAsserted b.barred seq.isSome
    simp only [SummaryEntry.bytes, List.append_assoc, stands_append, length_byte1, length_byte2, length_signed2,
      Nat.add_assoc, Nat.reduceAdd, Option.isSome_some] at h
    obtain ⟨h0, h1, h2, h4, h5, h6, h7, h9, h10⟩ := h
    have q5 := h5.byteAt e8
    have q7 : wordAt p (o + 7) = (b.realPower % 65536).toNat := h7.wordAt (by omega)
    have q9 := h9.byteAt (by simpa [Nat.add_assoc] using m4)
    have key := statusOf_bytes b wf w1 w2 0 seq.isSome (pr.code + 4 * st.toNat + 8) 0
    unfold parseSummaryEntry
    simp only [h0.byteAt s0, h1.byteAt (byte0_lt b), h2.wordAt (b.epoch.serial.isLt), h4.byteAt (byte3_lt b), q5,
      h6.byteAt (by omega : b.role < 256), q7, q9, h10.byteAt (byte15_lt b)]
    rw [show SectionSet.bits b.busFault + (16 * pr.code + (64 * st.toNat + 128 * true.toNat)) =
      SectionSet.bits b.busFault + 16 * (pr.code + 4 * st.toNat + 8) from by simp; omega]
    rw [show SectionSet.bits b.busFault + (16 * pr.code + 64 * st.toNat + 128 * true.toNat) =
      SectionSet.bits b.busFault + 16 * (pr.code + 4 * st.toNat + 8) from by simp; omega] at m1 m2 m3
    rw [key, m1, m2, m3, ofCode_presence]
    have e7' : bitOf (b.byte8 + 128 * seq.isSome.toNat) 7 = seq.isSome := e7
    rw [e7']
    have bb : { b with digest := 0, perUnit := signedOf 0 } = b := by
      obtain ⟨⟩ := b
      simp_all [signedOf]
    rw [bb]
    cases seq <;> simp

theorem length_token (t : SummaryToken) : t.bytes.length = 6 + t.queue.length := by
  simp [SummaryToken.bytes, length_flatMap_const (k := 1) (fun q : QueueEntry => length_byte1 q.station)]
  omega

/-- A section of part 1 reads back as its holder, its grant and its queued stations. -/
theorem parseToken_bytes (t : SummaryToken) (p : List Byte) (o : Nat) (w : t.wf = true) (h : Stands p o t.bytes) :
    parseToken p o = ((t.holder, t.grant.toNat, t.queue.map (·.station)), o + t.bytes.length) := by
  simp only [SummaryToken.wf, okByte, Bool.and_eq_true, decide_eq_true_eq, List.all_eq_true] at w
  obtain ⟨⟨w1, w2⟩, w3⟩ := w
  rw [length_token]
  simp only [SummaryToken.bytes, List.append_assoc, stands_append, length_byte1, length_byte4, Nat.add_assoc,
    Nat.reduceAdd] at h
  obtain ⟨h0, h1, h5, h6⟩ := h
  have k : byteAt p (o + 5) = t.queue.length := h5.byteAt (by omega)
  have q : (List.range t.queue.length).map (fun i => byteAt p (o + 6 + i)) = t.queue.map (·.station) := by
    have := map_range_eq (xs := t.queue.map (·.station)) (f := fun i => byteAt p (o + 6 + i)) (by
      intro i hi
      have hi' : i < t.queue.length := by simpa using hi
      have s := h6.flatMap (k := 1) (fun q => length_byte1 q.station) i hi'
      rw [Nat.one_mul, Nat.add_assoc] at s
      have := (w3 _ (List.getElem_mem hi')).2
      simpa [Nat.add_assoc] using s.byteAt (by omega))
    simpa using this
  unfold parseToken
  simp only [h0.byteAt (by omega : t.holder < 256), h1.longAt t.grant.isLt, k, q]
  simp only [Nat.add_assoc]

/-- The stations of all four queues. -/
def claimed (t : PerSection SummaryToken) : List Nat := BusSection.all.flatMap fun x => (t.get x).queue.map (·.station)

/-- Of a list, the values a partial function has and the elements at which it has one, side by side. -/
theorem map_filter_eq {α β : Type} (f : α → Option β) (xs : List α) :
    (xs.filter fun x => (f x).isSome).map f = (xs.filterMap f).map some := by
  induction xs with
  | nil => rfl
  | cons x xs ih =>
    cases h : f x with
    | none => simp [h, ih]
    | some y => simp [h, ih]

/-- The first entry of the queues for a station, which `claimants` collects. -/
def claimOf (t : PerSection SummaryToken) (n : Nat) : Option QueueEntry :=
  (BusSection.all.flatMap fun x => (t.get x).queue).find? fun q => q.station == n

theorem claimOf_isSome (t : PerSection SummaryToken) (n : Nat) : (claimOf t n).isSome = (claimed t).contains n := by
  unfold claimOf claimed
  rw [Bool.eq_iff_iff]
  simp [List.find?_isSome]

/-- The entry number of a queued claimant reads back. -/
theorem claimNumber_bytes (t : PerSection SummaryToken) (p : List Byte) (o : Nat) (q : QueueEntry) (y : BusSection)
    (hy : q ∈ (t.get y).queue) (hn : 1 ≤ q.station ∧ q.station ≤ 30)
    (same : ∀ r ∈ BusSection.all.flatMap (fun x => (t.get x).queue), r.station = q.station → r.entry = q.entry)
    (h : Stands p o ((claimants t).flatMap fun q => byte4 q.entry.toNat)) :
    claimNumber p o (stationNumbers.filter (claimed t).contains) q.station = q.entry := by
  have ex : claimants t = stationNumbers.filterMap (claimOf t) := rfl
  have al : stationNumbers.filter (claimed t).contains = stationNumbers.filter fun n => (claimOf t n).isSome := by
    congr 1
    funext n
    exact (claimOf_isSome t n).symm
  have mq : q ∈ BusSection.all.flatMap fun x => (t.get x).queue :=
    List.mem_flatMap.2 ⟨y, by cases y <;> simp [BusSection.all], hy⟩
  have so : (claimOf t q.station).isSome = true := by
    unfold claimOf
    exact List.find?_isSome.2 ⟨q, mq, by simp⟩
  have me : q.station ∈ stationNumbers.filter fun n => (claimOf t n).isSome := by
    refine List.mem_filter.2 ⟨?_, so⟩
    simp [stationNumbers]
    omega
  have li := List.idxOf_lt_length_iff.2 me
  have gi := List.getElem_idxOf li
  have mf := map_filter_eq (claimOf t) stationNumbers
  have len : (stationNumbers.filter fun n => (claimOf t n).isSome).length = (claimants t).length := by
    simpa [ex] using congrArg List.length mf
  have lc : (stationNumbers.filter fun n => (claimOf t n).isSome).idxOf q.station < (claimants t).length := len ▸ li
  have eq : claimOf t q.station = some (claimants t)[(stationNumbers.filter fun n => (claimOf t n).isSome).idxOf q.station] := by
    have := List.getElem_of_eq mf (i := (stationNumbers.filter fun n => (claimOf t n).isSome).idxOf q.station) (by simpa using li)
    simpa [gi, ex] using this
  have s := h.flatMap (k := 4) (fun q => length_byte4 q.entry.toNat) _ lc
  have en : ((claimants t)[(stationNumbers.filter fun n => (claimOf t n).isSome).idxOf q.station]).entry = q.entry := by
    have st := List.find?_some eq
    exact same _ (List.mem_of_find?_eq_some eq) (by simpa using st)
  unfold claimNumber
  rw [al, s.longAt (BitVec.isLt _), en]
  simp

theorem length_head (part : Nat) (serial : Word16) (e : EpochId) (delivery : Word32) :
    (summaryHead part serial e delivery).length = 10 := rfl

/-- What every SUMMARY body begins with reads back. -/
theorem summaryHead_read {part : Nat} {serial : Word16} {e : EpochId} {delivery : Word32} {p : List Byte}
    (hp : part < 256) (he : e.founder ≤ 255) (h : Stands p 0 (summaryHead part serial e delivery)) :
    byteAt p 0 = part ∧ BitVec.ofNat 16 (wordAt p 1) = serial ∧
      (⟨BitVec.ofNat 16 (wordAt p 3), byteAt p 5⟩ : EpochId) = e ∧ BitVec.ofNat 32 (longAt p 6) = delivery := by
  simp only [summaryHead, List.append_assoc, stands_append, length_byte1, length_byte2, Nat.reduceAdd] at h
  obtain ⟨h0, h1, h3, h5, h6⟩ := h
  rw [h0.byteAt hp, h1.wordAt serial.isLt, h3.wordAt e.serial.isLt, h5.byteAt (by omega), h6.longAt delivery.isLt]
  simp

/-- The body of a well-formed part 1 reads back. -/
theorem parseSummaryOne_bytes (s : SummaryOne) (w : s.wf = true) : parseSummaryOne s.bytes = some s := by
  have hs : Stands s.bytes 0 s.bytes := by simpa using Stands.whole s.bytes []
  generalize hp : s.bytes = p at hs
  simp only [SummaryOne.wf, Bool.and_eq_true, decide_eq_true_eq, beq_iff_eq, List.all_eq_true] at w
  obtain ⟨⟨⟨⟨⟨⟨⟨⟨we, wl⟩, ws⟩, wa⟩, wb⟩, wc⟩, wd⟩, wn⟩, _⟩ := w
  have all : BusSection.all.flatMap (fun x => (s.tokens.get x).bytes) =
    s.tokens.a.bytes ++ (s.tokens.b.bytes ++ (s.tokens.c.bytes ++ s.tokens.d.bytes)) := by
    simp [BusSection.all, PerSection.get]
  rw [← hp] at hs
  conv at hs => arg 3; unfold SummaryOne.bytes
  rw [hp] at hs
  simp only [all, List.append_assoc, stands_append, length_head, length_flatMap_const length_entry, wl, Nat.zero_add,
    Nat.reduceAdd, Nat.reduceMul] at hs
  obtain ⟨h0, hE, hA, hB, hC, hD, hN⟩ := hs
  obtain ⟨_, r1, r2, r3⟩ := summaryHead_read (by omega) we h0
  have entries : (List.range 30).filterMap (fun i => parseSummaryEntry p (10 + 11 * i)) = s.entries := by
    rw [← wl]
    exact filterMap_range_eq fun i hi =>
      parseSummaryEntry_bytes _ _ _ (ws _ (List.getElem_mem hi)) (hE.flatMap length_entry i hi)
  have number : ∀ (y : BusSection) (q : QueueEntry), q ∈ (s.tokens.get y).queue → 
      claimNumber p (340 + s.tokens.a.bytes.length + s.tokens.b.bytes.length + s.tokens.c.bytes.length +
        s.tokens.d.bytes.length) (stationNumbers.filter (claimed s.tokens).contains) q.station = q.entry := by
    intro y q hq
    have wy : (s.tokens.get y).wf = true := by cases y <;> assumption
    simp only [SummaryToken.wf, Bool.and_eq_true, List.all_eq_true, decide_eq_true_eq] at wy
    refine claimNumber_bytes s.tokens p _ q y hq (wy.2 q hq) ?_ (by simpa [Nat.add_assoc] using hN)
    intro r hr e
    have mq : q ∈ BusSection.all.flatMap fun x => (s.tokens.get x).queue :=
      List.mem_flatMap.2 ⟨y, by cases y <;> simp [BusSection.all], hq⟩
    unfold SummaryOne.numbered at wn
    have := (List.all_eq_true.1 ((List.all_eq_true.1 wn) r hr)) q mq
    simpa [e] using this
  have token (y : BusSection) : (s.tokens.get y).queue.map ((fun n => (⟨n, claimNumber p (340 + s.tokens.a.bytes.length +
      s.tokens.b.bytes.length + s.tokens.c.bytes.length + s.tokens.d.bytes.length)
        (stationNumbers.filter (claimed s.tokens).contains) n⟩ : QueueEntry)) ∘ (·.station)) = (s.tokens.get y).queue := by
    conv => rhs; rw [← List.map_id (s.tokens.get y).queue]
    exact List.map_congr_left fun q hq => by simp [number y q hq]
  have cl : s.tokens.a.queue.map (·.station) ++ s.tokens.b.queue.map (·.station) ++ s.tokens.c.queue.map (·.station) ++
      s.tokens.d.queue.map (·.station) = claimed s.tokens := by
    simp [claimed, BusSection.all, PerSection.get]
  unfold parseSummaryOne
  simp only [parseToken_bytes _ _ _ wa hA, parseToken_bytes _ _ _ wb hB, parseToken_bytes _ _ _ wc hC,
    parseToken_bytes _ _ _ wd hD, entries, wl, r1, r2, r3, cl, if_true, List.map_map, BitVec.ofNat_toNat, BitVec.setWidth_eq]
  have ta := token .A
  have tb := token .B
  have tc := token .C
  have td := token .D
  simp only [PerSection.get] at ta tb tc td
  rw [ta, tb, tc, td]

/-! ### SUMMARY part 2 -/

theorem length_run (e : RunEntry) : e.bytes.length = 5 := rfl
theorem length_wait (e : WaitEntry) : e.bytes.length = 9 := rfl
theorem length_admit (e : AdmitEntry) : e.bytes.length = 5 := rfl
theorem length_lastOrder (o : Option LastOrder) : (lastOrderBytes o).length = 5 := by cases o <;> rfl

theorem ofCode_order (k : OrderKind) : OrderKind.ofCode k.code = some k ∧ k.code < 255 := by cases k <;> decide

/-- A last order reads back. -/
theorem parseLastOrder_bytes (l : Option LastOrder) (p : List Byte) (o : Nat) (h : Stands p o (lastOrderBytes l)) :
    parseLastOrder p o = some l := by
  unfold parseLastOrder
  cases l with
  | none =>
    simp only [lastOrderBytes, stands_append] at h
    simp [h.1.byteAt (by omega)]
  | some l =>
    simp only [lastOrderBytes, stands_append, length_byte1] at h
    obtain ⟨e, c⟩ := ofCode_order l.order
    rw [h.1.byteAt (by omega), h.2.longAt l.stamp.isLt, e]
    simp [show ¬ l.order.code = 255 from by omega]

theorem length_counted {α : Type} {f : α → List Byte} {k : Nat} (hk : ∀ x, (f x).length = k) (xs : List α) :
    (countedBytes f xs).length = 1 + k * xs.length := by
  simp [countedBytes, length_flatMap_const hk]

theorem ofCode_section (x : BusSection) : BusSection.ofCode x.index = some x ∧ x.index < 256 := by cases x <;> decide

/-- An island of part 2 reads back. -/
theorem parseIsland_bytes (i : SummaryIsland) (p : List Byte) (o : Nat) (w : i.wf = true) (h : Stands p o i.bytes) :
    parseIsland p o = (some i, o + i.bytes.length) := by
  simp only [SummaryIsland.wf, okByte, Bool.and_eq_true, decide_eq_true_eq, List.all_eq_true] at w
  obtain ⟨⟨⟨⟨⟨l1, l2⟩, l3⟩, w1⟩, w2⟩, w3⟩ := w
  have len : i.bytes.length = 1 + (1 + 5 * i.runList.length) + (1 + 9 * i.queue.length) + (1 + 5 * i.admitted.length) := by
    simp [SummaryIsland.bytes, length_counted length_run, length_counted length_wait, length_counted length_admit]
    omega
  rw [len]
  simp only [SummaryIsland.bytes, List.append_assoc, stands_append, length_byte1, length_counted length_run,
    length_counted length_wait] at h
  obtain ⟨h0, h1, h2, h3⟩ := h
  simp only [countedBytes, stands_append, length_byte1] at h1 h2 h3
  obtain ⟨k1, h1⟩ := h1
  obtain ⟨k2, h2⟩ := h2
  obtain ⟨k3, h3⟩ := h3
  have c1 := k1.byteAt (by omega)
  have c2 := k2.byteAt (by omega)
  have c3 := k3.byteAt (by omega)
  have e2 : o + 2 + 5 * i.runList.length = o + 1 + (1 + 5 * i.runList.length) := by omega
  have e3 : o + 1 + (1 + 5 * i.runList.length) + 1 + 9 * i.queue.length =
    o + 1 + (1 + 5 * i.runList.length) + (1 + 9 * i.queue.length) := by omega
  obtain ⟨sc, sl⟩ := ofCode_section i.name
  unfold parseIsland
  simp only [c1, e2, c2, e3, c3, h0.byteAt sl, sc, Option.map_some]
  have m1 := map_range_eq (xs := i.runList)
    (f := fun k => (⟨byteAt p (o + 2 + 5 * k), BitVec.ofNat 32 (longAt p (o + 3 + 5 * k))⟩ : RunEntry)) (by
      intro k hk
      have s := h1.flatMap length_run k hk
      simp only [RunEntry.bytes, stands_append, length_byte1] at s
      have := w1 _ (List.getElem_mem hk)
      rw [show o + 2 + 5 * k = o + 1 + 1 + 5 * k from by omega, show o + 3 + 5 * k = o + 1 + 1 + 5 * k + 1 from by omega,
        s.1.byteAt (by omega), s.2.longAt (BitVec.isLt _)]
      simp)
  have m2 := map_range_eq (xs := i.queue)
    (f := fun k =>
      let e := o + 1 + (1 + 5 * i.runList.length) + 1 + 9 * k
      (⟨byteAt p e % 128, BitVec.ofNat 32 (longAt p (e + 1)),
        if bitOf (byteAt p e) 7 then some (BitVec.ofNat 32 (longAt p (e + 5))) else none⟩ : WaitEntry)) (by
      intro k hk
      have s := h2.flatMap length_wait k hk
      have := w2 _ (List.getElem_mem hk)
      generalize i.queue[k] = q at s this
      obtain ⟨n, e, f⟩ := q
      simp only [WaitEntry.bytes, List.append_assoc, stands_append, length_byte1, length_byte4] at s
      simp only at this
      have b0 := s.1.byteAt (by have := f.isSome.toNat_le; omega)
      dsimp only
      rw [b0, s.2.1.longAt e.isLt, show ∀ x, x + 5 = x + 1 + 4 from fun _ => rfl,
        s.2.2.longAt (by cases f with
          | none => simp
          | some v => exact v.isLt)]
      cases f with
      | none => simp [bitOf]; omega
      | some f => simp [bitOf]; omega)
  have m3 := map_range_eq (xs := i.admitted)
    (f := fun k => (⟨byteAt p (o + 1 + (1 + 5 * i.runList.length) + (1 + 9 * i.queue.length) + 1 + 5 * k),
      BitVec.ofNat 32 (longAt p (o + 1 + (1 + 5 * i.runList.length) + (1 + 9 * i.queue.length) + 2 + 5 * k))⟩ :
        AdmitEntry)) (by
      intro k hk
      have s := h3.flatMap length_admit k hk
      simp only [AdmitEntry.bytes, stands_append, length_byte1] at s
      have := w3 _ (List.getElem_mem hk)
      rw [s.1.byteAt (by omega), show ∀ x, x + 2 + 5 * k = x + 1 + 5 * k + 1 from by omega, s.2.longAt (BitVec.isLt _)]
      simp)
  simp only at m1 m2 m3
  rw [m1, m2, m3]
  congr 1
  omega

/-- The islands of part 2 read back. -/
theorem parseIslands_bytes (p : List Byte) : ∀ (is : List SummaryIsland) (o : Nat), (∀ i ∈ is, i.wf = true) →
    Stands p o (is.flatMap SummaryIsland.bytes) → parseIslands p is.length o = some is
  | [], _, _, _ => rfl
  | i :: is, o, w, h => by
    rw [List.flatMap_cons, stands_append] at h
    simp only [List.length_cons, parseIslands, parseIsland_bytes i p o (w i (by simp)) h.1,
      parseIslands_bytes p is _ (fun j hj => w j (by simp [hj])) h.2, Option.map_some]

/-- The body of a well-formed part 2 reads back. -/
theorem parseSummaryTwo_bytes (s : SummaryTwo) (w : s.wf = true) : parseSummaryTwo s.bytes = some s := by
  have hs : Stands s.bytes 0 s.bytes := by simpa using Stands.whole s.bytes []
  generalize hp : s.bytes = p at hs
  simp only [SummaryTwo.wf, Bool.and_eq_true, decide_eq_true_eq, List.all_eq_true] at w
  obtain ⟨⟨⟨we, wl⟩, wi⟩, _⟩ := w
  have all : BusSection.all.flatMap (fun x => lastOrderBytes (s.lastOrders.get x)) =
    lastOrderBytes s.lastOrders.a ++ (lastOrderBytes s.lastOrders.b ++ (lastOrderBytes s.lastOrders.c ++
      lastOrderBytes s.lastOrders.d)) := by
    simp [BusSection.all, PerSection.get]
  rw [← hp] at hs
  conv at hs => arg 3; unfold SummaryTwo.bytes
  rw [hp] at hs
  simp only [all, countedBytes, List.append_assoc, stands_append, length_head, length_lastOrder, length_byte1, Nat.zero_add,
    Nat.reduceAdd] at hs
  obtain ⟨h0, hA, hB, hC, hD, hK, hI⟩ := hs
  obtain ⟨_, r1, r2, r3⟩ := summaryHead_read (by omega) we h0
  have isl := parseIslands_bytes p s.islands 31 wi hI
  unfold parseSummaryTwo
  rw [parseLastOrder_bytes _ _ _ hA, parseLastOrder_bytes _ _ _ hB, parseLastOrder_bytes _ _ _ hC,
    parseLastOrder_bytes _ _ _ hD, hK.byteAt (by omega), isl]
  simp only [r1, r2, r3]

end Sys2Proof
end

