-- ==== Sys2Proof/Tests/Slice0.lean ====
section
/-!
SUPPORT. The tests: ill-formed commands refused by `Instr.wf`, check codes and layouts against values worked out by hand,
worked examples of the reference, one command at a time on small states, and for each obligation with hypotheses a state
and operands that meet them together.
-/

namespace Sys2Proof.Tests

set_option Elab.async false

open Sys2Proof Sys2Proof.Machine

/-! ### Small states -/

/-- The station settings of the tests: nominal 10000, a close limit of 80 ms, and stations of zone code 1 downstream. -/
def settings (n : Nat) (k : StationKind) : StationSettings :=
  { number := n, kindCode := k.code, zoneMap := (List.range 30).map (· % 4)
    patterns := [⟨1, 3, true⟩, ⟨0, 0, false⟩, ⟨0, 0, false⟩, ⟨0, 0, false⟩], blockLimit := 100
    slots := List.replicate 8 SlotSettings.absent
    halfMs := 2, lineNominal := 10000, busNominal := 10000, closeLimit := 80, openLimit := 150
    disagreementLimit := 100, failureCurrent := 50, window := 8, slipLimit := 100, angleLimit := 1000
    voltageLimit := 50, syncTimeout := 30, speedGain := 200, voltageGain := 100, startLimit := 20
    autonomousDelay := 5, minimumRun := 2, surplusDwell := 5, unloadRate := 20, unloadThreshold := 100
    cooldown := 3, sharingGain := 100, lineFrequency := 50000, voltageBand := 10, frequencyBand := 500
    rideThrough := 200, returnStable := 10, tieAssistLimit := 3, parallelLimit := 500
    mask := PerKind.fill false, severityCode := PerKind.fill 255 }

/-- A campus of two sections: two incomers, two generators, a tie and three feeders. -/
def campus : CampusSettings :=
  { count := 8, configured := ⟨true, true, false, false⟩, reserve := 20, round := 10, holdLimit := 10, tiePolicy := .tieFirst
    stations :=
      [⟨2, .incomer, .A, 1000, 0, false⟩, ⟨3, .generator, .A, 400, 0, false⟩, ⟨4, .incomer, .B, 1000, 0, false⟩,
       ⟨5, .tie, .A, 0, 0, false⟩, ⟨6, .feeder, .A, 150, 1, false⟩, ⟨7, .generator, .B, 400, 0, false⟩,
       ⟨8, .feeder, .A, 300, 1, false⟩, ⟨9, .feeder, .B, 300, 0, false⟩] }

def loaded (n : Nat) (k : StationKind) : Loaded := { station := settings n k, campus := campus, digest := 77 }

def epoch : EpochId := ⟨5, 2⟩

/-- A STATUS of an IN_STEP station with its breaker OPEN. -/
def body : StatusBody :=
  { cause := .change, step := .inStep, epoch := epoch, digest := 77, quorumHeld := true, breaker := .opened
    lineLive := false, busLive := false, role := 0, realPower := 0, perUnit := 0, lockout := false
    busFault := SectionSet.empty, blockAsserted := false, intertripAsserted := false, barred := false
    tokensHeld := SectionSet.empty, queuedFor := SectionSet.empty, admission := .out }

/-- A CONFIGURED station right after its load. -/
def fresh (n : Nat) (k : StationKind) : State :=
  State.configure (loaded n k) (State.reset.onPins fun p => { p with auxB := true })

/-- An IN_STEP station whose campus is LIVE and IN_STEP; a command stands in no queue. -/
def inStep (n : Nat) (k : StationKind) : State :=
  let s := (fresh n k).onStep fun t => { t with state := .inStep, epoch := some epoch, highest := some 5 }
  let s := s.onPic fun p => { p with
    table := p.table.map fun e =>
      if e.fixed.isSome then { e with presence := .live, lastSeq := some 9, content := some body } else e }
  (s.onLink fun l => { l with startSilence := false }).derive

def feeder : State := inStep 6 .feeder
def generator : State := inStep 3 .generator
def incomer : State := inStep 2 .incomer
def tie : State := inStep 5 .tie

/-- The next frame of a station of `inStep`. -/
def hd (n : Nat) : Header := ⟨n, 10⟩

/-- A breaker CLOSED, with its contacts. -/
def closed (s : State) : State :=
  (s.onBrk fun b => { b with state := .closed }).onPins fun p => { p with auxA := true, auxB := false }

def closing (s : State) : State :=
  s.onBrk fun b => { b with state := .closing, closeOut := true, closeTimer := some 80 }

def opening (s : State) : State :=
  (closed s).onBrk fun b => { b with state := .opening, tripOut := true, openTimer := some 150, sources := [.zone] }

def failed (s : State) : State :=
  (closed s).onBrk fun b => { b with
    state := .failed, tripOut := true, openTimer := some 150, origin := .noOpen }

/-- A measurement set: 10000 on both sides, so many amperes in phase 1. -/
def measured (seq : Word16) (amps : Nat) : MeasurementSet :=
  { seq := seq, lineVolts := ⟨10000, 10000, 10000⟩, lineAngles := ⟨0, 0, 0⟩, busVolts := 10000, busAngle := 0
    currents := ⟨amps, 0, 0⟩, residual := 0, lineFreq := 50000, busFreq := 50000, realPower := 0, reactivePower := 0 }

/-- The state a command leads to. -/
def after (c : Instr) (s : State) : State :=
  match exec c s with
  | .next t => t
  | _ => s

def one (x : BusSection) : SectionSet := SectionSet.one x

/-! ### Ill-formed commands -/

theorem test_wf_set : (Instr.setArrival (measured 1 65535)).wf = true := by decide +kernel
theorem test_wf_volts : (Instr.setArrival { measured 1 0 with lineVolts := ⟨0, 65536, 0⟩ }).wf = false := by decide +kernel
theorem test_wf_angles : (Instr.setArrival { measured 1 0 with lineAngles := ⟨0, 0, 36000⟩ }).wf = false := by
  decide +kernel
theorem test_wf_bus_volts : (Instr.setArrival { measured 1 0 with busVolts := 65536 }).wf = false := by decide +kernel
theorem test_wf_bus_angle : (Instr.setArrival { measured 1 0 with busAngle := 36000 }).wf = false := by decide +kernel
theorem test_wf_currents : (Instr.setArrival (measured 1 65536)).wf = false := by decide +kernel
theorem test_wf_residual : (Instr.setArrival { measured 1 0 with residual := 65536 }).wf = false := by decide +kernel
theorem test_wf_line_freq : (Instr.setArrival { measured 1 0 with lineFreq := 65535001 }).wf = false := by decide +kernel
theorem test_wf_bus_freq : (Instr.setArrival { measured 1 0 with busFreq := 65535001 }).wf = false := by decide +kernel
theorem test_wf_power : (Instr.setArrival { measured 1 0 with realPower := 32768 }).wf = false := by decide +kernel
theorem test_wf_reactive : (Instr.setArrival { measured 1 0 with reactivePower := -32769 }).wf = false := by decide +kernel
theorem test_wf_header : ∀ c ∈ [Instr.status ⟨256, 0⟩ body, .claim ⟨256, 0⟩ (one .A), .release ⟨256, 0⟩ (one .A) .closed,
    .admitFeeder ⟨256, 0⟩ true, .withdraw ⟨256, 0⟩, .order ⟨256, 0⟩ .start none, .block ⟨256, 0⟩ true,
    .intertrip ⟨256, 0⟩ true, .drop ⟨256, 0⟩ 4], c.wf = false := by decide +kernel
theorem test_wf_founder : (Instr.status (hd 2) { body with epoch := ⟨5, 32⟩ }).wf = false := by decide +kernel
theorem test_wf_role : (Instr.status (hd 2) { body with role := 256 }).wf = false := by decide +kernel
theorem test_wf_status_power : (Instr.status (hd 2) { body with realPower := 32768 }).wf = false := by decide +kernel
theorem test_wf_per_unit : (Instr.status (hd 2) { body with perUnit := -32769 }).wf = false := by decide +kernel
theorem test_wf_tie : (Instr.order (hd 2) .split (some 256)).wf = false := by decide +kernel
theorem test_wf_drop : (Instr.drop (hd 2) 256).wf = false := by decide +kernel
theorem test_wf_timers : (Instr.lapseTimerExpiry 31).wf = false ∧ (Instr.blockEntryExpiry 0).wf = false := by decide +kernel
theorem test_wf_read : (Instr.read 65536).wf = false := by decide +kernel

/-- An empty entry and an empty section of a part 1. -/
def entry : SummaryEntry := { presence := .live, lastSeq := some 9, stale := false, content := none }
def noToken : SummaryToken := { holder := 0, grant := 0, queue := [] }

/-- A part 1 that carries a LIVE table with nothing held, and the part 2 that completes it. -/
def partOne : SummaryOne :=
  { serial := 3, epoch := epoch, delivery := 40, entries := List.replicate 30 entry
    tokens := ⟨{ noToken with holder := 2, grant := 7 }, { noToken with queue := [⟨4, 6⟩] }, noToken, noToken⟩ }
def islandA : SummaryIsland := { name := .A, runList := [⟨3, 4⟩], queue := [⟨6, 5, some 2⟩], admitted := [⟨8, 3⟩] }
def partTwo : SummaryTwo :=
  { serial := 3, epoch := epoch, delivery := 41, lastOrders := ⟨some ⟨.stop, 4⟩, none, none, none⟩, islands := [islandA] }

theorem test_wf_parts : (Instr.summaryPart1 (hd 2) partOne).wf = true ∧ (Instr.summaryPart2 (hd 2) partTwo).wf = true := by
  decide +kernel
theorem test_wf_part_headers :
    (Instr.summaryPart1 ⟨256, 0⟩ partOne).wf = false ∧ (Instr.summaryPart2 ⟨256, 0⟩ partTwo).wf = false := by decide +kernel
theorem test_wf_part_founders : (Instr.summaryPart1 (hd 2) { partOne with epoch := ⟨5, 256⟩ }).wf = false ∧
    (Instr.summaryPart2 (hd 2) { partTwo with epoch := ⟨5, 256⟩ }).wf = false := by decide +kernel
theorem test_wf_entry_count : (Instr.summaryPart1 (hd 2) { partOne with entries := [entry] }).wf = false := by decide +kernel
theorem test_wf_entry_digest : ({ entry with content := some body }).wf = false ∧
    ({ entry with content := some { body with digest := 0, perUnit := 1 } }).wf = false ∧
    ({ entry with content := some { body with digest := 0 } }).wf = true := by decide +kernel
theorem test_wf_tokens : ({ noToken with holder := 256 }).wf = false ∧
    ({ noToken with queue := List.replicate 10 ⟨4, 6⟩ }).wf = false ∧ ({ noToken with queue := [⟨31, 6⟩] }).wf = false ∧
    ({ noToken with queue := [⟨0, 6⟩] }).wf = false := by decide +kernel
theorem test_wf_islands : ({ islandA with runList := List.replicate 13 ⟨3, 4⟩ }).wf = false ∧
    ({ islandA with queue := List.replicate 17 ⟨6, 5, none⟩ }).wf = false ∧
    ({ islandA with admitted := List.replicate 17 ⟨8, 3⟩ }).wf = false ∧ ({ islandA with runList := [⟨256, 4⟩] }).wf = false ∧
    ({ islandA with queue := [⟨128, 5, none⟩] }).wf = false ∧ ({ islandA with admitted := [⟨256, 3⟩] }).wf = false ∧
    ({ partTwo with islands := List.replicate 5 islandA }).wf = false := by decide +kernel
/-- A claimant with two entry numbers, and two SUMMARY bodies longer than 503 bytes. -/
theorem test_wf_numbered : ({ partOne with tokens := ⟨{ noToken with queue := [⟨4, 5⟩] }, { noToken with queue := [⟨4, 6⟩] }, noToken,
    noToken⟩ }).wf = false ∧
    ({ partOne with tokens := ⟨{ noToken with queue := [⟨5, 6⟩] }, { noToken with queue := [⟨5, 6⟩] }, noToken, noToken⟩ }).wf =
      true := by decide +kernel
theorem test_wf_lengths : (let q (k : Nat) : SummaryToken := { noToken with queue := (List.range 9).map fun i => ⟨k + i, 6⟩ }
    ({ partOne with tokens := ⟨q 1, q 9, q 17, q 22⟩ }).wf) = false ∧
    (let i : SummaryIsland := { islandA with queue := List.replicate 16 ⟨6, 5, none⟩ }
     ({ partTwo with islands := List.replicate 4 i }).wf) = false := by decide +kernel

/-! ### Layouts and check codes (13.4) -/

/-- A WITHDRAW of station 5 with sequence 1, as it stands on the medium. -/
def withdrawBytes : List Byte := [5, 5, 1, 0, 0] ++ byte4 (crc32 [5, 5, 1, 0, 0]).toNat

theorem test_crc32 : crc32 [0x31, 0x32, 0x33, 0x34, 0x35, 0x36, 0x37, 0x38, 0x39] = 0xCBF43926#32 := by decide +kernel
theorem test_crc16 : crc16 [0x31, 0x32, 0x33, 0x34, 0x35, 0x36, 0x37, 0x38, 0x39] = 0x29B1#16 := by decide +kernel
theorem test_frame_read : (parseFrame withdrawBytes).map (·.command) = some (.withdraw ⟨5, 1⟩) := by decide +kernel
theorem test_wf_receive_discard : (Instr.receiveDiscard withdrawBytes).wf = false ∧
    (Instr.receiveDiscard (withdrawBytes ++ [0])).wf = true := by decide +kernel
theorem test_wf_command_discard : (Instr.commandDiscard ([5, 0, 0] ++ byte2 (crc16 [5, 0, 0]).toNat)).wf = false ∧
    (Instr.commandDiscard [5, 0, 0, 0, 0]).wf = true := by decide +kernel
theorem test_port_restart : portCommand ([5, 0, 0] ++ byte2 (crc16 [5, 0, 0]).toNat) = some .restart := by decide +kernel
theorem test_parts_read_back : parseSummaryOne partOne.bytes = some partOne ∧ parseSummaryTwo partTwo.bytes = some partTwo := by
  decide +kernel
theorem test_status_bytes : body.bytes =
    [0xC0, 0, 5, 0x10, 0, 0, 0, 77, 1, 0, 0, 0, 0, 0, 0, 0] := by decide +kernel
theorem test_no_word_spells_a_command : decodeTableWord 8 1 = none ∧ (State.reset.withFetchWord 8 1) = State.reset := by
  decide +kernel

/-! ### Worked examples of the reference -/

/-- A generator with a session open whose window lacks one set: seven sets of a slip stand in it. -/
def syncing (slip : Int) : State :=
  generator.onSync fun y => { y with
    session := .opened, timer := some 30000, window := { SyncWindow.empty with count := 7, slipSum := 7 * slip } }

/-- The projected angle of the window that a set with a slip and an angle below the bus's completes. -/
def projected (slip below : Nat) : Option Int :=
  match (State.syncTake { measured 8 0 with lineFreq := 50000 + slip, busAngle := below } (syncing slip)).1.sync.last with
  | some r => r.figures.map (·.projected)
  | none => none

/-- The figures of 9.8: the angle moves by slip times 0.36 degrees a second over one close limit. -/
theorem test_sync_projection : projected 150 4000 = some (-3568) ∧ projected 90 3200 = some (-2941) ∧
    projected 60 900 = some (-728) := by decide +kernel

/-- The gap arithmetic of 2.9. -/
def contends (s : State) (f : LinkRecord → LinkRecord) : Option Nat :=
  (s.onLink fun l => f { l with mediumIdle := true }).gap
theorem test_gaps : contends feeder (fun l => { l with urgent := [.block true] }) = some 140 ∧
    contends feeder (fun l => { l with ordered := [.withdraw] }) = some 760 ∧
    contends feeder (fun l => { l with statusRequest := some .periodic }) = some 1380 ∧ contends feeder id = none ∧
    contends (fresh 6 .feeder) (fun l => { l with statusRequest := some .periodic }) = none := by decide +kernel

/-- R41: serials are compared in their circle, and founders decide between equal serials. -/
theorem test_epochs : serialHigher 1 65535 = true ∧ serialHigher 65535 1 = false ∧ epochNewer ⟨5, 2⟩ ⟨5, 3⟩ = true ∧
    epochNewer ⟨5, 3⟩ ⟨5, 2⟩ = false ∧ epochNewer ⟨6, 0⟩ ⟨5, 2⟩ = false := by decide +kernel

/-- R57: at 80 per cent a set is high, below 20 per cent it is low, at 20 per cent it is neither. -/
theorem test_set_classes : setClass 10000 [8000] = .high ∧ setClass 10000 [8000, 7999] = .middle ∧
    setClass 10000 [1999] = .low ∧ setClass 10000 [2000] = .middle := by decide +kernel

/-! ### One command at a time -/

/-- What follows the header of an image that station 6 accepts, the image, and what it gives. -/
def imageBody : List Byte := (settings 6 .feeder).bytes ++ campus.bytes
def image : List Byte := byte2 315 ++ byte2 1 ++ byte4 689080607 ++ byte2 261 ++ imageBody
def accepted : Loaded := { loaded 6 .feeder with digest := 3316430106 }
/-- A machine that loads, its contacts open. -/
def loading : State := State.reset.onPins fun p => { p with auxB := true }

/-- The check of a long list, thirty bytes at a time. -/
theorem crc_chunk (l : List Byte) (r r' : Word32) (h : (l.take 30).foldl crc32Byte r = r') :
    l.foldl crc32Byte r = (l.drop 30).foldl crc32Byte r' := by
  rw [← h, ← List.foldl_append, List.take_append_drop]

theorem test_image_check : crc32 imageBody = 689080607#32 := by
  unfold crc32
  rw [crc_chunk _ _ 175833779#32 (by decide +kernel), crc_chunk _ _ 1889748896#32 (by decide +kernel),
    crc_chunk _ _ 180412518#32 (by decide +kernel), crc_chunk _ _ 3512134274#32 (by decide +kernel),
    crc_chunk _ _ 1013588354#32 (by decide +kernel), crc_chunk _ _ 999884691#32 (by decide +kernel),
    crc_chunk _ _ 2598004298#32 (by decide +kernel), crc_chunk _ _ 990532214#32 (by decide +kernel),
    crc_chunk _ _ 1489166905#32 (by decide +kernel), crc_chunk _ _ 1807070347#32 (by decide +kernel)]
  decide +kernel
theorem test_campus_digest : crc32 campus.bytes = 3316430106#32 := by
  unfold crc32
  rw [crc_chunk _ _ 3482134947#32 (by decide +kernel)]
  decide +kernel
theorem test_image : judgeImage image = .ok accepted := by
  have b : imageCovered image = imageBody := by decide +kernel
  have c : imageCampus image = campus.bytes := by decide +kernel
  unfold judgeImage
  dsimp only
  rw [b, c, test_image_check, test_campus_digest]
  decide +kernel
theorem test_image_short : judgeImage (image.dropLast) = .error .noResponse := by decide +kernel
theorem test_load : (after (.settingsLoad image) loading).settings.state = .configured ∧
    (after (.settingsLoad image) loading).brk.state = .opened := by
  have e : after (.settingsLoad image) loading = loading.acceptLoad accepted := by
    simp only [after, exec, execSettingsLoad, test_image]
    decide +kernel
  rw [e]
  decide +kernel
theorem test_load_refused : (after .noResponse loading).settings.state = .unconfigured ∧
    (after .noResponse loading).port.attention = true := by decide +kernel
theorem test_power_on : (after .powerOn feeder).settings.state = .loading ∧ (after .powerOn feeder).fault = .initial := by
  decide +kernel
theorem test_restart : (after .restart feeder).port.response = some ⟨.ok, []⟩ ∧
    (after .restartLine feeder).settings.readLimit = some 500 := by decide +kernel
theorem test_set_arrival : (after (.setArrival (measured 1 5)) feeder).meas.line.liveRun = 1 ∧
    (after (.setArrival (measured 1 5)) feeder).meas.lossTimer = some 8 := by decide +kernel
theorem test_set_gap :
    (after (.setArrival (measured 3 5)) (after (.setArrival (measured 1 5)) feeder)).fault.pending.setGap = true := by
  decide +kernel
theorem test_set_discard : (after .setDiscard feeder).meas.discards = 1 := by decide +kernel
theorem test_set_loss : (after .setLossTimerExpiry feeder).meas.setLoss = true := by decide +kernel
theorem test_close_reached : (after (.positionEvent true false) (closing feeder)).brk.state = .closed := by decide +kernel
theorem test_open_reached : (after (.positionEvent false true) (opening feeder)).brk.state = .opened := by decide +kernel
theorem test_close_limit : (after .closeLimitExpiry (closing feeder)).fault.pending.breakerNoClose = true := by
  decide +kernel
theorem test_open_limit : (after .openLimitExpiry (opening feeder)).brk.state = .failed ∧
    (after .openLimitExpiry (opening feeder)).link.urgent = [.intertrip true] := by decide +kernel
/-- A feeder that times a disagreement. -/
def disagreeing : State := (closed feeder).onBrk fun b => { b with disagreementTimer := some 100 }
theorem test_disagreement : (after .disagreementLimitExpiry disagreeing).brk.origin = .disagree := by decide +kernel
/-- A generator on line, with its breaker closed and READY. -/
def online : State :=
  ((closed generator).onDisp fun d => { d with role := .online }).onPins fun p => { p with ready := true }
theorem test_ready_lost : (after (.readyInputChange false) online).brk.state = .opening := by decide +kernel
theorem test_round : (after .roundEnd feeder).link.statusRequest = some .periodic ∧
    ((after .roundEnd feeder).entry 2).silence = 1 := by decide +kernel
theorem test_medium : (after .mediumIdle feeder).link.mediumIdle = true ∧
    (after .defer (after .mediumIdle feeder)).link.mediumIdle = false := by decide +kernel
/-- A feeder that contends with a WITHDRAW. -/
def contending : State := feeder.onLink fun l => { l with mediumIdle := true, ordered := [.withdraw] }
theorem test_transmits : (after .gapExpiry contending).link.sent = some ⟨⟨6, 0⟩, .withdraw⟩ := by decide +kernel
theorem test_receive_discard : (after (.receiveDiscard [1]) feeder).link.receiveDiscard = 1 := by decide +kernel
theorem test_status : ((after (.status (hd 2) { body with breaker := .closed }) feeder).entry 2).heldBreaker = some .closed := by
  decide +kernel
theorem test_claim : ((after (.claim (hd 2) (one .A)) feeder).sec .A).holder = 2 := by decide +kernel
/-- A campus in which incomer 2 holds the token of A, and generator 3 waits for it. -/
def held (s : State) : State := s.onSec .A fun r => { r with holder := 2, grant := 1, queue := [⟨3, 1⟩] }
theorem test_release : ((after (.release (hd 2) (one .A) .closed) (held feeder)).sec .A).holder = 3 := by decide +kernel
theorem test_admit : (after (.admitFeeder (hd 8) false) feeder).admissionOf 8 = .waiting := by decide +kernel
theorem test_withdraw : (after (.withdraw (hd 8)) (after (.admitFeeder (hd 8) false) feeder)).admissionOf 8 = .out := by
  decide +kernel
theorem test_order : ((after (.order (hd 2) .start none) feeder).sec .A).lastOrder = some ⟨.start, 1⟩ := by decide +kernel
theorem test_tie_assist : (after (.order (hd 2) .tieAssist (some 5)) tie).tie.state = .assisting := by decide +kernel
theorem test_block : (after (.block (hd 2) true) feeder).zone.blockList = [⟨2, 1, 100⟩] ∧
    (after (.block (hd 3) true) feeder).zone.blockList = [] := by decide +kernel
theorem test_intertrip : (after (.intertrip (hd 2) true) (closed feeder)).brk.state = .opening ∧
    (after (.intertrip (hd 3) true) (closed feeder)).brk.state = .closed := by decide +kernel
theorem test_drop : ((after (.drop (hd 3) 2) (held feeder)).entry 2).presence = .dropped ∧
    ((after (.drop (hd 3) 2) (held feeder)).sec .A).holder = 3 := by decide +kernel
/-- A station out of step that has heard its campus. -/
def joining : State := feeder.onStep fun t => { t with state := .joining, epoch := none }
theorem test_summary : (after (.summaryPart1 (hd 2) partOne) joining).pic.delivery = 41 ∧
    (after (.summaryPart2 ⟨2, 11⟩ partTwo) (after (.summaryPart1 (hd 2) partOne) joining)).step.state = .inStep := by
  decide +kernel

/-- A feeder whose incomer 2 was CLOSING when it was dropped. -/
def lapsing : State := feeder.onEntry 2 fun e =>
  { e with presence := .dropped, content := some { body with breaker := .closing }, lapse := .running 5 }
theorem test_lapse : ((after (.lapseTimerExpiry 2) lapsing).entry 2).lapse = .lapsed := by decide +kernel
/-- A generator whose claim holds the token of A. -/
def holding : State :=
  (generator.onToken fun t => { t with
    state := .holding, want := some .dispatch, phase := some .deadClose, holdTimer := some 0 }).onSec .A fun r =>
    { r with holder := 3, grant := 1 }
theorem test_hold : (after .holdTimerExpiry holding).link.ordered = [.release (one .A) .expired] := by decide +kernel
theorem test_sync_timeout : (after .syncTimeoutTimerExpiry (syncing 0)).sync.endCause = some .timeout := by decide +kernel
theorem test_block_entry : (after (.blockEntryExpiry 2) (after (.block (hd 2) true) feeder)).zone.blockList = [] := by
  decide +kernel
/-- A generator in a role state with every role timer at its end. -/
def role (r : GeneratorState) : State := generator.onDisp fun d => { d with
  role := r, startTimer := some 0, autonomousTimer := some 0, minimumTimer := some 0, surplusTimer := some 0
  cooldownTimer := some 0 }
theorem test_autonomous : (after .autonomousTimerExpiry (role .standby)).eng.run = true := by decide +kernel
theorem test_start_limit : (after .startLimitExpiry (role .starting)).fault.barLatch = true := by decide +kernel
theorem test_minimum_run : (after .minimumRunExpiry (role .online)).disp.minimumTimer = none := by decide +kernel
theorem test_surplus : (after .surplusDwellExpiry (role .online)).disp.role = .unloading := by decide +kernel
theorem test_cooldown : (after .cooldownExpiry (role .cooldown)).disp.role = .standby := by decide +kernel
/-- An incomer in a changeover state with every timer at its end. -/
def changing (m : MonitorState) (c : ChangeoverState) : State := (closed incomer).onChg fun g => { g with
  monitor := m, state := c, rideTimer := some 0, returnTimer := some 0, tieTimer := some 0, parallelTimer := some 0 }
theorem test_ride_through : (after .rideThroughExpiry (changing .disturbed .normal)).chg.monitor = .failed ∧
    (after .rideThroughExpiry (changing .disturbed .normal)).chg.state = .isolating := by decide +kernel
theorem test_return : (after .returnStableExpiry (changing .returning .onBackup)).chg.monitor = .healthy := by decide +kernel
theorem test_tie_limit : (after .tieAssistLimitExpiry (changing .failed .tieWait)).chg.state = .onBackup := by decide +kernel
theorem test_parallel : (after .parallelLimitExpiry (changing .healthy .parallel)).fault.pending.parallelLimit = true := by
  decide +kernel
theorem test_read : (after (.read 1) feeder).port.response.map (·.code) = some .ok ∧
    (after (.read 19) feeder).port.response = some ⟨.badSelector, []⟩ ∧
    (after (.read 3) loading).port.response = some ⟨.busy, []⟩ := by decide +kernel
/-- A feeder in lockout: BUS_FAULT and SET_GAP pending, SET_GAP captured. -/
def faulty : State := feeder.onFault fun f => { f with
  pending := (f.pending.set .busFault true).set .setGap true, count := (f.count.set .busFault 1).set .setGap 2
  capture := some ⟨.setGap, none, 0, 0, .none⟩, lockout := true, busFault := one .A }
theorem test_clear : (after (.clearFaults (PerKind.fill true)) faulty).fault.lockout = false ∧
    (after (.clearFaults (PerKind.fill true)) faulty).fault.capture = none := by decide +kernel
/-- A feeder with a fresh and a stale intertrip. -/
def tripped : State := feeder.onZone fun z => { z with intertrips := [⟨2, true, false, 1⟩, ⟨4, false, true, 1⟩] }
theorem test_clear_stale : (after .clearStaleIntertrip tripped).zone.intertrips = [⟨2, true, false, 1⟩] := by decide +kernel
theorem test_operate : (after .operateOpen (closed feeder)).brk.state = .opening ∧
    (after .operateClose feeder).feeder.admitOwed = true ∧ (after .operateBar generator).fault.barLatch = true ∧
    (after .operateUnbar (after .operateBar generator)).fault.barLatch = false := by decide +kernel
theorem test_operate_tie : (after .operateMerge tie).tie.state = .merging ∧
    (after .operateSplit (closed tie)).tie.state = .splitting := by decide +kernel
/-- A feeder with an operation in progress. -/
def operating : State := feeder.onPort fun p => { p with
  state := .inProgress, operation := some .close, limit := some 0 }
theorem test_operate_limit : (after .operateLimitExpiry operating).port.state = .timedOut := by decide +kernel
theorem test_command_discard : after (.commandDiscard [1]) feeder = feeder := by decide +kernel

/-! ### Rules with more than one case, one test each -/

/-- Received bytes with their check code. -/
def framed (l : List Byte) : List Byte := l ++ byte4 (crc32 l).toNat
/-- A BLOCK of station 2 with value 2, and one with value 1. -/
def unreadBlock : List Byte := framed [7, 2, 10, 0, 1, 2]
def readBlock : List Byte := framed [7, 2, 10, 0, 1, 1]

/-- A frame with a code that names no value is a delivery without an effect of its kind (log 3). -/
theorem test_unread_delivered : let t := after (.receiveDiscard unreadBlock) feeder
    t.pic.delivery = feeder.pic.delivery + 1 ∧ (t.entry 2).lastSeq = some 10 ∧ t.zone = feeder.zone ∧
    t.link.receiveDiscard = 0 := by decide +kernel
theorem test_unread_gap : let t := after (.receiveDiscard (framed [6, 2, 12, 0, 1, 9])) feeder
    t.fault.pending.linkGap = true ∧ t.step.state = .desync := by decide +kernel
theorem test_receive_frame : after (.receiveDiscard readBlock) feeder = after (.block (hd 2) true) feeder := by
  decide +kernel

/-- A second DROP leaves a fresh intertrip and the step state (R5). -/
def droppedTwice (n : Nat) : State := tripped.onEntry n fun e => { e with presence := .dropped, stale := true }
theorem test_second_drop : let t := after (.drop (hd 3) 2) (droppedTwice 2)
    t.zone = tripped.zone ∧ (t.entry 2).presence = .dropped ∧
    (after (.drop (hd 3) 6) (droppedTwice 6)).step.state = .inStep := by decide +kernel
theorem test_mismatched_stale : ((after (.status (hd 2) { body with digest := 5 }) feeder).entry 2).stale = true := by
  decide +kernel

/-- A feeder whose block stands, as its last STATUS told. -/
def announcing : State :=
  let s := feeder.onZone fun z => { z with blockAsserted := true }
  s.onLink fun l => { l with lastComposed := some (s.composeStatus .periodic) }
/-- R31: a field changed and changed back has requested its STATUS. -/
theorem test_changed_and_back : (announcing.endBlock.startBlock).zone.blockAsserted = true ∧
    (announcing.endBlock.startBlock).link.statusRequest = some .change := by decide +kernel
/-- R48, R146: a STOP that an adoption carries acts in READY. -/
theorem test_stop_adopted : let s := (role .ready).onStep fun t => { t with state := .joining, epoch := none }
    (after (.summaryPart2 ⟨2, 11⟩ partTwo) (after (.summaryPart1 (hd 2) partOne) s)).disp.role = .standby := by
  decide +kernel
/-- R126, R130: a close that ends after its record has resumed gives its cause to the RELEASE. -/
theorem test_close_after_resume : let s := holding.onToken fun t => { t with
      state := .releasing, begun := true, cause := some .withdrawn, stage := .atOwnStep }
    (s.tokenClosed false).token.cause = some .closed ∧ (s.tokenClosed false).token.closedMark = true ∧
    s.tokenCloseFailed.token.cause = some .failed := by decide +kernel
/-- R130: out of step with a want in WANTED, the record awaits the own step once the station is IN_STEP. -/
theorem test_resume_wanted : let s := generator.onToken fun t => { t with state := .wanted, want := some .dispatch }
    s.resumeClaim.token.awaitOwnStep = true ∧ s.resumeClaim.token.state = .wanted := by decide +kernel
/-- R153: entries of one former number return in the order of the Admitted List. -/
theorem test_returns_in_order :
    let s := feeder.onIsland .A fun t => { t with admitted := [⟨8, 5⟩, ⟨6, 5⟩], stood := [8, 6] }
    let returned (t : State) : List Nat := (t.island .A).queue.map (·.feeder)
    returned ((s.returnEntry .A ⟨8, 5⟩).returnEntry .A ⟨6, 5⟩) = [8, 6] ∧
    returned ((s.returnEntry .A ⟨6, 5⟩).returnEntry .A ⟨8, 5⟩) = [8, 6] := by decide +kernel
/-- R153, R157: a merge puts the feeders that stood on two Admitted Lists in the order of the merged list, and an adoption
takes that order from their numbers. -/
theorem test_merged_order :
    let s := (feeder.onIsland .A fun t => { t with admitted := [⟨8, 7⟩], queue := [⟨6, 9, some 8⟩], stood := [8, 6] }).onIsland .B
      fun t => { t with admitted := [⟨9, 5⟩], stood := [9] }
    let m := ((s.onEntry 5 fun e => { e with content := some { body with breaker := .closed } }).derive).regrouped .A
    m.admitted.map (·.feeder) = [9, 8] ∧ m.stood = [9, 8, 6] ∧
    ((feeder.adoptLists [islandA]).island .A).stood = [6, 8] := by decide +kernel
/-- R39, R49: a station that leaves step has a CHANGE STATUS requested, in start silence and at a void in JOINING too. -/
theorem test_desync_asks : let s := feeder.onLink fun l => { l with startSilence := true }
    s.enterDesync.link.statusRequest = some .change ∧ s.enterDesync.step.state = .desync ∧
    (feeder.onStep fun t => { t with state := .joining }).voidAdoption.link.statusRequest = some .change := by decide +kernel
/-- R123: a timer that runs is not restarted, and a report that has lapsed gets a new timer. -/
theorem test_lapse_again : ((lapsing.startLapse 2).entry 2).lapse = .running 5 ∧
    (((lapsing.onEntry 2 fun e => { e with lapse := .lapsed }).startLapse 2).entry 2).lapse = .running 10000 := by
  decide +kernel
/-- R114: a slot that is not blockable operates at its operate point beside a block, a held one on its release. -/
theorem test_released :
    let c : SlotSettings := { SlotSettings.absent with enabled := true, pickup := 100, delay := 1, blockable := false }
    (moveSlot c .phaseDefinite true true (measured 1 120) .initial).run.released = false ∧
    (moveSlot { c with blockable := true } .phaseDefinite false true (measured 1 120)
      { SlotRun.initial with state := .held }).run.released = true := by decide +kernel
/-- An ASSISTING tie queued for both its sections, behind the close of its ordering incomer. -/
def tieBehind : State :=
  let s := (tie.onTie fun _ => { state := .assisting, ordering := 2 }).onToken fun t => { t with
    state := .queued, want := some .tie }
  let s := s.onPic fun p => { p with secs := PerSection.make fun x =>
    { p.secs.get x with queue := if (s.ownSections).get x then [⟨5, 1⟩] else [] } }
  (s.onEntry 2 fun e => { e with content := some { body with breaker := .closing, role := 2 } }).onMeas fun m => { m with
    line := { m.line with live := true } }
/-- R173: the STATUS that ends that close withdraws the tie's want before the grant it makes begins a close. -/
theorem test_tie_judged_first :
    (after (.status (hd 2) body) tieBehind).tie.state = .idle ∧ (after (.status (hd 2) body) tieBehind).brk.state = .opened ∧
    (after (.status (hd 2) { body with role := 2 }) tieBehind).brk.state = .closing := by decide +kernel
/-- R159: a feeder that is OUT while out of step keeps the WITHDRAW it owes. -/
theorem test_owed_out_of_step :
    ((joining.onFeeder fun f => { f with withdrawOwed := true }).judgeFeeder).feeder.withdrawOwed = true := by decide +kernel
/-- R173: the close of an ASSISTING tie has begun, so its incomer's STATUS withdraws nothing. -/
theorem test_begun_close_kept :
    let s := (tie.onTie fun _ => { state := .assisting, ordering := 2 }).onToken fun t => { t with
      state := .suspended, want := some .tie, begun := true }
    (s.tieJudgeIncomer 2).tie.state = .assisting ∧
    ((s.onToken fun t => { t with begun := false }).tieJudgeIncomer 2).tie.state = .idle := by decide +kernel
/-- R173: a close of an earlier claim, which has ended, is none of a TIE_ASSIST whose want is refused: its incomer is judged. -/
theorem test_old_close_forgotten :
    let s := (tie.onToken fun t => { t with state := .suspended, want := some .tie, begun := true }).tieAssist 2
    s.tie = { state := .assisting, ordering := 2 } ∧ (s.tieJudgeIncomer 2).tie.state = .idle := by decide +kernel
/-- 4.9: READY is returned at a generator only. -/
theorem test_ready_record : ((feeder.onPins fun p => { p with ready := true }).recordOf 9).bind (·.getLast?) = some 0 ∧
    (online.recordOf 9).bind (·.getLast?) = some 1 := by decide +kernel
/-- R178: a restart into another kind leaves the role counters of the old one at reset values. -/
theorem test_other_kind_restarted : (((fresh 3 .generator).onDisp fun d => { d with starts := 5 }).configure
    (loaded 6 .feeder)).disp.starts = 0 := by decide +kernel

/-! ### What the obligations assume, met -/

theorem test_meets_front : (State.reset.withPending [.powerOn, .roundEnd]).pending = .powerOn :: [.roundEnd] := by
  decide +kernel
theorem test_meets_empty : lapsing.pending = [] ∧ (lapsing.entry 2).lapse = .running 5 := by decide +kernel

/-- Each position at a load of a station that is no generator. -/
theorem test_meets_load : loading.settings.state = .loading ∧ judgeImage image = .ok accepted ∧
    (loadedEntry accepted.campus accepted.station.number accepted.station.number).fixed.map (·.kind) ≠ some .generator ∧
    loading.position = .opened ∧ (closed loading).position = .closed ∧ State.reset.position = .travelling :=
  ⟨by decide +kernel, test_image, by decide +kernel, by decide +kernel, by decide +kernel, by decide +kernel⟩
theorem test_meets_refused : State.reset.settings.state = .loading ∧ judgeImage [] = .error .noResponse := by decide +kernel

/-- One image for each test, and the one that passes them. -/
theorem test_meets_image_tests : judgeImage [0] = .error .noResponse ∧ judgeImage [0, 11, 0] = .error .noResponse ∧
    judgeImage [0, 1] = .error .badLength ∧ judgeImage [0, 10, 0, 1, 0, 0, 0, 1, 0, 10] = .error .badCheck ∧
    judgeImage [0, 10, 0, 2, 0, 0, 0, 0, 0, 10] = .error .badVersion ∧ judgeImage image = .ok accepted :=
  ⟨by decide +kernel, by decide +kernel, by decide +kernel, by decide +kernel, by decide +kernel, test_image⟩

/-- The ends of the range of selectors. -/
theorem test_meets_read : feeder.settings.state ≠ .loading ∧ (feeder.recordOf 0).isSome = false ∧
    (feeder.recordOf 1).isSome = true ∧ (feeder.recordOf 18).isSome = true ∧ (feeder.recordOf 19).isSome = false ∧
    State.reset.settings.state = .loading := by decide +kernel

/-- A station whose load was refused. -/
def unconfigured : State := State.reset.refuseLoad .badCheck
theorem test_meets_turned_away : State.reset.settings.state = .loading ∧ unconfigured.settings.state = .unconfigured ∧
    operating.settings.state = .configured ∧ operating.port.state = .inProgress := by decide +kernel
theorem test_meets_operations : feeder.settings.state = .configured ∧ feeder.port.state ≠ .inProgress ∧
    generator.ownKind = some .generator ∧ generator.disp.role ≠ .ready ∧ feeder.ownKind = some .feeder ∧
    tie.ownKind = some .tie ∧ incomer.ownKind = some .incomer ∧ (closed feeder).brk.state = .closed ∧
    (closed feeder).news = [] ∧ (closed generator).brk.state = .closed := by decide +kernel
theorem test_meets_begin : (closed incomer).brk.state = .closed ∧ feeder.brk.state = .opened ∧ feeder.ownAdmission = .out ∧
    (generator.onDisp fun d => { d with role := .ready }).ownKind = some .generator ∧ generator.token.state = .idle ∧
    generator.brk.state = .opened ∧ generator.brk.watch = false ∧ tie.tie.state = .idle ∧ tie.brk.state = .opened ∧
    (closed tie).brk.state = .closed ∧ tie.port.state ≠ .inProgress ∧ tie.settings.state = .configured ∧
    (after .operateOpen (closed tie)).tie.state = .splitting ∧ (after .operateOpen tie).port.state = .done := by
  decide +kernel
theorem test_meets_operate_limit : operating.port.limit.isSome = true := by decide +kernel

/-- A fresh station is in form, and so is a faulty one. -/
theorem test_fresh_good : Good (fresh 6 .feeder) := (good_reset.onPins _).configure _
theorem test_meets_clear : (fresh 6 .feeder).settings.state = .configured ∧ Good (fresh 6 .feeder) ∧
    (PerKind.fill true : PerKind Bool).get .setGap = true ∧ (PerKind.fill false : PerKind Bool).get .setGap = false :=
  ⟨by decide +kernel, test_fresh_good, by decide +kernel, by decide +kernel⟩
theorem test_meets_clear_capture : Good ((fresh 6 .feeder).raise .setGap .none) ∧
    (((fresh 6 .feeder).raise .setGap .none).fault.capture).isSome = true :=
  ⟨((Within.refl {} _).raise .setGap .none (by simp)).good test_fresh_good, by decide +kernel⟩
theorem test_meets_invariant : Inv (fresh 6 .feeder) ∧ PictureDerived feeder :=
  ⟨⟨test_fresh_good, lockoutOnly_configure _ _, fun c => absurd c (by decide +kernel), by decide +kernel⟩,
   fun _ => ⟨by decide +kernel, by decide +kernel, by intro x; cases x <;> decide +kernel,
     by intro x; cases x <;> decide +kernel, by intro x; cases x <;> decide +kernel⟩⟩

/-- A set after which the next is a gap, and one after which it is not. -/
theorem test_meets_set : let s := after (.setArrival (measured 1 5)) feeder
    s.settings.state = .configured ∧ s.meas.setLoss = false ∧ s.meas.lastSeq = some 1 ∧ (3 : Word16) ≠ 1 + 1 ∧
    s.meas.lossTimer.isSome = true ∧ frameAccepted [1] = false := by decide +kernel
theorem test_meets_inputs : feeder.pins.auxA = false ∧ feeder.pins.auxB = true ∧ feeder.pins.ready ≠ true ∧
    unconfigured.settings.state ≠ .configured := by decide +kernel
/-- A station whose breaker has opened with current still flowing. -/
def watching : State := feeder.onBrk fun b => { b with
  state := .opened, watch := true, tripOut := true, openTimer := some 150 }
theorem test_meets_positions : (closing feeder).brk.state = .closing ∧ (closing feeder).position ≠ .closed ∧
    (opening feeder).brk.state = .opening ∧ (opening feeder).position = .closed ∧ (failed feeder).brk.state = .failed ∧
    (failed feeder).position = .closed ∧ (failed feeder).currentsBelow = true ∧
    ((failed feeder).onMeas fun m => { m with latest := some (measured 1 50) }).currentsBelow = false ∧
    (failed feeder).brk.origin = .noOpen := by decide +kernel
theorem test_meets_positions_kept : ((closing feeder).onPins fun p => { p with auxB := false }).position = .travelling ∧
    ((closing feeder).onPins fun p => { p with auxB := false }).brk.state = .closing ∧
    ((opening feeder).onPins fun p => { p with auxA := false }).position = .travelling ∧
    ((opening feeder).onPins fun p => { p with auxA := false }).brk.state = .opening ∧
    ((failed feeder).onPins fun p => { p with auxB := true }).position = .invalid := by decide +kernel
theorem test_meets_outside : (closed feeder).brk.state = .closed ∧ (closed feeder).position ≠ .opened ∧
    feeder.brk.state = .opened ∧ feeder.brk.watch = false ∧ feeder.position ≠ .closed ∧
    ((closed feeder).onPins fun p => { p with auxB := true }).position = .invalid ∧
    (feeder.onPins fun p => { p with auxB := false }).position = .travelling ∧ watching.brk.watch = true ∧
    watching.brk.state = .opened := by decide +kernel

/-- A feeder that is admitted, and an incomer that holds its token beside another that is CLOSED. -/
def admitted : State := { feeder with isl := feeder.isl.set .A { feeder.isl.a with admitted := [⟨6, 1⟩] } }
def beside : State :=
  (((incomer.onSec .A fun r => { r with holder := 2 }).onEntry 4 fun e =>
    { e with content := some { body with breaker := .closed } }).onEntry 5 fun e =>
    { e with content := some { body with breaker := .closed } }).derive

/-- A state for each condition of the close permissive, and one that meets them all. -/
theorem test_meets_permissive : (closed admitted).closeRefusal = some .notOpen ∧ watching.closeRefusal = some .notOpen ∧
    (admitted.onPins fun p => { p with auxB := false }).closeRefusal = some .position ∧
    (admitted.onStep fun t => { t with state := .desync }).closeRefusal = some .notInStep ∧
    (admitted.onPic fun p => { p with quorum := false }).closeRefusal = some .noQuorum ∧
    (admitted.raise .busFault .none).closeRefusal = some .lockout ∧
    tripped.closeRefusal = some .intertrip ∧ feeder.closeRefusal = some .notAdmitted ∧
    incomer.closeRefusal = some .noToken ∧ beside.closeRefusal = some .twoIncomers ∧ admitted.closeRefusal = none := by
  decide +kernel

/-- They meet the form of the state too, the locked out one included. -/
theorem test_meets_permissive_form : Good admitted ∧ LockoutOnly admitted ∧ admitted.configured = true ∧
    Good (admitted.raise .busFault .none) ∧ LockoutOnly (admitted.raise .busFault .none) := by
  have g : Good admitted := test_fresh_good.congr (by decide +kernel) (by decide +kernel) (by decide +kernel)
    ⟨by decide +kernel, by decide +kernel, by decide +kernel⟩ (by decide +kernel) (by decide +kernel) (by decide +kernel)
  exact ⟨g, fun _ h => absurd h (by decide +kernel), by decide +kernel,
    ((Within.refl {} _).raise .busFault .none (by simp)).good g, fun _ _ => by decide +kernel⟩

theorem test_meets_breaker_timers : (closing feeder).brk.closeTimer.isSome = true ∧ (closing feeder).position = .opened ∧
    ((closing feeder).onPins fun p => { p with auxB := false }).position ≠ .opened ∧
    disagreeing.brk.disagreementTimer.isSome = true ∧ (opening feeder).brk.openTimer.isSome = true ∧
    watching.brk.openTimer.isSome = true ∧ (failed feeder).brk.openTimer.isSome = true := by decide +kernel
theorem test_meets_disagreement : disagreeing.brk.Ok := by
  have e : disagreeing.brk = { BreakerRecord.initial with state := .closed, disagreementTimer := some 100 } := by
    decide +kernel
  rw [e]
  constructor <;> simp [BreakerRecord.initial]
theorem test_meets_ready : online.pins.ready = true ∧ online.news = [] ∧ online.ownKind = some .generator ∧
    online.disp.role = .online ∧ online.brk.state = .closed := by decide +kernel

/-- A slot setting of a delay and a curve constant. -/
def slot (delay curve : Nat) (blockable : Bool) : SlotSettings :=
  { SlotSettings.absent with enabled := true, blockable := blockable, pickup := 100, delay := delay, curve := curve }
/-- The clauses about a held, an operated and an idle definite slot, and a count at its ceiling. -/
theorem test_meets_definite_rest :
    (moveDefinite (slot 2 0 true) true true { SlotRun.initial with state := .held, count := 65535 }).run.count = 65535 ∧
    (moveDefinite (slot 2 0 true) true true { SlotRun.initial with state := .operated }).run.state = .operated ∧
    (moveDefinite (slot 2 0 true) true false .initial).run = .initial ∧
    (moveDefinite (slot 65536 0 true) true true { SlotRun.initial with state := .picked, count := 65535 }).operates = false := by
  decide +kernel
/-- Each clause about an inverse slot in IDLE, RESETTING, HELD and OPERATED, at both ends of the decay. -/
theorem test_meets_inverse_rest :
    let c : SlotSettings := { slot 0 70 true with decay := true, decayStep := 50 }
    let at' (st : ElementState) (acc : Nat) : SlotRun := { SlotRun.initial with state := st, acc := acc }
    (moveInverse c true true 20 .initial).run = at' .picked 20 ∧ (moveInverse c true true 70 .initial).run = at' .held 70 ∧
    (moveInverse c false true 20 (at' .resetting 50)).run = at' .operated 70 ∧
    (moveInverse c true true 20 (at' .held 50)).run = at' .held 70 ∧
    (moveInverse c false true 20 (at' .held 50)).operates = true ∧
    (moveInverse c true false 0 (at' .held 51)).run = at' .resetting 1 ∧
    (moveInverse c true false 0 (at' .picked 50)).run = at' .idle 0 ∧
    (moveInverse c true false 0 (at' .resetting 51)).run = at' .resetting 1 ∧
    (moveInverse (slot 0 70 true) true false 0 (at' .held 51)).run = at' .idle 0 ∧
    (moveInverse c true true 9 (at' .operated 5)).run = at' .operated 5 ∧
    (moveInverse c true false 9 (at' .operated 5)).run = at' .idle 0 ∧ (moveInverse c true false 9 .initial).run = .initial := by
  decide +kernel
/-- Each clause about a definite slot, at the delay where the count reaches it. -/
theorem test_meets_definite : (moveDefinite (slot 1 0 true) false true .initial).run.state = .operated ∧
    (moveDefinite (slot 1 0 true) true true .initial).run.state = .held ∧
    (moveDefinite (slot 2 0 true) false true .initial).run.state = .picked ∧
    (moveDefinite (slot 3 0 false) true true { SlotRun.initial with state := .picked, count := 1 }).run.count = 2 ∧
    (moveDefinite (slot 2 0 false) true true { SlotRun.initial with state := .picked, count := 1 }).operates = true ∧
    (moveDefinite (slot 2 0 true) true true { SlotRun.initial with state := .picked, count := 1 }).run.state = .held ∧
    (moveDefinite (slot 2 0 true) false true { SlotRun.initial with state := .held, count := 2 }).operates = true ∧
    (moveDefinite (slot 2 0 true) false false { SlotRun.initial with state := .operated }).run.state = .idle := by
  decide +kernel
/-- Each clause about an inverse slot, at the accumulator that reaches the curve constant. -/
theorem test_meets_inverse :
    let r := { SlotRun.initial with state := .picked, acc := 50 }
    (moveInverse (slot 0 71 true) true true ((slot 0 71 true).excess (measured 1 120)) r).run.state = .picked ∧
    (moveInverse (slot 0 70 true) false true ((slot 0 70 true).excess (measured 1 120)) r).run.state = .operated ∧
    (moveInverse (slot 0 70 true) true true ((slot 0 70 true).excess (measured 1 120)) r).run.state = .held := by
  decide +kernel
theorem test_meets_operate_element : 1 ≤ 8 ∧ 8 ≤ (closed incomer).prot.slots.length ∧ (closed incomer).brk.state = .closed ∧
    (closed incomer).ownKind ≠ some .feeder ∧ (closed incomer).ownSections.get .A = true := by decide +kernel
/-- A raise of every standing: new, repeated, at the top of its count, masked, captured, of each severity. -/
theorem test_meets_raise : feeder.fault.pending.get .setGap = false ∧ faulty.fault.pending.get .setGap = true ∧
    faulty.fault.count.get .setGap < 255 ∧ feeder.fault.capture = none ∧ feeder.masked .setGap = false ∧
    255 ≤ (faulty.onFault fun f => { f with count := f.count.set .setGap 255 }).fault.count.get .setGap ∧
    faulty.fault.capture.isSome = true ∧ feeder.severityOf .busFault = .lockout ∧
    feeder.severityOf .breakerNoClose = .trip := by decide +kernel
theorem test_meets_gap : contending.settings.state = .configured ∧ contending.link.mediumIdle = true ∧
    contending.link.startSilence = false ∧ contending.gap.isSome = true ∧ contending.link.urgent = [] ∧
    (fresh 6 .feeder).link.startSilence = true := by decide +kernel
/-- The three classes at the head of what is transmitted, and a part 1 among the ordered ones. -/
theorem test_meets_heads : (contending.onLink fun l => { l with urgent := [.block true] }).gap.isSome = true ∧
    (contending.onLink fun l => { l with ordered := [], statusRequest := some .periodic }).gap.isSome = true ∧
    (contending.onLink fun l => { l with ordered := [.summaryOne 3] }).link.ordered.head? = some (.summaryOne 3) := by
  decide +kernel

theorem test_meets_delivery : frameHeader (.withdraw (hd 12)) = some (hd 12) ∧ feeder.isConfigured 12 = false ∧
    frameHeader (.drop (hd 12) feeder.own) = some (hd 12) ∧
    feeder.isConfigured 2 = true ∧ (feeder.entry 2).presence = .live ∧ (feeder.entry 2).lastSeq = some 9 ∧
    (hd 2).seq = 9 + 1 ∧ (11 : Byte) ≠ 9 + 1 ∧ feeder.step.state = .inStep := by decide +kernel
theorem test_meets_status : body.digest = feeder.digest ∧ ({ body with digest := 5 }).digest ≠ feeder.digest ∧
    (hd 2).source ≠ feeder.own := by decide +kernel
/-- A claim that is applied and taken, one that a test discards, and one that is not applied. -/
theorem test_meets_claim : let u := feeder.noted .claim 1 (hd 2)
    u.reportsInStep 2 = true ∧ u.claimTest 2 (one .A) = none ∧ u.claimTest 2 (one .B) = some 1 ∧
    (joining.noted .claim 1 (hd 2)).reportsInStep 2 = false ∧ (u.sec .A).faulted = (feeder.sec .A).faulted := by
  decide +kernel
/-- Two sections joined by a closed tie. -/
def joined : State := (feeder.onEntry 5 fun e => { e with content := some { body with breaker := .closed } }).derive
/-- Two incomers whose breakers are CLOSED. -/
def bothClosed : State :=
  ((feeder.onEntry 2 fun e => { e with content := some { body with breaker := .closed } }).onEntry 4 fun e =>
    { e with content := some { body with breaker := .closed } }).derive
theorem test_meets_claim_tests : feeder.claimTest 6 (one .A) = some 1 ∧
    (feeder.onSec .A fun r => { r with faulted := true }).claimTest 2 (one .A) = some 2 ∧
    joined.claimTest 2 (one .A) = some 3 ∧ bothClosed.claimTest 5 (tie.connects 5) = some 4 ∧
    (held feeder).claimTest 3 (one .A) = some 5 ∧ feeder.claimTest 3 (one .A) = none := by decide +kernel
/-- A tie at the head of both queues, and of one. -/
def tieQueued (both : Bool) : State :=
  (feeder.onSec .A fun r => { r with queue := [⟨5, 1⟩] }).onSec .B fun r =>
    { r with queue := if both then [⟨5, 1⟩] else [⟨4, 1⟩, ⟨5, 1⟩] }
theorem test_meets_grants : (held feeder).grantable .A = false ∧
    ((held feeder).onSec .A fun r => { r with holder := 0 }).grantable .A = true ∧ feeder.kindOf 3 ≠ some .tie ∧
    (tieQueued true).grantable .A = true ∧ feeder.kindOf 5 = some .tie ∧ (tieQueued true).tieReady 5 .A = true ∧
    (tieQueued false).tieReady 5 .A = false := by decide +kernel
theorem test_meets_release : let u := (held feeder).noted .release 2 (hd 2)
    u.reportsInStep 2 = true ∧ one .A = u.connects 2 ∧ BusSection.all.all (fun y => !(u.sec y).queues 2) = true ∧
    (u.sec .A).holder = 2 ∧ (((held feeder).noted .release 2 (hd 3)).sec .A).holder ≠ 3 := by decide +kernel
theorem test_meets_admit : let u := feeder.noted .admitFeeder 1 (hd 8)
    u.reportsInStep 8 = true ∧ u.step.pendingAdoption = none ∧ u.kindOf 8 = some .feeder ∧ u.admissionOf 8 = .out ∧
    u.secOf 8 = some .A ∧ u.islandOf .A = some .A ∧ (u.sec .A).live = false ∧ u.islandLive .A = false ∧
    (after (.admitFeeder (hd 8) false) feeder).island .A =
      { IslandTables.initial with queue := [⟨8, u.pic.delivery, none⟩] } := by decide +kernel
/-- Section A live on its incomer, of capacity 300 and so a usable 240. -/
def energised : State :=
  let s := feeder.onEntry 2 fun e => { e with content := some { body with breaker := .closed, busLive := true } }
  s.derive.onIsland .A fun t => { t with capacity := 300 }
/-- An ADMIT into a live island: an open feeder that fits and one that does not, and a closed one that fits and one that is
shed as it is placed. -/
theorem test_meets_admit_live : let u (n : Nat) := energised.noted .admitFeeder 1 (hd n)
    let lists (n : Nat) (c : Bool) :=
      let i := (after (.admitFeeder (hd n) c) energised).island .A
      (i.admitted, i.queue)
    (u 6).reportsInStep 6 = true ∧ (u 6).admissionOf 6 = .out ∧ (u 6).kindOf 6 = some .feeder ∧
    ((u 6).sec .A).live = true ∧ (u 6).islandLive .A = true ∧ (u 6).pic.delivery = 1 ∧
    lists 6 false = ([⟨6, 1⟩], []) ∧ lists 8 false = ([], [⟨8, 1, none⟩]) ∧
    lists 6 true = ([⟨6, 1⟩], []) ∧ lists 8 true = ([], [⟨8, 1, some 1⟩]) := by decide +kernel
theorem test_meets_order : let u := feeder.noted .order 1 (hd 2)
    u.reportsInStep 2 = true ∧ u.kindOf 2 = some .incomer ∧ OrderKind.start.isSectionOrder = true ∧ u.secOf 2 = some .A ∧
    u.step.pendingAdoption = none ∧ OrderKind.split.isSectionOrder = false ∧ u.kindOf 3 ≠ some .incomer := by decide +kernel
theorem test_meets_tie : tie.tie.state = .idle ∧ tie.brk.state = .opened ∧ (closed tie).brk.state = .closed ∧
    ((closed tie).tieSplit).tie.state ≠ .idle := by decide +kernel
/-- A TIE_ASSIST and a SPLIT that reach the tie, one for another tie, one without a tie, and one not applied. -/
theorem test_meets_tie_order :
    let u := tie.noted .order 2 (hd 2)
    let w := State.handOn HandOn.quiet tie u
    let c := State.handOn HandOn.quiet (closed tie) ((closed tie).noted .order 2 (hd 2))
    tie.isConfigured 2 = true ∧ (hd 2).source ≠ tie.own ∧ tie.own = 5 ∧ tie.ownKind = some .tie ∧
    u.reportsInStep 2 = true ∧ u.kindOf 2 = some .incomer ∧ OrderKind.tieAssist.isSectionOrder = false ∧
    u.secOf 2 = some .A ∧ (u.connects 5).get .A = true ∧ (u.sec .A).faulted = (tie.sec .A).faulted ∧
    w.tie.state = .idle ∧ w.brk.state = .opened ∧ c.tie.state = .idle ∧ c.brk.state = .closed ∧
    (after (.order (hd 2) .split (some 5)) (closed tie)).tie.state = .splitting ∧
    (after (.order (hd 2) .split (some 7)) (closed tie)).tie.state = .idle ∧
    (after (.order (hd 2) .tieAssist none) tie).tie.state = .idle ∧ u.kindOf 3 ≠ some .incomer := by decide +kernel
/-- A tie that serves a MERGE. -/
def merging : State := tie.onTie fun t => { t with state := .merging }
/-- A SPLIT of a closing tie whose breaker is OPEN, and of one whose breaker is CLOSING. -/
theorem test_meets_split : merging.tieSplit.tie.state = .idle ∧ (closing merging).tieSplit.tie.state = .splitting ∧
    tie.token.state = .idle ∧ tie.brk.watch = false ∧ (tie.onTie fun t => { t with state := .splitting }).brk.state = .opened := by
  decide +kernel
theorem test_meets_zone : (feeder.noted .block 1 (hd 2)).downstream 2 = true ∧
    (feeder.noted .block 1 (hd 3)).downstream 3 = false ∧ feeder.intertripListed 2 = false ∧
    tripped.intertripListed 2 = true ∧ (hd 2).source ≠ feeder.own := by decide +kernel
theorem test_meets_drop : (feeder.noted .drop 1 (hd 3)).appliesDrop (hd 3) 2 = true ∧
    ((feeder.endStartSilence).noted .drop 1 (hd 3)).appliesDrop (hd 3) 6 = true ∧
    ((feeder.noted .drop 1 (hd 3)).entry 2).content.isSome = true ∧ feeder.own = 6 := by decide +kernel
theorem test_meets_part_one :
    ((joining.countDelivery).noteSource .summary (SummaryOne.length partOne) (hd 2)).takesSummary 2 partOne = true := by
  decide +kernel
/-- A station with a pending adoption. -/
def adopting : State := after (.summaryPart1 (hd 2) partOne) joining
theorem test_meets_part_two : adopting.step.pendingAdoption = some ⟨2, partTwo.serial, partTwo.epoch⟩ ∧
    adopting.step.state ≠ .inStep ∧ partTwo.delivery = adopting.pic.delivery ∧
    (partTwo.islands.map (·.name)).Nodup ∧ ({ partTwo with delivery := 40 }).delivery ≠ adopting.pic.delivery := by
  decide +kernel
theorem test_meets_claim_timers : holding.settings.state = .configured ∧ holding.token.holdTimer.isSome = true ∧
    holding.token.state = .holding ∧ (syncing 0).sync.timer.isSome = true ∧ (syncing 0).sync.session ≠ .none ∧
    (syncing 0).sync.window.count + 1 = (syncing 0).station.window ∧
    (holding.onSync fun y => { y with session := .opened, timer := some 0 }).sync.session ≠ .none := by decide +kernel
theorem test_meets_role_timers : (role .standby).ownKind = some .generator ∧ (role .standby).barred = false ∧
    (role .online).disp.surplusTimer.isSome = true ∧ (role .online).needed = false ∧
    (role .cooldown).disp.cooldownTimer.isSome = true ∧ (role .starting).disp.startTimer.isSome = true ∧
    (role .standby).disp.autonomousTimer.isSome = true ∧ (role .online).disp.minimumTimer.isSome = true := by decide +kernel
theorem test_meets_changeover_timers : (changing .disturbed .normal).ownKind = some .incomer ∧
    (changing .disturbed .normal).chg.rideTimer.isSome = true ∧ (changing .returning .normal).chg.monitor = .returning ∧
    (changing .returning .normal).chg.returnTimer.isSome = true ∧ (changing .failed .tieWait).chg.tieTimer.isSome = true ∧
    (changing .healthy .parallel).chg.parallelTimer.isSome = true := by decide +kernel
/-- TIE_WAIT with a healthy supply and an OPEN breaker, its section dead, live on a generator, and live without one. -/
def returned : State := (changing .healthy .tieWait).onBrk fun b => { b with state := .opened }
def live (s : State) : State := s.onSec .A fun r => { r with live := true }
def served : State := (live returned).onEntry 3 fun e => { e with content := some { body with breaker := .closed, role := 3 } }
theorem test_meets_tie_wait : returned.chg.manualHold = false ∧ returned.fault.lockout = false ∧
    returned.islandShared returned.ownSec = false ∧ (returned.sec returned.ownSec).live = false ∧
    (live returned).generatorServes = false ∧ served.generatorServes = true ∧
    (after .tieAssistLimitExpiry returned).chg.state = .openRetransfer ∧
    (after .tieAssistLimitExpiry (live returned)).chg.state = .onBackup ∧
    (after .tieAssistLimitExpiry served).chg.state = .retransfer := by decide +kernel
/-- ON_BACKUP with a healthy supply, after a lockout has ended; and the same under the manual hold. -/
def onBackup (s : State) : State := s.onChg fun g => { g with state := .onBackup }
def underHold (s : State) : State := (onBackup s).onChg fun g => { g with manualHold := true }
theorem test_close_judges_a_change_of_the_hold : (after .operateClose (onBackup served)).chg = (onBackup served).chg ∧
    (after .operateClose (underHold served)).chg.state = .retransfer ∧
    (after .operateClose (underHold returned)).chg.state = .openRetransfer ∧
    (after .operateClose (underHold (live returned))).chg.state = .onBackup := by decide +kernel
theorem test_meets_close : (underHold served).ownKind = some .incomer ∧ (underHold served).port.state ≠ .inProgress ∧
    (underHold served).settings.state = .configured ∧ (underHold served).chg.manualHold = true ∧
    (underHold served).chg.state = .onBackup ∧ (onBackup served).chg.manualHold = false := by decide +kernel
theorem test_meets_frame : let f : Frame := ⟨hd 2, .status body⟩
    f.header.wf = true ∧ f.body.wf = true ∧ (FrameBody.summaryOne partOne).wf = true ∧ (FrameBody.summaryTwo partTwo).wf = true := by
  decide +kernel

/-! ### Each case of the wider statements, met -/

/-- A small image: a station part of number and kind, and a campus part of one station 6 of a kind on section A. -/
def smallImage (check : Nat) (sections kind : Byte) : List Byte :=
  byte2 24 ++ byte2 1 ++ byte4 check ++ byte2 12 ++ [6, 0] ++ [1, sections, 0, 5, 1, 0] ++ [6, kind, 0, 0, 0, 0]
theorem test_meets_image_later_tests :
    judgeImage [0, 10, 0, 1, 0, 0, 0, 0, 0, 10] = .error .badStation ∧
    judgeImage [0, 11, 0, 1, 95, 10, 226, 120, 0, 10, 31] = .error .badStation ∧
    judgeImage [0, 11, 0, 1, 59, 97, 74, 184, 0, 10, 6] = .error .badStation ∧
    judgeImage (smallImage 508964514 1 1) = .error .kindMismatch ∧
    judgeImage (smallImage 3803764946 0 0) = .error .badCounts ∧
    judgeImage (smallImage 590743314 1 0) = .error .badValue := by decide +kernel

/-- An operation in progress whose limit runs. -/
def limited (s : State) : State := s.onPort fun p => { p with
  state := .inProgress, operation := some .close, limit := some 0 }
/-- A claim record in a state with a want. -/
def wanting (w : Want) (st : ClaimState) (s : State) : State := s.onToken fun t => { t with state := st, want := some w }
def waiting : State := { feeder with isl := feeder.isl.set .A { feeder.isl.a with queue := [⟨6, 1, none⟩] } }
/-- A MERGING tie whose want a lockout has cleared while its claim is RELEASING. -/
def lockedMerge : State := (wanting .tie .releasing merging).tokenLockout
/-- A MERGING tie whose want was refused for the claim of an earlier close, which has reached CLOSED. -/
def closedMerge : State := lockedMerge.onToken fun t => { t with closedMark := true }
/-- At the operate limit a MERGE stays MERGING while the claim that ends it stands, its want recorded or cleared by a lockout;
without such a claim it is IDLE (R173, R180). -/
theorem test_limit_of_merge :
    (after .operateLimitExpiry (limited lockedMerge)).tie.state = .merging ∧
    (after .operateLimitExpiry (limited (wanting .tie .queued merging))).tie.state = .merging ∧
    (after .operateLimitExpiry (limited (wanting .tie .wanted merging))).tie.state = .idle ∧
    (after .operateLimitExpiry (limited merging)).tie.state = .idle ∧
    (after .operateLimitExpiry (limited closedMerge)).tie.state = .idle := by decide +kernel
theorem test_meets_limit_kinds : (limited (wanting .maintenance .wanted generator)).token.want = some .maintenance ∧
    (wanting .maintenance .queued generator).token.state = .queued ∧ (wanting .maintenance .holding generator).token.state = .holding ∧
    (wanting .maintenance .closing (closing generator)).brk.state = .closing ∧
    (limited (wanting .dispatch .wanted generator)).token.want ≠ some .maintenance ∧
    (limited (wanting .tie .closing merging)).ownKind = some .tie ∧ (limited (wanting .tie .closing merging)).tie.state = .merging ∧
    (limited merging).token.state = .idle ∧ (limited tie).tie.state ≠ .merging ∧
    (limited lockedMerge).token.state = .releasing ∧ (limited lockedMerge).token.closedMark = false ∧
    (limited lockedMerge).token.want ≠ some .tie ∧ (limited closedMerge).token.closedMark = true ∧
    (limited closedMerge).token.closedMarked = false ∧
    (limited waiting).ownAdmission = .waiting ∧ (limited feeder).ownAdmission = .out ∧
    (limited admitted).ownAdmission = .admitted ∧ (limited incomer).ownKind = some .incomer ∧
    (limited incomer).settings.state = .configured := by decide +kernel

/-- A station in FAILED with BREAKER_DISAGREE pending, its position travelling. -/
def failedDisagreeing : State := (((fresh 6 .feeder).raise .breakerDisagree .none).onBrk fun _ =>
  { BreakerRecord.initial with state := .failed, origin := .disagree }).onPins fun p => { p with auxB := false }
/-- A station in which slot 1 has raised BUS_FAULT, and stands OPERATED by that operation. -/
def busFaulty : State := (fresh 6 .feeder).raise .busFault (.slot 1)
def busStanding : State := busFaulty.onSlot 1 fun r => { r with state := .operated }
theorem test_meets_clear_standing : Good failedDisagreeing ∧ failedDisagreeing.fault.pending.get .breakerDisagree = true ∧
    failedDisagreeing.brk.origin = .disagree ∧ failedDisagreeing.position = .travelling ∧
    Good busFaulty ∧ busFaulty.fault.pending.get .busFault = true ∧ 1 ∈ busFaulty.busFaultSlots ∧
    (busFaulty.slotRun 1).state ≠ .operated ∧
    Good busStanding ∧ 1 ∈ busStanding.busFaultSlots ∧ (busStanding.slotRun 1).state = .operated ∧
    (busStanding.slotRun 1).released = false ∧ (busStanding.fault.capture).map (·.kind) = some .busFault := by
  have b : Good busFaulty := ((Within.refl {} _).raise .busFault (.slot 1) (by simp)).good test_fresh_good
  have d : Within {} (fresh 6 .feeder) (((fresh 6 .feeder).raise .breakerDisagree .none).onBrk fun _ =>
      { BreakerRecord.initial with state := .failed, origin := .disagree }) :=
    ((Within.refl {} _).raise .breakerDisagree .none (by simp)).onBrk _ fun _ => by
      constructor <;> simp [BreakerRecord.initial]
  exact ⟨(d.good test_fresh_good).onPins _, by decide +kernel, by decide +kernel, by decide +kernel, b, by decide +kernel,
    by decide +kernel, by decide +kernel,
    ((Within.refl {} busFaulty).onProt fun p => { p with slots := updateAt _ (1 - 1) p.slots }).good b,
    by decide +kernel, by decide +kernel, by decide +kernel, by decide +kernel⟩
/-- R114: slot 1, which operated out of HELD, rejoins beside slot 2, which keeps the cause standing and is the context. -/
def busBeside : State := ((busStanding.joinBusFault 2).onSlot 1 fun r => { r with released := true }).onSlot 2 fun r =>
  { r with state := .operated }
theorem test_bus_slots_rejoin : let t := busBeside.clearFaults (PerKind.fill true)
    t.busFaultSlots = [1, 2] ∧ t.fault.capture.map (·.context) = some (.slot 2) ∧ busBeside.slotsStanding = [2] := by
  decide +kernel
theorem test_meets_clear_store : unconfigured.settings.state = .unconfigured ∧
    ((unconfigured.raise .setGap .none).fault.capture).map (·.kind) = some .setGap := by decide +kernel

/-- A feeder whose first slot is enabled. -/
def guarded : State := { feeder with settings := { feeder.settings with loaded := some { loaded 6 .feeder with
  station := { settings 6 .feeder with
    slots := (slot 2 0 true) :: List.replicate 7 SlotSettings.absent } } } }
theorem test_meets_set_taken : (guarded.slotSettings 1).inUse = some (.phaseDefinite, .localTrip) ∧
    (guarded.slotSettings 8).inUse = none ∧ 8 ≤ guarded.prot.slots.length ∧
    (changing .healthy .normal).chg.monitor = .healthy ∧ (changing .failed .normal).ownKind = some .incomer ∧
    3 ≤ ((changing .disturbed .normal).onChg fun g => { g with run := 3 }).chg.run ∧
    (changing .returning .normal).settings.state = .configured := by decide +kernel

theorem test_meets_quiet_routes : (closed feeder).ownKind = some .feeder ∧
    feeder.severityOf .elementOperated = .advisory ∧ feeder.severityOf .intertrip = .advisory := by decide +kernel

theorem test_meets_received : (parseFrame readBlock).isSome = true ∧ frameAccepted unreadBlock = true ∧
    parseFrame unreadBlock = none ∧ feeder.isConfigured (byteAt unreadBlock 1) = true := by decide +kernel

/-- A station with a peer that has been silent for two rounds, and one with no room for its DROP. -/
def silent : State := feeder.onEntry 2 fun e => { e with silence := 2 }
def full : State := silent.onLink fun l => { l with ordered := List.replicate 8 .withdraw }
theorem test_meets_round_drops : 3 ≤ ((after .roundEnd silent).entry 2).silence ∧
    ((after .roundEnd silent).entry 2).presence = .live ∧ silent.step.state = .inStep ∧ silent.isConfigured 2 = true ∧
    OrderedFrame.drop 2 ∈ (after .roundEnd silent).link.ordered ∧ 3 ≤ ((after .roundEnd full).entry 2).silence ∧
    (after .roundEnd full).link.ordered.length = 8 := by decide +kernel
/-- The source of a refused summary pair, while station 3 asks. -/
def refusedPair : State := (incomer.onStep fun t => { t with pairRefused := true, guard := 1 }).onEntry 3 fun e =>
  { e with content := some { body with step := .desync } }
theorem test_meets_round_pair :
    let o := refusedPair.countRound.judgeStartSilence.advanceSilence.judgePendingSource.lowerGuard
    refusedPair.step.pairRefused = true ∧ refusedPair.step.guard ≤ 1 ∧ o.summarySource = true ∧ o.someoneAsks = true ∧
    .summaryTwo 0 ∈ (after .roundEnd refusedPair).link.ordered := by decide +kernel
/-- An incomer that founds at this round end, and one whose wait is one round short. -/
def founding (wait : Nat) : State := incomer.onStep fun t => { t with state := .joining, epoch := none, founding := wait }
theorem test_meets_founding : (after .roundEnd (founding 2)).step.state = .inStep ∧
    (after .roundEnd (founding 2)).step.epoch = some ⟨6, 2⟩ ∧ (after .roundEnd (founding 1)).step.state = .joining := by
  decide +kernel

theorem test_meets_zone_trips : (closed feeder).isConfigured 2 = true ∧ (closed feeder).downstream 2 = true ∧
    (closed feeder).intertripListed 2 = false ∧ (closing feeder).brk.state = .closing ∧ (closing feeder).downstream 2 = true ∧
    feeder.brk.state = .opened ∧ feeder.downstream 3 = false ∧ feeder.isConfigured 3 = true := by decide +kernel
/-- A DROP of a station already DROPPED, and of a feeder that waits. -/
def queued : State := { feeder with isl := feeder.isl.set .A { feeder.isl.a with queue := [⟨8, 1, none⟩] } }
theorem test_meets_drop_cases : ((droppedTwice 2).noted .drop 1 (hd 3)).appliesDrop (hd 3) 2 = true ∧
    (((droppedTwice 2).noted .drop 1 (hd 3)).entry 2).presence = .dropped ∧
    (queued.noted .drop 1 (hd 3)).appliesDrop (hd 3) 8 = true ∧ (queued.noted .drop 1 (hd 3)).step.pendingAdoption = none ∧
    (queued.island .A).queue.map (·.feeder) = [8] ∧ BusSection.all.all (fun i => (queued.island i).admitted.isEmpty) = true ∧
    feeder.step.state = .inStep := by decide +kernel
/-- A part 1 that carries a DROPPED station with its breaker CLOSING. -/
def partOneLapsed : SummaryOne := { partOne with entries := partOne.entries.set 3 ({ entry with
  presence := .dropped, stale := true, content := some { body with breaker := .closing, digest := 0 } }) }
theorem test_meets_part_one_entries :
    ((joining.countDelivery).noteSource .summary (SummaryOne.length partOneLapsed) (hd 2)).takesSummary 2 partOneLapsed =
      true ∧ joining.isConfigured (3 + 1) = true ∧ (partOneLapsed.entries[3]?).map (·.presence) = some .dropped ∧
    ((after (.summaryPart1 (hd 2) partOneLapsed) joining).entry 4).holds .closing = true := by decide +kernel

end Sys2Proof.Tests
end

