-- ==== Sys2Proof/Proofs/LiveFlags.lean ====
section
/-!
SUPPORT. The class of a set and the move of a live flag (R57, R58).
-/

namespace Sys2Proof

/-- A saturated count stands at its ceiling exactly from one below it. -/
theorem satSucc_eq_top_iff (top n : Nat) : satSucc top n = top ↔ top ≤ n + 1 := by
  unfold satSucc; split <;> omega

/-- A count within its ceiling goes up by one and no further than the ceiling. -/
theorem satSucc_eq_min {top n : Nat} (h : n ≤ top) : satSucc top n = min top (n + 1) := by
  unfold satSucc; split <;> omega

end Sys2Proof

namespace Sys2Proof.Machine

/-! ### The class of a set (R57) -/

theorem setClass_eq_high_iff (nominal : Nat) (l : List Nat) :
    setClass nominal l = .high ↔ ∀ v ∈ l, 80 * nominal ≤ v * 100 := by
  unfold setClass
  split
  · rename_i high; simpa using high
  · rename_i high
    split <;> simpa using high

/-- A set of which every magnitude is low is not high: the two limits leave a gap between them, so no magnitude is both. -/
theorem setClass_eq_low_iff (nominal : Nat) {l : List Nat} (hl : l ≠ []) :
    setClass nominal l = .low ↔ ∀ v ∈ l, v * 100 < 20 * nominal := by
  unfold setClass
  split
  · rename_i high
    obtain ⟨v, hv⟩ := List.exists_mem_of_ne_nil l hl
    have hhigh : 80 * nominal ≤ v * 100 := by simpa using List.all_eq_true.mp high v hv
    refine iff_of_false (by simp) fun low => ?_
    have hlow := low v hv
    omega
  · split
    · rename_i low; simpa using low
    · rename_i low; simpa using low

/-! ### The move of a live flag (R58) -/

namespace LiveFlag

variable (f : LiveFlag)

/-- A high set turns the flag yes where it is the fourth in a row. -/
theorem advance_high_live : (f.advance .high).live = true ↔ f.live = true ∨ 3 ≤ f.liveRun := by
  simp [advance, satSucc_eq_top_iff, Config.runLength]

/-- A low set turns the flag no where it is the fourth in a row. -/
theorem advance_low_live : (f.advance .low).live = true ↔ f.live = true ∧ f.deadRun < 3 := by
  simp [advance, satSucc_eq_top_iff, Config.runLength]

theorem advance_high_liveRun (h : f.liveRun ≤ 4) : (f.advance .high).liveRun = min 4 (f.liveRun + 1) :=
  satSucc_eq_min h

theorem advance_low_deadRun (h : f.deadRun ≤ 4) : (f.advance .low).deadRun = min 4 (f.deadRun + 1) :=
  satSucc_eq_min h

end LiveFlag

/-- Settles O18: the class by what makes all the watched magnitudes high or low, the flag by its move at each class. -/
theorem fourSetsTurnALiveFlag : Obligations.FourSetsTurnALiveFlag := by
  refine ⟨fun c m => ⟨?_, ?_, ?_, ?_⟩, fun f => ⟨f.advance_high_live, rfl, f.advance_high_liveRun, f.advance_low_live,
    rfl, f.advance_low_deadRun, rfl⟩⟩
  · simp [lineClass, setClass_eq_high_iff]
  · simp [lineClass, setClass_eq_low_iff]
  · simp [busClass, setClass_eq_high_iff]
  · simp [busClass, setClass_eq_low_iff]

end Sys2Proof.Machine
end

