-- ==== Sys2Proof/Proofs/BreakerLimits.lean ====
section
/-!
SUPPORT. The expiry of a running timer, what a raise leaves of the breaker record, the hand-ons and the capture, and the
two limits that find the breaker at fault (R65, R71, R106 to R110).
-/

namespace Sys2Proof.Machine

/-! ### The expiry of a running timer -/

/-- At a CONFIGURED station the expiry of a running timer does its work, and what follows an event comes after it. -/
theorem timerEvent_of_running {s : State} {timer : State → Timer} (f : State → State)
    (hc : s.settings.state = .configured) (ht : (timer s).isSome = true) :
    timerEvent timer f s = .next (State.finish s (f s)) := by
  simp [timerEvent, event, State.configured, hc, ht]

/-! ### What the parts of a raise leave (R106 to R110) -/

section
variable (s : State) (k : FaultKind) (ctx : FaultContext)

@[simp] theorem record_brk : (s.record k ctx).brk = s.brk := by
  unfold State.record; split <;> rfl

@[simp] theorem record_news : (s.record k ctx).news = s.news := by
  unfold State.record; split <;> rfl

@[simp] theorem record_settings : (s.record k ctx).settings = s.settings := by
  unfold State.record; split <;> rfl

/-- The capture is written by a new raise of an unmasked kind where none stands (R107). -/
theorem record_capture (hp : s.fault.pending.get k = false) (hn : s.fault.capture = none) (hm : s.masked k = false) :
    (s.record k ctx).fault.capture = some (s.captureNow k ctx) := by
  simp [State.record, hp, hn, hm]

@[simp] theorem tellBarred_brk (b : Bool) : (State.tellBarred b s).brk = s.brk := by
  unfold State.tellBarred; split <;> rfl

theorem news_subset_tellBarred (b : Bool) : s.news ⊆ (State.tellBarred b s).news := by
  unfold State.tellBarred; split <;> simp

/-- Outside CLOSING no close is withdrawn (R67). -/
theorem withdrawClose_of_not_closing {s : State} (h : ¬ s.brk.state = .closing) : s.withdrawClose = s := by
  simp [State.withdrawClose, h]

@[simp] theorem withdrawClose_news : s.withdrawClose.news = s.news := by
  unfold State.withdrawClose; split <;> rfl

/-- A trip finds nothing to do in OPEN (R66). -/
theorem trip_of_opened {s : State} (h : s.brk.state = .opened) (src : TripSource) : s.trip src = s := by
  simp [State.trip, h]

theorem news_subset_trip (src : TripSource) : s.news ⊆ (s.trip src).news := by
  cases hs : s.brk.state <;> simp [State.trip, State.beginOpening, hs]

/-- Outside CLOSING a severity acts on the breaker by a trip alone, and in OPEN not at all. -/
theorem severityActs_brk {s : State} {k : FaultKind} (hc : ¬ s.brk.state = .closing)
    (ht : s.severityOf k = .trip → s.brk.state = .opened) : (s.severityActs k).brk = s.brk := by
  unfold State.severityActs
  split
  · rfl
  · rename_i sev; rw [trip_of_opened (ht sev)]
  · split
    · rfl
    · have same := withdrawClose_of_not_closing (s := s.onFault fun f => { f with lockout := true }) hc
      simp [State.lockoutOnset, same]

theorem news_subset_severityActs : s.news ⊆ (s.severityActs k).news := by
  unfold State.severityActs
  split
  · exact List.Subset.refl _
  · exact news_subset_trip _ _
  · split <;> simp [State.lockoutOnset]

/-! ### A raise taken whole (R106) -/

/-- A raise records, announces, lets its severity act, and then changes of the fault store neither lockout nor the
capture. -/
theorem raise_eq : ∃ (announce : PortRecord → PortRecord) (after : FaultStore → FaultStore),
    s.raise k ctx = State.tellBarred s.barred ((((s.record k ctx).onPort announce).severityActs k).onFault after) ∧
    ∀ f, (after f).lockout = f.lockout ∧ (after f).capture = f.capture := by
  have announced : ∃ p, (if (s.record k ctx).masked k then s.record k ctx else (s.record k ctx).attend) =
      (s.record k ctx).onPort p := by
    split
    · exact ⟨id, rfl⟩
    · exact ⟨_, rfl⟩
  obtain ⟨p, hp⟩ := announced
  unfold State.raise State.raiseActs
  simp only [hp]
  split
  · exact ⟨p, _, rfl, fun _ => ⟨rfl, rfl⟩⟩
  · exact ⟨p, _, rfl, fun _ => ⟨rfl, rfl⟩⟩
  · exact ⟨p, id, rfl, fun _ => ⟨rfl, rfl⟩⟩

theorem raise_brk {s : State} {k : FaultKind} (ctx : FaultContext) (hc : ¬ s.brk.state = .closing)
    (ht : s.severityOf k = .trip → s.brk.state = .opened) : (s.raise k ctx).brk = s.brk := by
  obtain ⟨p, f, e, -⟩ := raise_eq s k ctx
  have sev : ((s.record k ctx).onPort p).severityOf k = s.severityOf k := severityOf_congr (by simp) k
  rw [e, tellBarred_brk, onFault_brk, severityActs_brk (by simpa using hc) (by simpa [sev] using ht)]
  simp

theorem news_subset_raise : s.news ⊆ (s.raise k ctx).news := by
  obtain ⟨p, f, e, -⟩ := raise_eq s k ctx
  rw [e]
  refine List.Subset.trans ?_ (news_subset_tellBarred _ _)
  simpa using news_subset_severityActs ((s.record k ctx).onPort p) k

/-- After a raise of severity LOCKOUT lockout is yes (R110). -/
theorem raise_lockout {s : State} {k : FaultKind} (ctx : FaultContext) (h : s.severityOf k = .lockout) :
    (s.raise k ctx).fault.lockout = true := by
  obtain ⟨p, f, e, hf⟩ := raise_eq s k ctx
  have sev : ((s.record k ctx).onPort p).severityOf k = s.severityOf k := severityOf_congr (by simp) k
  rw [e, tellBarred_fault, onFault_fault, (hf _).1, severityActs_fault, sev, h]
  simp

/-- A new raise of an unmasked kind is captured where no capture stands (R107). -/
theorem raise_capture {s : State} {k : FaultKind} (ctx : FaultContext) (hp : s.fault.pending.get k = false)
    (hn : s.fault.capture = none) (hm : s.masked k = false) :
    (s.raise k ctx).fault.capture = some (s.captureNow k ctx) := by
  obtain ⟨p, f, e, hf⟩ := raise_eq s k ctx
  rw [e, tellBarred_fault, onFault_fault, (hf _).2, severityActs_fault]
  exact record_capture s k ctx hp hn hm

/-- BREAKER_DISAGREE is of severity LOCKOUT, whatever the settings (7.1). -/
theorem severityOf_breakerDisagree : s.severityOf .breakerDisagree = .lockout := by
  unfold State.severityOf; split <;> rfl

end

/-! ### The breaker found FAILED by a disagreement (R65, R71) -/

/-- BREAKER_DISAGREE raised with the breaker out of CLOSING leaves the breaker as it is and locks out. -/
theorem raise_breakerDisagree {s : State} (hc : ¬ s.brk.state = .closing) :
    (s.raise .breakerDisagree .none).brk = s.brk ∧
    (s.raise .breakerDisagree .none).fault.pending.get .breakerDisagree = true ∧
    (s.raise .breakerDisagree .none).fault.lockout = true :=
  ⟨raise_brk .none hc fun sev => by simp [severityOf_breakerDisagree] at sev, raise_pending _ _ _,
    raise_lockout .none (severityOf_breakerDisagree s)⟩

/-- The disagreement limit's work. -/
theorem disagreementExpired_fails (s : State) :
    s.disagreementExpired.brk = { s.brk with state := .failed, origin := .disagree, disagreementTimer := none } ∧
    s.disagreementExpired.fault.pending.get .breakerDisagree = true ∧ s.disagreementExpired.fault.lockout = true := by
  unfold State.disagreementExpired
  exact raise_breakerDisagree (by simp)

/-! ### The close limit (R65) -/

section
variable {s : State}

/-- The close limit's work with the position open: OPEN, and BREAKER_NO_CLOSE. -/
theorem closeLimitExpired_of_open (hs : s.brk.state = .closing) (hp : s.position = .opened) :
    s.closeLimitExpired = ((s.onBrk fun b => { b with
      state := .opened, closeOut := false, closeTimer := none, mark := false }).tell .closeFailed).raise
        .breakerNoClose .none := by
  simp [State.closeLimitExpired, hs, hp]

/-- The close limit's work with the position not open: FAILED, and BREAKER_DISAGREE. -/
theorem closeLimitExpired_of_not_open (hs : s.brk.state = .closing) (hp : s.position ≠ .opened) :
    s.closeLimitExpired = ((s.onBrk fun b => { b with
      state := .failed, origin := .disagree, closeOut := false, closeTimer := none, mark := false }).tell
        .closeFailed).raise .breakerDisagree .none := by
  simp [State.closeLimitExpired, hs, hp]

/-- The requester is told that the close failed, whatever the position. -/
theorem closeFailed_mem_closeLimitExpired (hs : s.brk.state = .closing) :
    News.closeFailed ∈ s.closeLimitExpired.news := by
  by_cases hp : s.position = .opened
  · rw [closeLimitExpired_of_open hs hp]
    exact news_subset_raise _ _ _ (by simp)
  · rw [closeLimitExpired_of_not_open hs hp]
    exact news_subset_raise _ _ _ (by simp)

/-- No severity moves the breaker once it is OPEN. -/
theorem closeLimitExpired_brk_of_open (hs : s.brk.state = .closing) (hp : s.position = .opened) :
    s.closeLimitExpired.brk = { s.brk with state := .opened, closeOut := false, closeTimer := none, mark := false } := by
  rw [closeLimitExpired_of_open hs hp]
  exact raise_brk .none (by simp) fun _ => rfl

/-- With the position open BREAKER_NO_CLOSE is pending. -/
theorem closeLimitExpired_pending (hs : s.brk.state = .closing) (hp : s.position = .opened) :
    s.closeLimitExpired.fault.pending.get .breakerNoClose = true := by
  rw [closeLimitExpired_of_open hs hp]
  exact raise_pending _ _ _

/-- BREAKER_NO_CLOSE is captured with no context. -/
theorem closeLimitExpired_capture (hs : s.brk.state = .closing) (hp : s.position = .opened)
    (hk : s.fault.pending.get .breakerNoClose = false) (hn : s.fault.capture = none)
    (hm : s.masked .breakerNoClose = false) :
    ∃ c, s.closeLimitExpired.fault.capture = some c ∧ (c.kind, c.context) = (.breakerNoClose, .none) := by
  rw [closeLimitExpired_of_open hs hp]
  exact ⟨_, raise_capture .none hk hn hm, rfl⟩

/-- With the position not open the breaker is FAILED and the station locked out. -/
theorem closeLimitExpired_of_disagreement (hs : s.brk.state = .closing) (hp : s.position ≠ .opened) :
    s.closeLimitExpired.brk = { s.brk with
      state := .failed, origin := .disagree, closeOut := false, closeTimer := none, mark := false } ∧
    s.closeLimitExpired.fault.pending.get .breakerDisagree = true ∧ s.closeLimitExpired.fault.lockout = true := by
  rw [closeLimitExpired_of_not_open hs hp]
  exact raise_breakerDisagree (by simp)

/-! ### The two commands -/

theorem exec_closeLimitExpiry (hc : s.settings.state = .configured) (ht : s.brk.closeTimer.isSome = true) :
    exec .closeLimitExpiry s = .next (State.finish s s.closeLimitExpired) :=
  timerEvent_of_running (timer := fun s => s.brk.closeTimer) State.closeLimitExpired hc ht

theorem exec_disagreementLimitExpiry (hc : s.settings.state = .configured)
    (ht : s.brk.disagreementTimer.isSome = true) :
    exec .disagreementLimitExpiry s = .next (State.finish s s.disagreementExpired) :=
  timerEvent_of_running (timer := fun s => s.brk.disagreementTimer) State.disagreementExpired hc ht

end

/-- Settles O26: what the raise leaves of the breaker after each limit, and what the hand-ons keep of the fault store. -/
theorem closeAndDisagreementLimits : Obligations.CloseAndDisagreementLimits := by
  refine fun s hc => ⟨fun ht hs => ?_, fun ht _ => ?_⟩
  · have after : Within {} s.closeLimitExpired (State.finish s s.closeLimitExpired) := (Within.refl _ _).finish s
    refine ⟨_, _, exec_closeLimitExpiry hc ht, rfl, ((Within.refl _ s).closeLimitExpired.trans after).frame,
      closeFailed_mem_closeLimitExpired hs, fun hp => ?opened, fun hp => ?notOpened⟩
    case opened =>
      refine ⟨after.stays _ (closeLimitExpired_pending hs hp), fun hk hn hm => ?_, closeLimitExpired_brk_of_open hs hp⟩
      obtain ⟨c, captured, hkind⟩ := closeLimitExpired_capture hs hp hk hn hm
      rw [after.capture c captured, Option.map_some, hkind]
    case notOpened =>
      obtain ⟨brk, pending, lockout⟩ := closeLimitExpired_of_disagreement hs hp
      exact ⟨after.stays _ pending, after.lockout lockout, brk⟩
  · have after : Within {} s.disagreementExpired (State.finish s s.disagreementExpired) := (Within.refl _ _).finish s
    obtain ⟨brk, pending, lockout⟩ := disagreementExpired_fails s
    exact ⟨_, _, exec_disagreementLimitExpiry hc ht, rfl,
      (((Within.refl _ s).disagreementExpired ht).trans after).frame, brk, after.stays _ pending, after.lockout lockout⟩

end Sys2Proof.Machine
end

