-- ==== Sys2Proof/Proofs/BlockList.lean ====
section
/-!
SUPPORT. What a delivery leaves to the Zone Unit, what the Block List becomes under each operation on it (R95, R96), and
the BLOCK and the expiry that reach it.
-/

namespace Sys2Proof.Machine

/-! ### Downstream rests on the settings and the fixed fields alone (R90) -/

/-- The fixed fields of an entry are those the mapped table holds. -/
theorem entry_succ_fixed (s : State) (n : Nat) :
    (s.entry (n + 1)).fixed = (s.pic.table.map (·.fixed)).getD n StationEntry.absent.fixed :=
  (List.getD_map ..).symm

section
variable {sc : Scope} {s t : State}

theorem Within.entry_fixed (h : Within sc s t) (n : Nat) : (t.entry n).fixed = (s.entry n).fixed := by
  cases n with
  | zero => rfl
  | succ n => rw [entry_succ_fixed, entry_succ_fixed, h.fixed]

theorem Within.isConfigured (h : Within sc s t) (n : Nat) : t.isConfigured n = s.isConfigured n := by
  simp only [State.isConfigured, h.entry_fixed]

theorem Within.station (h : Within sc s t) : t.station = s.station := by
  simp only [State.station, h.settings]

theorem Within.downstream (h : Within sc s t) (n : Nat) : t.downstream n = s.downstream n := by
  simp only [State.downstream, State.zoneCode, State.own, h.isConfigured, h.station]

end

/-! ### The operations on the Block List (R95, R96) -/

section
variable {s : State} {n : Nat}

/-- The Zone Unit takes what a downstream station sends: it is configured, and not the station itself (R90, R92). -/
theorem zoneTakes_of_downstream (hd : s.downstream n = true) : s.zoneTakes n = true := by
  simp only [State.downstream, Bool.and_eq_true] at hd
  simpa only [State.zoneTakes, Bool.and_eq_true] using hd.1

theorem takeBlock_of_not_downstream (hd : s.downstream n = false) (on : Bool) : s.takeBlock n on = s := by
  simp [State.takeBlock, hd]

theorem takeBlock_on (hd : s.downstream n = true) :
    s.takeBlock n true = if s.blockListed n then s.refreshEntry n else s.addBlock n := by
  simp [State.takeBlock, hd, zoneTakes_of_downstream hd]

theorem takeBlock_off (hd : s.downstream n = true) : s.takeBlock n false = s.removeBlock n := by
  simp [State.takeBlock, hd, zoneTakes_of_downstream hd]

theorem blockListed_iff : s.blockListed n = true ↔ ∃ e ∈ s.zone.blockList, e.source = n := by
  simp [State.blockListed]

/-- Where a source is not listed, no entry goes with it. -/
theorem filter_of_not_blockListed (hl : ¬ s.blockListed n = true) :
    s.zone.blockList.filter (fun e => !(e.source == n)) = s.zone.blockList := by
  rw [blockListed_iff] at hl
  simpa using hl

/-- The removal of a source's entry, and the hand-on exactly where it empties the list (R95, R96). -/
theorem removeBlock_eq (s : State) (n : Nat) : s.removeBlock n = { s with
    zone := { s.zone with blockList := s.zone.blockList.filter (fun e => !(e.source == n)) }
    news := if s.zone.blockList ≠ [] ∧ ∀ e ∈ s.zone.blockList, e.source = n then s.news ++ [.blockListEmptied]
      else s.news } := by
  unfold State.removeBlock
  split
  case isTrue hl =>
    obtain ⟨e, he, -⟩ := blockListed_iff.mp hl
    have nonempty : s.zone.blockList ≠ [] := List.ne_nil_of_mem he
    have emptied : (s.zone.blockList.filter fun e => !(e.source == n)).isEmpty = true ↔
        ∀ e ∈ s.zone.blockList, e.source = n := by simp
    dsimp only
    split
    case isTrue empty => rw [if_pos (And.intro nonempty (emptied.mp empty))]; rfl
    case isFalse left => rw [if_neg fun all => left (emptied.mpr all.2)]; rfl
  case isFalse hl =>
    have stays : ¬ (s.zone.blockList ≠ [] ∧ ∀ e ∈ s.zone.blockList, e.source = n) := fun ⟨nonempty, all⟩ =>
      have ⟨e, he⟩ := List.exists_mem_of_ne_nil _ nonempty
      hl (blockListed_iff.mpr ⟨e, he, all e he⟩)
    rw [filter_of_not_blockListed hl, if_neg stays]

theorem removeBlock_blockList (s : State) (n : Nat) :
    (s.removeBlock n).zone.blockList = s.zone.blockList.filter (fun e => !(e.source == n)) := by
  rw [removeBlock_eq]

theorem removeBlock_intertrips (s : State) (n : Nat) : (s.removeBlock n).zone.intertrips = s.zone.intertrips := by
  rw [removeBlock_eq]

/-- A BLOCK on of a downstream station: its entry has the delivery number and a full limit, added or refreshed (R95). -/
theorem takeBlock_on_lists (hd : s.downstream n = true) :
    (⟨n, s.pic.delivery, s.station.blockLimit⟩ : BlockEntry) ∈ (s.takeBlock n true).zone.blockList := by
  rw [takeBlock_on hd]
  split
  case isTrue hl =>
    obtain ⟨e, he, rfl⟩ := blockListed_iff.mp hl
    exact List.mem_map.mpr ⟨e, he, by simp⟩
  case isFalse => simp [State.addBlock]

/-- A BLOCK on leaves the entries of the other stations. -/
theorem takeBlock_on_keeps (hd : s.downstream n = true) {e : BlockEntry} (he : e ∈ s.zone.blockList)
    (hne : e.source ≠ n) : e ∈ (s.takeBlock n true).zone.blockList := by
  rw [takeBlock_on hd]
  split
  case isTrue => exact List.mem_map.mpr ⟨e, he, by simp [hne]⟩
  case isFalse => simp [State.addBlock, he]

/-- No BLOCK touches the Intertrip Set. -/
theorem takeBlock_intertrips (s : State) (n : Nat) (on : Bool) :
    (s.takeBlock n on).zone.intertrips = s.zone.intertrips := by
  cases hd : s.downstream n with
  | false => rw [takeBlock_of_not_downstream hd]
  | true =>
    cases on with
    | false => rw [takeBlock_off hd, removeBlock_intertrips]
    | true =>
      rw [takeBlock_on hd]
      split <;> rfl

end

/-! ### A delivery that asks only the Zone Unit (R1) -/

/-- What the steps before a frame's own effect may change (R1 steps 1 to 5). -/
def pictureScope : Scope := { delivery := true, table := true, step := true, derived := true }

/-- What the tables' own work may change before the Zone Unit takes a delivery (R1 step 6, log 11). -/
def tableScope : Scope := { secs := true, lapse := true, isl := true }

theorem within_noted (s : State) (k : FrameKind) (len : Nat) (h : Header) :
    Within pictureScope s (s.noted k len h) :=
  ((((Within.refl pictureScope s).countDelivery rfl).noteSource rfl rfl k len h).derive rfl).judgeQuorum s

/-- The zone's work on a delivery begins where the tables' work has ended, and only role flags follow it. -/
theorem handOn_zone (f : State → State) (before u : State) :
    ∃ z : State, Within tableScope u z ∧
      Within {} (f z) (State.handOn { HandOn.quiet with zone := f } before u) :=
  have tokens := (Within.refl tableScope u).tokenWork rfl rfl (Within.stays_id _) before none SectionSet.empty
  ⟨_, tokens.judgePlace.seeGrant.listWork rfl (Within.stays_id _) before false, (Within.refl {} _).roleFlags before⟩

/-- The same of the whole delivery of a configured source. -/
theorem deliver_zone (f : State → State) {s : State} {h : Header} (hk : s.isConfigured h.source = true)
    (k : FrameKind) (len : Nat) :
    ∃ z : State, Within tableScope (s.noted k len h) z ∧
      Within {} (f z) (s.deliver k len h id (State.handOn { HandOn.quiet with zone := f })) := by
  have known : s.countDelivery.isConfigured h.source = true := hk
  obtain ⟨z, tables, flags⟩ := handOn_zone f s (s.noted k len h)
  refine ⟨z, tables, ?_⟩
  simp only [State.deliver, known, if_true]
  exact flags.settle.endDelivery

/-! ### The two commands -/

/-- At a CONFIGURED station an event does its work, and what follows an event comes after it. -/
theorem event_of_configured {s : State} (f : State → State) (hc : s.settings.state = .configured) :
    event f s = .next (State.finish s (f s)) := by
  simp [event, State.configured, hc]

theorem exec_block (h : Header) (on : Bool) {s : State} (hc : s.settings.state = .configured) :
    exec (.block h on) s = .next (State.finish s (s.blockDelivery h on)) :=
  event_of_configured (State.blockDelivery h on) hc

theorem exec_blockEntryExpiry (n : Nat) {s : State} (hc : s.settings.state = .configured) :
    exec (.blockEntryExpiry n) s = .next (State.finish s (s.removeBlock n)) :=
  event_of_configured (State.removeBlock n) hc

/-- A BLOCK reaches the lists through one taking, in a state with the station's lists as they were, the delivery number
and the settings of the noted state, and the same stations downstream. -/
theorem block_reaches_zone (h : Header) (on : Bool) {s : State} (hc : s.settings.state = .configured)
    (hk : s.isConfigured h.source = true) :
    ∃ z t : State, exec (.block h on) s = .next t ∧
      Within pictureScope s (s.noted .block 1 h) ∧ Within tableScope (s.noted .block 1 h) z ∧
      Within {} (z.takeBlock h.source on) t := by
  obtain ⟨z, tables, rest⟩ := deliver_zone (State.takeBlock h.source on) hk .block 1
  exact ⟨z, _, exec_block h on hc, within_noted s .block 1 h, tables, rest.finish s⟩

/-- Settles O46: the one taking of a delivered BLOCK by its cases, and the removal an expiry is. -/
theorem blockIsListed : Obligations.BlockIsListed := by
  refine ⟨fun h on s u hc hk hu => ?block, fun n s hc => ?expiry⟩
  case block =>
    subst hu
    obtain ⟨z, t, run, picture, tables, rest⟩ := block_reaches_zone h on hc hk
    have lists : z.zone.blockList = s.zone.blockList := (tables.blockList rfl).trans (picture.blockList rfl)
    have trips : z.zone.intertrips = s.zone.intertrips := (tables.intertrips rfl).trans (picture.intertrips rfl)
    have taken : t.zone.blockList = (z.takeBlock h.source on).zone.blockList := rest.blockList rfl
    have same := tables.downstream h.source
    refine ⟨t, run, fun hd hon => ?on, fun hd hoff => ?off, fun hd => ?other, ?intertrips⟩
    case on =>
      rw [taken, hon, ← lists, ← picture.station, ← tables.station, ← tables.delivery rfl]
      have down : z.downstream h.source = true := same.trans hd
      exact ⟨⟨_, takeBlock_on_lists down, rfl, rfl, rfl⟩, fun e he hne => takeBlock_on_keeps down he hne⟩
    case off => rw [taken, hoff, takeBlock_off (same.trans hd), removeBlock_blockList, lists]
    case other => rw [taken, takeBlock_of_not_downstream (same.trans hd), lists]
    case intertrips => rw [rest.intertrips rfl, takeBlock_intertrips, trips]
  case expiry =>
    have after : Within {} (s.removeBlock n) (State.finish s (s.removeBlock n)) := (Within.refl _ _).finish s
    have whole : Within { lists := true } s (State.finish s (s.removeBlock n)) :=
      ((Within.refl _ s).removeBlock rfl n).finish s
    exact ⟨_, _, exec_blockEntryExpiry n hc, rfl, whole.frame,
      (after.blockList rfl).trans (removeBlock_blockList s n), removeBlock_eq s n⟩

end Sys2Proof.Machine
end

