-- ==== Sys2Proof/Proofs/Raise.lean ====
section
/-!
SUPPORT. What a raise writes to the fault store, to the port and to the breaker record (R106 to R110).
-/

namespace Sys2Proof.Machine

section
variable (s : State) (k : FaultKind) (ctx : FaultContext)

/-! ### What recording a raise writes (R106, R107) -/

@[simp] theorem record_port : (s.record k ctx).port = s.port := by
  unfold State.record; split <;> rfl

@[simp] theorem record_masked : (s.record k ctx).masked k = s.masked k :=
  masked_congr (record_settings s k ctx) k

/-- A new raise makes its kind pending with count 1, and is captured where it is the first unmasked one. -/
theorem record_fault_of_new {s : State} {k : FaultKind} (hp : s.fault.pending.get k = false) :
    (s.record k ctx).fault = { s.fault with
      pending := s.fault.pending.set k true
      count := s.fault.count.set k 1
      capture := if !s.masked k && s.fault.capture.isNone then some (s.captureNow k ctx) else s.fault.capture } := by
  simp [State.record, hp]

/-- A repeat raise counts, and writes nothing else. -/
theorem record_fault_of_repeat {s : State} {k : FaultKind} (hp : s.fault.pending.get k = true) :
    (s.record k ctx).fault = { s.fault with count := s.fault.count.set k (satSucc 255 (s.fault.count.get k)) } := by
  simp [State.record, hp]

@[simp] theorem record_lockout : (s.record k ctx).fault.lockout = s.fault.lockout := by
  unfold State.record; split <;> rfl

/-- A repeat raise, a raise of a masked kind and one where a capture stands leave the capture as it is (R107). -/
theorem record_keeps_capture {s : State} {k : FaultKind}
    (h : s.fault.pending.get k = true ∨ s.fault.capture.isSome = true ∨ s.masked k = true) :
    (s.record k ctx).fault.capture = s.fault.capture := by
  cases hp : s.fault.pending.get k with
  | true => rw [record_fault_of_repeat ctx hp]
  | false =>
    rw [record_fault_of_new ctx hp]
    rcases h with pending | captured | masked
    · simp [hp] at pending
    · simp [Option.ne_none_iff_isSome.mpr captured]
    · simp [masked]

/-- A raise of one kind touches neither the pending flag nor the count of another. -/
theorem record_get_of_ne {j : FaultKind} (hj : j ≠ k) :
    (s.record k ctx).fault.pending.get j = s.fault.pending.get j ∧
    (s.record k ctx).fault.count.get j = s.fault.count.get j := by
  cases hp : s.fault.pending.get k with
  | true => simp [record_fault_of_repeat ctx hp, hj]
  | false => simp [record_fault_of_new ctx hp, hj]

/-! ### What a severity does to the port and the breaker (R108 to R110) -/

@[simp] theorem trip_port (src : TripSource) : (s.trip src).port = s.port := by
  unfold State.trip; split <;> rfl

@[simp] theorem withdrawClose_port : s.withdrawClose.port = s.port := by
  unfold State.withdrawClose; split <;> rfl

@[simp] theorem tellBarred_port (b : Bool) : (State.tellBarred b s).port = s.port := by
  unfold State.tellBarred; split <;> rfl

@[simp] theorem severityActs_port : (s.severityActs k).port = s.port := by
  unfold State.severityActs
  split
  · rfl
  · exact trip_port s .fault
  · split
    · rfl
    · simp [State.lockoutOnset]

theorem severityActs_of_advisory {s : State} {k : FaultKind} (h : s.severityOf k = .advisory) : s.severityActs k = s := by
  simp [State.severityActs, h]

theorem severityActs_of_trip {s : State} {k : FaultKind} (h : s.severityOf k = .trip) :
    s.severityActs k = s.trip .fault := by
  simp [State.severityActs, h]

/-- What a trip makes of the breaker record rests on that record and the open limit alone (R66). -/
theorem trip_brk_congr {s t : State} (hb : t.brk = s.brk) (hs : t.settings = s.settings) (src : TripSource) :
    (t.trip src).brk = (s.trip src).brk := by
  have station : t.station = s.station := by simp [State.station, hs]
  cases state : s.brk.state <;> simp [State.trip, State.beginOpening, hb, station, state]

/-! ### A raise taken whole (R106) -/

/-- Steps 1 to 3 of R106: the raise recorded, and announced where its kind is not masked. -/
def State.announced (k : FaultKind) (ctx : FaultContext) (s : State) : State :=
  if s.masked k then s.record k ctx else (s.record k ctx).attend

@[simp] theorem announced_fault : (s.announced k ctx).fault = (s.record k ctx).fault := by
  unfold State.announced; split <;> rfl

@[simp] theorem announced_brk : (s.announced k ctx).brk = s.brk := by
  unfold State.announced; split <;> simp [State.attend]

@[simp] theorem announced_settings : (s.announced k ctx).settings = s.settings := by
  unfold State.announced; split <;> simp [State.attend]

theorem announced_port : (s.announced k ctx).port = if s.masked k then s.port else s.attend.port := by
  unfold State.announced; split <;> simp [State.attend]

@[simp] theorem announced_severityOf : (s.announced k ctx).severityOf k = s.severityOf k :=
  severityOf_congr (announced_settings s k ctx) k

/-- After the severity has acted a raise changes the bus-fault sets and the bar latch of the fault store alone (R111,
R112), and hands on a change of the barred value. -/
theorem raise_eq_announced : ∃ busFault busSlots barLatch,
    s.raise k ctx = State.tellBarred s.barred (((s.announced k ctx).severityActs k).onFault fun f =>
      { f with busFault := busFault, busSlots := busSlots, barLatch := barLatch }) := by
  unfold State.raise State.raiseActs
  simp only [record_masked]
  split
  · exact ⟨_, _, _, rfl⟩
  · exact ⟨_, _, _, rfl⟩
  · exact ⟨((s.announced k ctx).severityActs k).fault.busFault, ((s.announced k ctx).severityActs k).fault.busSlots,
      ((s.announced k ctx).severityActs k).fault.barLatch, rfl⟩

/-- The fault store after a raise: what was recorded, with lockout where the severity asks for it. -/
theorem raise_fault : ∃ busFault busSlots barLatch, (s.raise k ctx).fault = { (s.record k ctx).fault with
    lockout := s.fault.lockout || s.severityOf k == .lockout
    busFault := busFault, busSlots := busSlots, barLatch := barLatch } := by
  obtain ⟨sections, slots, latch, whole⟩ := raise_eq_announced s k ctx
  refine ⟨sections, slots, latch, ?_⟩
  rw [whole, tellBarred_fault, onFault_fault, severityActs_fault]
  simp

theorem raise_fault_pending : (s.raise k ctx).fault.pending = (s.record k ctx).fault.pending := by
  obtain ⟨_, _, _, store⟩ := raise_fault s k ctx
  rw [store]

theorem raise_fault_count : (s.raise k ctx).fault.count = (s.record k ctx).fault.count := by
  obtain ⟨_, _, _, store⟩ := raise_fault s k ctx
  rw [store]

theorem raise_fault_capture : (s.raise k ctx).fault.capture = (s.record k ctx).fault.capture := by
  obtain ⟨_, _, _, store⟩ := raise_fault s k ctx
  rw [store]

theorem raise_fault_lockout :
    (s.raise k ctx).fault.lockout = (s.fault.lockout || s.severityOf k == .lockout) := by
  obtain ⟨_, _, _, store⟩ := raise_fault s k ctx
  rw [store]

/-- Of the port a raise changes the attention line alone, and that of an unmasked kind only (R115). -/
theorem raise_port : (s.raise k ctx).port = if s.masked k then s.port else s.attend.port := by
  obtain ⟨_, _, _, whole⟩ := raise_eq_announced s k ctx
  rw [whole, tellBarred_port, onFault_port, severityActs_port, announced_port]

/-- On the breaker a raise acts by its severity alone. -/
theorem raise_brk_eq_severityActs : (s.raise k ctx).brk = ((s.announced k ctx).severityActs k).brk := by
  obtain ⟨_, _, _, whole⟩ := raise_eq_announced s k ctx
  rw [whole, tellBarred_brk, onFault_brk]

theorem raise_count_of_new {s : State} {k : FaultKind} (hp : s.fault.pending.get k = false) :
    (s.raise k ctx).fault.count.get k = 1 := by
  simp [raise_fault_count, record_fault_of_new ctx hp]

theorem raise_count_of_repeat {s : State} {k : FaultKind} (hp : s.fault.pending.get k = true) :
    (s.raise k ctx).fault.count.get k = satSucc 255 (s.fault.count.get k) := by
  simp [raise_fault_count, record_fault_of_repeat ctx hp]

/-- An ADVISORY kind leaves the breaker and lockout as they are (R108). -/
theorem raise_of_advisory {s : State} {k : FaultKind} (h : s.severityOf k = .advisory) :
    (s.raise k ctx).brk = s.brk ∧ (s.raise k ctx).fault.lockout = s.fault.lockout := by
  constructor
  · rw [raise_brk_eq_severityActs, severityActs_of_advisory (by simpa using h), announced_brk]
  · rw [raise_fault_lockout, h, show (Severity.advisory == .lockout) = false from rfl, Bool.or_false]

/-- A kind of severity TRIP trips the breaker with source FAULT (R109). -/
theorem raise_brk_of_trip {s : State} {k : FaultKind} (h : s.severityOf k = .trip) :
    (s.raise k ctx).brk = (s.trip .fault).brk := by
  rw [raise_brk_eq_severityActs, severityActs_of_trip (by simpa using h)]
  exact trip_brk_congr (announced_brk s k ctx) (announced_settings s k ctx) .fault

end

/-- Settles O31: what is recorded by whether the raise is new, and what its severity does by its value. -/
theorem raiseRecordsTheKind : Obligations.RaiseRecordsTheKind := by
  refine fun k ctx s => ⟨raise_pending s k ctx, raise_count_of_new ctx, fun hp hlt => ?counts, fun hp hge => ?saturates,
    raise_capture ctx, fun h => ?keepsCapture, fun j hj => ?others, fun hm => ?attention, fun hm => ?quiet,
    raise_of_advisory ctx, raise_brk_of_trip ctx, raise_lockout ctx⟩
  case counts => rw [raise_count_of_repeat ctx hp, satSucc, if_pos hlt]
  case saturates => rw [raise_count_of_repeat ctx hp, satSucc, if_neg (by omega)]
  case keepsCapture => rw [raise_fault_capture, record_keeps_capture ctx h]
  case others => rw [raise_fault_pending, raise_fault_count]; exact record_get_of_ne s k ctx hj
  case attention => simp [raise_port, hm, State.attend]
  case quiet => simp [raise_port, hm]

end Sys2Proof.Machine
end

