-- ==== Sys2Proof/Proofs/GrantCheck.lean ====
section
/-!
SUPPORT. When a section is ready for a grant, what a grant writes, and the grant check by the head of the queue (R121, R122).
-/

namespace Sys2Proof

theorem SectionSet.get_one_iff {x y : BusSection} : (SectionSet.one x).get y = true ↔ y = x := by
  by_cases h : y = x <;> simp [SectionSet.one, h]

end Sys2Proof

namespace Sys2Proof.Machine

section
variable {s : State} {x : BusSection} {n : Nat}

/-! ### Readiness (R121, R122) -/

/-- The CLOSING guard of one station (R121). -/
theorem countsClosing_iff : s.countsClosing n = true ↔
    (s.entry n).holds .closing = true ∧ (s.entry n).presence ≠ .unknown ∧ (s.entry n).lapse ≠ .lapsed := by
  simp [State.countsClosing, and_assoc]

theorem closingOnto_eq_false_iff : s.closingOnto x = false ↔ ∀ n ∈ s.closersOnto x, ¬ s.countsClosing n = true := by
  simp [State.closingOnto]

theorem grantable_iff : s.grantable x = true ↔
    (s.sec x).configured = true ∧ (s.sec x).faulted = false ∧ (s.sec x).holder = 0 ∧
      ∀ n ∈ s.closersOnto x, ¬ s.countsClosing n = true := by
  simp only [State.grantable, Bool.and_eq_true, Bool.not_eq_true', beq_iff_eq, closingOnto_eq_false_iff, and_assoc]

/-- Every other section of a tie at a head is ready, with the tie at its head too (R122). -/
theorem tieReady_iff : s.tieReady n x = true ↔ ∀ y, (s.connects n).get y = true → y ≠ x →
    s.grantable y = true ∧ (s.sec y).queue.head?.map (·.station) = some n := by
  simp [State.tieReady, BusSection.mem_all, or_iff_not_imp_left]

/-! ### What a grant writes -/

section
variable {secs : SectionSet}

/-- A named section has the station as its holder under the delivery number, and none of its entries in the queue. -/
theorem grant_sec (y : BusSection) : (s.grant n secs).sec y = if secs.get y then { s.sec y with
    holder := n, grant := s.pic.delivery, queue := unqueue n (s.sec y).queue } else s.sec y := by
  unfold State.grant
  dsimp only
  split <;> exact PerSection.get_make ..

/-- The station counts the grants it takes, and no others (R121). -/
theorem grant_token_grants : (s.grant n secs).token.grants =
    if n = s.own then s.token.grants + 1 else s.token.grants := by
  by_cases own : n = s.own <;> simp [State.grant, State.onPic, State.onToken, own]

end

/-! ### The grant check by its cases -/

theorem grantCheck_of_not_grantable (h : ¬ s.grantable x = true) : s.grantCheck x = s := by
  rw [State.grantCheck, if_neg h]

theorem grantCheck_of_empty (h : (s.sec x).queue = []) : s.grantCheck x = s := by
  simp [State.grantCheck, h]

section
variable {q : QueueEntry} {rest : List QueueEntry}

theorem grantCheck_of_single (hr : s.grantable x = true) (hq : (s.sec x).queue = q :: rest)
    (hk : s.kindOf q.station ≠ some .tie) : s.grantCheck x = s.grant q.station (SectionSet.one x) := by
  simp [State.grantCheck, hr, hq, hk]

theorem grantCheck_of_tie (hr : s.grantable x = true) (hq : (s.sec x).queue = q :: rest)
    (hk : s.kindOf q.station = some .tie) :
    s.grantCheck x = if s.tieReady q.station x then s.grant q.station (s.connects q.station) else s := by
  simp [State.grantCheck, hr, hq, hk]

end
end

/-- Settles O41: the readiness of the statement is the check's, and each case of the head is one case of the check. -/
theorem grantCheckServesTheHead : Obligations.GrantCheckServesTheHead := by
  intro x s
  dsimp only
  simp only [← countsClosing_iff, ← grantable_iff, ← tieReady_iff]
  refine ⟨fun h => ?nothing, fun q rest hq hr => ⟨fun hk => ?single, fun hk hw => ?waits, fun hk hb y => ?both,
    fun h => ?count⟩⟩
  case nothing => exact h.elim grantCheck_of_empty grantCheck_of_not_grantable
  case single =>
    rw [grantCheck_of_single hr hq hk]
    refine ⟨(grant_sec x).trans (if_pos (SectionSet.get_one_iff.mpr rfl)), fun y other => ?_⟩
    rw [grant_sec, if_neg (mt SectionSet.get_one_iff.mp other)]
  case waits => rw [grantCheck_of_tie hr hq hk, if_neg hw]
  case both =>
    rw [grantCheck_of_tie hr hq hk, if_pos hb]
    split
    case isTrue named => exact (grant_sec y).trans (if_pos named)
    case isFalse other => exact (grant_sec y).trans (if_neg other)
  case count =>
    by_cases hk : s.kindOf q.station = some .tie
    · have hb := h.resolve_left (not_not_intro hk)
      rw [grantCheck_of_tie hr hq hk, if_pos hb, grant_token_grants]
    · rw [grantCheck_of_single hr hq hk, grant_token_grants]

end Sys2Proof.Machine
end

