-- ==== Sys2Proof/Proofs/ClaimTests.lean ====
section
/-!
SUPPORT. The five tests of a claim as the conditions they are (R119), and a delivery that asks nothing of the tokens while no
faulted flag changes, such as that of a CLAIM not applied or discarded.
-/

namespace Sys2Proof.Machine

/-! ### The five tests (R119) -/

section
variable {s : State} {n : Nat} {secs : SectionSet}

theorem wrongSections_iff : s.wrongSections n secs = true ↔
    secs ≠ s.connects n ∨ (∀ x, secs.get x = false) ∨ s.kindOf n = some .feeder ∨
      ∃ x, secs.get x = true ∧ (s.sec x).configured = false := by
  simp [State.wrongSections, SectionSet.isEmpty, BusSection.mem_all, or_assoc]

/-- Test 2. -/
theorem faultedNamed_iff : (BusSection.all.any fun x => secs.get x && (s.sec x).faulted) = true ↔
    ∃ x, secs.get x = true ∧ (s.sec x).faulted = true := by
  simp [BusSection.mem_all]

theorem islandShared_iff (x : BusSection) : s.islandShared x = true ↔ ∃ y, x ≠ y ∧ s.sameIsland x y = true := by
  simp [State.islandShared, BusSection.mem_all]

/-- Test 3. -/
theorem incomerShares_iff :
    (s.kindOf n == some .incomer && BusSection.all.any fun x => secs.get x && s.islandShared x) = true ↔
      s.kindOf n = some .incomer ∧ ∃ x y, secs.get x = true ∧ x ≠ y ∧ s.sameIsland x y = true := by
  simp [BusSection.mem_all, islandShared_iff]

theorem tieBetweenIncomers_iff : s.tieBetweenIncomers n = true ↔
    s.kindOf n = some .tie ∧ ∀ x, (s.connects n).get x = true → s.incomersOn x ≠ [] := by
  simp [State.tieBetweenIncomers, State.incomerStands, BusSection.mem_all, or_iff_not_imp_left]

/-- Test 5. -/
theorem placedNamed_iff :
    (BusSection.all.any fun x => secs.get x && ((s.sec x).holder == n || (s.sec x).queues n)) = true ↔
      ∃ x, secs.get x = true ∧ ((s.sec x).holder = n ∨ (s.sec x).queues n = true) := by
  simp [BusSection.mem_all]

end

/-! ### A delivery that asks nothing of the tokens (R1 step 6) -/

section
variable {before s : State}

/-- Tables with the same faulted flags: none has turned yes, and none has changed (R13). -/
theorem newlyFaulted_of_same (h : ∀ x, (s.sec x).faulted = (before.sec x).faulted) :
    newlyFaulted before s = SectionSet.empty :=
  PerSection.eq_of_get fun x => by simp [newlyFaulted, h]

theorem faultChanged_of_same (h : ∀ x, (s.sec x).faulted = (before.sec x).faulted) :
    faultChanged before s = SectionSet.empty :=
  PerSection.eq_of_get fun x => by simp [faultChanged, h]

theorem touchedSections_self : State.touchedSections s s = SectionSet.empty :=
  PerSection.eq_of_get fun x => by simp [State.touchedSections]

/-- Where nobody departs, no faulted flag changes and the frame leaves the tokens, the Token Unit's tables stand. -/
theorem tokenWork_of_same (h : ∀ x, (s.sec x).faulted = (before.sec x).faulted) {own : State → State} (ho : own s = s) :
    State.tokenWork before none SectionSet.empty own s = s := by
  have nobody : SectionSet.members SectionSet.empty = [] := rfl
  have unions : SectionSet.union (SectionSet.union SectionSet.empty SectionSet.empty) SectionSet.empty =
      SectionSet.empty := rfl
  simp [State.tokenWork, newlyFaulted_of_same h, faultChanged_of_same h, nobody, ho, touchedSections_self, unions,
    State.grantChecks]

/-- What the owners of the tables may then change: the island tables. -/
theorem handOn_of_same {sc : Scope} (hi : sc.isl = true) {w : HandOn} (hd : w.departed = none)
    (he : w.ended = SectionSet.empty) (h : ∀ x, (s.sec x).faulted = (before.sec x).faulted) (ht : w.tokens s = s)
    (wc : Within.Stays sc w.claim) (wl : Within.Stays sc w.lists) (wz : Within.Stays sc w.zone) :
    Within sc s (State.handOn w before s) := by
  have stands : State.tokenWork before w.departed w.ended w.tokens s = s := by
    rw [hd, he, tokenWork_of_same h ht]
  unfold State.handOn
  rw [stands]
  exact (wz _ _ ((wc _ _ (Within.refl sc s).judgePlace).seeGrant.listWork hi wl before _)).roleFlags before

end

/-! ### A CLAIM without effect (R40, R119) -/

/-- What a CLAIM without effect may change beyond what every scope allows: the island tables and, where it voids an adoption,
the step record (R49). -/
def idleClaimScope : Scope := { isl := true, step := true }

section
variable {h : Header} {secs : SectionSet} {before s : State}

theorem claimWork_of_no_effect (hn : s.reportsInStep h.source = false ∨ (s.claimTest h.source secs).isSome = true)
    (hf : ∀ x, (s.sec x).faulted = (before.sec x).faulted) :
    Within idleClaimScope s (State.claimWork h secs before s) := by
  unfold State.claimWork
  refine Within.voidBy rfl (handOn_of_same rfl rfl rfl hf ?tokens (fun _ t v => ?claim) (Within.stays_id _)
    (Within.stays_id _)) _
  case tokens =>
    obtain notApplied | discarded := hn
    · simp [notApplied]
    · obtain ⟨k, test⟩ := Option.isSome_iff_exists.mp discarded
      cases applied : s.reportsInStep h.source <;> simp [test]
  case claim => simp [v]

/-- The whole delivery of such a CLAIM, from the noted state on. -/
theorem claimDelivery_of_no_effect (hk : s.isConfigured h.source = true)
    (hn : (s.noted .claim 1 h).reportsInStep h.source = false ∨
      ((s.noted .claim 1 h).claimTest h.source secs).isSome = true)
    (hf : ∀ x, ((s.noted .claim 1 h).sec x).faulted = (s.sec x).faulted) :
    Within idleClaimScope (s.noted .claim 1 h) (s.claimDelivery h secs) := by
  have known : s.countDelivery.isConfigured h.source = true := hk
  simp only [State.claimDelivery, State.deliver, known, if_true]
  exact (claimWork_of_no_effect hn hf).settle.endDelivery

theorem exec_claim (h : Header) (secs : SectionSet) (hc : s.settings.state = .configured) :
    exec (.claim h secs) s = .next (State.finish s (s.claimDelivery h secs)) :=
  event_of_configured (State.claimDelivery h secs) hc

end

/-- Settles O40: the tests in the order of the definition, and the delivery of a discarded CLAIM, which asks nothing of the
tokens. -/
theorem claimTestsInOrder : Obligations.ClaimTestsInOrder := by
  refine ⟨fun n secs s => ?tests, fun h secs s u hc hk hu _ hd hf => ?discarded⟩
  case tests =>
    dsimp only
    simp only [← wrongSections_iff, ← faultedNamed_iff, ← incomerShares_iff, ← tieBetweenIncomers_iff, ← placedNamed_iff,
      State.claimTest]
    refine ⟨fun h1 => ?_, fun h1 h2 => ?_, fun h1 h2 h3 => ?_, fun h1 h2 h3 h4 => ?_, fun h1 h2 h3 h4 h5 => ?_,
      fun h1 h2 h3 h4 h5 => ?_⟩
    · rw [if_pos h1]
    · rw [if_neg h1, if_pos h2]
    · rw [if_neg h1, if_neg h2, if_pos h3]
    · rw [if_neg h1, if_neg h2, if_neg h3, if_pos h4]
    · rw [if_neg h1, if_neg h2, if_neg h3, if_neg h4, if_pos h5]
    · rw [if_neg h1, if_neg h2, if_neg h3, if_neg h4, if_neg h5]
  case discarded =>
    subst hu
    have delivered := claimDelivery_of_no_effect hk (Or.inr hd) hf
    have after : Within idleClaimScope (s.noted .claim 1 h) (State.finish s (s.claimDelivery h secs)) := delivered.finish s
    exact ⟨_, exec_claim h secs hc, fun x => (after.secs rfl x).trans ((within_noted s .claim 1 h).secs rfl x)⟩

end Sys2Proof.Machine
end

