-- ==== Sys2Proof/Proofs/StepInvariants.lean ====
section
/-!
SUPPORT. What the own work of an event keeps, command by command: the form of the state, the lockout rule, and the derived
values of the picture; and from it what every step keeps.
-/

namespace Sys2Proof.Machine

/-! ### The derived values rest on a part of the table alone (R9, R12 to R14) -/

/-- What the derived values read of an entry: its fixed fields, its presence, its content and its stale mark. -/
def StationEntry.pictured (e : StationEntry) : StationEntry :=
  { e with lastSeq := none, silence := 0, heard := false, lapse := .none }

section
variable {l m : List StationEntry} {p : StationEntry → Bool}

theorem any_of_pictured (hp : ∀ e, p e.pictured = p e) (h : m.map (·.pictured) = l.map (·.pictured)) : m.any p = l.any p := by
  have same : ∀ k : List StationEntry, k.any p = (k.map (·.pictured)).any p := fun k => by
    simp [List.any_map, Function.comp_def, hp]
  rw [same m, same l, h]

theorem countP_of_pictured (hp : ∀ e, p e.pictured = p e) (h : m.map (·.pictured) = l.map (·.pictured)) :
    m.countP p = l.countP p := by
  have same : ∀ k : List StationEntry, k.countP p = (k.map (·.pictured)).countP p := fun k => by
    simp [List.countP_map, Function.comp_def, hp]
  rw [same m, same l, h]

end

section
variable {s t : State}

theorem liveCount_of_pictured (h : t.pic.table.map (·.pictured) = s.pic.table.map (·.pictured)) :
    t.liveCount = s.liveCount := by
  simp only [State.liveCount, ← List.countP_eq_length_filter]
  exact countP_of_pictured (fun _ => rfl) h

theorem liveNow_of_pictured (h : t.pic.table.map (·.pictured) = s.pic.table.map (·.pictured)) {x : BusSection}
    (hc : (t.sec x).configured = (s.sec x).configured) : t.liveNow x = s.liveNow x := by
  simp only [State.liveNow, hc]
  rw [any_of_pictured (fun _ => rfl) h]

theorem faultedNow_of_pictured (h : t.pic.table.map (·.pictured) = s.pic.table.map (·.pictured)) {x : BusSection}
    (hc : (t.sec x).configured = (s.sec x).configured) : t.faultedNow x = s.faultedNow x := by
  simp only [State.faultedNow, hc]
  rw [any_of_pictured (fun _ => rfl) h]

theorem joinedUp_of_pictured (h : t.pic.table.map (·.pictured) = s.pic.table.map (·.pictured)) (x : BusSection) :
    t.joinedUp x = s.joinedUp x :=
  any_of_pictured (fun _ => rfl) h

theorem partition_of_pictured (h : t.pic.table.map (·.pictured) = s.pic.table.map (·.pictured))
    (hc : ∀ x, (t.sec x).configured = (s.sec x).configured) : t.partition = s.partition := by
  simp only [State.partition, State.islandAfter, hc, joinedUp_of_pictured h]

/-- The derived values stay those of the table where none of them changes, nor what they read. -/
theorem Derived.congr (d : Derived s) (campus : t.campus = s.campus)
    (table : t.pic.table.map (·.pictured) = s.pic.table.map (·.pictured)) (count : t.pic.quorumCount = s.pic.quorumCount)
    (quorum : t.pic.quorum = s.pic.quorum) (derived : ∀ x, (t.sec x).derivedPart = (s.sec x).derivedPart) : Derived t := by
  have configured x : (t.sec x).configured = (s.sec x).configured := (congrArg SectionRecord.configured (derived x) :)
  have live x : (t.sec x).live = (s.sec x).live := (congrArg SectionRecord.live (derived x) :)
  have faulted x : (t.sec x).faulted = (s.sec x).faulted := (congrArg SectionRecord.faulted (derived x) :)
  have island x : (t.sec x).island = (s.sec x).island := (congrArg SectionRecord.island (derived x) :)
  refine ⟨?_, ?_, fun x => ?_, fun x => ?_, fun x => ?_⟩
  · rw [count, liveCount_of_pictured table, d.count]
  · rw [quorum, liveCount_of_pictured table, d.quorum]
    simp only [State.holdsQuorum, campus]
  · rw [live, liveNow_of_pictured table (configured x), d.live]
  · rw [faulted, faultedNow_of_pictured table (configured x), d.faulted]
  · rw [island, partition_of_pictured table configured, d.island]

/-- Step 5 of R1 makes the derived values those of the table. -/
theorem derived_derive (s : State) : Derived s.derive := by
  have configured x : (s.derive.sec x).configured = (s.sec x).configured := by
    simp [State.derive, State.deriveSections, State.deriveQuorum, State.sec, State.onPic]
  refine ⟨rfl, rfl, fun x => ?_, fun x => ?_, fun x => ?_⟩
  · rw [liveNow_of_pictured (s := s) (t := s.derive) rfl (configured x)]
    simp [State.derive, State.deriveSections, State.sec, State.onPic]
    rfl
  · rw [faultedNow_of_pictured (s := s) (t := s.derive) rfl (configured x)]
    simp [State.derive, State.deriveSections, State.sec, State.onPic]
    rfl
  · rw [partition_of_pictured (s := s) (t := s.derive) rfl configured]
    simp [State.derive, State.deriveSections, State.sec, State.onPic]
    rfl

/-- Work that changes neither the table, lapse states apart, nor the derived values keeps them those of the table. -/
theorem Within.derivedKept {sc : Scope} (h : Within sc s t) (ht : sc.table = false) (hd : sc.derived = false)
    (d : Derived s) : Derived t := by
  refine d.congr (by simp only [State.campus, h.settings]) ?_ (h.quorumCount hd) (h.quorum hd) (h.derived hd)
  have := congrArg (List.map (·.pictured)) (h.table ht)
  simpa [Function.comp_def, StationEntry.unlapsed, StationEntry.pictured] using this

end

/-! ### What the own work of an event keeps -/

/-- The work keeps the settings, the form of the state, the lockout rule and the derived values. -/
structure KeepsForm (s t : State) : Prop where
  settings : t.settings = s.settings
  good : Good s → Good t
  only : LockoutOnly s → LockoutOnly t
  derived : Derived s → Derived t

namespace KeepsForm

variable {s t u : State}

theorem refl (s : State) : KeepsForm s s := ⟨rfl, id, id, id⟩

theorem trans (h : KeepsForm s t) (k : KeepsForm t u) : KeepsForm s u :=
  ⟨k.settings.trans h.settings, fun g => k.good (h.good g), fun g => k.only (h.only g), fun g => k.derived (h.derived g)⟩

theorem ofWithin {sc : Scope} (h : Within sc s t) (ht : sc.table = false := by rfl) (hd : sc.derived = false := by rfl) :
    KeepsForm s t :=
  ⟨h.settings, h.good, h.only, h.derivedKept ht hd⟩

/-- A change outside the settings, the fault store and the picture that keeps the form. -/
theorem ofSame (settings : t.settings = s.settings) (fault : t.fault = s.fault) (pic : t.pic = s.pic)
    (good : Good s → Good t) : KeepsForm s t :=
  ⟨settings, good, fun g => g.congr settings fault,
    fun d => d.congr (by simp only [State.campus, settings]) (by rw [pic]) (by rw [pic]) (by rw [pic]) fun x => by simp only [State.sec, pic]⟩

theorem ite {c : Prop} [Decidable c] {a b : State} (ha : c → KeepsForm s a) (hb : ¬ c → KeepsForm s b) :
    KeepsForm s (if c then a else b) := by
  split
  · exact ha ‹_›
  · exact hb ‹_›

theorem onMeas (s : State) (f : MeasurementRecord → MeasurementRecord) : KeepsForm s (s.onMeas f) :=
  ofSame rfl rfl rfl fun g => g.onMeas f

theorem answer (s : State) (c : ResponseCode) (d : List Byte) : KeepsForm s (s.answer c d) :=
  ofSame rfl rfl rfl fun g => g.answer c d

theorem endOperation (s : State) {st : OperateState} (hst : ¬ st = .inProgress) (r : Option OperateReason) :
    KeepsForm s (s.endOperation st r) :=
  ofSame rfl rfl rfl fun g => g.endOperation st hst r

/-! ### Measurement sets and the port -/

theorem takeSet (s : State) (m : MeasurementSet) : KeepsForm s (s.takeSet m) := by
  have gapped : KeepsForm s (s.gapped m) := by
    refine ite (fun _ => ?_) fun _ => refl s
    have raised := ofWithin ((Within.refl {} s).raise .setGap (.set m) (by simp))
    exact (raised.trans (onMeas _ _)).trans (ofWithin (Within.refl {} _).breakWindow)
  exact (gapped.trans (onMeas _ _)).trans (ofWithin (takeSet_within s m))

theorem setLossBegins (s : State) : KeepsForm s s.setLossBegins :=
  (onMeas s _).trans (ofWithin (((Within.refl { bias := true } _).raise .setLoss _ (by simp)).breakWindow.zeroBias rfl))

theorem takeOperation (s : State) (o : Operation) : KeepsForm s (s.takeOperation o) := by
  have taken : KeepsForm s (s.inProgressWith o) := ofSame rfl rfl rfl fun g => g.inProgressWith o
  have acted : KeepsForm s ((s.inProgressWith o).act o).1 :=
    taken.trans (ofWithin (Within.act (sc := { bar := true }) rfl (Within.refl _ (s.inProgressWith o)) o))
  have whole : s.takeOperation o = match (s.inProgressWith o).act o with
      | (s1, .begun) => s1.answer .ok []
      | (s1, .done) => (s1.endOperation .done none).answer .ok []
      | (s1, .refused r) => (s1.endOperation .refused (some r)).answer .refused [] := rfl
  rw [whole]
  generalize (s.inProgressWith o).act o = p at acted ⊢
  obtain ⟨s1, a⟩ := p
  cases a with
  | begun => exact acted.trans (answer _ _ _)
  | done => exact (acted.trans (endOperation _ (by decide) _)).trans (answer _ _ _)
  | refused r => exact (acted.trans (endOperation _ (by decide) _)).trans (answer _ _ _)

theorem operateTimedOut (s : State) : KeepsForm s s.operateTimedOut :=
  (endOperation s (by decide) _).trans (ofWithin (Within.refl {} _).withdrawOperation)

theorem clearFaults (s : State) (kinds : PerKind Bool) : KeepsForm s (s.clearFaults kinds) := by
  refine ⟨?_, fun g => g.clearFaults kinds, fun _ => lockoutOnly_clearFaults s kinds, fun d => ?_⟩
  all_goals
    have cleared := clearedUp_within kinds s
    have told : Within {} _ (s.clearFaults kinds) := (Within.refl {} (s.clearedUp kinds).judgeLockoutEnd).tellBarred s.barred
  · have ended : (s.clearedUp kinds).judgeLockoutEnd.settings = (s.clearedUp kinds).settings := by
      unfold State.judgeLockoutEnd; split <;> rfl
    exact told.settings.trans (ended.trans cleared.settings)
  · have first : Derived (s.onFault (FaultStore.clear kinds)) := d.congr rfl rfl rfl rfl fun _ => rfl
    have ended : Derived (s.clearedUp kinds).judgeLockoutEnd := by
      have at4 := cleared.derivedKept rfl rfl first
      unfold State.judgeLockoutEnd
      split
      · exact at4.congr rfl rfl rfl rfl fun _ => rfl
      · exact at4
    exact told.derivedKept rfl rfl ended

/-! ### The round end and the medium -/

theorem endStartSilence (s : State) : KeepsForm s s.endStartSilence := by
  have same : s.endStartSilence.settings = s.settings ∧ s.endStartSilence.fault = s.fault ∧ s.endStartSilence.pic = s.pic := by
    unfold State.endStartSilence
    split <;> exact ⟨rfl, rfl, rfl⟩
  obtain ⟨settings, fault, pic⟩ := same
  exact ofSame settings fault pic Good.endStartSilence

/-- The silence counts are no part of what the derived values read (R32). -/
theorem advanceSilence (s : State) : KeepsForm s s.advanceSilence := by
  refine ⟨rfl, Good.advanceSilence, fun g => g.congr rfl rfl, fun d => d.congr rfl ?_ rfl rfl fun _ => rfl⟩
  show ((s.pic.table.mapIdx fun k e => e.silent (k + 1 == s.own)).map (·.pictured)) = _
  apply List.ext_getElem
  · simp
  · intro i _ _
    simp [StationEntry.silent, StationEntry.pictured]

theorem roundOpened (s : State) : KeepsForm s s.roundOpened := by
  have counted : KeepsForm s s.countRound := ofSame rfl rfl rfl Good.countRound
  have silence : KeepsForm s s.countRound.judgeStartSilence := by
    unfold State.judgeStartSilence
    exact ite (fun _ => counted.trans (endStartSilence _)) fun _ => counted
  have advanced := silence.trans (advanceSilence _)
  have judged := advanced.trans (ofWithin ((Within.refl { step := true } _).judgePendingSource rfl))
  exact judged.trans (ofSame rfl rfl rfl Good.lowerGuard)

theorem endRound (s : State) : KeepsForm s s.endRound := (roundOpened s).trans (ofWithin (endRound_within s))

theorem transmitHead (s : State) : KeepsForm s s.transmitHead := by
  have same : s.transmitHead.settings = s.settings ∧ s.transmitHead.fault = s.fault ∧ s.transmitHead.pic = s.pic := by
    unfold State.transmitHead
    split
    · exact ⟨rfl, rfl, rfl⟩
    · split
      · dsimp only
        split <;> exact ⟨rfl, rfl, rfl⟩
      · split <;> exact ⟨rfl, rfl, rfl⟩
  obtain ⟨settings, fault, pic⟩ := same
  exact ofSame settings fault pic Good.transmitHead

/-! ### Deliveries (R1) -/

/-- The scope of what a frame asks of the owners of the tables, once the derived values stand (R1 step 6). -/
def workScope : Scope := { isl := true, secs := true, lapse := true, step := true, lists := true }

/-- A delivery derives the picture's values anew, and what follows touches neither them nor the table. -/
theorem deliver {picture : State → State} {work : State → State → State} (wp : Within.Stays .delivered picture)
    (ww : ∀ before, Within.Stays workScope (work before)) (s : State) (k : FrameKind) (len : Nat) (d : Header) :
    KeepsForm s (s.deliver k len d picture work) := by
  have counted := (Within.refl .delivered s).countDelivery rfl
  unfold State.deliver
  dsimp only
  refine ite (fun _ => ?known) fun _ => ?unknown
  case known =>
    have noted := wp _ _ (counted.noteSource rfl rfl k len d)
    have derived := noted.derive rfl
    generalize picture (s.countDelivery.noteSource k len d) = v at noted derived ⊢
    have judged : Within {} v.derive (State.judgeQuorum s v.derive) := (Within.refl {} _).judgeQuorum s
    have before : KeepsForm s (State.judgeQuorum s v.derive) :=
      ⟨judged.settings.trans derived.settings, fun g => judged.good (derived.good g), fun g => judged.only (derived.only g),
        fun _ => judged.derivedKept rfl rfl (derived_derive v)⟩
    exact before.trans (ofWithin ((ww s _ _ (Within.refl workScope _)).settle.endDelivery))
  case unknown =>
    exact ⟨rfl, counted.good, counted.only, fun d => d.congr rfl rfl rfl rfl fun _ => rfl⟩

section
variable (h : Header) (s : State)

theorem statusDelivery (b : StatusBody) : KeepsForm s (s.statusDelivery h b) := by
  refine deliver (fun _ _ v => Within.statusPicture rfl v _ _) (fun _ _ _ v => ?_) ..
  split
  · exact Within.statusWork rfl rfl rfl rfl rfl v ..
  · exact Within.mismatchWork rfl rfl rfl rfl v ..

theorem claimDelivery (secs : SectionSet) : KeepsForm s (s.claimDelivery h secs) :=
  deliver (Within.stays_id _) (fun _ _ _ v => Within.claimWork rfl rfl rfl rfl v ..) ..

theorem releaseDelivery (secs : SectionSet) (c : ReleaseCause) : KeepsForm s (s.releaseDelivery h secs c) :=
  deliver (Within.stays_id _) (fun _ _ _ v => Within.releaseWork rfl rfl rfl rfl v ..) ..

theorem admitDelivery (a : Bool) : KeepsForm s (s.admitDelivery h a) :=
  deliver (Within.stays_id _) (fun _ _ _ v => Within.admitWork rfl rfl rfl rfl v ..) ..

theorem withdrawDelivery : KeepsForm s (s.withdrawDelivery h) :=
  deliver (Within.stays_id _) (fun _ _ _ v => Within.withdrawWork rfl rfl rfl rfl v ..) ..

theorem orderDelivery (o : OrderKind) (t : Option Nat) : KeepsForm s (s.orderDelivery h o t) :=
  deliver (Within.stays_id _) (fun _ _ _ v => Within.orderWork rfl rfl rfl rfl v ..) ..

theorem blockDelivery (on : Bool) : KeepsForm s (s.blockDelivery h on) :=
  deliver (Within.stays_id _) (fun _ _ _ v => Within.blockWork rfl rfl rfl rfl v ..) ..

theorem intertripDelivery (v : Bool) : KeepsForm s (s.intertripDelivery h v) :=
  deliver (Within.stays_id _) (fun _ _ _ w => Within.intertripWork rfl rfl rfl rfl w ..) ..

theorem dropDelivery (n : Nat) : KeepsForm s (s.dropDelivery h n) := by
  have started : KeepsForm s (if n == s.own then s.endStartSilence else s) :=
    ite (fun _ => endStartSilence s) fun _ => refl s
  exact started.trans
    (deliver (fun _ _ v => Within.dropPicture rfl rfl v ..) (fun _ _ _ v => Within.dropWork rfl rfl rfl rfl rfl v ..) ..)

theorem partOneDelivery (p : SummaryOne) : KeepsForm s (s.partOneDelivery h p) :=
  deliver (fun _ _ v => Within.partOnePicture rfl rfl rfl rfl rfl v ..)
    (fun _ _ _ v => Within.partOneWork rfl rfl rfl rfl v ..) ..

theorem partTwoDelivery (p : SummaryTwo) : KeepsForm s (s.partTwoDelivery h p) :=
  deliver (fun _ _ v => Within.meetEpoch rfl v _) (fun _ _ _ v => Within.partTwoWork rfl rfl rfl rfl v ..) ..

end

theorem unreadDelivery (s : State) (v : Unread) : KeepsForm s (s.unreadDelivery v) :=
  deliver (fun _ _ w => Within.unreadPicture rfl w v) (fun _ _ _ w => Within.unreadWork rfl rfl rfl rfl w v _) ..

theorem takeFrame (s : State) (f : Sys2Proof.Frame) : KeepsForm s (s.takeFrame f) := by
  unfold State.takeFrame
  split
  · exact statusDelivery ..
  · exact claimDelivery ..
  · exact releaseDelivery ..
  · exact admitDelivery ..
  · exact withdrawDelivery ..
  · exact orderDelivery ..
  · exact blockDelivery ..
  · exact intertripDelivery ..
  · exact dropDelivery ..
  · exact partOneDelivery ..
  · exact partTwoDelivery ..

theorem receive (s : State) (bytes : List Byte) : KeepsForm s (s.receive bytes) := by
  unfold State.receive State.takeBytes
  refine ite (fun _ => ?_) fun _ => ofSame rfl rfl rfl fun g => g.onLink _ rfl rfl
  split
  · exact takeFrame ..
  · split
    · exact unreadDelivery ..
    · exact refl s

end KeepsForm

/-! ### What a command keeps -/

/-- The command answers a next state, which is in form and derived where the state before it was. -/
def KeepsInvariants (s : State) (o : Host.Outcome State Fault Refusal) : Prop :=
  ∃ t, o = .next t ∧ (Inv s → Inv t) ∧ (PictureDerived s → PictureDerived t)

namespace KeepsInvariants

variable {s : State}

theorem same (s : State) : KeepsInvariants s (.next s) := ⟨s, rfl, id, id⟩

theorem configured_congr {t : State} (h : t.settings = s.settings) : t.configured = s.configured := by
  simp only [State.configured, h]

/-- A change of the inputs, the port or the medium that has nothing to do with the form. -/
theorem ofSame {t : State} (settings : t.settings = s.settings) (fault : t.fault = s.fault) (pic : t.pic = s.pic)
    (good : Good s → Good t) (quiet : Quiet s → Quiet t) (news : t.news = s.news) : KeepsInvariants s (.next t) :=
  have keeps : KeepsForm s t := .ofSame settings fault pic good
  ⟨t, rfl, fun i => ⟨good i.good, keeps.only i.lockoutOnly, quiet i.quiet, news.trans i.news⟩,
    fun d c => keeps.derived (d ((configured_congr settings).symm.trans c))⟩

/-- An event at a CONFIGURED station keeps what its own work keeps; what follows it does too (log 5). -/
theorem event {f : State → State} (h : s.configured = true → KeepsForm s (f s)) : KeepsInvariants s (Machine.event f s) := by
  unfold Machine.event
  split
  case isFalse => exact same s
  case isTrue hc =>
    have work := h hc
    have after : Within {} (f s) (State.finish s (f s)) := (Within.refl {} _).finish s
    have whole := work.trans (.ofWithin after)
    have still : (State.finish s (f s)).configured = true := (configured_congr whole.settings).trans hc
    exact ⟨_, rfl, fun i => ⟨whole.good i.good, whole.only i.lockoutOnly, fun q => by simp [still] at q, finish_news ..⟩,
      fun d _ => whole.derived (d hc)⟩

theorem timerEvent (timer : State → Timer) (f : State → State) (h : (timer s).isSome = true → KeepsForm s (f s)) :
    KeepsInvariants s (Machine.timerEvent timer f s) :=
  event fun _ => .ite h fun _ => .refl s

/-- The own work of an event within a scope that reaches neither the table nor the derived values. -/
theorem ofWithin (f : State → State) {sc : Scope} (h : Within sc s (f s)) (ht : sc.table = false := by rfl)
    (hd : sc.derived = false := by rfl) : KeepsInvariants s (Machine.event f s) :=
  event fun _ => .ofWithin h ht hd

theorem timerWithin (timer : State → Timer) (f : State → State) {sc : Scope}
    (h : (timer s).isSome = true → Within sc s (f s)) (ht : sc.table = false := by rfl)
    (hd : sc.derived = false := by rfl) : KeepsInvariants s (Machine.timerEvent timer f s) :=
  timerEvent timer f fun r => .ofWithin (h r) ht hd

/-- A state that is not CONFIGURED, drives nothing and has nothing to send. -/
theorem ofUnconfigured {t : State} (hc : t.configured = false) (good : Good s → Good t) (quiet : Quiet t)
    (news : t.news = []) : KeepsInvariants s (.next t) :=
  ⟨t, rfl, fun i => ⟨good i.good, fun c => by simp [hc] at c, quiet, news⟩, fun _ c => by simp [hc] at c⟩

theorem answer (s : State) (c : ResponseCode) (d : List Byte) : KeepsInvariants s (.next (s.answer c d)) :=
  ofSame rfl rfl rfl (fun g => g.answer c d) id rfl

/-- An event that finds an input changed: the change keeps everything, and so does the event after it. -/
theorem onPins {f : State → State} {p : Pins → Pins} {sc : Scope} (h : Within sc (s.onPins p) (f (s.onPins p)))
    (ht : sc.table = false := by rfl) (hd : sc.derived = false := by rfl) :
    KeepsInvariants s (Machine.event f (s.onPins p)) := by
  obtain ⟨_, e, inv, derived⟩ := ofSame (s := s) (t := s.onPins p) rfl rfl rfl (fun g => g.onPins p) id rfl
  obtain rfl := Host.Outcome.next.inj e
  obtain ⟨t, run, inv', derived'⟩ := ofWithin f h ht hd
  exact ⟨t, run, fun i => inv' (inv i), fun d => derived' (derived d)⟩

/-! ### Start-up (R175 to R177) -/

theorem powerOn (s : State) : KeepsInvariants s (exec .powerOn s) :=
  ofUnconfigured rfl (fun _ => .powerOn s) (fun _ => ⟨rfl, rfl, rfl, rfl, rfl, rfl⟩) rfl

theorem restart (s : State) : KeepsInvariants s (exec .restartLine s) :=
  ofUnconfigured rfl Good.restart (fun _ => ⟨rfl, rfl, rfl, rfl, rfl, rfl⟩) rfl

theorem portRestart (s : State) : KeepsInvariants s (exec .restart s) :=
  ofUnconfigured rfl (fun g => (g.answer _ _).restart) (fun _ => ⟨rfl, rfl, rfl, rfl, rfl, rfl⟩) rfl

theorem refuseLoad (s : State) (r : LoadRefusal) : KeepsInvariants s (.next (s.refuseLoad r)) :=
  ofUnconfigured rfl (fun g => g.refuseLoad r) (fun _ => ⟨rfl, rfl, rfl, rfl, rfl, rfl⟩) rfl

/-- After the blocks have their values the picture is that of the table the load has set (R176). -/
theorem derived_configure (s : State) (l : Loaded) : Derived (s.configure l) := by
  unfold State.configure
  dsimp only
  exact (derived_derive _).congr rfl rfl rfl rfl fun _ => rfl

theorem acceptLoad (s : State) (l : Loaded) : KeepsInvariants s (.next (s.acceptLoad l)) := by
  have setUp := acceptLoad_within l s
  have configured : (s.acceptLoad l).configured = true := by simp only [State.configured, setUp.settings]; rfl
  exact ⟨_, rfl, fun i => ⟨setUp.good (i.good.configure l), setUp.only (lockoutOnly_configure s l),
    fun q => by simp [configured] at q, finish_news ..⟩, fun _ _ => setUp.derivedKept rfl rfl (derived_configure s l)⟩

theorem settingsLoad (s : State) (image : List Byte) : KeepsInvariants s (exec (.settingsLoad image) s) := by
  unfold exec execSettingsLoad
  dsimp only
  split
  · split
    · exact acceptLoad ..
    · exact refuseLoad ..
  · exact same s

theorem noResponse (s : State) : KeepsInvariants s (exec .noResponse s) := by
  unfold exec execNoResponse
  dsimp only
  split
  · exact refuseLoad ..
  · exact same s

/-! ### The cell and the medium -/

theorem positionEvent (s : State) (a b : Bool) : KeepsInvariants s (exec (.positionEvent a b) s) := by
  unfold exec execPositionEvent
  dsimp only
  split
  · exact same s
  · exact onPins (sc := { failure := true }) ((Within.refl _ _).takePosition rfl)

theorem readyInputChange (s : State) (on : Bool) : KeepsInvariants s (exec (.readyInputChange on) s) := by
  unfold exec execReadyInputChange
  dsimp only
  split
  · exact same s
  · exact onPins (sc := {}) (Within.refl _ _).generatorReadyChange

theorem gapExpiry (s : State) : KeepsInvariants s (exec .gapExpiry s) :=
  event fun _ => .ite (fun _ => .transmitHead s) fun _ => .refl s

/-! ### The port (R113 to R115, R176 to R180) -/

/-- A READ changes the attention line and the response, and nothing else (R178). -/
theorem read_eq (s : State) (sel : Nat) :
    s.read sel = { s with port := { s.port with
      attention := (s.read sel).port.attention, response := (s.read sel).port.response } } := by
  unfold State.read State.lowerAttention
  (repeat' split) <;> rfl

theorem read (s : State) (sel : Nat) : KeepsInvariants s (exec (.read sel) s) := by
  have good (g : Good s) := g.read sel
  show KeepsInvariants s (.next (s.read sel))
  rw [read_eq] at good ⊢
  exact ofSame rfl rfl rfl good id rfl

theorem clearFaults (s : State) (kinds : PerKind Bool) : KeepsInvariants s (exec (.clearFaults kinds) s) := by
  unfold exec execClearFaults
  dsimp only
  split
  · exact answer ..
  · rename_i hu
    have unconfigured : s.configured = false := by simp [State.configured, hu]
    exact ⟨_, rfl, fun i => ⟨(i.good.clearStore kinds).answer _ _, fun c => Bool.noConfusion (unconfigured.symm.trans c),
      i.quiet, i.news⟩, fun _ c => Bool.noConfusion (unconfigured.symm.trans c)⟩
  · exact event fun _ => (KeepsForm.clearFaults s kinds).trans (.answer _ _ _)

theorem clearStaleIntertrip (s : State) : KeepsInvariants s (exec .clearStaleIntertrip s) := by
  unfold exec execClearStaleIntertrip
  dsimp only
  split
  · exact answer ..
  · exact answer ..
  · exact event fun _ => (KeepsForm.ofWithin ((Within.refl { lists := true } s).clearStale rfl)).trans (.answer _ _ _)

theorem operate (s : State) (o : Operation) : KeepsInvariants s (Machine.operate o s) := by
  unfold Machine.operate
  split
  · exact answer ..
  · exact answer ..
  · split
    · exact answer ..
    · exact event fun _ => .takeOperation s o

/-! ### Every command, and a step -/

theorem exec (c : Instr) (s : State) : KeepsInvariants s (exec c s) := by
  have w := Within.refl {} s
  cases c with
  | powerOn => exact powerOn s
  | restartLine => exact restart s
  | restart => exact portRestart s
  | settingsLoad image => exact settingsLoad s image
  | noResponse => exact noResponse s
  | setArrival m => exact event fun _ => .takeSet s m
  | setDiscard => exact event fun _ => .onMeas s _
  | setLossTimerExpiry => exact timerEvent (·.meas.lossTimer) State.setLossBegins fun _ => .setLossBegins s
  | positionEvent a b => exact positionEvent s a b
  | closeLimitExpiry => exact timerWithin (·.brk.closeTimer) State.closeLimitExpired fun _ => w.closeLimitExpired
  | openLimitExpiry => exact timerWithin (·.brk.openTimer) State.openLimitExpired (sc := { failure := true }) fun _ => (Within.refl _ s).openLimitExpired rfl
  | disagreementLimitExpiry => exact timerWithin (·.brk.disagreementTimer) State.disagreementExpired fun r => w.disagreementExpired r
  | readyInputChange on => exact readyInputChange s on
  | roundEnd => exact event fun _ => .endRound s
  | mediumIdle => exact ofSame rfl rfl rfl (fun g => g.onLink _ rfl rfl) id rfl
  | defer => exact ofSame rfl rfl rfl (fun g => g.onLink _ rfl rfl) id rfl
  | gapExpiry => exact gapExpiry s
  | receiveDiscard bytes => exact event fun _ => .receive s bytes
  | status h b => exact event fun _ => .statusDelivery h s b
  | claim h secs => exact event fun _ => .claimDelivery h s secs
  | release h secs cause => exact event fun _ => .releaseDelivery h s secs cause
  | admitFeeder h a => exact event fun _ => .admitDelivery h s a
  | withdraw h => exact event fun _ => .withdrawDelivery h s
  | order h o t => exact event fun _ => .orderDelivery h s o t
  | block h on => exact event fun _ => .blockDelivery h s on
  | intertrip h v => exact event fun _ => .intertripDelivery h s v
  | drop h n => exact event fun _ => .dropDelivery h s n
  | summaryPart1 h p => exact event fun _ => .partOneDelivery h s p
  | summaryPart2 h p => exact event fun _ => .partTwoDelivery h s p
  | lapseTimerExpiry n =>
    exact ofWithin (State.lapseReport n) (sc := { secs := true, lapse := true }) ((Within.refl _ s).lapseReport rfl rfl n)
  | holdTimerExpiry => exact timerWithin (·.token.holdTimer) State.holdEnds fun _ => w.holdEnds
  | syncTimeoutTimerExpiry => exact timerWithin (·.sync.timer) State.syncTimedOut fun _ => w.syncTimedOut
  | blockEntryExpiry n => exact ofWithin (State.removeBlock n) (sc := { lists := true }) ((Within.refl _ s).removeBlock rfl n)
  | autonomousTimerExpiry => exact timerWithin (·.disp.autonomousTimer) State.autonomousExpired fun _ => w.autonomousExpired
  | startLimitExpiry => exact timerWithin (·.disp.startTimer) State.startLimitExpired (sc := { bar := true }) fun _ => (Within.refl _ s).startLimitExpired rfl
  | minimumRunExpiry => exact timerWithin (·.disp.minimumTimer) State.minimumExpired fun _ => w.minimumExpired
  | surplusDwellExpiry => exact timerWithin (·.disp.surplusTimer) State.surplusExpired fun _ => w.surplusExpired
  | cooldownExpiry => exact timerWithin (·.disp.cooldownTimer) State.cooldownExpired fun _ => w.cooldownExpired
  | rideThroughExpiry => exact timerWithin (·.chg.rideTimer) State.rideExpired fun _ => w.rideExpired
  | returnStableExpiry => exact timerWithin (·.chg.returnTimer) State.returnExpired fun _ => w.returnExpired
  | tieAssistLimitExpiry => exact timerWithin (·.chg.tieTimer) State.tieAssistExpired fun _ => w.tieAssistExpired
  | parallelLimitExpiry => exact timerWithin (·.chg.parallelTimer) State.parallelExpired fun _ => w.parallelExpired
  | read sel => exact read s sel
  | clearFaults kinds => exact clearFaults s kinds
  | clearStaleIntertrip => exact clearStaleIntertrip s
  | operateOpen => exact operate s .opn
  | operateClose => exact operate s .close
  | operateBar => exact operate s .bar
  | operateUnbar => exact operate s .unbar
  | operateMerge => exact operate s .merge
  | operateSplit => exact operate s .split
  | operateLimitExpiry => exact timerEvent (·.port.limit) State.operateTimedOut fun _ => .operateTimedOut s
  | commandDiscard _ => exact same s

/-- One millisecond touches no queue, no output and nothing the derived values read (log 1). -/
theorem tick (s : State) : KeepsInvariants s (.next s.tick) := by
  refine ⟨_, rfl, fun i => ⟨i.good.tick, i.lockoutOnly, i.quiet, i.news⟩, fun d c => ?_⟩
  refine (d c).congr rfl ?_ rfl rfl fun _ => rfl
  simp [State.tick, StationEntry.pictured]

theorem step (s : State) : KeepsInvariants s (step s) := by
  unfold Machine.step
  split
  · exact tick s
  · rename_i c rest _
    obtain ⟨_, e, inv, derived⟩ := ofSame (s := s) (t := s.withPending rest) rfl rfl rfl (fun g => g.withPending rest) id rfl
    obtain rfl := Host.Outcome.next.inj e
    obtain ⟨t, run, inv', derived'⟩ := KeepsInvariants.exec c (s.withPending rest)
    exact ⟨t, run, fun i => inv' (inv i), fun d => derived' (derived d)⟩

end KeepsInvariants

/-- Settles O57: every command keeps the form, and so does a millisecond. -/
theorem stepKeepsTheInvariant : Obligations.StepKeepsTheInvariant := by
  intro s
  obtain ⟨t, run, inv, -⟩ := KeepsInvariants.step s
  exact ⟨t, run, inv⟩

/-- Settles O58: every delivery derives the picture anew, and no other command touches what its values read. -/
theorem stepKeepsThePictureDerived : Obligations.StepKeepsThePictureDerived := by
  intro s t d run
  obtain ⟨_, run', -, derived⟩ := KeepsInvariants.step s
  obtain rfl := Host.Outcome.next.inj (run.symm.trans run')
  exact derived d

/-- Settles O59: what follows the own work of an event is within the common scope. -/
theorem handOnsStayInFrame : Obligations.HandOnsStayInFrame := by
  intro before s
  have after : Within {} s (State.finish before s) := (Within.refl {} s).finish before
  exact ⟨after.frame, after.good, finish_news before s⟩

end Sys2Proof.Machine
end

