-- ==== Sys2Proof/Proofs/StartUp.lean ====
section
/-!
SUPPORT. A step by whether a command waits, one millisecond of the clock, and what power-on, a restart and the end of a load
leave (R175 to R177).
-/

namespace Sys2Proof.Machine

/-! ### A step and the clock (log 1) -/

theorem step_of_waiting {s : State} {c : Instr} {rest : List Instr} (h : s.pending = c :: rest) :
    step s = exec c (s.withPending rest) := by
  unfold step; rw [h]

theorem step_of_empty {s : State} (h : s.pending = []) : step s = .next s.tick := by
  unfold step; rw [h]

/-- A lapse timer runs on, an entry is otherwise as it was (R123). -/
theorem tick_entry (s : State) (n : Nat) : s.tick.entry n = { s.entry n with lapse := (s.entry n).lapse.tick } := by
  cases n with
  | zero => rfl
  | succ k =>
    exact List.getD_map s.pic.table StationEntry.absent fun e => { e with lapse := e.lapse.tick }

theorem tick_of_not_running {l : Lapse} (h : ∀ left, l ≠ .running left) : l.tick = l := by
  cases l with
  | none => rfl
  | running left => exact absurd rfl (h left)
  | lapsed => rfl

/-- Settles O1: the queue is not empty, so a step is the command at its front. -/
theorem stepTakesTheFrontCommand : Obligations.StepTakesTheFrontCommand :=
  fun _ _ _ h => step_of_waiting h

/-- Settles O2: the clock's tick, timer by timer, and the entries' lapse states. -/
theorem emptyQueueLetsAMillisecondPass : Obligations.EmptyQueueLetsAMillisecondPass := by
  intro s h
  have unlapsed : s.tick.pic.table.map (·.unlapsed) = s.pic.table.map (·.unlapsed) := by
    simp [State.tick, StationEntry.unlapsed]
  refine ⟨s.tick, step_of_empty h, rfl, rfl, rfl, rfl, rfl, rfl, rfl, rfl, rfl, rfl, unlapsed, fun n left hl => ?_,
    fun n hl => ?_, rfl, rfl, rfl, rfl, rfl, rfl, rfl, rfl, rfl, h, rfl⟩
  · rw [tick_entry, hl]; rfl
  · rw [tick_entry]; exact tick_of_not_running hl

/-- Settles O56: the values of the reset state, of which the station is LOADING and derives nothing yet. -/
theorem invariantAtReset : Obligations.InvariantAtReset :=
  have loading : State.reset.configured = false := rfl
  ⟨⟨good_reset, fun c => absurd c (by simp [loading]), fun _ => ⟨rfl, rfl, rfl, rfl, rfl, rfl⟩, rfl⟩,
    fun c => absurd c (by simp [loading]), rfl, rfl⟩

/-! ### Power-on, a restart and a refused load (R176, R177) -/

/-- What a reset leaves of every block that none of the three keeps. -/
theorem atPowerOnValues_powerOn (s : State) : AtPowerOnValues s s.powerOn :=
  ⟨rfl, rfl, rfl, rfl, rfl, rfl, rfl, rfl, rfl, rfl, rfl, rfl, rfl, rfl⟩

theorem atPowerOnValues_restart (s : State) : AtPowerOnValues s s.restart :=
  ⟨rfl, rfl, rfl, rfl, rfl, rfl, rfl, rfl, rfl, rfl, rfl, rfl, rfl, rfl⟩

theorem atPowerOnValues_refuseLoad (s : State) (r : LoadRefusal) : AtPowerOnValues s (s.refuseLoad r) :=
  ⟨rfl, rfl, rfl, rfl, rfl, rfl, rfl, rfl, rfl, rfl, rfl, rfl, rfl, rfl⟩

section
variable {s : State} {image : List Byte}

theorem exec_settingsLoad_of_error {r : LoadRefusal} (hl : s.settings.state = .loading) (hj : judgeImage image = .error r) :
    exec (.settingsLoad image) s = .next (s.refuseLoad r) := by
  simp [exec, execSettingsLoad, hl, hj]

theorem exec_settingsLoad_of_ok {l : Loaded} (hl : s.settings.state = .loading) (hj : judgeImage image = .ok l) :
    exec (.settingsLoad image) s = .next (s.acceptLoad l) := by
  simp [exec, execSettingsLoad, hl, hj]

theorem exec_noResponse_of_loading (hl : s.settings.state = .loading) :
    exec .noResponse s = .next (s.refuseLoad .noResponse) := by
  simp [exec, execNoResponse, hl]

end

/-- Settles O3: power-on is the reset state under the inputs as they stand. -/
theorem powerOnBeginsTheLoad : Obligations.PowerOnBeginsTheLoad := fun s =>
  ⟨s.powerOn, rfl, atPowerOnValues_powerOn s, rfl, rfl, rfl, rfl, rfl, rfl, rfl, rfl, rfl, rfl⟩

/-- Settles O4: both restarts are one, and RESTART is answered before it begins. -/
theorem restartKeepsTheFaultStore : Obligations.RestartKeepsTheFaultStore := fun s =>
  ⟨s.restart, (s.answer .ok []).restart, rfl, rfl, rfl, atPowerOnValues_restart s, rfl, rfl, rfl, rfl, rfl, rfl, rfl, rfl,
    rfl, rfl⟩

/-- Settles O7: a refused image and no answer end the load in the same way. -/
theorem refusedImageLeavesUnconfigured : Obligations.RefusedImageLeavesUnconfigured := by
  intro c r s hl hc
  have run : exec c s = .next (s.refuseLoad r) := by
    obtain ⟨image, rfl, hj⟩ | ⟨rfl, rfl⟩ := hc
    · exact exec_settingsLoad_of_error hl hj
    · exact exec_noResponse_of_loading hl
  exact ⟨_, run, atPowerOnValues_refuseLoad s r, rfl, rfl, rfl, rfl, rfl, rfl⟩

/-! ### An accepted load (R175, R176) -/

/-- Settles O5: the blocks as configured, and what setting the roles up leaves of them. -/
theorem acceptedImageConfigures : Obligations.AcceptedImageConfigures := by
  intro image l s hl hj
  have setUp := acceptLoad_within l s
  have entries : (s.acceptLoad l).pic.table = stationNumbers.map (loadedEntry l.campus l.station.number) :=
    setUp.lapse rfl rfl
  exact ⟨_, exec_settingsLoad_of_ok hl hj, setUp.settings, entries, setUp.delivery rfl, setUp.step rfl, setUp.isl rfl,
    setUp.meas, setUp.startSilence, setUp.roundTimer, setUp.roundCount, setUp.nextSeq, setUp.blockList rfl,
    setUp.intertrips rfl, setUp.pins, setUp.pending, fun k => setUp.stays k⟩

/-! ### What follows an event that hands nothing on (log 5) -/

/-- Where nothing waits to be handed on, there is nothing to take. -/
theorem settle_of_quiet {s : State} (h : s.news = []) : s.settle = s := by
  simp [State.settle, Config.handOffDepth, settleFor, h]

/-- The CHANGE STATUS is a request and nothing else (R31). -/
theorem changeStatus_eq (before s : State) :
    ∃ r, State.changeStatus before s = s.onLink fun l => { l with statusRequest := r } := by
  unfold State.changeStatus
  split
  · exact ⟨s.link.statusRequest, rfl⟩
  · dsimp only
    split
    · exact ⟨_, rfl⟩
    · exact ⟨s.link.statusRequest, rfl⟩

@[simp] theorem changeStatus_brk (before s : State) : (State.changeStatus before s).brk = s.brk := by
  obtain ⟨r, h⟩ := changeStatus_eq before s
  rw [h]; rfl

/-- The same for a whole event whose end finds nothing to judge. -/
theorem finish_brk_of_quiet {s : State} (before : State) (hn : s.news = []) (hw : s.wrapUp = s) :
    (State.finish before s).brk = s.brk := by
  simp [State.finish, settle_of_quiet hn, hw]

/-! ### The first position (R61) -/

/-- The entry of a number, as the load sets it: absent outside the thirty (R2). -/
theorem configure_fixed (l : Loaded) (s : State) (n : Nat) :
    ((s.configure l).entry n).fixed = (loadedEntry l.campus l.station.number n).fixed ∨
      ((s.configure l).entry n).fixed = none := by
  cases n with
  | zero => exact .inr rfl
  | succ k =>
    have table : (s.configure l).entry (k + 1) =
        (stationNumbers.map (loadedEntry l.campus l.station.number)).getD k .absent := rfl
    rw [table]
    by_cases hk : k < 30
    · left
      simp [List.getD_eq_getElem?_getD, stationNumbers, hk, Nat.add_comm]
    · right
      simp [List.getD_eq_getElem?_getD, stationNumbers, hk, StationEntry.absent]

/-- Outside a generator a load leaves nothing to judge: the station is JOINING and no operation is in progress. -/
theorem acceptLoad_brk_of_not_generator {l : Loaded} {s : State} (hg : (s.configure l).isGenerator = false) :
    (s.acceptLoad l).brk = (s.configure l).brk := by
  have announced : ∃ a, (s.configure l).announceKept = (s.configure l).onPort fun p => { p with attention := a } := by
    unfold State.announceKept
    split
    · exact ⟨true, rfl⟩
    · exact ⟨(s.configure l).port.attention, rfl⟩
  obtain ⟨a, ha⟩ := announced
  have kind : ((s.configure l).onPort fun p => { p with attention := a }).isGenerator = false := hg
  have joining : ((s.configure l).onPort fun p => { p with attention := a }).inStep = false := rfl
  have idle o : ((s.configure l).onPort fun p => { p with attention := a }).operating o = false := rfl
  unfold State.acceptLoad
  rw [ha, State.reconstruct, if_neg (by simp [kind]), finish_brk_of_quiet s rfl ?_]
  · rfl
  · simp [State.wrapUp, State.judgeAutonomous, kind, State.judgeStart, joining, State.judgeOperation, State.operatingOpen, idle]

/-- Settles O6: nothing after the blocks have their values moves the breaker of a station that is no generator. -/
theorem firstPositionSetsTheBreaker : Obligations.FirstPositionSetsTheBreaker := by
  intro image l s hl hj hk
  have own : (s.configure l).own = l.station.number := rfl
  have kind : (s.configure l).isGenerator = false := by
    unfold State.isGenerator State.ownKind State.kindOf
    rw [own]
    obtain fixed | fixed := configure_fixed l s l.station.number
    · rw [fixed]; simpa using hk
    · rw [fixed]; rfl
  refine ⟨_, exec_settingsLoad_of_ok hl hj, (acceptLoad_brk_of_not_generator kind).trans ?_⟩
  rw [(configure_parts l s).1]
  cases hp : s.position <;> simp [BreakerRecord.first, BreakerRecord.initial]

end Sys2Proof.Machine
end

