-- ==== Sys2Proof/Proofs/ImageTests.lean ====
section
/-!
SUPPORT. The eight tests of a settings image as the conditions they are, and what an image that passes them gives (R175).
-/

namespace Sys2Proof.Machine

theorem inRange_iff {lo hi n : Nat} : inRange lo hi n = true ↔ lo ≤ n ∧ n ≤ hi := by
  simp [inRange]

/-! ### The tests (R175) -/

section
variable (bs : List Byte)

/-- Test 1. -/
theorem shortImage_iff : (decide (bs.length < 2) || decide (bs.length < wordAt bs 0)) = true ↔
    bs.length < 2 ∨ bs.length < wordAt bs 0 := by
  simp

/-- Test 2. -/
theorem badLength_iff : (!inRange Config.imageHeader Config.imageMax (wordAt bs 0)) = true ↔
    ¬ (10 ≤ wordAt bs 0 ∧ wordAt bs 0 ≤ 4096) := by
  rw [Bool.not_eq_true', ← Bool.not_eq_true, inRange_iff]
  rfl

/-- Test 3. -/
theorem badCheck_iff : (!((crc32 (imageCovered bs)).toNat == longAt bs 4)) = true ↔
    (crc32 (imageCovered bs)).toNat ≠ longAt bs 4 := by
  simp

/-- Test 4. -/
theorem badVersion_iff : (!(wordAt bs 2 == 1)) = true ↔ wordAt bs 2 ≠ 1 := by
  simp

end

section
variable (raw : List RawEntry) (st : StationSettings)

/-- Test 5: the own number is no station number, or the campus list does not hold it. -/
theorem badStation_iff : (!(inRange 1 30 st.number && (raw.find? fun e => e.number == st.number).isSome)) = true ↔
    ¬ (1 ≤ st.number ∧ st.number ≤ 30) ∨ ∀ e ∈ raw, e.number ≠ st.number := by
  rw [← inRange_iff]
  simp [or_iff_not_imp_left]

/-- Test 6: the first entry with the own number is of another kind. -/
theorem kindMismatch_iff :
    (!(((raw.find? fun e => e.number == st.number).map (·.kindCode)) == some st.kindCode)) = true ↔
      ∀ e, raw.find? (fun e => e.number == st.number) = some e → e.kindCode ≠ st.kindCode := by
  simp

/-- Test 8. -/
theorem badValue_iff (c : CampusSettings) (code : Nat) : (!(stationGood st && campusGood c code)) = true ↔
    stationGood st = false ∨ campusGood c code = false := by
  rw [Bool.not_eq_true', Bool.and_eq_false_iff]

end

/-! ### What test 7 gives (R2, R11, R175) -/

theorem nodup_of_allDifferent : ∀ {l : List Nat}, allDifferent l = true → l.Nodup
  | [], _ => List.nodup_nil
  | x :: xs, h => by
    simp only [allDifferent, Bool.and_eq_true, Bool.not_eq_true', List.contains_eq_mem, decide_eq_false_iff_not] at h
    exact List.nodup_cons.mpr ⟨h.1, nodup_of_allDifferent h.2⟩

/-- Where every raw entry gives a configured station, the stations are as many and bear the same numbers. -/
theorem numbers_of_entries {raw : List RawEntry} (h : ∀ e ∈ raw, e.entry.isSome = true) :
    (raw.filterMap RawEntry.entry).map (·.number) = raw.map (·.number) := by
  induction raw with
  | nil => rfl
  | cons e es ih =>
    obtain ⟨c, hc⟩ := Option.isSome_iff_exists.mp (h e (by simp))
    have number : c.number = e.number := by
      unfold RawEntry.entry at hc
      split at hc
      · obtain rfl := Option.some.inj hc; rfl
      · simp at hc
    simp [hc, number, ih fun e' he' => h e' (by simp [he'])]

/-- The sections of a configured station are configured, a tie's neighbour too. -/
theorem entrySections_iff {c : CampusSettings} {e : CampusEntry} : entrySections c e = true ↔
    c.configured.get e.sec = true ∧ (e.kind = .tie → ∃ y, e.sec.next = some y ∧ c.configured.get y = true) := by
  cases hk : e.kind <;> cases hn : e.sec.next <;> simp [entrySections, hk, hn]

/-- What test 7 asks of a configured section. -/
theorem counts_of_sectionCounts {c : CampusSettings} {x : BusSection} (h : sectionCounts c x = true)
    (hc : c.configured.get x = true) :
    countOf c.stations .incomer (fun e => e.sec == x) = 1 ∧ countOf c.stations .generator (fun e => e.sec == x) ≤ 6 ∧
      countOf c.stations .feeder (fun e => e.sec == x) ≤ 8 ∧
      ∀ y, x.next = some y → c.configured.get y = true → countOf c.stations .tie (fun e => e.sec == x) = 1 := by
  simp only [sectionCounts, hc, if_true, Bool.and_eq_true, beq_iff_eq, decide_eq_true_eq] at h
  obtain ⟨⟨⟨incomers, generators⟩, feeders⟩, ties⟩ := h
  refine ⟨incomers, generators, feeders, fun y hy hcy => ?_⟩
  simpa [hy, hcy] using ties

/-- A campus list that passes test 7, with station numbers in their range, is one a campus can have. -/
theorem campus_of_tests {cb : List Byte} {code : Nat} (hc : countsGood (rawEntries cb) cb.length (parseCampus cb) = true)
    (hv : campusGood (parseCampus cb) code = true) :
    let c := parseCampus cb
    c.count = c.stations.length ∧ 1 ≤ c.count ∧ c.count ≤ 30 ∧ (c.stations.map (·.number)).Nodup ∧
      (∀ e ∈ c.stations, c.configured.get e.sec = true ∧ 1 ≤ e.number ∧ e.number ≤ 30 ∧
        (e.kind = .tie → ∃ y, e.sec.next = some y ∧ c.configured.get y = true)) ∧
      ∀ x, c.configured.get x = true → countOf c.stations .incomer (fun e => e.sec == x) = 1 ∧
        countOf c.stations .generator (fun e => e.sec == x) ≤ 6 ∧ countOf c.stations .feeder (fun e => e.sec == x) ≤ 8 ∧
        ∀ y, x.next = some y → c.configured.get y = true → countOf c.stations .tie (fun e => e.sec == x) = 1 := by
  simp only [countsGood, Bool.and_eq_true, beq_iff_eq, List.all_eq_true, decide_eq_true_eq, inRange_iff] at hc
  obtain ⟨⟨⟨⟨⟨⟨⟨⟨_, count⟩, range⟩, different⟩, named⟩, sections⟩, counts⟩, _⟩, _⟩ := hc
  simp only [campusGood, Bool.and_eq_true, List.all_eq_true] at hv
  obtain ⟨_, numbers⟩ := hv
  have same : (parseCampus cb).stations.map (·.number) = (rawEntries cb).map (·.number) := numbers_of_entries named
  have length : (parseCampus cb).stations.length = (rawEntries cb).length := by simpa using congrArg List.length same
  refine ⟨count.trans length.symm, range.1, range.2, same ▸ nodup_of_allDifferent different, fun e he => ?_,
    fun x hx => counts_of_sectionCounts (counts x (BusSection.mem_all x)) hx⟩
  obtain ⟨own, tie⟩ := entrySections_iff.mp (sections e he)
  obtain ⟨low, high⟩ := inRange_iff.mp (numbers e he)
  exact ⟨own, low, high, tie⟩

/-! ### The verdict -/

/-- An image is accepted exactly where no test fails, with the settings its bytes give. -/
theorem judgeImage_ok_iff (bs : List Byte) (l : Loaded) : judgeImage bs = .ok l ↔
    let st := parseStation (imageStation bs)
    let cb := imageCampus bs
    let raw := rawEntries cb
    ¬ (bs.length < 2 ∨ bs.length < wordAt bs 0) ∧ ¬ ¬ (10 ≤ wordAt bs 0 ∧ wordAt bs 0 ≤ 4096) ∧
      ¬ (crc32 (imageCovered bs)).toNat ≠ longAt bs 4 ∧ ¬ wordAt bs 2 ≠ 1 ∧
      ¬ (¬ (1 ≤ st.number ∧ st.number ≤ 30) ∨ ∀ e ∈ raw, e.number ≠ st.number) ∧
      ¬ (∀ e, raw.find? (fun e => e.number == st.number) = some e → e.kindCode ≠ st.kindCode) ∧
      ¬ countsGood raw cb.length (parseCampus cb) = false ∧
      ¬ (stationGood st = false ∨ campusGood (parseCampus cb) (byteAt cb 5) = false) ∧
      l = { station := st, campus := parseCampus cb, digest := crc32 cb } := by
  dsimp only
  rw [← shortImage_iff, ← badLength_iff, ← badCheck_iff, ← badVersion_iff, ← badStation_iff, ← kindMismatch_iff,
    ← badValue_iff, ← Bool.not_eq_true']
  unfold judgeImage
  dsimp only
  constructor
  · intro h
    split at h
    · cases h
    split at h
    · cases h
    split at h
    · cases h
    split at h
    · cases h
    split at h
    · cases h
    split at h
    · cases h
    split at h
    · cases h
    split at h
    · cases h
    rename_i h1 h2 h3 h4 h5 h6 h7 h8
    exact ⟨h1, h2, h3, h4, h5, h6, h7, h8, (Except.ok.inj h).symm⟩
  · rintro ⟨h1, h2, h3, h4, h5, h6, h7, h8, rfl⟩
    rw [if_neg h1, if_neg h2, if_neg h3, if_neg h4, if_neg h5, if_neg h6, if_neg h7, if_neg h8]

/-- Settles O8: the tests of the definition by the conditions they are, each judged where those before it pass. -/
theorem imageTestsRunInOrder : Obligations.ImageTestsRunInOrder := by
  intro bs
  dsimp only
  have accepted := judgeImage_ok_iff bs
  dsimp only at accepted
  refine ⟨fun h1 => ?_, fun h1 h2 => ?_, fun h1 h2 h3 => ?_, fun h1 h2 h3 h4 => ?_, fun h1 h2 h3 h4 h5 => ?_,
    fun h1 h2 h3 h4 h5 h6 => ?_, fun h1 h2 h3 h4 h5 h6 h7 => ?_, fun h1 h2 h3 h4 h5 h6 h7 h8 => ?_, accepted,
    fun l h => ?campus⟩
  case campus =>
    obtain ⟨-, -, -, -, -, -, counts, value, rfl⟩ := (accepted l).mp h
    rw [not_or, Bool.not_eq_false, Bool.not_eq_false] at value
    exact campus_of_tests (Bool.not_eq_false _ ▸ counts) value.2
  all_goals
    simp only [← shortImage_iff, ← badLength_iff, ← badCheck_iff, ← badVersion_iff, ← badStation_iff, ← kindMismatch_iff,
      ← badValue_iff] at *
    unfold judgeImage
  · rw [if_pos h1]
  · rw [if_neg h1, if_pos h2]
  · rw [if_neg h1, if_neg h2, if_pos h3]
  · rw [if_neg h1, if_neg h2, if_neg h3, if_pos h4]
  · rw [if_neg h1, if_neg h2, if_neg h3, if_neg h4, if_pos h5]
  · rw [if_neg h1, if_neg h2, if_neg h3, if_neg h4, if_neg h5, if_pos h6]
  · rw [if_neg h1, if_neg h2, if_neg h3, if_neg h4, if_neg h5, if_neg h6, if_pos (by simpa using h7)]
  · rw [if_neg h1, if_neg h2, if_neg h3, if_neg h4, if_neg h5, if_neg h6, if_neg (by simpa using h7), if_pos h8]

end Sys2Proof.Machine
end

