-- ==== Sys2Proof/Proofs/FrameLayout.lean ====
section
/-!
SUPPORT. The bytes of a frame read back: the body of each kind, the length each kind permits, and the four tests of R21.
-/

namespace Sys2Proof

open Sys2Proof.Machine

theorem Stands.self (p : List Byte) : Stands p 0 p := by simpa using Stands.whole p []

/-! ### Bodies of one kind -/

theorem byteAt_byte1 {n : Nat} (h : n < 256) : byteAt (byte1 n) 0 = n := (Stands.self _).byteAt h

theorem flagOf_flagByte (b : Bool) : flagOf (byteAt (flagByte b) 0) = some b := by cases b <;> rfl

theorem ofNat_bits_self (t : SectionSet) : SectionSet.ofNat (SectionSet.bits t) = t := by
  simpa using ofNat_bits t 0

theorem ofCode_releaseCause (c : ReleaseCause) : ReleaseCause.ofCode c.code = some c ∧ c.code < 256 := by
  cases c <;> decide

/-- The body of a well-formed STATUS reads back. -/
theorem parseStatus_bytes (b : StatusBody) (w : b.wf = true) : parseStatus b.bytes = some b := by
  simp only [StatusBody.wf, okByte, okSigned, Bool.and_eq_true, decide_eq_true_eq] at w
  obtain ⟨⟨⟨founder, role⟩, power1, power2⟩, unit1, unit2⟩ := w
  have bits8 : b.byte8 < 256 := by
    obtain ⟨_, _, _, _, _, _, _, _, small⟩ := bits_byte8 b.quorumHeld b.lineLive b.busLive b.lockout b.blockAsserted
      b.intertripAsserted b.barred false
    simpa [StatusBody.byte8] using small
  have h := Stands.self b.bytes
  generalize hp : b.bytes = p at h
  rw [← hp] at h
  conv at h => arg 3; unfold StatusBody.bytes
  rw [hp] at h
  simp only [List.append_assoc, stands_append, length_byte1, length_byte2, length_byte4, length_signed2, Nat.zero_add,
    Nat.reduceAdd] at h
  obtain ⟨h0, h1, h3, h4, h8, h9, h10, h12, h14, h15⟩ := h
  have power : wordAt p 10 = (b.realPower % 65536).toNat := h10.wordAt (by omega)
  have unit : wordAt p 12 = (b.perUnit % 65536).toNat := h12.wordAt (by omega)
  have sections : SectionSet.bits b.busFault < 256 := by have := bits_lt b.busFault; omega
  unfold parseStatus
  rw [h0.byteAt (byte0_lt b), h1.wordAt b.epoch.serial.isLt, h3.byteAt (byte3_lt b), h4.longAt b.digest.isLt,
    h8.byteAt bits8, h9.byteAt (by omega), power, unit, h14.byteAt sections, h15.byteAt (byte15_lt b)]
  have whole := statusOf_bytes b founder power1 power2 b.digest false 0 (b.perUnit % 65536).toNat
  simp only [Bool.toNat_false, Nat.mul_zero, Nat.add_zero] at whole
  rw [BitVec.ofNat_toNat, BitVec.setWidth_eq, whole, signedOf_mod _ unit1 unit2]

/-- The part of a SUMMARY stands in its first byte. -/
theorem byteAt_summaryHead {part : Nat} {serial : Word16} {e : EpochId} {delivery : Word32} (rest : List Byte)
    (h : part < 256) : byteAt (summaryHead part serial e delivery ++ rest) 0 = part := by
  have stands := Stands.whole (summaryHead part serial e delivery) rest
  simp only [summaryHead, List.append_assoc, stands_append] at stands ⊢
  exact stands.1.byteAt h

/-- The bytes of a well-formed body read back as that body. -/
theorem parseBody_bytes (b : FrameBody) (w : b.wf = true) : parseBody b.kind.code b.bytes = some b := by
  cases b with
  | status b => simp [parseBody, FrameBody.kind, FrameKind.code, FrameBody.bytes, parseStatus_bytes b w]
  | claim secs =>
    have small : SectionSet.bits secs < 256 := by have := bits_lt secs; omega
    simp [parseBody, FrameBody.kind, FrameKind.code, FrameBody.bytes, byteAt_byte1 small, ofNat_bits_self]
  | release secs c =>
    have small : SectionSet.bits secs < 256 := by have := bits_lt secs; omega
    have h := Stands.self (byte1 (SectionSet.bits secs) ++ byte1 c.code)
    simp only [stands_append, length_byte1, Nat.zero_add] at h
    obtain ⟨h0, h1⟩ := h
    obtain ⟨code, lt⟩ := ofCode_releaseCause c
    simp [parseBody, FrameBody.kind, FrameKind.code, FrameBody.bytes, h0.byteAt small, h1.byteAt lt, code, ofNat_bits_self]
  | admitFeeder a => simp [parseBody, FrameBody.kind, FrameKind.code, FrameBody.bytes, flagOf_flagByte]
  | withdraw => rfl
  | order o t =>
    obtain ⟨code, lt⟩ := ofCode_order o
    cases t with
    | none =>
      simp [parseBody, FrameBody.kind, FrameKind.code, FrameBody.bytes, byteAt_byte1 (by omega : o.code < 256), code]
    | some n =>
      have small : n < 256 := by
        simp only [FrameBody.wf, okByte, decide_eq_true_eq] at w
        omega
      have h := Stands.self (byte1 o.code ++ byte1 n)
      simp only [stands_append, length_byte1, Nat.zero_add] at h
      obtain ⟨h0, h1⟩ := h
      simp [parseBody, FrameBody.kind, FrameKind.code, FrameBody.bytes, h0.byteAt (by omega : o.code < 256), code,
        h1.byteAt small]
  | block on => simp [parseBody, FrameBody.kind, FrameKind.code, FrameBody.bytes, flagOf_flagByte]
  | intertrip v => simp [parseBody, FrameBody.kind, FrameKind.code, FrameBody.bytes, flagOf_flagByte]
  | drop n =>
    have small : n < 256 := by
      simp only [FrameBody.wf, okByte, decide_eq_true_eq] at w
      omega
    simp [parseBody, FrameBody.kind, FrameKind.code, FrameBody.bytes, byteAt_byte1 small]
  | summaryOne p =>
    have part : byteAt p.bytes 0 = 1 := by
      unfold SummaryOne.bytes
      rw [List.append_assoc, List.append_assoc]
      exact byteAt_summaryHead _ (by omega)
    simp [parseBody, FrameBody.kind, FrameKind.code, FrameBody.bytes, part, parseSummaryOne_bytes p w]
  | summaryTwo p =>
    have part : byteAt p.bytes 0 = 2 := by
      unfold SummaryTwo.bytes
      rw [List.append_assoc]
      exact byteAt_summaryHead _ (by omega)
    simp [parseBody, FrameBody.kind, FrameKind.code, FrameBody.bytes, part, parseSummaryTwo_bytes p w]

/-! ### Lengths (13.4) -/

/-- A well-formed body has a length its kind permits. -/
theorem permittedLength_bytes (b : FrameBody) (w : b.wf = true) : permittedLength b.kind.code b.bytes.length = true := by
  cases b with
  | order o t => cases t <;> rfl
  | summaryOne p =>
    simp only [FrameBody.wf, SummaryOne.wf, Bool.and_eq_true] at w
    exact w.2
  | summaryTwo p =>
    simp only [FrameBody.wf, SummaryTwo.wf, Bool.and_eq_true] at w
    exact w.2
  | status | claim | release | admitFeeder | withdraw | block | intertrip | drop => rfl

theorem length_le_of_permitted {k n : Nat} (h : permittedLength k n = true) : n ≤ 503 := by
  unfold permittedLength at h
  split at h <;> simp [Machine.inRange] at h <;> omega

/-! ### The whole frame (R21) -/

section
variable (f : Frame)

theorem length_covered : f.covered.length = 5 + f.body.bytes.length := by
  simp [Frame.covered]; omega

theorem length_bytes : f.bytes.length = 9 + f.body.bytes.length := by
  simp [Frame.bytes, length_covered]; omega

/-- The check code covers what stands before it. -/
theorem take_bytes : f.bytes.take (f.bytes.length - 4) = f.covered := by
  have four : f.bytes.length - 4 = f.covered.length := by rw [length_bytes, length_covered]; omega
  rw [four, Frame.bytes, List.take_left]

theorem drop_covered : f.covered.drop 5 = f.body.bytes := by
  have header : (byte1 f.body.kind.code ++ byte1 f.header.source ++ [f.header.seq] ++ byte2 f.body.bytes.length).length = 5 := by
    simp
  rw [Frame.covered, ← header, List.drop_left]

/-- A kind's code is one byte (13.4). -/
theorem FrameKind.code_lt (k : FrameKind) : k.code < 256 := by cases k <;> decide

/-- The fields of the header stand in the bytes of the frame. -/
theorem header_read (hs : f.header.source < 256) (hl : f.body.bytes.length < 65536) :
    byteAt f.bytes 0 = f.body.kind.code ∧ byteAt f.bytes 1 = f.header.source ∧
      BitVec.ofNat 8 (byteAt f.bytes 2) = f.header.seq ∧ wordAt f.bytes 3 = f.body.bytes.length := by
  have code := f.body.kind.code_lt
  have h := Stands.whole f.covered (byte4 (crc32 f.covered).toNat)
  conv at h => arg 3; unfold Frame.covered
  simp only [List.append_assoc, stands_append, length_byte1, List.length_singleton, Nat.zero_add, Nat.reduceAdd] at h
  obtain ⟨h0, h1, h2, h3, _⟩ := h
  refine ⟨h0.byteAt code, h1.byteAt hs, ?_, h3.wordAt hl⟩
  have seq := h2.getD (i := 0) (by simp)
  simp only [Nat.add_zero, List.getD_cons_zero] at seq
  simp only [byteAt, Frame.bytes, seq, BitVec.ofNat_toNat, BitVec.setWidth_eq]

/-- The check code stands after the covered bytes. -/
theorem check_read : longAt f.bytes (f.bytes.length - 4) = (crc32 f.covered).toNat := by
  have four : f.bytes.length - 4 = f.covered.length := by rw [length_bytes, length_covered]; omega
  have h : Stands f.bytes f.covered.length (byte4 (crc32 f.covered).toNat) :=
    ⟨f.covered, [], by simp [Frame.bytes], rfl⟩
  rw [four, h.longAt (crc32 f.covered).isLt]

theorem frameAccepted_bytes (hs : f.header.source < 256) (hp : permittedLength f.body.kind.code f.body.bytes.length = true) :
    frameAccepted f.bytes = true := by
  have short := length_le_of_permitted hp
  obtain ⟨kind, _, _, length⟩ := header_read f hs (by omega)
  have range : Machine.inRange 1 10 f.body.kind.code = true := by cases f.body <;> rfl
  unfold frameAccepted
  dsimp only
  rw [take_bytes, check_read, kind, length, length_bytes, Nat.add_sub_cancel_left, hp, range]
  have fits : 9 + f.body.bytes.length ≤ Config.frameMax := by simp only [Config.frameMax]; omega
  simp [fits]

end

/-- Settles O60: R21 accepts the frame, and its header and body read back. -/
theorem frameBytesReadBack : Obligations.FrameBytesReadBack := by
  intro f wh wb
  have source : f.header.source < 256 := by
    simp only [Header.wf, okByte, decide_eq_true_eq] at wh
    omega
  have permitted := permittedLength_bytes f.body wb
  have short := length_le_of_permitted permitted
  obtain ⟨kind, from_, seq, _⟩ := header_read f source (by omega)
  unfold parseFrame
  rw [if_pos (frameAccepted_bytes f source permitted), take_bytes, drop_covered, kind, parseBody_bytes f.body wb, from_, seq]
  rfl

end Sys2Proof
end

