-- ==== Sys2Proof/Proofs/Port.lean ====
section
/-!
SUPPORT. The Maintenance Port by the configured state (R176 to R178), the gap by class (R22, R23), and discards (R21, R54).
-/

namespace Sys2Proof.Machine

/-! ### READ (R115, R176 to R178) -/

section
variable {s : State} {sel : Nat}

/-- While LOADING only the attention summary and the settings record are answered. -/
theorem read_of_loading (hl : s.settings.state = .loading) (h1 : sel ≠ 1) (h2 : sel ≠ 2) :
    s.read sel = s.answer .busy [] := by
  simp [State.read, hl, h1, h2]

theorem read_of_unknown (h : s.settings.state ≠ .loading ∨ sel = 1 ∨ sel = 2) (hr : s.recordOf sel = none) :
    s.read sel = s.answer .badSelector [] := by
  have answered : ¬ (s.settings.state == .loading && !(sel == 1 || sel == 2)) = true := by
    rcases h with h | h | h <;> simp [h]
  unfold State.read
  rw [if_neg answered, hr]

theorem read_of_record {bs : List Byte} (h : s.settings.state ≠ .loading ∨ sel = 1 ∨ sel = 2)
    (hr : s.recordOf sel = some bs) : s.read sel = (if sel == 1 then s.lowerAttention else s).answer .ok bs := by
  have answered : ¬ (s.settings.state == .loading && !(sel == 1 || sel == 2)) = true := by
    rcases h with h | h | h <;> simp [h]
  unfold State.read
  rw [if_neg answered, hr]

/-- Only the attention summary lowers attention, and not at an UNCONFIGURED station (R115, R177). -/
theorem lowerAttention_eq (s : State) (sel : Nat) : (if sel == 1 then s.lowerAttention else s) =
    { s with port := { s.port with
      attention := if sel = 1 ∧ s.settings.state ≠ .unconfigured then false else s.port.attention } } := by
  by_cases h1 : sel = 1 <;> by_cases hu : s.settings.state = .unconfigured <;>
    simp [State.lowerAttention, State.onPort, h1, hu]

/-- The records are those of 13.4, one for each selector from 1 to 18. -/
theorem recordOf_isSome_iff (s : State) (sel : Nat) : (s.recordOf sel).isSome = true ↔ 1 ≤ sel ∧ sel ≤ 18 := by
  unfold State.recordOf
  split
  case h_19 =>
    refine iff_of_false (by simp) fun ⟨low, high⟩ => ?_
    interval_cases sel <;> contradiction
  all_goals simp

end

/-- Settles O9: what a READ answers by the record its selector finds. -/
theorem readAnswersTheRecord : Obligations.ReadAnswersTheRecord := by
  refine fun sel s => ⟨fun answered => ⟨fun bs record => ?found, fun none => ?unknown⟩, fun hl h1 h2 => ?loading,
    recordOf_isSome_iff s sel⟩
  case found =>
    show Host.Outcome.next (s.read sel) = _
    rw [read_of_record answered record, lowerAttention_eq]
    rfl
  case unknown =>
    show Host.Outcome.next (s.read sel) = _
    rw [read_of_unknown answered none]
    rfl
  case loading => exact congrArg _ (read_of_loading hl h1 h2)

/-! ### Commands turned away (R176 to R178) -/

/-- Every operation is one command, told apart by its operation alone. -/
theorem exec_command (o : Operation) (s : State) : exec o.command s = operate o s := by
  cases o <;> rfl

section
variable (o : Operation) {s : State}

theorem operate_of_loading (h : s.settings.state = .loading) : operate o s = .next (s.answer .busy []) := by
  simp [operate, h]

theorem operate_of_unconfigured (h : s.settings.state = .unconfigured) : operate o s = .next (s.answer .refused []) := by
  simp [operate, h]

theorem operate_of_inProgress (h : s.settings.state = .configured) (hp : s.port.state = .inProgress) :
    operate o s = .next (s.answer .busy []) := by
  simp [operate, h, hp]

/-- An OPERATE that finds no operation in progress is an event. -/
theorem operate_of_free (h : s.settings.state = .configured) (hp : s.port.state ≠ .inProgress) :
    operate o s = .next (State.finish s (s.takeOperation o)) := by
  simp [operate, h, hp, event_of_configured (State.takeOperation o) h]

end

/-- Settles O10: each command by the configured state, and an operation by the operate record. -/
theorem portTurnsCommandsAway : Obligations.PortTurnsCommandsAway := by
  intro o kinds s
  simp only [exec_command]
  refine ⟨fun h => ⟨operate_of_loading o h, ?_, ?_⟩, fun h => ⟨operate_of_unconfigured o h, ?_⟩, operate_of_inProgress o⟩
  · simp [exec, execClearFaults, h]
  · simp [exec, execClearStaleIntertrip, h]
  · simp [exec, execClearStaleIntertrip, h]

/-! ### CLEAR_STALE_INTERTRIP (R102) -/

/-- The stale entries go, and the change of the accepted ones is handed on (R100, R102). -/
theorem clearStale_intertrips (s : State) : s.clearStale.zone.intertrips = s.zone.intertrips.filter fun e => !e.stale := by
  unfold State.clearStale State.keepIntertrips State.tellAccepted
  split <;> rfl

/-- Settles O16: the clear, its answer, and what follows the event. -/
theorem clearStaleIntertripKeepsTheFresh : Obligations.ClearStaleIntertripKeepsTheFresh := by
  intro s hc
  have run : exec .clearStaleIntertrip s = .next (State.finish s (s.clearStale.answer .ok [])) := by
    show execClearStaleIntertrip s = _
    simp only [execClearStaleIntertrip, hc, event_of_configured (fun s : State => s.clearStale.answer .ok []) hc]
  have after : Within {} (s.clearStale.answer .ok []) (State.finish s (s.clearStale.answer .ok [])) :=
    (Within.refl _ _).finish s
  have own : s.clearStale.answer .ok [] = (s.answer .ok []).clearStale := by
    unfold State.clearStale State.keepIntertrips State.tellAccepted
    split
    case isTrue same => exact (if_pos same).symm
    case isFalse other => exact (if_neg other).symm
  have cleared : Within { lists := true } (s.answer .ok []) (s.clearStale.answer .ok []) :=
    own ▸ (Within.refl _ _).clearStale rfl
  exact ⟨_, run, after.response, (after.intertrips rfl).trans (clearStale_intertrips s), (cleared.finish s).frame⟩

/-! ### The gap (R22, R23, R25) -/

/-- Settles O32: the idle medium is one bit, and the gap is that of the highest class with a frame waiting. -/
theorem gapByClassAndStation : Obligations.GapByClassAndStation := by
  refine ⟨fun s => ⟨rfl, rfl⟩, fun s hc hi => ⟨fun silent => by simp [State.gap, silent], fun sounding =>
    ⟨fun urgent => ?urgent, fun urgent ordered => ?ordered, fun urgent ordered status => ?status,
      fun urgent ordered status => ?nothing⟩⟩⟩
  all_goals
    have contends : s.gap = s.waitingClass.map (gapBits · s.own) := by
      simp [State.gap, State.configured, hc, hi, sounding]
    rw [contends]
  case urgent =>
    simp [State.waitingClass, urgent, gapBits, Config.slotBits, Config.urgentBase, Nat.mul_comm, Nat.add_comm]
  case ordered =>
    simp [State.waitingClass, urgent, ordered, gapBits, Config.slotBits, Config.orderedBase, Nat.mul_comm, Nat.add_comm]
  case status =>
    simp [State.waitingClass, urgent, ordered, status, gapBits, Config.slotBits, Config.statusBase, Nat.mul_comm,
      Nat.add_comm]
  case nothing => simp [State.waitingClass, urgent, ordered, status]

/-! ### The head transmitted (R23, R24, R28, R30, R44) -/

section
variable {s : State}

theorem transmitHead_of_urgent {f : UrgentFrame} {fs : List UrgentFrame} (h : s.link.urgent = f :: fs) :
    s.transmitHead = (s.transmit f.body).onLink fun l => { l with urgent := fs } := by
  simp [State.transmitHead, h]

theorem transmitHead_of_partOne {serial : Word16} {fs : List OrderedFrame} (hu : s.link.urgent = [])
    (h : s.link.ordered = .summaryOne serial :: fs) :
    s.transmitHead = ((s.transmit (s.orderedBody (.summaryOne serial))).onLink fun l => { l with ordered := fs }).onStep
      fun t => { t with guard := Config.summaryGuard } := by
  simp [State.transmitHead, hu, h]

theorem transmitHead_of_ordered {f : OrderedFrame} {fs : List OrderedFrame} (hu : s.link.urgent = [])
    (h : s.link.ordered = f :: fs) (hf : ¬ ∃ serial, f = .summaryOne serial) :
    s.transmitHead = (s.transmit (s.orderedBody f)).onLink fun l => { l with ordered := fs } := by
  cases f with
  | summaryOne serial => exact absurd ⟨serial, rfl⟩ hf
  | _ => simp [State.transmitHead, hu, h]

theorem transmitHead_of_status {c : StatusCause} (hu : s.link.urgent = []) (ho : s.link.ordered = [])
    (h : s.link.statusRequest = some c) :
    s.transmitHead = (s.transmit (.status (s.composeStatus c))).onLink fun l =>
      { l with statusRequest := none, lastComposed := some (s.composeStatus c) } := by
  simp [State.transmitHead, hu, ho, h]

end

/-- Settles O33: the head by its class; the hand-ons leave what the Link Controller has done. -/
theorem gapExpiryTransmitsTheHead : Obligations.GapExpiryTransmitsTheHead := by
  intro s hc hg
  have run : exec .gapExpiry s = .next (State.finish s s.transmitHead) := by
    refine (event_of_configured (fun s : State => if s.gap.isSome then s.transmitHead else s) hc).trans ?_
    simp only [hg, if_true]
  refine ⟨_, s.transmitHead, run, rfl, ((Within.refl {} _).finish s).frame, fun f fs h => ?_, fun hu f fs h =>
    ⟨?_, fun other => ?_⟩, fun hu ho c h => ?_⟩
  · rw [transmitHead_of_urgent h]; rfl
  · rintro ⟨serial, rfl⟩
    rw [transmitHead_of_partOne hu h]; rfl
  · rw [transmitHead_of_ordered hu h other]; rfl
  · rw [transmitHead_of_status hu ho h]; rfl

end Sys2Proof.Machine
end

