-- ==== Sys2Proof/Proofs/SourceNoted.lean ====
section
/-!
SUPPORT. Reading an entry of the Station Table after a change of one, what noting a frame's source makes of the table, the
delivery number and the step state (R3, R6, R16, R32, R38), and what leaves a station in DESYNC there (R39, R49).
-/

namespace Sys2Proof.Machine

/-! ### Reading an entry after one was changed -/

section
variable {s t : State} {n : Nat}

/-- A configured number has a place in the table. -/
theorem isConfigured_place (h : s.isConfigured n = true) : ∃ k, n = k + 1 ∧ k < s.pic.table.length := by
  cases n with
  | zero => simp [State.isConfigured, State.entry, StationEntry.absent] at h
  | succ k =>
    refine ⟨k, rfl, ?_⟩
    by_contra hk
    simp [State.isConfigured, State.entry, List.getD_eq_getElem?_getD, List.getElem?_eq_none (Nat.not_lt.mp hk),
      StationEntry.absent] at h

theorem onEntry_entry_self (h : s.isConfigured n = true) (f : StationEntry → StationEntry) :
    (s.onEntry n f).entry n = f (s.entry n) := by
  obtain ⟨k, rfl, hk⟩ := isConfigured_place h
  exact (updateAt_getD f .absent k k s.pic.table).trans (if_pos ⟨rfl, hk⟩)

theorem onEntry_entry_of_ne {m : Nat} (h : m ≠ n) (f : StationEntry → StationEntry) :
    (s.onEntry n f).entry m = s.entry m := by
  cases n with
  | zero => rfl
  | succ k =>
    cases m with
    | zero => rfl
    | succ j => exact (updateAt_getD f .absent k j s.pic.table).trans (if_neg fun both => h (congrArg Nat.succ both.1))

theorem entry_of_table (h : t.pic.table = s.pic.table) (n : Nat) : t.entry n = s.entry n := by
  cases n with
  | zero => rfl
  | succ k => simp only [State.entry, h]

/-- Work outside the table leaves every entry, lapse states apart. -/
theorem Within.entry_unlapsed {sc : Scope} (h : Within sc s t) (ht : sc.table = false) (n : Nat) :
    (t.entry n).unlapsed = (s.entry n).unlapsed := by
  cases n with
  | zero => rfl
  | succ k =>
    have read (v : State) : (v.entry (k + 1)).unlapsed = (v.pic.table.map (·.unlapsed)).getD k .absent :=
      (List.getD_map v.pic.table StationEntry.absent StationEntry.unlapsed).symm
    rw [read, read, h.table ht]

theorem Within.entry {sc : Scope} (h : Within sc s t) (ht : sc.table = false) (hl : sc.lapse = false) (n : Nat) :
    t.entry n = s.entry n :=
  entry_of_table (h.lapse ht hl) n

end

/-! ### The source noted (R3, R6, R32, R38) -/

/-- An entry of whose station a frame has been delivered. -/
structure StationEntry.Heard (seq : Byte) (e : StationEntry) : Prop where
  lastSeq : e.lastSeq = some seq
  heard : e.heard = true
  silence : e.silence = 0
  known : e.presence ≠ .unknown

theorem StationEntry.heard_hear (seq : Byte) (e : StationEntry) : (e.hear seq).Heard seq := by
  refine ⟨rfl, rfl, rfl, ?_⟩
  cases hp : e.presence <;> simp [StationEntry.hear, hp]

theorem StationEntry.Heard.of_unlapsed {seq : Byte} {d e : StationEntry} (h : e.Heard seq) (hu : d.unlapsed = e.unlapsed) :
    d.Heard seq :=
  ⟨(congrArg StationEntry.lastSeq hu :).trans h.lastSeq, (congrArg StationEntry.heard hu :).trans h.heard,
    (congrArg StationEntry.silence hu :).trans h.silence, fun p => h.known ((congrArg StationEntry.presence hu :).symm.trans p)⟩

section
variable (s : State) (k : FrameKind) (len : Nat) (h : Header)

/-- Of the table the noting changes its source's entry alone; a gap costs the step and is raised. -/
theorem noteSource_within :
    Within { step := true } (s.onEntry h.source (StationEntry.hear h.seq)) (s.noteSource k len h) := by
  unfold State.noteSource
  dsimp only
  split
  · exact ((Within.refl _ _).raise _ _ (by simp)).enterDesync rfl
  · exact Within.refl _ _

theorem noteSource_entry {s : State} {h : Header} (hk : s.isConfigured h.source = true) :
    (s.noteSource k len h).entry h.source = (s.entry h.source).hear h.seq :=
  ((noteSource_within s k len h).entry rfl rfl _).trans (onEntry_entry_self hk _)

theorem noteSource_entry_of_ne {n : Nat} (hn : n ≠ h.source) : (s.noteSource k len h).entry n = s.entry n :=
  ((noteSource_within s k len h).entry rfl rfl _).trans (onEntry_entry_of_ne hn _)

theorem noteSource_isConfigured (n : Nat) : (s.noteSource k len h).isConfigured n = s.isConfigured n :=
  ((Within.refl { table := true, step := true } s).noteSource rfl rfl k len h).isConfigured n

end

/-- The state in which a frame's picture is judged: counted, and its source noted (R1 steps 1 to 3). -/
def State.sourceNoted (k : FrameKind) (len : Nat) (h : Header) (s : State) : State := s.countDelivery.noteSource k len h

section
variable {s : State} {k : FrameKind} {len : Nat} {h : Header}

theorem sourceNoted_entry (hk : s.isConfigured h.source = true) :
    (s.sourceNoted k len h).entry h.source = (s.entry h.source).hear h.seq :=
  noteSource_entry (s := s.countDelivery) k len hk

theorem sourceNoted_entry_of_ne {n : Nat} (hn : n ≠ h.source) : (s.sourceNoted k len h).entry n = s.entry n :=
  noteSource_entry_of_ne s.countDelivery k len h hn

theorem sourceNoted_isConfigured (n : Nat) : (s.sourceNoted k len h).isConfigured n = s.isConfigured n :=
  noteSource_isConfigured s.countDelivery k len h n

theorem within_sourceNoted (s : State) (k : FrameKind) (len : Nat) (h : Header) :
    Within { delivery := true, table := true, step := true } s (s.sourceNoted k len h) :=
  ((Within.refl _ s).countDelivery rfl).noteSource rfl rfl k len h

theorem sourceNoted_delivery : (s.sourceNoted k len h).pic.delivery = s.pic.delivery + 1 :=
  ((Within.refl { table := true, step := true } s.countDelivery).noteSource rfl rfl k len h).delivery rfl

/-- A gap is raised (R38). -/
theorem sourceNoted_pending (hg : (s.entry h.source).gapAt h.seq = true) :
    (s.sourceNoted k len h).fault.pending.get .linkGap = true := by
  have gap : (s.countDelivery.entry h.source).gapAt h.seq = true := hg
  unfold State.sourceNoted State.noteSource
  rw [if_pos gap]
  exact ((Within.refl { step := true } _).enterDesync rfl).stays _ (raise_pending _ _ _)

end

/-! ### Step lost and not regained (R39, R49) -/

theorem loseStep_state (s : State) : s.loseStep.step.state = .desync := by
  have removed := (Within.refl {} (s.onStep fun t => { t with state := .desync, founding := 0 })).purgeOrdered
  exact (congrArg StepRecord.state (removed.step rfl) :)

theorem enterDesync_of_inStep {s : State} (h : s.step.state = .inStep) : s.enterDesync.step.state = .desync := by
  have inStep : s.inStep = true := by simp [State.inStep, h]
  have suspended := (Within.refl {} s.loseStep).suspendClaim
  rw [State.enterDesync, if_pos inStep, suspended.step rfl, loseStep_state]

/-- An IN_STEP station loses its step at a gap (R39). -/
theorem sourceNoted_desync {s : State} {k : FrameKind} {len : Nat} {h : Header} (hs : s.step.state = .inStep)
    (hg : (s.entry h.source).gapAt h.seq = true) : (s.sourceNoted k len h).step.state = .desync := by
  have gap : (s.countDelivery.entry h.source).gapAt h.seq = true := hg
  have heard : (s.countDelivery.onEntry h.source (StationEntry.hear h.seq)).step = s.step := by
    unfold State.onEntry; split <;> rfl
  have raised := (Within.refl {} (s.countDelivery.onEntry h.source (StationEntry.hear h.seq))).raise .linkGap
    (.frame k h len) (by simp)
  unfold State.sourceNoted State.noteSource
  rw [if_pos gap]
  refine enterDesync_of_inStep ?_
  rw [raised.step rfl, heard, hs]

/-- What leaves a station in DESYNC there. -/
def KeepsDesync (f : State → State) : Prop := ∀ s : State, s.step.state = .desync → (f s).step.state = .desync

namespace KeepsDesync

theorem ofWithin {f : State → State} {sc : Scope} (h : ∀ s, Within sc s (f s)) (hs : sc.step = false := by rfl) :
    KeepsDesync f :=
  fun s d => by rw [(h s).step hs, d]

theorem comp {f g : State → State} (hf : KeepsDesync f) (hg : KeepsDesync g) : KeepsDesync fun s => g (f s) :=
  fun s d => hg _ (hf s d)

theorem enterDesync : KeepsDesync State.enterDesync := fun s d => by
  simp [State.enterDesync, State.inStep, d]

theorem voidAdoption : KeepsDesync State.voidAdoption := fun s d => by
  simp [State.voidAdoption, d]

theorem voidBy (n : Nat) : KeepsDesync (State.voidBy n) := fun s d => by
  unfold State.voidBy
  split
  · split
    · exact voidAdoption s d
    · exact d
  · exact d

theorem meetEpoch (e : EpochId) : KeepsDesync (State.meetEpoch e) := fun s d => by
  unfold State.meetEpoch
  split <;> exact d

theorem crossCheck (n : Nat) (b : StatusBody) : KeepsDesync (State.crossCheck n b) := fun s d => by
  simp [State.crossCheck, State.inStep, d]

theorem newerEpoch (b : StatusBody) : KeepsDesync (State.newerEpoch b) := fun s d => by
  unfold State.newerEpoch
  split
  · simp [State.inStep, d]
  · exact d

theorem hearInStep (b : StatusBody) : KeepsDesync (State.hearInStep b) := fun s d => by
  unfold State.hearInStep
  split <;> exact d

theorem judgeSummary : KeepsDesync State.judgeSummary := fun s d => by
  simp [State.judgeSummary, State.summarySource, State.inStep, d]

end KeepsDesync

end Sys2Proof.Machine
end

