-- ==== Sys2Proof/Proofs/BreakerCases.lean ====
section
/-!
SUPPORT. A trip and a position event by the state of the breaker, and the limits that end in FAILED (R60 to R73, R97, R98).
-/

namespace Sys2Proof.Machine

/-! ### Trips (R66) -/

section
variable {s : State}

theorem trip_of_closed (h : s.brk.state = .closed) (src : TripSource) : s.trip src = s.beginOpening src := by
  simp [State.trip, h]

theorem trip_of_closing (h : s.brk.state = .closing) (src : TripSource) : s.trip src =
    ((s.onBrk fun b => { b with closeOut := false, closeTimer := none, mark := false }).beginOpening src).tell
      (.closeAborted src) := by
  simp [State.trip, h]

theorem trip_of_opening (h : s.brk.state = .opening) (src : TripSource) :
    s.trip src = s.onBrk fun b => { b with sources := addSource src b.sources } := by
  simp [State.trip, h]

theorem trip_of_failed (h : s.brk.state = .failed) (src : TripSource) : s.trip src = s.onBrk fun b => { b with
    tripOut := true, openTimer := some s.station.openLimit, sources := addSource src b.sources } := by
  simp [State.trip, h]

theorem mem_addSource (src : TripSource) (xs : List TripSource) : src ∈ addSource src xs := by
  unfold addSource
  split
  next h => simpa using h
  next => simp

end

/-- Settles O24. -/
theorem tripByState : Obligations.TripByState := fun src s =>
  ⟨fun h => trip_of_opened h src, fun h => by rw [trip_of_closing h]; exact ⟨rfl, rfl⟩, fun h => trip_of_closed h src,
    fun h => trip_of_opening h src, fun h => trip_of_failed h src⟩

/-! ### The station's own intertrip (R97, R98) -/

theorem tracking_eq (f : State → State) (s : State) :
    ∃ r, State.tracking f s = (f s).onLink fun l => { l with statusRequest := r } := changeStatus_eq s (f s)

/-- Of the Zone Unit's record the judgment brings one bit into line, and places its frame (R97). -/
theorem judgeIntertrip_eq (s : State) : ∃ link, s.judgeIntertrip =
    { s with link := link, zone := { s.zone with intertripAsserted := s.intertripDemanded } } := by
  unfold State.judgeIntertrip
  split
  next same => exact ⟨s.link, by rw [eq_of_beq same]⟩
  next =>
    obtain ⟨r, h⟩ := tracking_eq (fun s => (s.placeUrgent (.intertrip s.intertripDemanded)).onZone fun z =>
      { z with intertripAsserted := s.intertripDemanded }) s
    exact ⟨_, h⟩

theorem breakerFailureBegins_eq (s : State) : ∃ link, s.breakerFailureBegins =
    { s with link := link, zone := { s.zone with breakerFailure := true, intertripAsserted := true } } :=
  judgeIntertrip_eq (s.onZone fun z => { z with breakerFailure := true })

theorem breakerFailureEnds_eq (s : State) : ∃ link asserted, s.breakerFailureEnds =
    { s with link := link, zone := { s.zone with breakerFailure := false, intertripAsserted := asserted } } := by
  obtain ⟨link, h⟩ := judgeIntertrip_eq (s.onZone fun z => { z with breakerFailure := false })
  exact ⟨link, _, h⟩

/-! ### Position events (R60, R61) -/

/-- The state with the contact pair at a value. -/
def State.contacts (a b : Bool) (s : State) : State := { s with pins := { s.pins with auxA := a, auxB := b } }

/-- The state with the READY input at a value. -/
def State.readyAt (on : Bool) (s : State) : State := { s with pins := { s.pins with ready := on } }

section
variable {a b : Bool} {s : State}

theorem exec_positionEvent_of_same (ha : s.pins.auxA = a) (hb : s.pins.auxB = b) : exec (.positionEvent a b) s = .next s :=
  if_pos (by simp [ha, hb])

theorem exec_positionEvent_of_change (h : ¬ (s.pins.auxA = a ∧ s.pins.auxB = b)) :
    exec (.positionEvent a b) s = event State.takePosition (s.contacts a b) :=
  if_neg (by simpa using h)

theorem exec_positionEvent (hc : s.settings.state = .configured) (h : ¬ (s.pins.auxA = a ∧ s.pins.auxB = b)) :
    exec (.positionEvent a b) s = .next (State.finish (s.contacts a b) (s.contacts a b).takePosition) :=
  (exec_positionEvent_of_change h).trans (event_of_configured (s := s.contacts a b) _ hc)

theorem event_of_not_configured (f : State → State) (h : s.settings.state ≠ .configured) : event f s = .next s := by
  simp [event, State.configured, h]

theorem exec_readyInputChange_of_change {on : Bool} (h : s.pins.ready ≠ on) :
    exec (.readyInputChange on) s = event State.generatorReadyChange (s.readyAt on) :=
  if_neg (by simpa using h)

theorem position_contacts_closed (s : State) : (s.contacts true false).position = .closed := rfl
theorem position_contacts_opened (s : State) : (s.contacts false true).position = .opened := rfl

theorem position_contacts_same : (s.contacts a a).position = .travelling ∨ (s.contacts a a).position = .invalid := by
  cases a
  · exact .inl rfl
  · exact .inr rfl

theorem position_opened_iff : s.position = .opened ↔ s.pins.auxA = false ∧ s.pins.auxB = true := by
  unfold State.position
  cases s.pins.auxA <;> cases s.pins.auxB <;> decide

end

/-- Settles O20. -/
theorem inputsAreFollowed : Obligations.InputsAreFollowed := by
  intro a b on s
  refine ⟨exec_positionEvent_of_same, fun h => if_pos (by simp [h]), fun h => ⟨?_, ?_⟩, fun hc h => ?_, fun hc h => ?_⟩
  · by_cases same : s.pins.auxA = a ∧ s.pins.auxB = b
    · obtain ⟨rfl, rfl⟩ := same
      exact exec_positionEvent_of_same rfl rfl
    · exact (exec_positionEvent_of_change same).trans (event_of_not_configured (s := s.contacts a b) _ h)
  · by_cases same : s.pins.ready = on
    · subst same
      exact if_pos (by simp)
    · rw [exec_readyInputChange_of_change same]
      exact event_of_not_configured (s := s.readyAt on) _ h
  · exact ⟨_, exec_positionEvent hc h, (((Within.refl _ _).takePosition rfl).finish _).frame⟩
  · refine ⟨_, (exec_readyInputChange_of_change h).trans (event_of_configured (s := s.readyAt on) _ hc), ?_⟩
    exact (((Within.refl _ _).generatorReadyChange).finish _).frame

/-! ### Positions by the breaker state (R64, R67, R68, R70, R71) -/

section
variable {s : State}

theorem takePosition_of_closing_closed (h : s.brk.state = .closing) (hp : s.position = .closed) :
    s.takePosition = s.reachClosed := by
  simp [State.takePosition, h, hp]

theorem takePosition_of_closing_opened (h : s.brk.state = .closing) (hp : s.position = .opened) : s.takePosition = s := by
  simp [State.takePosition, h, hp]

theorem takePosition_of_closing_neither (h : s.brk.state = .closing) (hp : s.position = .travelling ∨ s.position = .invalid) :
    s.takePosition = s.onBrk fun b => { b with closeOut := false } := by
  obtain hp | hp := hp <;> simp [State.takePosition, h, hp]

theorem takePosition_of_opening_opened (h : s.brk.state = .opening) (hp : s.position = .opened) :
    s.takePosition = s.reachOpen := by
  simp [State.takePosition, h, hp]

theorem takePosition_of_failed (h : s.brk.state = .failed) : s.takePosition = s.leaveFailed := by
  simp [State.takePosition, h]

/-- A position other than open ends neither an opening nor a failure. -/
theorem takePosition_of_not_opened (h : s.brk.state = .opening ∨ s.brk.state = .failed) (hp : s.position ≠ .opened) :
    s.takePosition = s := by
  obtain h | h := h
  · simp [State.takePosition, h, hp]
  · simp [State.takePosition, h, State.leaveFailed, hp]

theorem takePosition_of_watch (h : s.brk.state = .opened) (hw : s.brk.watch = true) : s.takePosition = s := by
  simp [State.takePosition, h, hw]

theorem takePosition_of_outside (h : s.brk.state = .closed ∨ (s.brk.state = .opened ∧ s.brk.watch = false)) :
    s.takePosition = s.outsidePosition := by
  obtain h | ⟨h, hw⟩ := h
  · simp [State.takePosition, h]
  · simp [State.takePosition, h, hw]

theorem leaveFailed_of_currents (hp : s.currentsBelow = false) : s.leaveFailed = s := by
  simp [State.leaveFailed, hp]

/-- FAILED left for OPEN: the breaker record and the hand-on (R70). -/
theorem leaveFailed_of_opened (hp : s.position = .opened) (hc : s.currentsBelow = true) :
    s.leaveFailed.brk = { s.brk with state := .opened, tripOut := false, openTimer := none, origin := .none } ∧
    s.leaveFailed.news = s.news ++ [.opened s.brk.sources] ∧
    (s.brk.origin = .noOpen → s.leaveFailed.zone.breakerFailure = false) := by
  unfold State.leaveFailed
  rw [if_pos (by simp [hp, hc])]
  obtain ⟨link, asserted, ends⟩ := breakerFailureEnds_eq
    (s.onBrk fun b => { b with state := .opened, tripOut := false, openTimer := none, origin := .none })
  by_cases ho : s.brk.origin = .noOpen
  · simp [ho, ends]
  · simp [ho]

/-- A position that is neither starts the disagreement timer once (R71). -/
theorem outsidePosition_of_neither (hp : s.position = .travelling ∨ s.position = .invalid) : s.outsidePosition =
    s.onBrk fun b => { b with disagreementTimer :=
      if b.disagreementTimer.isSome then b.disagreementTimer else some s.station.disagreementLimit } := by
  have waits : s.outsidePosition = if s.brk.disagreementTimer.isSome then s else
      s.onBrk fun b => { b with disagreementTimer := some s.station.disagreementLimit } := by
    unfold State.outsidePosition
    obtain hp | hp := hp <;> rw [hp] <;> cases s.brk.state <;> rfl
  rw [waits, State.onBrk, State.onBrk]
  split <;> rfl

end

/-- Settles O21. -/
theorem positionsDuringAClose : Obligations.PositionsDuringAClose := by
  intro a s hc hs
  refine ⟨fun h => ?_, fun h => ?_, fun h => ?_⟩
  · have closed := takePosition_of_closing_closed (s := s.contacts true false) hs rfl
    exact ⟨_, _, (s.contacts true false |>.onBrk fun b => { b with
      state := .closed, closeOut := false, closeTimer := none, mark := false }).tell (.closed s.brk.mark),
      exec_positionEvent hc h, rfl, rfl, rfl, closed⟩
  · exact ⟨_, _, exec_positionEvent hc h, rfl,
      takePosition_of_closing_neither (s := s.contacts a a) hs position_contacts_same⟩
  · have stays := takePosition_of_closing_opened (s := s.contacts false true) hs rfl
    refine ⟨_, s.contacts false true, exec_positionEvent hc h, ?_, rfl⟩
    rw [stays]

/-- Settles O22. -/
theorem openPositionEndsTheOpening : Obligations.OpenPositionEndsTheOpening := by
  refine ⟨fun s hc h => ?_, fun a b s hc h hp hs => ?_⟩
  · refine ⟨_, _, exec_positionEvent hc h, rfl, fun hs => ?_, fun hs below => ?_, fun hs above => ?_⟩
    · rw [takePosition_of_opening_opened (s := s.contacts false true) hs rfl]
      refine ⟨rfl, ?_⟩
      have same : (s.contacts false true).currentsBelow = s.currentsBelow := rfl
      unfold State.reachOpen
      rw [same]
      split <;> rfl
    · obtain ⟨brk, news, failure⟩ := leaveFailed_of_opened (s := s.contacts false true) rfl below
      rw [takePosition_of_failed (s := s.contacts false true) hs]
      exact ⟨news, brk, fun ho => (((Within.refl {} _).finish _).failure rfl).trans (failure ho)⟩
    · rw [takePosition_of_failed (s := s.contacts false true) hs,
        leaveFailed_of_currents (s := s.contacts false true) above]
      rfl
  · have stays := takePosition_of_not_opened (s := s.contacts a b) hs fun p => hp (position_opened_iff.mp p)
    refine ⟨_, s.contacts a b, exec_positionEvent hc h, ?_, rfl⟩
    rw [stays]

/-- Settles O23. -/
theorem positionsOutsideAnOperation : Obligations.PositionsOutsideAnOperation := by
  intro a b s hc h
  refine ⟨_, _, exec_positionEvent hc h, rfl, ?_, ?_, ?_, ?_, ?_, ?_⟩
  · rintro hs rfl rfl
    rw [takePosition_of_outside (s := s.contacts false true) (.inl hs)]
    simp only [State.outsidePosition, position_contacts_opened, show (s.contacts false true).brk.state = .closed from hs]
    exact ⟨rfl, rfl⟩
  · rintro hs hw rfl rfl
    rw [takePosition_of_outside (s := s.contacts true false) (.inr ⟨hs, hw⟩)]
    simp only [State.outsidePosition, position_contacts_closed, show (s.contacts true false).brk.state = .opened from hs]
    exact ⟨rfl, rfl⟩
  · rintro hs rfl
    rw [takePosition_of_outside (s := s.contacts a a) hs, outsidePosition_of_neither position_contacts_same]
    rfl
  · rintro hs rfl rfl
    rw [takePosition_of_outside (s := s.contacts true false) (.inl hs)]
    simp only [State.outsidePosition, position_contacts_closed, show (s.contacts true false).brk.state = .closed from hs]
    rfl
  · rintro hs hw rfl rfl
    rw [takePosition_of_outside (s := s.contacts false true) (.inr ⟨hs, hw⟩)]
    simp only [State.outsidePosition, position_contacts_opened, show (s.contacts false true).brk.state = .opened from hs]
    rfl
  · intro hs hw
    rw [takePosition_of_watch (s := s.contacts a b) hs hw]
    rfl

/-! ### The open limit (R66, R69, R98) -/

/-- The breaker record as the open limit leaves it under an opening. -/
theorem openLimitExpired_of_opening {s : State} (h : s.brk.state = .opening ∨ (s.brk.state = .opened ∧ s.brk.watch = true)) :
    s.openLimitExpired.brk = { s.brk with
      state := .failed, origin := .noOpen, watch := false, tripOut := false, openTimer := none } ∧
    s.openLimitExpired.fault.pending.get .breakerNoOpen = true ∧ s.openLimitExpired.fault.lockout = true ∧
    s.openLimitExpired.zone.breakerFailure = true ∧ s.openLimitExpired.zone.intertripAsserted = true := by
  have lockout (t : State) : t.severityOf .breakerNoOpen = .lockout := severity_of_table t _ rfl
  unfold State.openLimitExpired
  rw [if_pos (by simpa using h)]
  generalize hf : s.onBrk (fun b => { b with
    state := .failed, origin := .noOpen, watch := false, tripOut := false, openTimer := none }) = f
  have failed : f.brk = { s.brk with
      state := .failed, origin := .noOpen, watch := false, tripOut := false, openTimer := none } := by rw [← hf]; rfl
  obtain ⟨link, begins⟩ := breakerFailureBegins_eq (f.raise .breakerNoOpen f.latestContext)
  have brk := raise_brk (s := f) (k := .breakerNoOpen) f.latestContext (by rw [failed]; simp) (by rw [lockout]; simp)
  dsimp only
  rw [begins]
  exact ⟨brk.trans failed, raise_pending _ _ _, raise_lockout _ (lockout f), rfl, rfl⟩

/-- Settles O27. -/
theorem openLimitFailsTheBreaker : Obligations.OpenLimitFailsTheBreaker := by
  intro s hc ht
  have after := (Within.refl {} s.openLimitExpired).finish s
  refine ⟨_, _, timerEvent_of_running (timer := (·.brk.openTimer)) State.openLimitExpired hc ht, rfl,
    (((Within.refl _ s).openLimitExpired rfl).finish s).frame, fun h => ?_, fun h => ?_⟩
  · obtain ⟨brk, pending, lockout, failure, asserted⟩ := openLimitExpired_of_opening h
    exact ⟨brk, after.stays _ pending, (after.failure rfl).trans failure, after.lockout lockout, asserted⟩
  · simp [State.openLimitExpired, h, State.onBrk]

/-! ### READY lost at a generator (R147) -/

section
variable {s : State}

theorem judgeAutonomous_eq (s : State) : ∃ d, s.judgeAutonomous = { s with disp := d } := by
  unfold State.judgeAutonomous
  split
  · split
    · split
      · exact ⟨s.disp, rfl⟩
      · exact ⟨_, rfl⟩
    · exact ⟨_, rfl⟩
  · exact ⟨s.disp, rfl⟩

theorem judgeStart_of_not_incomer (h : s.ownKind ≠ some .incomer) : s.judgeStart = s := by
  simp [State.judgeStart, State.changeoverIn, State.isIncomer, h]

theorem judgeOperation_eq (s : State) : ∃ p, s.judgeOperation = { s with port := p } := by
  unfold State.judgeOperation
  split
  · exact ⟨_, rfl⟩
  · split
    · exact ⟨_, rfl⟩
    · exact ⟨s.port, rfl⟩

/-- Away from an incomer, what is judged at the end of an event concerns the role record and the operation alone. -/
theorem wrapUp_of_not_incomer (h : s.ownKind ≠ some .incomer) : ∃ d p, s.wrapUp = { s with disp := d, port := p } := by
  obtain ⟨d, autonomous⟩ := judgeAutonomous_eq s
  obtain ⟨p, operation⟩ := judgeOperation_eq { s with disp := d }
  refine ⟨d, p, ?_⟩
  rw [State.wrapUp, autonomous, judgeStart_of_not_incomer (s := { s with disp := d }) h, operation]

/-- Away from an incomer, the end of an event that hands nothing on moves no breaker. -/
theorem finish_brk_of_not_incomer (before : State) (hn : s.news = []) (h : s.ownKind ≠ some .incomer) :
    (State.finish before s).brk = s.brk := by
  obtain ⟨d, p, wrapUp⟩ := wrapUp_of_not_incomer h
  rw [State.finish, settle_of_quiet hn, wrapUp, changeStatus_brk, settle_of_quiet (s := { s with disp := d, port := p }) hn]

/-- READY found lost in ONLINE is a trip (R147). -/
theorem generatorReadyChange_of_online (hk : s.ownKind = some .generator) (hr : s.disp.role = .online)
    (hp : s.pins.ready = false) : s.generatorReadyChange = s.trip .dispatch := by
  simp [State.generatorReadyChange, State.generatorIn, State.isGenerator, hk, hr, hp]

end

/-- Settles O28. -/
theorem readyLossTripsTheGenerator : Obligations.ReadyLossTripsTheGenerator := by
  intro s hc hn hready hk hrole hclosed
  generalize hu : (s.readyAt false).beginOpening .dispatch = u
  have trips : (s.readyAt false).generatorReadyChange = u := by
    rw [generatorReadyChange_of_online (s := s.readyAt false) hk hrole rfl,
      trip_of_closed (s := s.readyAt false) hclosed, hu]
  have run : exec (.readyInputChange false) s = .next (State.finish (s.readyAt false) u) := by
    rw [exec_readyInputChange_of_change (by simp [hready]), event_of_configured (s := s.readyAt false) _ hc, trips]
  have brk : (State.finish (s.readyAt false) u).brk = u.brk :=
    finish_brk_of_not_incomer _ (by rw [← hu]; exact hn) fun incomer => by
      rw [← hu] at incomer
      exact absurd (hk.symm.trans incomer) (by decide)
  refine ⟨_, run, ?_, ?_, ?_, ?_⟩
  · rw [((Within.refl {} u).finish _).pins, ← hu]; rfl
  all_goals rw [brk, ← hu]
  · rfl
  · rfl
  · exact mem_addSource _ _

end Sys2Proof.Machine
end

