-- ==== Sys2Proof/Proofs/SlotMoves.lean ====
section
/-!
SUPPORT. The moves of a slot by its state (R78 to R82, R84), and the actions of an operation by its route (R83, R88, R97).
-/

namespace Sys2Proof.Machine

/-! ### The operate point (R81, R82) -/

section
variable {c : SlotSettings} {blocked reached : Bool} {r : SlotRun}

theorem timed_of_short (h : reached = false) : timed c blocked reached r = ⟨{ r with state := .picked }, false, false⟩ := by
  simp [timed, h]

theorem timed_of_held (h : reached = true) (hh : c.blockable = true ∧ blocked = true) :
    timed c blocked reached r = ⟨{ r with state := .held }, false, false⟩ := by
  simp [timed, atOperatePoint, h, hh]

theorem timed_of_free (h : reached = true) (hh : ¬ (c.blockable = true ∧ blocked = true)) :
    timed c blocked reached r = ⟨{ r with state := .operated }, true, !blocked⟩ := by
  have : (c.blockable && blocked) = false := by simpa using hh
  simp [timed, atOperatePoint, h, this]

theorem heldOn_of_blocked (h : blocked = true) : heldOn blocked r = ⟨r, false, false⟩ := by simp [heldOn, h]

theorem heldOn_of_free (h : blocked = false) : heldOn blocked r = ⟨{ r with state := .operated }, true, false⟩ := by
  simp [heldOn, h]

theorem decayed_of_more (h : c.decayStep < r.acc) :
    decayed c r = ⟨{ r with state := .resetting, acc := r.acc - c.decayStep }, false, false⟩ := by
  rw [decayed]
  exact if_neg (by omega)

theorem decayed_of_rest (h : r.acc ≤ c.decayStep) : decayed c r = ⟨{ r with state := .idle, acc := 0 }, false, false⟩ := by
  rw [decayed]
  exact if_pos (by omega)

end

/-! ### A definite slot (R78) -/

section
variable {c : SlotSettings} {blocked : Bool} {r : SlotRun}

theorem moveDefinite_of_idle (h : r.state = .idle) :
    moveDefinite c blocked true r = timed c blocked (c.delay ≤ 1) { r with count := 1 } := by
  simp [moveDefinite, h]

theorem moveDefinite_of_picked (h : r.state = .picked) : moveDefinite c blocked true r =
    timed c blocked (c.delay ≤ satSucc 65535 r.count) { r with count := satSucc 65535 r.count } := by
  simp [moveDefinite, h]

theorem moveDefinite_of_held (h : r.state = .held) :
    moveDefinite c blocked true r = heldOn blocked { r with count := satSucc 65535 r.count } := by
  simp [moveDefinite, h]

theorem moveDefinite_of_rest (h : r.state ≠ .idle) : moveDefinite c blocked false r = atRest r := by
  unfold moveDefinite
  cases hs : r.state with
  | idle => exact absurd hs h
  | picked => rfl
  | resetting => rfl
  | held => rfl
  | operated => rfl

/-! ### An inverse slot (R79, R80) -/

theorem moveInverse_of_timing (e : Nat) (h : r.state = .idle ∨ r.state = .picked ∨ r.state = .resetting) :
    moveInverse c blocked true e r = timed c blocked (c.curve ≤ accumulate (if r.state = .idle then 0 else r.acc) e)
      { r with acc := accumulate (if r.state = .idle then 0 else r.acc) e } := by
  obtain h | h | h := h <;> simp [moveInverse, h]

theorem moveInverse_of_held (e : Nat) (h : r.state = .held) :
    moveInverse c blocked true e r = heldOn blocked { r with acc := accumulate r.acc e } := by
  simp [moveInverse, h]

theorem moveInverse_of_left (e : Nat) (h : r.state = .picked ∨ r.state = .held) :
    moveInverse c blocked false e r = resetInverse c r := by
  obtain h | h := h <;> simp [moveInverse, h]

/-- A slot that decays, in RESETTING or on leaving PICKED or HELD with DECAY reset. -/
theorem moveInverse_of_decay (e : Nat) (h : r.state = .resetting ∨ ((r.state = .picked ∨ r.state = .held) ∧ c.decay = true)) :
    moveInverse c blocked false e r = decayed c r := by
  obtain h | ⟨h, hd⟩ := h
  · simp [moveInverse, h]
  · rw [moveInverse_of_left e h, resetInverse, if_pos hd]

end

/-- Settles O29. -/
theorem slotsReachTheirOperatePoint : Obligations.SlotsReachTheirOperatePoint := by
  constructor
  · intro c blocked r
    refine ⟨fun h hd hh => ?_, fun h hd hh => ?_, fun h hd => ?_, fun h hd => ?_, fun h hd hh => ?_, fun h hd hh => ?_,
      fun h hb => ?_, fun h hb => ?_, fun h => ?_, fun h => ?_, fun h => ?_⟩
    · rw [moveDefinite_of_idle h, timed_of_free (decide_eq_true hd) hh]
    · rw [moveDefinite_of_idle h, timed_of_held (decide_eq_true hd) hh]
    · rw [moveDefinite_of_idle h, timed_of_short (decide_eq_false (Nat.not_le.mpr hd))]
    · refine (moveDefinite_of_picked h).trans ((timed_of_short (decide_eq_false (Nat.not_le.mpr hd))).trans ?_)
      rw [← h]
      rfl
    · exact (moveDefinite_of_picked h).trans (timed_of_free (decide_eq_true hd) hh)
    · exact (moveDefinite_of_picked h).trans (timed_of_held (decide_eq_true hd) hh)
    · rw [moveDefinite_of_held h, heldOn_of_blocked hb]
      rfl
    · rw [moveDefinite_of_held h, heldOn_of_free hb]
      rfl
    · simp [moveDefinite, h]
    · simp [moveDefinite, h]
    · exact moveDefinite_of_rest h
  · intro c blocked m r
    refine ⟨fun h ha => ?_, fun h ha hh => ?_, fun h ha hh => ?_, fun h hb => ?_, fun h hb => ?_, fun h => ?_, fun h => ?_,
      fun h hd => ?_, fun h => ⟨fun hs => ?_, fun hs => ?_⟩⟩
    · exact (moveInverse_of_timing _ h).trans (timed_of_short (decide_eq_false (Nat.not_le.mpr ha)))
    · exact (moveInverse_of_timing _ h).trans (timed_of_free (decide_eq_true ha) hh)
    · exact (moveInverse_of_timing _ h).trans (timed_of_held (decide_eq_true ha) hh)
    · rw [moveInverse_of_held _ h, heldOn_of_blocked hb]
      simp [accumulate, SlotSettings.excess, h]
    · rw [moveInverse_of_held _ h, heldOn_of_free hb]
      simp [accumulate, SlotSettings.excess, h]
    · simp [moveInverse, h, atRest]
    · simp [moveInverse, h]
    · rw [moveInverse_of_left _ h, resetInverse, if_neg (by simp [hd])]
    · rw [moveInverse_of_decay _ h, decayed_of_more hs]
    · rw [moveInverse_of_decay _ h, decayed_of_rest hs]

/-! ### What a raise leaves (R106 to R110) -/

theorem trip_eq (s : State) (src : TripSource) : ∃ brk news, s.trip src = { s with brk := brk, news := news } := by
  unfold State.trip
  cases s.brk.state with
  | opened => exact ⟨s.brk, s.news, rfl⟩
  | closing => exact ⟨_, _, rfl⟩
  | closed => exact ⟨_, s.news, rfl⟩
  | opening => exact ⟨_, s.news, rfl⟩
  | failed => exact ⟨_, s.news, rfl⟩

theorem withdrawClose_eq (s : State) : ∃ brk, s.withdrawClose = { s with brk := brk } := by
  unfold State.withdrawClose
  split
  · exact ⟨_, rfl⟩
  · exact ⟨s.brk, rfl⟩

theorem record_eq (s : State) (k : FaultKind) (ctx : FaultContext) : ∃ fault, s.record k ctx = { s with fault := fault } := by
  unfold State.record
  split <;> exact ⟨_, rfl⟩

theorem severityActs_eq (s : State) (k : FaultKind) :
    ∃ brk fault news, s.severityActs k = { s with brk := brk, fault := fault, news := news } := by
  unfold State.severityActs
  cases s.severityOf k with
  | advisory => exact ⟨s.brk, s.fault, s.news, rfl⟩
  | trip =>
    obtain ⟨brk, news, h⟩ := trip_eq s .fault
    exact ⟨brk, s.fault, news, h⟩
  | lockout =>
    dsimp only
    split
    · exact ⟨s.brk, s.fault, s.news, rfl⟩
    · obtain ⟨brk, h⟩ := withdrawClose_eq (s.onFault fun f => { f with lockout := true })
      refine ⟨brk, { s.fault with lockout := true }, s.news ++ [.lockoutOnset], ?_⟩
      rw [State.lockoutOnset, h]
      rfl

theorem tellBarred_eq (b : Bool) (s : State) : ∃ news, State.tellBarred b s = { s with news := news } := by
  unfold State.tellBarred
  split
  · exact ⟨s.news, rfl⟩
  · exact ⟨_, rfl⟩

/-- A raise concerns the breaker record, the fault store, the port and the hand-ons alone. -/
theorem raise_rest (s : State) (k : FaultKind) (ctx : FaultContext) : ∃ brk fault port news,
    s.raise k ctx = { s with brk := brk, fault := fault, port := port, news := news } := by
  obtain ⟨port, after, whole, _⟩ := raise_eq s k ctx
  obtain ⟨recorded, hr⟩ := record_eq s k ctx
  obtain ⟨brk, fault, news, hs⟩ := severityActs_eq ((s.record k ctx).onPort port) k
  obtain ⟨told, ht⟩ := tellBarred_eq s.barred ((((s.record k ctx).onPort port).severityActs k).onFault after)
  rw [whole, ht, hs, hr]
  exact ⟨_, _, _, _, rfl⟩

/-- A raise leaves the breaker record, trips it with source FAULT or marks its close, by its severity. -/
theorem raise_brk_cases (s : State) (k : FaultKind) (ctx : FaultContext) :
    (s.raise k ctx).brk = s.brk ∨ (s.raise k ctx).brk = (s.trip .fault).brk ∨ (s.raise k ctx).brk = s.withdrawClose.brk := by
  cases h : s.severityOf k with
  | advisory => exact .inl (raise_of_advisory ctx h).1
  | trip => exact .inr (.inl (raise_brk_of_trip ctx h))
  | lockout =>
    rw [raise_brk_eq_severityActs]
    unfold State.severityActs
    rw [announced_severityOf, h]
    dsimp only
    split
    · exact .inl (announced_brk s k ctx)
    · right; right
      simp only [State.lockoutOnset, tell_brk, State.withdrawClose, onFault_brk, announced_brk]
      split <;> simp

theorem mem_addSource_iff {src x : TripSource} {xs : List TripSource} : x ∈ addSource src xs ↔ x ∈ xs ∨ x = src := by
  unfold addSource
  split
  next h =>
    have member : src ∈ xs := by simpa using h
    exact ⟨.inl, fun k => k.elim id fun e => e ▸ member⟩
  next => simp

/-- A raise adds no trip source but FAULT. -/
theorem mem_sources_of_raise {s : State} {k : FaultKind} {ctx : FaultContext} {x : TripSource} (hx : x ≠ .fault)
    (h : x ∈ (s.raise k ctx).brk.sources) : x ∈ s.brk.sources := by
  obtain same | trips | marks := raise_brk_cases s k ctx
  · rwa [same] at h
  · rw [trips] at h
    have added : x ∈ s.brk.sources ∨ x ∈ addSource .fault s.brk.sources := by
      cases hs : s.brk.state with
      | opened => rw [trip_of_opened hs] at h; exact .inl h
      | closing => rw [trip_of_closing hs] at h; exact .inr h
      | closed => rw [trip_of_closed hs] at h; exact .inr h
      | opening => rw [trip_of_opening hs] at h; exact .inr h
      | failed => rw [trip_of_failed hs] at h; exact .inr h
    exact added.elim id fun a => (mem_addSource_iff.mp a).resolve_right hx
  · rw [marks, State.withdrawClose] at h
    split at h <;> exact h

/-- A raise leaves an opening open, with its trip sources. -/
theorem raise_brk_of_opening {s : State} (k : FaultKind) (ctx : FaultContext) (h : s.brk.state = .opening) :
    (s.raise k ctx).brk.state = .opening ∧ s.brk.sources ⊆ (s.raise k ctx).brk.sources := by
  obtain same | trips | marks := raise_brk_cases s k ctx
  · rw [same]
    exact ⟨h, fun _ hx => hx⟩
  · rw [trips, trip_of_opening h]
    exact ⟨h, fun _ hx => mem_addSource_iff.mpr (.inl hx)⟩
  · rw [marks, withdrawClose_of_not_closing (by simp [h])]
    exact ⟨h, fun _ hx => hx⟩

theorem announced_eq (s : State) (k : FaultKind) (ctx : FaultContext) :
    ∃ fault port, s.announced k ctx = { s with fault := fault, port := port } := by
  obtain ⟨fault, recorded⟩ := record_eq s k ctx
  unfold State.announced
  rw [recorded]
  split
  · exact ⟨fault, s.port, rfl⟩
  · exact ⟨fault, _, rfl⟩

@[simp] theorem announced_busFault (s : State) (k : FaultKind) (ctx : FaultContext) :
    (s.announced k ctx).fault.busFault = s.fault.busFault := by
  rw [announced_fault]
  unfold State.record
  split <;> rfl

/-- A raise of a kind that joins no set and latches nothing. -/
theorem raise_of_plain {k : FaultKind} (hb : k ≠ .busFault) (hs : k ≠ .startFailed) (s : State) (ctx : FaultContext) :
    s.raise k ctx = State.tellBarred s.barred ((s.announced k ctx).severityActs k) := by
  unfold State.raise State.raiseActs State.announced
  simp only [record_masked]
  split
  · exact absurd rfl hb
  · exact absurd rfl hs
  · rfl

theorem raise_busFault_of_plain {k : FaultKind} (hb : k ≠ .busFault) (hs : k ≠ .startFailed) (s : State)
    (ctx : FaultContext) : (s.raise k ctx).fault.busFault = s.fault.busFault := by
  rw [raise_of_plain hb hs, tellBarred_fault, severityActs_fault]
  exact announced_busFault s k ctx

/-- A BUS_FAULT of a slot adds the sections the breaker connects (R88, R111). -/
theorem raise_busFault_sections (s : State) (n : Nat) :
    (s.raise .busFault (.slot n)).fault.busFault = s.fault.busFault.union s.ownSections := by
  have joins : s.raise .busFault (.slot n) =
      State.tellBarred s.barred (((s.announced .busFault (.slot n)).severityActs .busFault).joinBusFault n) := by
    unfold State.raise State.raiseActs State.announced
    simp only [record_masked]
  obtain ⟨fault, port, announced⟩ := announced_eq s .busFault (.slot n)
  obtain ⟨brk, fault', news, acted⟩ := severityActs_eq (s.announced .busFault (.slot n)) .busFault
  have sections : ((s.announced .busFault (.slot n)).severityActs .busFault).busFaultSections = s.ownSections := by
    rw [acted, announced]
    rfl
  rw [joins, tellBarred_fault, State.joinBusFault, onFault_fault, sections, severityActs_fault]
  simp only [announced_busFault]

/-! ### Operations (R83, R88, R97) -/

/-- The trip of a route, LOCAL_TRIP or BOTH (R83). -/
def State.routeTrip (r : Route) (s : State) : State := if r = .localTrip ∨ r = .both then s.trip .protection else s

/-- The intertrip demand of a route, UPSTREAM or BOTH (R83, R97). -/
def State.routeDemand (n : Nat) (r : Route) (s : State) : State :=
  if r = .upstream ∨ r = .both then (s.onSlot n fun x => { x with demand := true }).judgeIntertrip else s

section
variable {s : State} {n : Nat} {k : ElementKind} {r : Route} {empty : Bool}

theorem routeTrip_eq (r : Route) (s : State) : ∃ brk news, s.routeTrip r = { s with brk := brk, news := news } := by
  unfold State.routeTrip
  split
  · exact trip_eq s .protection
  · exact ⟨s.brk, s.news, rfl⟩

theorem routeDemand_eq (n : Nat) (r : Route) (s : State) :
    ∃ prot link zone, s.routeDemand n r = { s with prot := prot, link := link, zone := zone } := by
  unfold State.routeDemand
  split
  · obtain ⟨link, h⟩ := judgeIntertrip_eq (s.onSlot n fun x => { x with demand := true })
    exact ⟨_, _, _, h⟩
  · exact ⟨s.prot, s.link, s.zone, rfl⟩

/-- The demand sets the slot's bit, and with it intertrip asserted. -/
theorem routeDemand_demands (hn : 1 ≤ n) (hl : n ≤ s.prot.slots.length) (h : r = .upstream ∨ r = .both) :
    ((s.routeDemand n r).slotRun n).demand = true ∧ (s.routeDemand n r).zone.intertripAsserted = true := by
  have set : ((s.onSlot n fun x => { x with demand := true }).slotRun n).demand = true := by
    have place := updateAt_getD (fun x : SlotRun => { x with demand := true }) .initial (n - 1) (n - 1) s.prot.slots
    rw [if_pos ⟨rfl, by omega⟩] at place
    exact congrArg SlotRun.demand place
  have demanded : (s.onSlot n fun x => { x with demand := true }).intertripDemanded = true := by
    have place : n - 1 < (s.onSlot n fun x => { x with demand := true }).prot.slots.length := by
      rw [State.onSlot, onProt_prot, updateAt_length]
      omega
    have member := List.getElem_mem place
    rw [State.slotRun, List.getD_eq_getElem _ _ place] at set
    rw [State.intertripDemanded, Bool.or_eq_true, List.any_eq_true]
    exact .inr ⟨_, member, set⟩
  obtain ⟨link, h'⟩ := judgeIntertrip_eq (s.onSlot n fun x => { x with demand := true })
  rw [State.routeDemand, if_pos h, h']
  exact ⟨set, demanded⟩

/-- The own work of an operation: the route's trip and demand, then the raises. -/
theorem operate_eq (s : State) (n : Nat) (k : ElementKind) (r : Route) (empty : Bool) : s.operate n k r empty =
    if s.busFaultHolds k r empty then
      (((s.routeTrip r).routeDemand n r).raise .elementOperated (.slot n)).raise .busFault (.slot n)
    else ((s.routeTrip r).routeDemand n r).raise .elementOperated (.slot n) := by
  have trips : (if (r == .localTrip || r == .both) = true then s.trip .protection else s) = s.routeTrip r := by
    simp [State.routeTrip]
  have demands : (if (r == .upstream || r == .both) = true then
      ((s.routeTrip r).onSlot n fun x => { x with demand := true }).judgeIntertrip else s.routeTrip r) =
      (s.routeTrip r).routeDemand n r := by
    simp [State.routeDemand]
  unfold State.operate
  dsimp only
  rw [trips, demands]
  obtain ⟨brk, news, tripped⟩ := routeTrip_eq r s
  obtain ⟨prot, link, zone, demanded⟩ := routeDemand_eq n r (s.routeTrip r)
  obtain ⟨brk', fault, port, news', raised⟩ := raise_rest ((s.routeTrip r).routeDemand n r) .elementOperated (.slot n)
  have kind : (((s.routeTrip r).routeDemand n r).raise .elementOperated (.slot n)).ownKind = s.ownKind := by
    rw [raised, demanded, tripped]
    rfl
  have holds : (((s.routeTrip r).routeDemand n r).raise .elementOperated (.slot n)).busFaultHolds k r empty =
      s.busFaultHolds k r empty := by
    rw [State.busFaultHolds, kind, State.busFaultHolds]
  rw [holds]

/-- An operation opens a CLOSED breaker under LOCAL_TRIP and BOTH (R83). -/
theorem routed_opens (h : r = .localTrip ∨ r = .both) (hs : s.brk.state = .closed) :
    ((s.routeTrip r).routeDemand n r).brk.state = .opening ∧
    TripSource.protection ∈ ((s.routeTrip r).routeDemand n r).brk.sources := by
  obtain ⟨prot, link, zone, demanded⟩ := routeDemand_eq n r (s.routeTrip r)
  rw [demanded, State.routeTrip, if_pos h, trip_of_closed hs]
  exact ⟨rfl, mem_addSource _ _⟩

theorem busFaultHolds_iff : s.busFaultHolds k r empty = true ↔
    (k = .phaseDefinite ∨ k = .phaseInverse ∨ k = .earth) ∧ (r = .localTrip ∨ r = .both) ∧
      s.ownKind ≠ some .feeder ∧ empty = true := by
  simp [State.busFaultHolds, or_assoc, and_assoc]

end

/-- Settles O30. -/
theorem operationActsByItsRoute : Obligations.OperationActsByItsRoute := by
  intro n k r empty s hn hl
  generalize hu : (s.routeTrip r).routeDemand n r = u
  have whole := operate_eq s n k r empty
  rw [hu] at whole
  obtain ⟨brk, news, tripped⟩ := routeTrip_eq r s
  obtain ⟨prot, link, zone, demanded⟩ := routeDemand_eq n r (s.routeTrip r)
  obtain ⟨brk', fault', port', news', raised⟩ := raise_rest u .elementOperated (.slot n)
  obtain ⟨brk'', fault'', port'', news'', again⟩ := raise_rest (u.raise .elementOperated (.slot n)) .busFault (.slot n)
  have sections : (u.raise .elementOperated (.slot n)).ownSections = s.ownSections := by
    rw [raised, ← hu, demanded, tripped]
    rfl
  have faults : u.fault = s.fault := by rw [← hu, demanded, tripped]
  have first : (u.raise .elementOperated (.slot n)).fault.busFault = s.fault.busFault := by
    rw [raise_busFault_of_plain (by decide) (by decide), faults]
  have rest : (s.operate n k r empty).prot = u.prot ∧ (s.operate n k r empty).zone = u.zone ∧
      (s.operate n k r empty).link = u.link := by
    rw [whole]
    split
    · rw [again, raised]; exact ⟨rfl, rfl, rfl⟩
    · rw [raised]; exact ⟨rfl, rfl, rfl⟩
  obtain ⟨hprot, hzone, hlink⟩ := rest
  refine ⟨?_, fun h hs => ?_, fun h => ?_, fun h => ?_, fun h => ?_, fun h => ?_, fun h => ?_⟩
  · rw [whole]
    split
    · exact (((Within.refl {} _).raise _ _ (by simp))).stays _ (raise_pending u _ _)
    · exact raise_pending u _ _
  · obtain ⟨opening, source⟩ := hu ▸ routed_opens (n := n) h hs
    obtain ⟨opening', kept⟩ := raise_brk_of_opening .elementOperated (.slot n) opening
    rw [whole]
    split
    · obtain ⟨opening'', kept'⟩ := raise_brk_of_opening .busFault (.slot n) opening'
      exact ⟨opening'', kept' (kept source)⟩
    · exact ⟨opening', kept source⟩
  · obtain ⟨slot, asserted⟩ := routeDemand_demands (s := s.routeTrip r) (n := n) hn (by rw [tripped]; exact hl) h
    rw [hu] at slot asserted
    rw [State.slotRun, hprot, hzone]
    exact ⟨slot, asserted⟩
  · rw [whole, if_pos (busFaultHolds_iff.mpr h)]
    refine ⟨raise_pending _ _ _, fun x hx => ?_⟩
    rw [raise_busFault_sections, sections]
    simp [SectionSet.union, hx]
  · rw [whole, if_neg fun holds => h (busFaultHolds_iff.mp holds)]
    refine ⟨?_, first⟩
    rw [raise_fault_pending, (record_get_of_ne u .elementOperated (.slot n) (by decide)).1, faults]
  · have quiet : ¬ s.busFaultHolds k r empty = true := fun holds => by
      obtain ⟨-, route, -⟩ := busFaultHolds_iff.mp holds
      obtain rfl | rfl := h <;> simp at route
    have untripped : u.brk = s.brk := by
      rw [← hu, demanded, State.routeTrip, if_neg (by obtain rfl | rfl := h <;> decide)]
    rw [whole, if_neg quiet]
    refine ⟨fun source => untripped ▸ mem_sources_of_raise (by decide) source, fun advisory => ?_⟩
    have same : u.severityOf .elementOperated = s.severityOf .elementOperated :=
      severityOf_congr (by rw [← hu, demanded, tripped]) _
    rw [(raise_of_advisory _ (same.trans advisory)).1, untripped]
  · have undemanded : u = s.routeTrip r := by
      rw [← hu, State.routeDemand, if_neg (by obtain rfl | rfl := h <;> decide)]
    rw [State.slotRun, hprot, hzone, hlink, undemanded, tripped]
    exact ⟨rfl, rfl, rfl⟩

end Sys2Proof.Machine
end

