-- ==== Sys2Proof/Proofs/TimerExpiries.lean ====
section
/-!
SUPPORT. What the expiries of the cell's, the claim's, the session's and the generator's timers make of their records, and the
result of a complete window (R56, R73, R123, R125, R135, R136, R138, R145, R147, R150).
-/

namespace Sys2Proof.Machine

/-! ### The set loss (R56, R73) -/

theorem breakWindow_eq (s : State) : ∃ sync, s.breakWindow = { s with sync := sync } := by
  unfold State.breakWindow
  split
  · exact ⟨_, rfl⟩
  · exact ⟨s.sync, rfl⟩

/-- Settles O19. -/
theorem setLossBegins : Obligations.SetLossBegins := by
  intro s hc ht
  generalize hu : s.setLossBegins = u
  have run := timerEvent_of_running (timer := (·.meas.lossTimer)) State.setLossBegins hc ht
  rw [hu] at run
  have after := (Within.refl {} u).finish s
  obtain ⟨sync, broken⟩ := breakWindow_eq ((s.onMeas fun r => { r.clearRuns with setLoss := true, lossTimer := none }).raise
    .setLoss (s.onMeas fun r => { r.clearRuns with setLoss := true, lossTimer := none }).latestContext)
  refine ⟨_, run, after.stays _ ?_, (after.speedBias rfl).trans ?_, (after.voltageBias rfl).trans ?_, ?_⟩
  · rw [← hu, State.setLossBegins, broken]
    exact raise_pending _ _ _
  · rw [← hu]; rfl
  · rw [← hu]; rfl
  · rw [← hu]
    exact (((((Within.refl _ _).raise _ _ (by simp)).breakWindow).onEng rfl _).finish s).frame

/-! ### Sessions and the RELEASE of a claim (R124, R134) -/

section
variable {s : State}

theorem endSession_of_open (h : s.sync.session ≠ .none) (c : SessionEnd) : s.endSession c = s.onSync fun y => { y with
    session := .none, timer := none, window := .empty, speedBias := 0, voltageBias := 0, endCause := some c } :=
  if_pos (by simpa [State.sessionOpen] using h)

theorem endSession_of_none (h : s.sync.session = .none) (c : SessionEnd) : s.endSession c = s :=
  if_neg (by simp [State.sessionOpen, h])

/-- Whatever stood, no session is open afterwards. -/
theorem endSession_eq (s : State) (c : SessionEnd) :
    ∃ sync, s.endSession c = { s with sync := sync } ∧ sync.session = .none := by
  by_cases h : s.sync.session = .none
  · exact ⟨s.sync, endSession_of_none h c, h⟩
  · exact ⟨_, endSession_of_open h c, rfl⟩

theorem requestOrdered_eq (s : State) (f : OrderedFrame) : ∃ link, s.requestOrdered f = { s with link := link } := by
  unfold State.requestOrdered
  split
  · exact ⟨_, rfl⟩
  · split
    · exact ⟨_, rfl⟩
    · exact ⟨s.link, rfl⟩

/-- Placing the RELEASE changes the stage of the record and the queue. -/
theorem sendRelease_eq (s : State) :
    ∃ link stage, s.sendRelease = { s with link := link, token := { s.token with stage := stage } } := by
  unfold State.sendRelease
  split
  next c hc =>
    obtain ⟨link, h⟩ := requestOrdered_eq s (.release s.ownSections c)
    dsimp only
    rw [h]
    exact ⟨link, _, rfl⟩
  next => exact ⟨s.link, s.token.stage, rfl⟩

/-- A RELEASE requested: RELEASING with its cause, the hold timer stopped and no session open (R124). -/
theorem requestRelease_eq (s : State) (c : ReleaseCause) : ∃ link stage sync, s.requestRelease c = { s with
    link := link, sync := sync
    token := { s.token with state := .releasing, phase := none, cause := some c, holdTimer := none, stage := stage } } ∧
    sync.session = .none ∧ (s.sync.session = .none → sync = s.sync) := by
  unfold State.requestRelease
  generalize hu : s.onToken (fun t => { t with
    state := .releasing, phase := none, cause := some c, holdTimer := none }) = u
  obtain ⟨sync, ended, none⟩ := endSession_eq u .ended
  obtain ⟨link, stage, sent⟩ := sendRelease_eq (u.endSession .ended)
  refine ⟨link, stage, sync, ?_, none, fun quiet => ?_⟩
  · rw [sent, ended, ← hu]
    rfl
  · have same := endSession_of_none (s := u) (by rw [← hu]; exact quiet) .ended
    rw [ended] at same
    have read := congrArg State.sync same
    rw [← hu] at read
    exact read

end

/-! ### The hold timer and the lapse timer (R123, R125) -/

section
variable {s : State} {n : Nat}

/-- A hold that expires: the claim record, the session and the fault (R125). -/
theorem holdExpired_eq (s : State) : ∃ stage,
    s.holdExpired.token = { s.token with
      state := .releasing, phase := none, cause := some .expired, holdTimer := none, stage := stage
      expiries := s.token.expiries + 1 } ∧ s.holdExpired.sync.session = .none := by
  obtain ⟨link, stage, sync, released, none, -⟩ := requestRelease_eq s .expired
  unfold State.holdExpired
  obtain ⟨brk, fault, port, news, raised⟩ := raise_rest
    ((s.requestRelease .expired).onToken fun t => { t with expiries := t.expiries + 1 }) .tokenExpired .none
  rw [raised, released]
  exact ⟨stage, rfl, none⟩

theorem grantChecks_within (secs : SectionSet) (s : State) : Within { secs := true } s ((s.grantChecks secs).seeGrant) :=
  ((Within.refl _ s).grantChecks rfl secs).seeGrant

/-- A CLOSING report whose timer runs has lapsed after the expiry (R123). -/
theorem lapseReport_lapsed {left : Nat} (h : (s.entry n).lapse = .running left) :
    ((s.lapseReport n).entry n).lapse = .lapsed := by
  have lapsed : ((s.onEntry n fun e => { e with lapse := .lapsed }).entry n).lapse = .lapsed := by
    cases n with
    | zero => exact nomatch (h : Lapse.none = .running left)
    | succ k =>
      have inside : k < s.pic.table.length := by
        by_contra outside
        have absent : s.entry (k + 1) = .absent := by
          simp [State.entry, List.getD_eq_getElem?_getD, List.getElem?_eq_none (Nat.not_lt.mp outside)]
        rw [absent] at h
        exact nomatch (h : Lapse.none = .running left)
      have read := updateAt_getD (fun e : StationEntry => { e with lapse := .lapsed }) .absent k k s.pic.table
      rw [if_pos ⟨rfl, inside⟩] at read
      exact congrArg StationEntry.lapse read
  simp only [State.lapseReport, h]
  split
  · exact lapsed
  · rw [(grantChecks_within _ _).entry rfl rfl]
    exact lapsed

end

/-- Settles O51. -/
theorem claimTimersAct : Obligations.ClaimTimersAct := by
  intro n left s hc
  refine ⟨fun ht hs => ?_, fun hl => ?_⟩
  · have ends : s.holdEnds = s.holdExpired.tell .holdExpired := if_pos (by simp [hs])
    obtain ⟨stage, token, sync⟩ := holdExpired_eq s
    refine ⟨_, _, timerEvent_of_running (timer := (·.token.holdTimer)) State.holdEnds hc ht, rfl,
      (((Within.refl _ s).holdEnds).finish s).frame, ?_⟩
    rw [ends]
    simp only [tell_token, tell_sync, token]
    exact ⟨trivial, trivial, trivial, trivial, sync, ((Within.refl {} _).finish s).stays _ (raise_pending _ _ _)⟩
  · refine ⟨_, event_of_configured (State.lapseReport n) hc, ?_, (((Within.refl _ s).lapseReport rfl rfl n).finish s).frame⟩
    rw [((Within.refl {} (s.lapseReport n)).finish s).entry rfl rfl]
    exact lapseReport_lapsed hl

/-! ### The sync timeout (R138) -/

/-- Settles O52. -/
theorem syncTimeoutEndsTheSession : Obligations.SyncTimeoutEndsTheSession := by
  intro s hc ht hs
  obtain ⟨brk, fault, port, news, raised⟩ := raise_rest s .syncTimeout s.latestContext
  have pending : fault.pending.get .syncTimeout = true := by
    have p := raise_pending s .syncTimeout s.latestContext
    rwa [raised] at p
  generalize hr : s.raise .syncTimeout s.latestContext = r at raised
  generalize hv : (r.onSync fun y => { y with timeouts := y.timeouts + 1 }).endSession .timeout = v
  have ended : v = { r with sync := { s.sync with
      timeouts := s.sync.timeouts + 1, session := .none, timer := none, window := .empty, speedBias := 0
      voltageBias := 0, endCause := some .timeout } } := by
    rw [← hv, endSession_of_open (by rw [raised]; exact hs), raised]
    rfl
  obtain ⟨link, stage, sync, released, -, same⟩ := requestRelease_eq v .expired
  have whole : s.syncTimedOut = (if s.token.state = .holding then v.requestRelease .expired else v).tell .syncTimedOut := by
    have holding : v.token.state = s.token.state := by rw [ended, raised]
    unfold State.syncTimedOut State.tokenSyncTimeout
    rw [hr]
    dsimp only
    rw [hv, holding]
    simp
  have after := (Within.refl {} s.syncTimedOut).finish s
  have record : s.syncTimedOut.sync = v.sync := by
    rw [whole]
    split
    · rw [tell_sync, released]
      exact same (by rw [ended])
    · rfl
  refine ⟨_, _, timerEvent_of_running (timer := (·.sync.timer)) State.syncTimedOut hc ht, rfl,
    (((Within.refl _ s).syncTimedOut).finish s).frame, ?_, ?_, ?_, ?_, after.stays _ ?_, fun h => ?_⟩
  · rw [record, ended]
  · rw [record, ended]
  · rw [record, ended]
  · rw [record, ended]
  · have kept : s.syncTimedOut.fault = fault := by
      rw [whole]
      split
      · rw [tell_fault, released, ended, raised]
      · rw [tell_fault, ended, raised]
    rw [kept, pending]
  · rw [whole, if_pos h, tell_token, released]
    exact ⟨rfl, rfl⟩

/-! ### A complete window (R135, R136) -/

section
variable {s : State}

theorem syncBiases_sync (f : SyncFigures) (s : State) : (s.syncBiases f).sync.last = s.sync.last ∧
    (s.syncBiases f).sync.window = s.sync.window := by
  unfold State.syncBiases
  split <;> exact ⟨rfl, rfl⟩

theorem verdict_iff {st : StationSettings} {f : SyncFigures} : f.verdict st = .inWindow ↔
    f.slip.natAbs ≤ st.slipLimit ∧ f.projected.natAbs ≤ st.angleLimit ∧ f.voltage.natAbs ≤ st.voltageLimit := by
  unfold SyncFigures.verdict
  split
  next h => simpa [and_assoc] using h
  next h => simpa [and_assoc] using h

end

/-- Settles O53. -/
theorem completeWindowPublishesAResult : Obligations.CompleteWindowPublishesAResult := by
  intro m s hs hw
  generalize hf : (s.sync.window.take s.station m).figures s.station = f
  generalize hp : (s.onSync fun y => { y with window := y.window.take s.station m }).publish (some f) = p
  have taken : s.syncTake m = if p.offers f then
      ((p.onSync fun y => { y with session := .offered, offers := y.offers + 1 }).syncBiases f, true)
      else (p.syncBiases f, false) := by
    rw [State.syncTake, if_pos (by simpa [State.sessionOpen] using hs)]
    rw [← hp, ← hf]
    exact if_pos hw
  have published : p.sync.last = some
      { number := s.sync.resultNumber + 1, session := s.sync.number
        first := (s.sync.window.take s.station m).first, last := m.seq, figures := some f
        verdict := f.verdict s.station } ∧ p.sync.window = .empty := by
    rw [← hp]
    exact ⟨rfl, rfl⟩
  obtain ⟨last, window⟩ := published
  have result : (s.syncTake m).1.sync.last = p.sync.last ∧ (s.syncTake m).1.sync.window = p.sync.window := by
    rw [taken]
    split
    · exact syncBiases_sync f _
    · exact syncBiases_sync f p
  have figures : f = ⟨Int.tdiv (s.sync.window.slipSum + ((m.lineFreq : Int) - m.busFreq)) s.station.window,
      wrapAngle (angleSample m + Int.tdiv (Int.tdiv (s.sync.window.slipSum + ((m.lineFreq : Int) - m.busFreq))
        s.station.window * 36 * s.station.closeLimit) 1000),
      Int.tdiv (s.sync.window.voltSum + voltageSample s.station m) s.station.window⟩ := hf.symm
  have verdict := verdict_iff (st := s.station) (f := f)
  refine ⟨_, result.1.trans last, rfl, rfl, rfl, by rw [figures], ?_, result.2.trans window, ?_⟩
  · rw [verdict, figures]
  · have offers : p.offers f = true ↔ s.sync.session = .opened ∧ f.verdict s.station = .inWindow := by
      rw [← hp]
      simp [State.offers, State.publish, State.station]
    have told : (s.syncTake m).2 = true ↔ p.offers f = true := by
      rw [taken]
      split <;> simp_all
    rw [told, offers, verdict, figures]

end Sys2Proof.Machine
end

