-- ==== Sys2Proof/Proofs/RoleTimers.lean ====
section
/-!
SUPPORT. What the expiries of the generator's and the incomer's timers make of their records, and ON_BACKUP judged at its entry
(R145, R147, R150, R164, R165, R167, R168, R170).
-/

namespace Sys2Proof.Machine

/-! ### The generator's timers (R145, R147, R150) -/

section
variable {s : State}

/-- A change of the role part places nothing but a STATUS request (R31). -/
theorem changeRole_eq (f : DispatchRecord → DispatchRecord) (s : State) :
    ∃ link, s.changeRole f = { s with link := link, disp := f s.disp } := by
  obtain ⟨r, h⟩ := tracking_eq (fun s => s.onDisp f) s
  exact ⟨_, h⟩

theorem generatorIn_iff {g : GeneratorState} : s.generatorIn g = true ↔ s.ownKind = some .generator ∧ s.disp.role = g := by
  simp [State.generatorIn, State.isGenerator]

/-- A start: the run output driven, STARTING with its limit, and the start counted (R145). -/
theorem startEngine_eq (s : State) : ∃ link, s.startEngine = { s with
    link := link, eng := { s.eng with run := true }
    disp := { s.disp with
      starts := s.disp.starts + 1, role := .starting, startTimer := some (s.station.startLimit * 1000)
      cooldownTimer := none } } :=
  changeRole_eq (fun d => { d with
    role := .starting, startTimer := some (s.station.startLimit * 1000), cooldownTimer := none })
    ((s.drive true).onDisp fun d => { d with starts := d.starts + 1 })

theorem unloadTrip_eq (s : State) : ∃ brk news issued,
    s.unloadTrip = { s with brk := brk, news := news, disp := { s.disp with tripIssued := issued } } := by
  unfold State.unloadTrip
  split
  · obtain ⟨brk, news, h⟩ := trip_eq (s.onDisp fun d => { d with tripIssued := true }) .dispatch
    exact ⟨brk, news, true, h⟩
  · exact ⟨s.brk, s.news, s.disp.tripIssued, rfl⟩

/-- The autonomous timer in STANDBY, not barred: an autonomous start (R145). -/
theorem autonomousExpired_of_standby (hk : s.ownKind = some .generator) (hr : s.disp.role = .standby)
    (hb : s.barred = false) : s.autonomousExpired.disp.role = .starting ∧ s.autonomousExpired.disp.autonomousMark = true ∧
    s.autonomousExpired.eng.run = true ∧ s.autonomousExpired.disp.starts = s.disp.starts + 1 ∧
    s.autonomousExpired.disp.startTimer = some (s.station.startLimit * 1000) := by
  generalize hu : s.onDisp (fun d => { d with autonomousTimer := none, autonomousSpent := true }) = u
  have standby : u.generatorIn .standby = true := by
    rw [← hu]
    exact generatorIn_iff.mpr ⟨hk, hr⟩
  have free : u.barred = false := by
    rw [← hu]
    exact hb
  obtain ⟨link, started⟩ := startEngine_eq u
  unfold State.autonomousExpired
  dsimp only
  rw [hu, if_pos (by simp [standby, free]), started, ← hu]
  exact ⟨rfl, rfl, rfl, rfl, rfl⟩

theorem startLimitExpired_eq (s : State) : ∃ brk fault port news link, s.startLimitExpired = { s with
    brk := brk, fault := fault, port := port, news := news, link := link, eng := { s.eng with run := false }
    disp := { s.disp with
      role := .startFailed, startTimer := none, autonomousMark := false, failures := s.disp.failures + 1 } } := by
  obtain ⟨link, changed⟩ := changeRole_eq (fun d => { d with
    role := .startFailed, startTimer := none, autonomousMark := false, failures := d.failures + 1 }) (s.drive false)
  unfold State.startLimitExpired
  obtain ⟨brk, fault, port, news, raised⟩ := raise_rest ((s.drive false).changeRole fun d => { d with
    role := .startFailed, startTimer := none, autonomousMark := false, failures := d.failures + 1 }) .startFailed .none
  rw [raised, changed]
  exact ⟨brk, fault, port, news, link, rfl⟩

/-- START_FAILED sets the bar latch (R112). -/
theorem raise_startFailed_latch (s : State) : (s.raise .startFailed .none).fault.barLatch = true := by
  unfold State.raise
  rw [tellBarred_fault]
  rfl

/-- The need of a generator is read off the tables and the settings (R144). -/
theorem needed_onDisp (f : DispatchRecord → DispatchRecord) (s : State) : (s.onDisp f).needed = s.needed := by
  have walk (required : Nat) (l : List RunEntry) : ∀ sum, (s.onDisp f).walk required sum l = s.walk required sum l := by
    induction l with
    | nil => exact fun _ => rfl
    | cons e es ih =>
      intro sum
      simp only [State.walk, ih]
      rfl
  exact congrArg (fun l : List Nat => l.contains s.own) (walk _ _ _)

/-- The minimum run expired in ONLINE with no need: the surplus dwell runs (R147). -/
theorem minimumExpired_of_online (hk : s.ownKind = some .generator) (hr : s.disp.role = .online) :
    ∃ surplus, s.minimumExpired = s.onDisp (fun d => { d with minimumTimer := none, surplusTimer := surplus }) ∧
      (s.needed = false → surplus =
        if s.disp.surplusTimer.isSome then s.disp.surplusTimer else some (s.station.surplusDwell * 1000)) := by
  generalize hu : s.onDisp (fun d => { d with minimumTimer := none }) = u
  have online : u.generatorIn .online = true := by
    rw [← hu]
    exact generatorIn_iff.mpr ⟨hk, hr⟩
  have need : u.needed = s.needed := by rw [← hu]; exact needed_onDisp _ s
  have rests : u.disp.minimumTimer = none := by rw [← hu]; rfl
  unfold State.minimumExpired
  rw [hu, State.judgeSurplus, if_pos online, rests, need]
  by_cases hn : s.needed = true
  · refine ⟨none, ?_, fun h => absurd (h.symm.trans hn) (by decide)⟩
    rw [if_neg (by simp [hn]), ← hu]
    rfl
  · refine ⟨_, ?_, fun _ => rfl⟩
    rw [if_pos (by simp [hn]), ← hu]
    rfl

theorem surplusExpired_disp (s : State) : s.surplusExpired.disp.role = .unloading ∧
    s.surplusExpired.disp.reason = some .surplus ∧ s.surplusExpired.disp.target = clampInt 0 1000 s.ownLoad := by
  unfold State.surplusExpired State.enterUnloading
  obtain ⟨link, changed⟩ := changeRole_eq (fun d => { d with
    role := .unloading, reason := some .surplus, target := clampInt 0 1000 s.ownLoad, surplusTimer := none
    tripIssued := false }) s
  rw [changed]
  obtain ⟨brk, news, issued, tripped⟩ := unloadTrip_eq { s with link := link, disp := { s.disp with
    role := .unloading, reason := some .surplus, target := clampInt 0 1000 s.ownLoad, surplusTimer := none
    tripIssued := false } }
  rw [tripped]
  exact ⟨rfl, rfl, rfl⟩

theorem cooldownExpired_eq (s : State) : ∃ link, s.cooldownExpired = { s with
    link := link, eng := { s.eng with run := false }
    disp := { s.disp with
      role := .standby, startTimer := none, minimumTimer := none, surplusTimer := none, cooldownTimer := none
      autonomousMark := false, reason := none, tripIssued := false } } :=
  changeRole_eq (fun d => { d with
    role := .standby, startTimer := none, minimumTimer := none, surplusTimer := none, cooldownTimer := none
    autonomousMark := false, reason := none, tripIssued := false }) (s.drive false)

end

/-- Settles O54. -/
theorem generatorTimersAct : Obligations.GeneratorTimersAct := by
  intro s hc hk
  refine ⟨fun ht hr hb => ?_, fun ht hr => ?_, fun ht hr => ?_, fun ht hr => ?_, fun ht hr => ?_⟩
  · exact ⟨_, _, timerEvent_of_running (timer := (·.disp.autonomousTimer)) State.autonomousExpired hc ht, rfl,
      (((Within.refl _ s).autonomousExpired).finish s).frame, autonomousExpired_of_standby hk hr hb⟩
  · obtain ⟨brk, fault, port, news, link, expired⟩ := startLimitExpired_eq s
    have after := (Within.refl {} s.startLimitExpired).finish s
    refine ⟨_, _, timerEvent_of_running (timer := (·.disp.startTimer)) State.startLimitExpired hc ht, rfl,
      (((Within.refl _ s).startLimitExpired rfl).finish s).frame, by rw [expired], by rw [expired], by rw [expired],
      (after.barLatch rfl).trans (raise_startFailed_latch _), after.stays _ (raise_pending _ _ _)⟩
  · obtain ⟨surplus, expired, dwell⟩ := minimumExpired_of_online hk hr
    refine ⟨_, _, timerEvent_of_running (timer := (·.disp.minimumTimer)) State.minimumExpired hc ht, rfl,
      (((Within.refl _ s).minimumExpired).finish s).frame, ?_⟩
    rw [expired]
    exact ⟨rfl, hr, dwell⟩
  · exact ⟨_, _, timerEvent_of_running (timer := (·.disp.surplusTimer)) State.surplusExpired hc ht, rfl,
      (((Within.refl _ s).surplusExpired).finish s).frame, surplusExpired_disp s⟩
  · obtain ⟨link, expired⟩ := cooldownExpired_eq s
    refine ⟨_, _, timerEvent_of_running (timer := (·.disp.cooldownTimer)) State.cooldownExpired hc ht, rfl,
      (((Within.refl _ s).cooldownExpired).finish s).frame, ?_⟩
    rw [expired]
    exact ⟨rfl, rfl, rfl⟩

/-! ### Owed orders (R164) -/

section
variable {s : State}

/-- A replaced list holds the new element and every old one that was not to be replaced. -/
theorem mem_of_replaceFirst {α : Type} {p : α → Bool} {v : α} : ∀ {l l' : List α}, replaceFirst p v l = some l' →
    v ∈ l' ∧ ∀ x ∈ l, p x = false → x ∈ l'
  | x :: xs, l', h => by
    unfold replaceFirst at h
    split at h
    next hx =>
      obtain rfl := Option.some.inj h
      refine ⟨List.mem_cons_self, fun y hy hp => ?_⟩
      obtain rfl | tail := List.mem_cons.mp hy
      · rw [hp] at hx
        exact absurd hx (by decide)
      · exact List.mem_cons_of_mem _ tail
    next hx =>
      obtain ⟨ys, hys, rfl⟩ := Option.map_eq_some_iff.mp h
      obtain ⟨new, old⟩ := mem_of_replaceFirst hys
      refine ⟨List.mem_cons_of_mem _ new, fun y hy hp => ?_⟩
      obtain rfl | tail := List.mem_cons.mp hy
      · exact List.mem_cons_self
      · exact List.mem_cons_of_mem _ (old y tail hp)

/-- The new order is owed, and of those owed before every one it does not replace. -/
theorem mem_placeOwed (p : OwedOrder → Bool) (o : OwedOrder) (xs : List OwedOrder) :
    o ∈ placeOwed p o xs ∧ ∀ x ∈ xs, p x = false → x ∈ placeOwed p o xs := by
  unfold placeOwed
  split
  next ys h =>
    obtain ⟨new, old⟩ := mem_of_replaceFirst h
    exact ⟨List.mem_reverse.mpr new, fun x hx hp => List.mem_reverse.mpr (old x (List.mem_reverse.mpr hx) hp)⟩
  next => exact ⟨by simp, fun x hx _ => List.mem_append_left _ hx⟩

/-- Whether an order is among the owed ones, in flight or not. -/
def State.owes (o : OrderKind) (s : State) : Prop := ∃ x ∈ s.chg.owed, x.order = o

/-- Requesting the head of the owed orders concerns the queue and the head's mark. -/
theorem requestOwed_eq (s : State) : ∃ link owed, s.requestOwed = { s with link := link, chg := { s.chg with owed := owed } } ∧
    owed.map (·.order) = s.chg.owed.map (·.order) := by
  unfold State.requestOwed
  split
  next h => exact ⟨s.link, s.chg.owed, rfl, rfl⟩
  next o rest h =>
    split
    · obtain ⟨link, requested⟩ := requestOrdered_eq s (.order o.order o.tieStation)
      dsimp only
      rw [requested]
      split
      · exact ⟨link, { o with inFlight := true } :: rest, rfl, by rw [h]; rfl⟩
      · exact ⟨link, s.chg.owed, rfl, rfl⟩
    · exact ⟨s.link, s.chg.owed, rfl, rfl⟩

theorem owes_of_orders {t : State} {o : OrderKind} (h : t.chg.owed.map (·.order) = s.chg.owed.map (·.order)) (ho : s.owes o) :
    t.owes o := by
  obtain ⟨x, hx, rfl⟩ := ho
  have member := List.mem_map_of_mem (f := (·.order)) hx
  rw [← h] at member
  obtain ⟨y, hy, same⟩ := List.mem_map.mp member
  exact ⟨y, hy, same⟩

/-- A section order owed (R164). -/
theorem owe_eq (o : OrderKind) (s : State) : ∃ link owed, s.owe o = { s with link := link, chg := { s.chg with owed := owed } } ∧
    ∃ x ∈ owed, x.order = o := by
  unfold State.owe
  obtain ⟨link, owed, requested, orders⟩ := requestOwed_eq (s.onChg fun c => { c with
    owed := placeOwed (fun x => x.order.isSectionOrder && !x.inFlight) ⟨o, none, false⟩ c.owed })
  refine ⟨link, owed, requested, ?_⟩
  have placed : (s.onChg fun c => { c with
      owed := placeOwed (fun x => x.order.isSectionOrder && !x.inFlight) ⟨o, none, false⟩ c.owed }).owes o :=
    ⟨_, (mem_placeOwed _ _ _).1, rfl⟩
  have kept := owes_of_orders (t := s.onChg fun c => { c with owed := owed }) orders placed
  exact kept

/-- A tie order owed leaves the section orders owed. -/
theorem oweTie_eq (o : OrderKind) (tie : Nat) (s : State) : ∃ link owed,
    s.oweTie o tie = { s with link := link, chg := { s.chg with owed := owed } } ∧
    ∀ k, k.isSectionOrder = true → s.owes k → ∃ x ∈ owed, x.order = k := by
  unfold State.oweTie
  obtain ⟨link, owed, requested, orders⟩ := requestOwed_eq (s.onChg fun c => { c with
    owed := placeOwed (fun x => x.tieStation == some tie && !x.order.isSectionOrder && !x.inFlight)
      ⟨o, some tie, false⟩ c.owed })
  refine ⟨link, owed, requested, fun k hk ho => ?_⟩
  obtain ⟨x, hx, rfl⟩ := ho
  have placed : (s.onChg fun c => { c with
      owed := placeOwed (fun x => x.tieStation == some tie && !x.order.isSectionOrder && !x.inFlight)
        ⟨o, some tie, false⟩ c.owed }).owes x.order :=
    ⟨x, (mem_placeOwed _ _ _).2 x hx (by simp [hk]), rfl⟩
  exact owes_of_orders (t := s.onChg fun c => { c with owed := owed }) orders placed

end

/-! ### The moves of the changeover machine (R166 to R171) -/

section
variable {s : State}

theorem moveTo_eq (c : ChangeoverState) (s : State) :
    ∃ link, s.moveTo c = { s with link := link, chg := { s.chg with state := c } } := by
  obtain ⟨r, h⟩ := tracking_eq (fun s => s.onChg fun r => { r with state := c }) s
  exact ⟨_, h⟩

/-- Judging a claim concerns the claim record, the queue and the hand-ons. -/
theorem judgeClaim_eq (s : State) :
    ∃ link token news, s.judgeClaim = { s with link := link, token := token, news := news } := by
  unfold State.judgeClaim
  split
  · split
    · exact ⟨s.link, s.token, _, rfl⟩
    · obtain ⟨link, requested⟩ := requestOrdered_eq s (.claim s.ownSections)
      dsimp only
      rw [requested]
      split
      · exact ⟨link, _, s.news, rfl⟩
      · exact ⟨link, s.token, s.news, rfl⟩
  · exact ⟨s.link, s.token, s.news, rfl⟩

theorem postWant_eq (w : Want) (s : State) :
    ∃ link token news, (s.postWant w).1 = { s with link := link, token := token, news := news } := by
  unfold State.postWant
  split
  · exact ⟨s.link, s.token, s.news, rfl⟩
  · split
    · exact ⟨s.link, s.token, s.news, rfl⟩
    · obtain ⟨link, token, news, h⟩ := judgeClaim_eq
        (s.onToken fun t => { t with state := .wanted, want := some w, cause := none, begun := false })
      exact ⟨link, token, news, h⟩

theorem postChangeover_eq (s : State) : ∃ link token news due,
    s.postChangeover = { s with link := link, token := token, news := news, chg := { s.chg with wantDue := due } } := by
  obtain ⟨link, token, news, posted⟩ := postWant_eq .changeover s
  have cases_of : s.postChangeover = (s.postWant .changeover).1.onChg (fun c => { c with wantDue := false }) ∨
      s.postChangeover = (s.postWant .changeover).1.onChg (fun c => { c with wantDue := true }) := by
    unfold State.postChangeover
    generalize s.postWant .changeover = answered
    obtain ⟨u, answer⟩ := answered
    cases answer with
    | taken => exact .inl rfl
    | claimInProgress => exact .inr rfl
    | notOpen => exact .inr rfl
  obtain h | h := cases_of
  · exact ⟨link, token, news, false, by rw [h, posted]; rfl⟩
  · exact ⟨link, token, news, true, by rw [h, posted]; rfl⟩

/-- What the judgment of ON_BACKUP keeps of the changeover record, its state apart. -/
structure KeepsOwed (s t : State) : Prop where
  tieTimer : t.chg.tieTimer = s.chg.tieTimer
  manualHold : t.chg.manualHold = s.chg.manualHold
  start : s.owes .start → t.owes .start

theorem KeepsOwed.refl (s : State) : KeepsOwed s s := ⟨rfl, rfl, id⟩

theorem KeepsOwed.trans {t u : State} (h : KeepsOwed s t) (k : KeepsOwed t u) : KeepsOwed s u :=
  ⟨k.tieTimer.trans h.tieTimer, k.manualHold.trans h.manualHold, k.start ∘ h.start⟩

theorem enterRetransfer_keeps (s : State) : s.enterRetransfer.chg.state = .retransfer ∧ KeepsOwed s s.enterRetransfer := by
  obtain ⟨link, moved⟩ := moveTo_eq .retransfer s
  obtain ⟨link', token, news, due, posted⟩ := postChangeover_eq (s.moveTo .retransfer)
  rw [State.enterRetransfer, posted, moved]
  exact ⟨rfl, rfl, rfl, id⟩

theorem enterOpenRetransfer_keeps (s : State) :
    s.enterOpenRetransfer.chg.state = .openRetransfer ∧ KeepsOwed s s.enterOpenRetransfer := by
  obtain ⟨link, moved⟩ := moveTo_eq .openRetransfer s
  obtain ⟨link', token, news, due, posted⟩ := postChangeover_eq (s.moveTo .openRetransfer)
  unfold State.enterOpenRetransfer
  dsimp only
  split
  · rw [moved]
    exact ⟨rfl, rfl, rfl, id⟩
  · rw [posted, moved]
    exact ⟨rfl, rfl, rfl, id⟩

theorem oweTie_keeps (o : OrderKind) (tie : Nat) (s : State) :
    (s.oweTie o tie).chg.state = s.chg.state ∧ KeepsOwed s (s.oweTie o tie) := by
  obtain ⟨link, owed, h, orders⟩ := oweTie_eq o tie s
  rw [h]
  exact ⟨rfl, rfl, rfl, orders .start rfl⟩

theorem oweTies_keeps (o : OrderKind) (ties : List Nat) : ∀ s : State,
    (ties.foldl (fun s n => s.oweTie o n) s).chg.state = s.chg.state ∧
      KeepsOwed s (ties.foldl (fun s n => s.oweTie o n) s) := by
  induction ties with
  | nil => exact fun s => ⟨rfl, .refl s⟩
  | cons n ns ih =>
    intro s
    obtain ⟨state, keeps⟩ := oweTie_keeps o n s
    obtain ⟨state', keeps'⟩ := ih (s.oweTie o n)
    exact ⟨state'.trans state, keeps.trans keeps'⟩

/-- The state ON_BACKUP is judged into (R168): it stays, unless the supply is healthy, the breaker OPEN, and neither a manual
hold, a lockout nor another section of the island stands against a retransfer. -/
def State.backupNext (s : State) : ChangeoverState :=
  if s.chg.monitor = .healthy ∧ s.chg.manualHold = false ∧ s.brk.state = .opened ∧ s.fault.lockout = false ∧
      s.islandShared s.ownSec = false then
    if (s.sec s.ownSec).live then if s.generatorServes then .retransfer else .onBackup else .openRetransfer
  else .onBackup

/-- The state in which ON_BACKUP is judged: the mark of the SPLITs asked for gone where no section is shared. -/
def State.unsharedCleared (s : State) : State := if s.ownShared then s else s.onChg fun c => { c with splitAsked := false }

theorem unsharedCleared_eq (s : State) : ∃ asked, s.unsharedCleared = s.onChg fun c => { c with splitAsked := asked } := by
  unfold State.unsharedCleared
  split
  · exact ⟨s.chg.splitAsked, rfl⟩
  · exact ⟨false, rfl⟩

/-- The judgment of ON_BACKUP: the state it leads to, and what it keeps (R168). -/
theorem judgeBackup_of_backup (hk : s.ownKind = some .incomer) (hs : s.chg.state = .onBackup) :
    s.judgeBackup.chg.state = s.backupNext ∧ KeepsOwed s s.judgeBackup := by
  obtain ⟨asked, cleared⟩ := unsharedCleared_eq s
  have keeps0 : KeepsOwed s s.unsharedCleared := by
    rw [cleared]
    exact ⟨rfl, rfl, id⟩
  have state0 : s.unsharedCleared.chg.state = .onBackup := by
    rw [cleared]
    exact hs
  have next0 : s.unsharedCleared.backupNext = s.backupNext := by
    rw [cleared]
    rfl
  rw [← next0]
  suffices judged : s.judgeBackup.chg.state = s.unsharedCleared.backupNext ∧ KeepsOwed s.unsharedCleared s.judgeBackup from
    ⟨judged.1, keeps0.trans judged.2⟩
  unfold State.judgeBackup
  rw [if_pos (by simp [State.changeoverIn, State.isIncomer, hk, hs]), ← State.unsharedCleared]
  generalize s.unsharedCleared = u at state0
  dsimp only
  split
  next healthy =>
    split
    next free =>
      split
      next shared =>
        have stays : u.backupNext = .onBackup :=
          if_neg fun all => by simp [State.ownShared, all.2.2.2.2] at shared
        split
        · exact ⟨state0.trans stays.symm, .refl u⟩
        · obtain ⟨state, keeps⟩ := oweTies_keeps .split
            ((u.tiesAt u.ownSec).filter fun n => (u.entry n).holds .closed || (u.entry n).holds .opening)
            (u.onChg fun c => { c with splitAsked := true })
          have asked : KeepsOwed u (u.onChg fun c => { c with splitAsked := true }) := ⟨rfl, rfl, id⟩
          exact ⟨(state.trans state0).trans stays.symm, asked.trans keeps⟩
      next alone =>
        have next : u.backupNext = if (u.sec u.ownSec).live then
            if u.generatorServes then .retransfer else .onBackup else .openRetransfer := by
          refine if_pos ?_
          simpa [State.ownShared, and_assoc] using And.intro healthy (And.intro free alone)
        rw [next, ← State.ownSection]
        split
        · split
          · exact enterRetransfer_keeps u
          · exact ⟨state0, .refl u⟩
        · exact enterOpenRetransfer_keeps u
    next held =>
      have stays : u.backupNext = .onBackup := if_neg fun all => held (by simp [all])
      exact ⟨state0.trans stays.symm, .refl u⟩
  next unhealthy =>
    have stays : u.backupNext = .onBackup := if_neg fun all => unhealthy (by simp [all])
    split
    · obtain ⟨link, owed, h, start⟩ := owe_eq .start u
      rw [h]
      exact ⟨state0.trans stays.symm, rfl, rfl, fun _ => start⟩
    · exact ⟨state0.trans stays.symm, .refl u⟩

end

/-- Settles O55. -/
theorem changeoverTimersAct : Obligations.ChangeoverTimersAct := by
  intro s hc hk
  refine ⟨fun ht hm => ?_, fun ht hm => ?_, fun ht hs => ?_, fun ht hs => ?_⟩
  · have expired : s.rideExpired = State.monitorChanged .disturbed .failed
        { s with chg := { s.chg with rideTimer := none, monitor := .failed, run := 0 } } := if_pos (by simp [hm])
    exact ⟨_, _, timerEvent_of_running (timer := (·.chg.rideTimer)) State.rideExpired hc ht,
      (((Within.refl _ s).rideExpired).finish s).frame, rfl, by rw [expired]⟩
  · have expired : s.returnExpired = State.monitorChanged .returning .healthy
        { s with chg := { s.chg with returnTimer := none, monitor := .healthy } } := if_pos (by simp [hm])
    exact ⟨_, _, timerEvent_of_running (timer := (·.chg.returnTimer)) State.returnExpired hc ht,
      (((Within.refl _ s).returnExpired).finish s).frame, rfl, by rw [expired]⟩
  · generalize hu : ({ s with chg := { s.chg with tieTimer := none } } : State) = u
    have waits : u.changeoverIn .tieWait = true := by
      have kind : u.ownKind = some .incomer := by rw [← hu]; exact hk
      have state : u.chg.state = .tieWait := by rw [← hu]; exact hs
      simp [State.changeoverIn, State.isIncomer, kind, state]
    have expired : s.tieAssistExpired = ((u.owe .start).moveTo .onBackup).judgeBackup := by
      rw [← hu] at waits ⊢
      exact if_pos waits
    refine ⟨_, u, timerEvent_of_running (timer := (·.chg.tieTimer)) State.tieAssistExpired hc ht,
      (((Within.refl _ s).tieAssistExpired).finish s).frame, rfl, by rw [expired], ?_⟩
    obtain ⟨link, owed, owes, start⟩ := owe_eq .start u
    obtain ⟨link', moved⟩ := moveTo_eq .onBackup (u.owe .start)
    generalize hw : (u.owe .start).moveTo .onBackup = w at moved
    have whole : w = { s with link := link', chg := { s.chg with tieTimer := none, owed := owed, state := .onBackup } } := by
      rw [moved, owes, ← hu]
    obtain ⟨next, keeps⟩ := judgeBackup_of_backup (s := w) (by rw [whole]; exact hk) (by rw [whole])
    refine ⟨keeps.start ?_, keeps.tieTimer.trans ?_, next.trans ?_⟩
    · rw [whole]; exact start
    · rw [whole]
    · rw [whole]; rfl
  · obtain ⟨link, owed, owes, sources⟩ := owe_eq .openSources (s.onChg fun c => { c with parallelTimer := none })
    have expired : s.parallelExpired =
        ((s.onChg fun c => { c with parallelTimer := none }).owe .openSources).raise .parallelLimit .none :=
      if_pos (by simp [State.changeoverIn, State.isIncomer, hs]; exact hk)
    obtain ⟨brk, fault, port, news, raised⟩ := raise_rest
      ((s.onChg fun c => { c with parallelTimer := none }).owe .openSources) .parallelLimit .none
    refine ⟨_, _, timerEvent_of_running (timer := (·.chg.parallelTimer)) State.parallelExpired hc ht,
      (((Within.refl _ s).parallelExpired).finish s).frame, rfl, ?_, ?_, ?_⟩
    · rw [expired, raised, owes]; rfl
    · rw [expired, raised, owes]; exact sources
    · rw [expired]
      exact ((Within.refl {} _).finish s).stays _ (raise_pending _ _ _)

end Sys2Proof.Machine
end

