-- ==== Sys2Proof/Proofs/FrameDeliveries.lean ====
section
/-!
SUPPORT. What the delivery of each frame command is made of (R1): `FrameDelivery` says once for every frame what its picture and
its work keep, and the statements about every delivery are read off it (R1, R3, R4, R6, R7, R16, R17, R25, R32, R38, R39).
-/

namespace Sys2Proof.Machine

/-! ### Work that leaves a station in DESYNC (R39) -/

/-- The parts of the state the owners of the tables work on, the step apart (R1 step 6). -/
abbrev ownerScope : Scope := { isl := true, secs := true, lapse := true, lists := true }

/-- Work that is asked for only under a condition. -/
theorem Within.Stays.ite {sc : Scope} {c : Prop} [Decidable c] {f : State → State} (hf : Within.Stays sc f) :
    Within.Stays sc fun t => if c then f t else t := fun s0 t v => by
  dsimp only
  split
  · exact hf s0 t v
  · exact v

namespace KeepsDesync

/-- The owners of the tables have no part in the step (R1 step 6). -/
theorem handOn {w : HandOn} (wt : Within.Stays ownerScope w.tokens) (wc : Within.Stays ownerScope w.claim)
    (wl : Within.Stays ownerScope w.lists) (wz : Within.Stays ownerScope w.zone) (before : State) :
    KeepsDesync (State.handOn w before) :=
  ofWithin (fun s => Within.handOn rfl rfl rfl wt wc wl wz (Within.refl ownerScope s) before) rfl

theorem handOnQuiet (before : State) : KeepsDesync (State.handOn HandOn.quiet before) :=
  handOn (Within.stays_id _) (Within.stays_id _) (Within.stays_id _) (Within.stays_id _) before

theorem same : KeepsDesync id := fun _ d => d

end KeepsDesync

/-! ### What a frame's picture keeps -/

/-- What the effect of a frame on the picture keeps: it stays within the scope of a delivery, its source stays heard, and a
station in DESYNC stays there. -/
structure PictureKeeps (h : Header) (picture : State → State) : Prop where
  stays : Within.Stays .delivered picture
  hears : ∀ s, s.isConfigured h.source = true → (s.entry h.source).Heard h.seq → ((picture s).entry h.source).Heard h.seq
  desync : KeepsDesync picture

section
variable {h : Header}

theorem StationEntry.Heard.of_present {seq : Byte} {e : StationEntry} (k : e.Heard seq) (p : Presence)
    (hp : p = .unknown → e.presence = .unknown) (stale : Bool) (content : Option StatusBody) (lapse : Lapse) :
    StationEntry.Heard seq { e with presence := p, stale := stale, content := content, lapse := lapse, silence := 0 } :=
  ⟨k.lastSeq, k.heard, rfl, fun u => k.known (hp u)⟩

theorem PictureKeeps.same (h : Header) : PictureKeeps h id := ⟨Within.stays_id _, fun _ _ k => k, .same⟩

theorem mismatchPicture_hears (s : State) (hk : s.isConfigured h.source = true) (heard : (s.entry h.source).Heard h.seq) :
    ((s.mismatchPicture h).entry h.source).Heard h.seq := by
  unfold State.mismatchPicture
  split
  · exact heard
  · rw [((Within.refl {} _).raise _ _ (by simp)).entry rfl rfl, onEntry_entry_self hk]
    exact heard.of_present _ (by simp) _ _ _

theorem PictureKeeps.status (h : Header) (b : StatusBody) : PictureKeeps h (State.statusPicture h b) where
  stays := fun _ _ w => w.statusPicture rfl h b
  hears := fun s hk heard => by
    unfold State.statusPicture
    split
    · rw [onEntry_entry_self hk]
      have same := heard.of_present (if (s.entry h.source).presence == .mismatched then .live else (s.entry h.source).presence)
        (by split <;> simp) false (some b) .none
      exact ⟨same.lastSeq, same.heard, heard.silence, same.known⟩
    · exact mismatchPicture_hears s hk heard
  desync := .ofWithin (sc := { table := true }) fun s => (Within.refl _ s).statusPicture rfl h b

theorem dropPicture_of_takesOut {s : State} {n : Nat} (ht : s.takesOut h n = true) : s.dropPicture h n =
    if n = s.own then ((s.dropEntry n).unqueueDrop n).enterDesync else (s.dropEntry n).unqueueDrop n := by
  have own : ((s.dropEntry n).unqueueDrop n).own = s.own := congrArg StationSettings.number
    (((Within.refl { table := true } s).dropEntry rfl n).unqueueDrop n).station
  simp [State.dropPicture, ht]

theorem dropPicture_of_stays {s : State} {n : Nat} (ht : s.takesOut h n = false) : Within {} s (s.dropPicture h n) := by
  unfold State.dropPicture
  rw [if_neg (by simp [ht])]
  split
  · exact (Within.refl _ s).unqueueDrop n
  · exact Within.refl _ s

theorem takesOut_iff {s : State} {n : Nat} : s.takesOut h n = true ↔
    s.appliesDrop h n = true ∧ (s.entry n).presence ≠ .dropped := by
  simp [State.takesOut]

theorem appliesDrop_iff {s : State} {n : Nat} : s.appliesDrop h n = true ↔
    s.reportsInStep h.source = true ∧ n ≠ h.source ∧ s.isConfigured n = true := by
  simp [State.appliesDrop, and_assoc]

/-- A DROP that takes a station out is work on the entry it names, and then on the step. -/
theorem dropPicture_within {s : State} {n : Nat} (ht : s.takesOut h n = true) :
    Within { step := true } (s.dropEntry n) (s.dropPicture h n) := by
  rw [dropPicture_of_takesOut ht]
  have w := (Within.refl { step := true } (s.dropEntry n)).unqueueDrop n
  split
  · exact w.enterDesync rfl
  · exact w

theorem PictureKeeps.drop (h : Header) (n : Nat) : PictureKeeps h (State.dropPicture h n) where
  stays := fun _ _ w => w.dropPicture rfl rfl h n
  hears := fun s hk heard => by
    cases ht : s.takesOut h n with
    | true =>
      obtain ⟨-, other, -⟩ := appliesDrop_iff.mp (takesOut_iff.mp ht).1
      rw [(dropPicture_within ht).entry rfl rfl, State.dropEntry, onEntry_entry_of_ne fun e => other e.symm]
      exact heard
    | false =>
      rw [(dropPicture_of_stays ht).entry rfl rfl]
      exact heard
  desync := fun s d => by
    cases ht : s.takesOut h n with
    | true =>
      have w := ((Within.refl { table := true } s).dropEntry rfl n).unqueueDrop n
      have kept : ((s.dropEntry n).unqueueDrop n).step.state = .desync := by rw [w.step rfl, d]
      rw [dropPicture_of_takesOut ht]
      split
      · exact KeepsDesync.enterDesync _ kept
      · exact kept
    | false => rw [(dropPicture_of_stays ht).step rfl, d]

/-! ### The carried table of a part 1 (R46) -/

/-- A carried entry, as it stands at the receiver. -/
theorem adoptTable_entry (p : SummaryOne) (s : State) (k : Nat) : (s.adoptTable p).entry (k + 1) =
    match p.entries[k]? with
    | some c => (s.entry (k + 1)).adopt s.digest (s.perUnitOf (k + 1)) c
    | none => s.entry (k + 1) := by
  simp only [State.entry, State.adoptTable, onPic_pic, List.getD_eq_getElem?_getD, List.getElem?_mapIdx]
  cases s.pic.table[k]? with
  | some e => cases p.entries[k]? <;> rfl
  | none => cases p.entries[k]? <;> rfl

/-- The state of a part 1 taken once the entries stand: a pending adoption voided, the carried table, and the source's entry. -/
def State.adoptEntries (h : Header) (p : SummaryOne) (s : State) : State :=
  ((if s.step.pendingAdoption.isSome then s.voidAdoption else s).adoptTable p).onEntry h.source fun e =>
    { e with presence := .live, lastSeq := some h.seq }

theorem adoptOne_within (h : Header) (p : SummaryOne) (s : State) :
    Within { delivery := true, secs := true, isl := true, step := true } (s.adoptEntries h p) (s.adoptOne h p) := by
  unfold State.adoptOne
  refine Within.meetEpoch rfl (Within.onStep rfl (Within.onIsl rfl (Within.onPic (Within.refl _ _) _ rfl (fun _ => rfl)
    (fun _ _ => rfl) (fun q => by simp at q) (fun _ => rfl) (fun _ => rfl) ?_ ?_ (fun q => by simp at q)) _) _ rfl) _
  · exact fun _ x => by simp [SectionRecord.derivedPart, State.adoptEntries]
  · exact fun x => by simp [State.adoptEntries]

theorem voidedFirst_within (s : State) :
    Within { step := true } s (if s.step.pendingAdoption.isSome then s.voidAdoption else s) := by
  split
  · exact (Within.refl _ s).voidAdoption rfl
  · exact Within.refl _ s

theorem StationEntry.adopt_heard (own : Word32) (perUnit : Int → Int) (c : SummaryEntry) (e : StationEntry) :
    (e.adopt own perUnit c).heard = e.heard ∧ (e.silence = 0 → (e.adopt own perUnit c).silence = 0) := by
  unfold StationEntry.adopt StationEntry.adoptedLapse
  split
  · exact ⟨rfl, fun _ => rfl⟩
  · exact ⟨rfl, fun z => z⟩

theorem adoptEntries_heard {s : State} {p : SummaryOne} (hk : s.isConfigured h.source = true)
    (heard : (s.entry h.source).Heard h.seq) : ((s.adoptEntries h p).entry h.source).Heard h.seq := by
  have voided := voidedFirst_within s
  unfold State.adoptEntries
  generalize (if s.step.pendingAdoption.isSome then s.voidAdoption else s) = v at voided
  have configured : (v.adoptTable p).isConfigured h.source = true := by
    rw [((Within.refl { table := true } v).adoptTable rfl p).isConfigured, voided.isConfigured, hk]
  rw [onEntry_entry_self configured]
  have kept : ((v.adoptTable p).entry h.source).heard = true ∧ ((v.adoptTable p).entry h.source).silence = 0 := by
    rw [← voided.entry rfl rfl] at heard
    cases hn : h.source with
    | zero =>
      rw [hn] at configured
      exact nomatch (configured : false = true)
    | succ k =>
      rw [hn] at heard
      rw [adoptTable_entry]
      split
      next c _ =>
        obtain ⟨same, rests⟩ := StationEntry.adopt_heard v.digest (v.perUnitOf (k + 1)) c (v.entry (k + 1))
        exact ⟨same.trans heard.heard, rests heard.silence⟩
      next => exact ⟨heard.heard, heard.silence⟩
  exact ⟨rfl, kept.1, kept.2, by simp⟩

theorem adoptOne_desync {s : State} (p : SummaryOne) (d : s.step.state = .desync) : (s.adoptOne h p).step.state = .desync := by
  have voided : (if s.step.pendingAdoption.isSome then s.voidAdoption else s).step.state = .desync := by
    split
    · exact KeepsDesync.voidAdoption s d
    · exact d
  have entries : (s.adoptEntries h p).step.state = .desync := by
    have w := (((Within.refl { table := true } (if s.step.pendingAdoption.isSome then s.voidAdoption else s)).adoptTable
      rfl p).onEntry rfl h.source (fun e => { e with presence := .live, lastSeq := some h.seq }) fun _ => rfl)
    exact (congrArg StepRecord.state (w.step rfl)).trans voided
  exact KeepsDesync.meetEpoch p.epoch _ entries

theorem PictureKeeps.partOne (h : Header) (p : SummaryOne) : PictureKeeps h (State.partOnePicture h p) where
  stays := fun _ _ w => w.partOnePicture rfl rfl rfl rfl rfl h p
  hears := fun s hk heard => by
    unfold State.partOnePicture
    split
    · rw [(adoptOne_within h p s).entry rfl rfl]
      exact adoptEntries_heard hk heard
    · rw [((Within.refl { step := true } s).meetEpoch rfl p.epoch).entry rfl rfl]
      exact heard
  desync := fun s d => by
    unfold State.partOnePicture
    split
    · exact adoptOne_desync p d
    · exact KeepsDesync.meetEpoch p.epoch s d

theorem PictureKeeps.partTwo (h : Header) (p : SummaryTwo) : PictureKeeps h (State.meetEpoch p.epoch) where
  stays := fun _ _ w => w.meetEpoch rfl _
  hears := fun s _ heard => by
    rw [((Within.refl { step := true } s).meetEpoch rfl p.epoch).entry rfl rfl]
    exact heard
  desync := .meetEpoch p.epoch

end

/-! ### The delivery each frame command is (R1) -/

/-- The state in which a frame is delivered: a DROP naming the station itself has ended its start silence (R25). -/
def State.silenceEnded (c : Instr) (h : Header) (s : State) : State := if c = .drop h s.own then s.endStartSilence else s

theorem silenceEnded_of_ne {c : Instr} {h : Header} {s : State} (hd : c ≠ .drop h s.own) : s.silenceEnded c h = s := if_neg hd

/-- A frame command as the delivery it is: its picture, its work, and what they keep. -/
structure FrameDelivery (c : Instr) (h : Header) (s : State) (k : FrameKind) (len : Nat) (picture : State → State)
    (work : State → State → State) : Prop where
  run : s.settings.state = .configured →
    exec c s = .next (State.finish s ((s.silenceEnded c h).deliver k len h picture work))
  keeps : PictureKeeps h picture
  stays : ∀ before, Within.Stays KeepsForm.workScope (work before)
  counts : (∀ p, c ≠ .summaryPart1 h p) → Within.Stays { table := true, step := true } picture
  desync : (∀ p, c ≠ .summaryPart2 h p) → ∀ before, KeepsDesync (work before)

section
variable {h : Header}

/-- A frame that has no effect on the entries but that its source has been heard. -/
theorem FrameDelivery.ofWork {c : Instr} {s : State} {k : FrameKind} {len : Nat} {work : State → State → State}
    (run : s.settings.state = .configured → exec c s = .next (State.finish s (s.deliver k len h id work)))
    (hd : c ≠ .drop h s.own) (stays : ∀ before, Within.Stays KeepsForm.workScope (work before))
    (desync : ∀ before, KeepsDesync (work before)) : FrameDelivery c h s k len id work where
  run := fun hc => by rw [silenceEnded_of_ne hd]; exact run hc
  keeps := .same h
  stays := stays
  counts := fun _ => Within.stays_id _
  desync := fun _ => desync

/-! ### Work by work -/

theorem KeepsDesync.statusWork (b : StatusBody) (before : State) : KeepsDesync (State.statusWork h b before) := fun s d => by
  have checked : ((((s.meetEpoch b.epoch).crossCheck h.source b).newerEpoch b).hearInStep b).step.state = .desync :=
    hearInStep b _ (newerEpoch b _ (crossCheck h.source b _ (meetEpoch b.epoch s d)))
  have handed := KeepsDesync.handOn (w := { HandOn.quiet with
    ended := State.endedClosing h.source before s
    claim := State.tieJudgeIncomer h.source
    capacityDue := State.capacityChanged h.source before s
    lists := fun t => if t.kindOf h.source == some .generator then t.judgeRunList h.source else t
    zone := State.repairZone h.source b }) (Within.stays_id _) (fun _ _ v => v.tieJudgeIncomer _)
    (fun _ t v => by dsimp only; split <;> simp [v])
    (fun _ _ v => v.repairZone rfl _ _) before _ checked
  unfold State.statusWork
  dsimp only
  refine voidBy _ _ ?_
  split
  · exact handed
  · exact judgeSummary _ handed

theorem KeepsDesync.mismatchWork (before : State) : KeepsDesync (State.mismatchWork h before) := fun s d =>
  voidBy _ _ (KeepsDesync.handOn (w := { HandOn.quiet with
    departed := if (s.entry h.source).presence == .mismatched && !((before.entry h.source).presence == .mismatched) then
      some h.source else none }) (Within.stays_id _) (Within.stays_id _) (Within.stays_id _) (Within.stays_id _) before s d)

theorem KeepsDesync.claimWork (secs : SectionSet) (before : State) : KeepsDesync (State.claimWork h secs before) :=
  fun s d => by
    unfold State.claimWork
    exact voidBy _ _ (KeepsDesync.handOn (Within.Stays.ite fun _ _ v => v.appendClaim rfl _ _)
      (fun _ t v => by dsimp only; split <;> simp [v]) (Within.stays_id _) (Within.stays_id _) before s d)

theorem KeepsDesync.releaseWork (secs : SectionSet) (cause : ReleaseCause) (before : State) :
    KeepsDesync (State.releaseWork h secs cause before) := fun s d => by
  unfold State.releaseWork
  exact voidBy _ _ (KeepsDesync.handOn (Within.Stays.ite fun _ _ v => v.applyRelease rfl _ _ _)
    (fun _ t v => by dsimp only; split <;> simp [v]) (Within.stays_id _) (Within.stays_id _) before s d)

/-- Work after the hand-ons that has no part in the step. -/
theorem KeepsDesync.andThen {f g : State → State} {sc : Scope} (hf : KeepsDesync f) (hg : ∀ t, Within sc t (g t))
    (hs : sc.step = false) : KeepsDesync fun s => g (f s) := comp hf (ofWithin hg hs)

theorem KeepsDesync.admitWork (a : Bool) (before : State) : KeepsDesync (State.admitWork h a before) := fun s d => by
  have handed := KeepsDesync.handOn (w := { HandOn.quiet with
    lists := fun t => if s.reportsInStep h.source then t.applyAdmit h.source a else t }) (Within.stays_id _)
    (Within.stays_id _) (Within.Stays.ite fun _ _ v => v.applyAdmit rfl _ _) (Within.stays_id _) before s d
  refine voidBy _ _ ?_
  split
  · exact ofWithin (sc := {}) (fun t => (Within.refl _ t).ownAdmit _) rfl _ handed
  · exact handed

theorem KeepsDesync.withdrawWork (before : State) : KeepsDesync (State.withdrawWork h before) := fun s d => by
  have handed := KeepsDesync.handOn (w := { HandOn.quiet with
    lists := fun t => if s.reportsInStep h.source then t.applyWithdraw h.source else t }) (Within.stays_id _)
    (Within.stays_id _) (Within.Stays.ite fun _ _ v => v.applyWithdraw rfl _) (Within.stays_id _) before s d
  refine voidBy _ _ ?_
  split
  · exact ofWithin (sc := {}) (fun t => (Within.refl _ t).ownWithdraw _) rfl _ handed
  · exact handed

theorem KeepsDesync.orderWork (o : OrderKind) (t : Option Nat) (before : State) :
    KeepsDesync (State.orderWork h o t before) := fun s d => by
  have handed := KeepsDesync.handOnQuiet before s d
  have applied : (if s.reportsInStep h.source then (State.handOn HandOn.quiet before s).applyOrder h.source o t
      else State.handOn HandOn.quiet before s).step.state = .desync := by
    split
    · exact ofWithin (sc := { secs := true }) (fun t => (Within.refl _ t).applyOrder rfl _ _ _) rfl _ handed
    · exact handed
  refine voidBy _ _ ?_
  split
  · exact ofWithin (sc := {}) (fun t => (Within.refl _ t).ownOrder _) rfl _ applied
  · exact applied

theorem KeepsDesync.dropWork (n : Nat) (before : State) : KeepsDesync (State.dropWork h n before) := fun s d => by
  unfold State.dropWork
  split
  · exact voidBy _ _ (voidBy _ _ (KeepsDesync.handOn (Within.stays_id _) (Within.stays_id _)
      (fun _ _ v => v.leaveWaiting rfl n) (fun _ _ v => v.zoneDrop rfl n) before s d))
  · exact voidBy _ _ (KeepsDesync.handOnQuiet before s d)

theorem KeepsDesync.partOneWork (taken : Bool) (before : State) : KeepsDesync (State.partOneWork h taken before) :=
  fun s d => by
    unfold State.partOneWork
    split
    · exact ofWithin (sc := {}) (fun t => (Within.refl _ t).roleFlags before) rfl _ d
    · exact voidBy _ _ (KeepsDesync.handOnQuiet before s d)

/-! ### Each frame command -/

namespace FrameDelivery

variable (h) (s : State)

theorem status (b : StatusBody) : FrameDelivery (.status h b) h s .status 16 (State.statusPicture h b)
    (if b.digest == s.digest then State.statusWork h b else State.mismatchWork h) where
  run := fun hc => by
    rw [silenceEnded_of_ne (by simp)]
    exact event_of_configured _ hc
  keeps := .status h b
  stays := fun before => by
    split
    · exact fun _ _ w => Within.statusWork rfl rfl rfl rfl rfl w h b before
    · exact fun _ _ w => Within.mismatchWork rfl rfl rfl rfl w h before
  counts := fun _ _ _ w => w.statusPicture rfl h b
  desync := fun _ before => by
    split
    · exact .statusWork b before
    · exact .mismatchWork before

theorem claim (secs : SectionSet) : FrameDelivery (.claim h secs) h s .claim 1 id (State.claimWork h secs) :=
  ofWork (event_of_configured _) (by simp) (fun before _ _ w => Within.claimWork rfl rfl rfl rfl w h secs before)
    fun before => .claimWork secs before

theorem release (secs : SectionSet) (cause : ReleaseCause) :
    FrameDelivery (.release h secs cause) h s .release 2 id (State.releaseWork h secs cause) :=
  ofWork (event_of_configured _) (by simp) (fun before _ _ w => Within.releaseWork rfl rfl rfl rfl w h secs cause before)
    fun before => .releaseWork secs cause before

theorem admitFeeder (a : Bool) : FrameDelivery (.admitFeeder h a) h s .admitFeeder 1 id (State.admitWork h a) :=
  ofWork (event_of_configured _) (by simp) (fun before _ _ w => Within.admitWork rfl rfl rfl rfl w h a before)
    fun before => .admitWork a before

theorem withdraw : FrameDelivery (.withdraw h) h s .withdraw 0 id (State.withdrawWork h) :=
  ofWork (event_of_configured _) (by simp) (fun before _ _ w => Within.withdrawWork rfl rfl rfl rfl w h before)
    fun before => .withdrawWork before

theorem order (o : OrderKind) (t : Option Nat) :
    FrameDelivery (.order h o t) h s .order (if t.isSome then 2 else 1) id (State.orderWork h o t) :=
  ofWork (event_of_configured _) (by simp) (fun before _ _ w => Within.orderWork rfl rfl rfl rfl w h o t before)
    fun before => .orderWork o t before

theorem block (on : Bool) : FrameDelivery (.block h on) h s .block 1 id
    (State.handOn { HandOn.quiet with zone := State.takeBlock h.source on }) :=
  ofWork (event_of_configured _) (by simp) (fun before _ _ w => Within.blockWork rfl rfl rfl rfl w h.source on before)
    fun before => .handOn (Within.stays_id _) (Within.stays_id _) (Within.stays_id _) (fun _ _ v => v.takeBlock rfl _ _) before

theorem intertrip (v : Bool) : FrameDelivery (.intertrip h v) h s .intertrip 1 id
    (State.handOn { HandOn.quiet with zone := State.takeIntertrip h.source v }) :=
  ofWork (event_of_configured _) (by simp) (fun before _ _ w => Within.intertripWork rfl rfl rfl rfl w h.source v before)
    fun before => .handOn (Within.stays_id _) (Within.stays_id _) (Within.stays_id _)
      (fun _ _ w => w.takeIntertrip rfl _ _) before

theorem drop (n : Nat) :
    FrameDelivery (.drop h n) h s .drop 1 (State.dropPicture h n) (State.dropWork h n) where
  run := fun hc => by
    refine (event_of_configured _ hc).trans ?_
    simp [State.dropDelivery, State.silenceEnded]
  keeps := .drop h n
  stays := fun before _ _ w => Within.dropWork rfl rfl rfl rfl rfl w h n before
  counts := fun _ _ _ w => w.dropPicture rfl rfl h n
  desync := fun _ before => .dropWork n before

theorem partOne (p : SummaryOne) : FrameDelivery (.summaryPart1 h p) h s .summary (SummaryOne.length p)
    (State.partOnePicture h p) (State.partOneWork h
      ((s.sourceNoted .summary (SummaryOne.length p) h).takesSummary h.source p)) where
  run := fun hc => by
    rw [silenceEnded_of_ne (by simp)]
    exact event_of_configured _ hc
  keeps := .partOne h p
  stays := fun before _ _ w => Within.partOneWork rfl rfl rfl rfl w h _ before
  counts := fun other => absurd rfl (other p)
  desync := fun _ before => .partOneWork _ before

theorem partTwo (p : SummaryTwo) : FrameDelivery (.summaryPart2 h p) h s .summary (SummaryTwo.length p)
    (State.meetEpoch p.epoch) (State.partTwoWork h p) where
  run := fun hc => by
    rw [silenceEnded_of_ne (by simp)]
    exact event_of_configured _ hc
  keeps := .partTwo h p
  stays := fun before _ _ w => Within.partTwoWork rfl rfl rfl rfl w h p before
  counts := fun _ _ _ w => w.meetEpoch rfl _
  desync := fun other => absurd rfl (other p)

end FrameDelivery

/-- Every frame command is a delivery of its own picture and work. -/
theorem frameDelivery {c : Instr} (s : State) (hf : frameHeader c = some h) :
    ∃ k len picture work, FrameDelivery c h s k len picture work := by
  cases c <;> simp only [frameHeader, Option.some.injEq, reduceCtorEq] at hf <;> subst hf
  case status h b => exact ⟨_, _, _, _, .status h s b⟩
  case claim h secs => exact ⟨_, _, _, _, .claim h s secs⟩
  case release h secs cause => exact ⟨_, _, _, _, .release h s secs cause⟩
  case admitFeeder h a => exact ⟨_, _, _, _, .admitFeeder h s a⟩
  case withdraw h => exact ⟨_, _, _, _, .withdraw h s⟩
  case order h o t => exact ⟨_, _, _, _, .order h s o t⟩
  case block h on => exact ⟨_, _, _, _, .block h s on⟩
  case intertrip h v => exact ⟨_, _, _, _, .intertrip h s v⟩
  case drop h n => exact ⟨_, _, _, _, .drop h s n⟩
  case summaryPart1 h p => exact ⟨_, _, _, _, .partOne h s p⟩
  case summaryPart2 h p => exact ⟨_, _, _, _, .partTwo h s p⟩

end

/-! ### A delivery of a configured source (R1) -/

section
variable {s : State} {h : Header} {k : FrameKind} {len : Nat} {picture : State → State} {work : State → State → State}

/-- The state a delivery's work begins in: the picture, and its derived values (R1 steps 3 to 5). -/
def State.pictured (k : FrameKind) (len : Nat) (h : Header) (picture : State → State) (s : State) : State :=
  State.judgeQuorum s (picture (s.sourceNoted k len h)).derive

theorem deliver_of_configured (hk : s.isConfigured h.source = true) : s.deliver k len h picture work =
    (work s (s.pictured k len h picture)).settle.endDelivery := if_pos hk

theorem deliver_of_unknown (hk : s.isConfigured h.source = false) : s.deliver k len h picture work = s.countDelivery :=
  if_neg fun t : s.countDelivery.isConfigured h.source = true => absurd (t.symm.trans hk) (by decide)

theorem pictured_within (k : FrameKind) (len : Nat) (h : Header) (picture : State → State) (s : State) :
    Within { derived := true } (picture (s.sourceNoted k len h)) (s.pictured k len h picture) :=
  ((Within.refl _ _).derive rfl).judgeQuorum s

/-- What follows the picture concerns the work's own scope and the derived values. -/
theorem delivered_within {sc : Scope} (hw : ∀ before, Within.Stays sc (work before)) (hk : s.isConfigured h.source = true) :
    Within sc (s.pictured k len h picture) (s.deliver k len h picture work) := by
  rw [deliver_of_configured hk]
  exact ((hw s _ _ (Within.refl _ _)).settle).endDelivery

/-- A delivery takes its source's entry as the picture leaves it, lapse states apart. -/
theorem delivered_unlapsed (hw : ∀ before, Within.Stays KeepsForm.workScope (work before))
    (hk : s.isConfigured h.source = true) (before : State) (n : Nat) :
    ((State.finish before (s.deliver k len h picture work)).entry n).unlapsed =
      ((picture (s.sourceNoted k len h)).entry n).unlapsed := by
  rw [((delivered_within hw hk).finish before).entry_unlapsed rfl, (pictured_within k len h picture s).entry_unlapsed rfl]

end

end Sys2Proof.Machine
end

