-- ==== Sys2Proof/Proofs/DeliveryRules.lean ====
section
/-!
SUPPORT. The rules every delivery keeps, and those of a STATUS and of a reception (R1, R3, R4, R6, R7, R16, R17, R21, R25, R32,
R38, R39).
-/

namespace Sys2Proof.Machine

/-! ### Start silence ended by a DROP (R25) -/

section
variable {s t : State} {c : Instr} {h : Header}

/-- The end of start silence concerns the mark and a STATUS request. -/
theorem silenceEnded_eq (c : Instr) (h : Header) (s : State) : ∃ mark request,
    s.silenceEnded c h = { s with link := { s.link with startSilence := mark, statusRequest := request } } ∧
      (s.link.statusRequest.isSome = true → request.isSome = true) ∧
      (c ≠ .drop h s.own → mark = s.link.startSilence) := by
  unfold State.silenceEnded State.endStartSilence
  split
  · split
    · exact ⟨false, some .change, rfl, fun _ => rfl, fun other => absurd ‹_› other⟩
    · exact ⟨s.link.startSilence, s.link.statusRequest, rfl, fun r => r, fun _ => rfl⟩
  · exact ⟨s.link.startSilence, s.link.statusRequest, rfl, fun r => r, fun _ => rfl⟩

/-- A frame from the state in which start silence has ended is one from the state before, start silence apart. -/
theorem Frame.of_silenceEnded {sc : Scope} (f : Frame sc (s.silenceEnded c h) t) :
    Frame sc { s with link := { s.link with startSilence := t.link.startSilence } } t := by
  obtain ⟨mark, request, ended, newer, -⟩ := silenceEnded_eq c h s
  rw [ended] at f
  exact { f with startSilence := rfl, request := fun r => f.request (newer r) }

theorem silenceEnded_isConfigured (c : Instr) (h : Header) (s : State) (n : Nat) :
    (s.silenceEnded c h).isConfigured n = s.isConfigured n := by
  obtain ⟨mark, request, ended, -⟩ := silenceEnded_eq c h s
  rw [ended]
  rfl

end

/-! ### Every delivery (R1, R3, R6, R16, R32) -/

/-- Work that stays within fewer parts of the state stays within the scope of a delivery. -/
theorem Within.toDelivered {sc : Scope} {s t : State} (w : Within sc s t) (bias : sc.bias = false := by rfl)
    (failure : sc.failure = false := by rfl) (bar : sc.bar = false := by rfl) (operation : sc.operation = false := by rfl) :
    Within .delivered s t :=
  { w with
    step := nofun, table := nofun, lapse := nofun, delivery := nofun
    quorumCount := nofun, quorum := nofun, derived := nofun
    secs := nofun, isl := nofun, blockList := nofun, intertrips := nofun
    speedBias := fun _ => w.speedBias bias, voltageBias := fun _ => w.voltageBias bias, failure := fun _ => w.failure failure
    barLatch := fun _ => w.barLatch bar, operation := fun _ => w.operation operation }

section
variable {s : State} {c : Instr} {h : Header} {k : FrameKind} {len : Nat} {picture : State → State}
  {work : State → State → State}

/-- The whole of a delivery of a configured source, from the state its picture was made in (R1 steps 3 to 6). -/
theorem delivered_from_sourceNoted (keeps : Within.Stays .delivered picture)
    (hw : ∀ before, Within.Stays KeepsForm.workScope (work before)) (u : State) (hk : u.isConfigured h.source = true)
    (before : State) : Within .delivered (u.sourceNoted k len h) (State.finish before (u.deliver k len h picture work)) :=
  ((keeps _ _ (Within.refl _ _)).trans (pictured_within k len h picture u).toDelivered).trans
    ((delivered_within hw hk).finish before).toDelivered

theorem delivered_delivery (counts : Within.Stays { table := true, step := true } picture)
    (hw : ∀ before, Within.Stays KeepsForm.workScope (work before)) (u : State) (hk : u.isConfigured h.source = true)
    (before : State) : (State.finish before (u.deliver k len h picture work)).pic.delivery = u.pic.delivery + 1 := by
  rw [((delivered_within hw hk).finish before).delivery rfl, (pictured_within k len h picture u).delivery rfl,
    (counts _ _ (Within.refl _ _)).delivery rfl, sourceNoted_delivery]

/-- A delivery's source has been heard. -/
theorem delivered_heard (keeps : PictureKeeps h picture)
    (hw : ∀ before, Within.Stays KeepsForm.workScope (work before)) (u : State) (hk : u.isConfigured h.source = true)
    (before : State) : ((State.finish before (u.deliver k len h picture work)).entry h.source).Heard h.seq := by
  have noted : ((u.sourceNoted k len h).entry h.source).Heard h.seq := by
    rw [sourceNoted_entry hk]
    exact StationEntry.heard_hear h.seq _
  have configured : (u.sourceNoted k len h).isConfigured h.source = true := by rw [sourceNoted_isConfigured, hk]
  exact (keeps.hears _ configured noted).of_unlapsed (delivered_unlapsed hw hk before h.source)

end

/-- A station heard of is LIVE unless its entry is MISMATCHED (R3), and a matching digest makes it so (R4). -/
theorem StationEntry.presence_of_hear (seq : Byte) (e : StationEntry) :
    (e.hear seq).presence = if e.presence = .mismatched then .mismatched else .live := by
  unfold StationEntry.hear
  cases e.presence <;> rfl

theorem StationEntry.presence_of_hear_matched (seq : Byte) (e : StationEntry) :
    (if (e.hear seq).presence == .mismatched then Presence.live else (e.hear seq).presence) = .live := by
  rw [presence_of_hear]
  split <;> rfl

/-- Settles O36. -/
theorem deliveryIsCountedAndItsSourceNoted : Obligations.DeliveryIsCountedAndItsSourceNoted := by
  intro c h s hc hf
  obtain ⟨k, len, picture, work, d⟩ := frameDelivery s hf
  obtain ⟨mark, request, ended, -⟩ := silenceEnded_eq c h s
  refine ⟨fun hk => ?_, fun hk => ?_⟩
  · have unknown : (s.silenceEnded c h).isConfigured h.source = false := by rw [silenceEnded_isConfigured, hk]
    rw [d.run hc, deliver_of_unknown unknown]
    have counted : (s.silenceEnded c h).countDelivery =
        { s.silenceEnded c h with pic := { s.pic with delivery := s.pic.delivery + 1 } } := by
      rw [ended]
      rfl
    rw [counted]
    rfl
  · have configured : (s.silenceEnded c h).isConfigured h.source = true := by rw [silenceEnded_isConfigured, hk]
    have heard := delivered_heard (k := k) (len := len) d.keeps d.stays _ configured s
    have counted : (s.silenceEnded c h).pic.delivery = s.pic.delivery := by rw [ended]
    refine ⟨_, d.run hc, heard.lastSeq, heard.heard, heard.silence, heard.known, fun other => ?_, ?_⟩
    · rw [delivered_delivery (d.counts other) d.stays _ configured s, counted]
    · exact Frame.of_silenceEnded ((((within_sourceNoted _ k len h).toDelivered).trans
        (delivered_from_sourceNoted d.keeps.stays d.stays _ configured s)).frame)

/-- Settles O37. -/
theorem linkGapLosesStep : Obligations.LinkGapLosesStep := by
  intro c h q s hc hf hk live last other
  obtain ⟨k, len, picture, work, d⟩ := frameDelivery s hf
  obtain ⟨mark, request, ended, -⟩ := silenceEnded_eq c h s
  have configured : (s.silenceEnded c h).isConfigured h.source = true := by rw [silenceEnded_isConfigured, hk]
  have gap : ((s.silenceEnded c h).entry h.source).gapAt h.seq = true := by
    have same : (s.silenceEnded c h).entry h.source = s.entry h.source := by
      rw [ended]
      rfl
    have next : (h.seq == q + 1) = false := by simpa using other
    simp only [same, StationEntry.gapAt, live, last, next]
    rfl
  refine ⟨_, d.run hc, ?_, fun inStep notTwo => ?_⟩
  · exact (delivered_from_sourceNoted d.keeps.stays d.stays _ configured s).stays _ (sourceNoted_pending gap)
  · have lost : ((s.silenceEnded c h).sourceNoted k len h).step.state = .desync :=
      sourceNoted_desync (by rw [ended]; exact inStep) gap
    have pictured : ((s.silenceEnded c h).pictured k len h picture).step.state = .desync := by
      rw [(pictured_within k len h picture (s.silenceEnded c h)).step rfl]
      exact d.keeps.desync _ lost
    rw [deliver_of_configured configured,
      ((((Within.refl {} (work (s.silenceEnded c h) ((s.silenceEnded c h).pictured k len h picture))).settle).endDelivery).finish
        s).step rfl]
    exact d.desync notTwo _ _ pictured

/-! ### STATUS (R4, R7, R17) -/

section
variable {s : State} {h : Header} {b : StatusBody}

theorem sourceNoted_digest (k : FrameKind) (len : Nat) : (s.sourceNoted k len h).digest = s.digest := by
  simp only [State.digest, (within_sourceNoted s k len h).settings]

theorem statusPicture_of_match (hd : b.digest = s.digest) : s.statusPicture h b = s.onEntry h.source fun e => { e with
    presence := if e.presence == .mismatched then .live else e.presence, content := some b, stale := false
    lapse := .none } := if_pos (by simp [hd])

/-- A STATUS of another digest from a LIVE peer makes the entry MISMATCHED (R4). -/
theorem statusPicture_of_mismatch (hd : b.digest ≠ s.digest) (ho : h.source ≠ s.own)
    (live : (s.entry h.source).presence = .live) : s.statusPicture h b = (s.onEntry h.source fun e =>
      { e with presence := .mismatched, stale := e.stale || e.content.isSome, silence := 0 }).raise .digestMismatch
        (.station h.source) := by
  rw [State.statusPicture, if_neg (by simpa using hd), State.mismatchPicture, if_neg (by simp [ho, live])]

end

/-- Settles O38. -/
theorem statusBecomesTheContent : Obligations.StatusBecomesTheContent := by
  intro h b s hc hk
  have d := FrameDelivery.status h s b
  have plain : s.silenceEnded (.status h b) h = s := silenceEnded_of_ne (by simp)
  have run := d.run hc
  rw [plain] at run
  have after (n : Nat) := delivered_unlapsed (k := .status) (len := 16) (picture := State.statusPicture h b) d.stays hk s n
  have configured : (s.sourceNoted .status 16 h).isConfigured h.source = true := by rw [sourceNoted_isConfigured, hk]
  refine ⟨fun hd => ⟨_, run, ?_⟩, fun hd ho live => ⟨_, run, ?_⟩⟩
  · have picture := statusPicture_of_match (s := s.sourceNoted .status 16 h) (h := h) (hd.trans (sourceNoted_digest _ _).symm)
    have source := after h.source
    rw [picture, onEntry_entry_self configured, sourceNoted_entry hk] at source
    refine ⟨(congrArg StationEntry.content source :), (congrArg StationEntry.stale source :),
      (congrArg StationEntry.presence source :).trans ?_, fun n hn => ?_⟩
    · exact StationEntry.presence_of_hear_matched h.seq (s.entry h.source)
    · rw [after n, picture, onEntry_entry_of_ne hn, sourceNoted_entry_of_ne hn]
  · have own : (s.sourceNoted .status 16 h).own = s.own :=
      congrArg StationSettings.number (within_sourceNoted s .status 16 h).station
    have noted : ((s.sourceNoted .status 16 h).entry h.source).presence = .live := by
      rw [sourceNoted_entry hk]
      simp [StationEntry.hear, live]
    have picture := statusPicture_of_mismatch (s := s.sourceNoted .status 16 h) (h := h)
      (by rw [sourceNoted_digest]; exact hd) (by rw [own]; exact ho) noted
    have source := after h.source
    rw [picture, ((Within.refl {} _).raise _ _ (by simp)).entry rfl rfl, onEntry_entry_self configured,
      sourceNoted_entry hk] at source
    refine ⟨(congrArg StationEntry.presence source :), (congrArg StationEntry.content source :), ?_⟩
    have pending := ((pictured_within .status 16 h (State.statusPicture h b) s).toDelivered.trans
      ((delivered_within d.stays hk).finish s).toDelivered).stays .digestMismatch
    rw [picture] at pending
    exact pending (raise_pending _ _ _)

/-! ### Receptions (R21) -/

section
variable {s : State} {u : Unread} {bytes : List Byte}

theorem exec_receiveDiscard_of_frame {f : Sys2Proof.Frame} (hf : parseFrame bytes = some f) (s : State) :
    exec (.receiveDiscard bytes) s = exec f.command s := by
  have accepted : frameAccepted bytes = true := by
    unfold parseFrame at hf
    by_contra h
    rw [if_neg h] at hf
    exact nomatch hf
  have taken : s.receive bytes = s.takeFrame f := by
    rw [State.receive, if_pos accepted, State.takeBytes, hf]
  have run : exec (.receiveDiscard bytes) s = event (State.takeFrame f) s := by
    show event (State.receive bytes) s = _
    simp only [event, taken]
  rw [run]
  obtain ⟨header, body⟩ := f
  cases body <;> rfl

/-- A code from 1 to 10 names a kind. -/
theorem frameKind_ofCode_isSome {n : Nat} (h : inRange 1 10 n = true) : (FrameKind.ofCode n).isSome = true := by
  obtain ⟨low, high⟩ := inRange_iff.mp h
  interval_cases n <;> rfl

/-- An accepted reception with a code that names no value is the delivery of what is read of it. -/
theorem takeBytes_of_unread (ha : frameAccepted bytes = true) (hn : parseFrame bytes = none) : ∃ u : Unread,
    u.header = ⟨byteAt bytes 1, BitVec.ofNat 8 (byteAt bytes 2)⟩ ∧ ∀ s : State, s.takeBytes bytes = s.unreadDelivery u := by
  have kind : inRange 1 10 (byteAt bytes 0) = true := by
    have accepted := ha
    simp only [frameAccepted, Bool.and_eq_true] at accepted
    exact accepted.1.1.1.2
  obtain ⟨k, named⟩ := Option.isSome_iff_exists.mp (frameKind_ofCode_isSome kind)
  refine ⟨⟨k, ⟨byteAt bytes 1, BitVec.ofNat 8 (byteAt bytes 2)⟩, bytes.length - 9, BitVec.ofNat 32 (longAt bytes 9),
    byteAt bytes 5⟩, rfl, fun s => ?_⟩
  simp only [State.takeBytes, hn, parseUnread, ha, named]
  rfl

theorem mismatchPicture_keeps {h : Header} (s : State) (hk : s.isConfigured h.source = true) :
    ((s.mismatchPicture h).entry h.source).content = (s.entry h.source).content ∧
    ((s.entry h.source).presence ≠ .dropped → ((s.mismatchPicture h).entry h.source).presence ≠ .dropped) := by
  unfold State.mismatchPicture
  split
  · exact ⟨rfl, id⟩
  · rw [((Within.refl {} _).raise _ _ (by simp)).entry rfl rfl, onEntry_entry_self hk]
    exact ⟨rfl, fun _ => by simp⟩

/-- An unread frame leaves its source heard, with the content it had, and no DROPPED entry (log 3). -/
theorem unreadPicture_keeps (hk : s.isConfigured u.header.source = true) :
    ((s.unreadPicture u).entry u.header.source).content = (s.entry u.header.source).content ∧
    ((s.entry u.header.source).presence ≠ .dropped → ((s.unreadPicture u).entry u.header.source).presence ≠ .dropped) ∧
    ((s.entry u.header.source).Heard u.header.seq → ((s.unreadPicture u).entry u.header.source).Heard u.header.seq) := by
  unfold State.unreadPicture
  split
  · split
    · rw [onEntry_entry_self hk]
      refine ⟨rfl, fun present => ?_, fun heard => ⟨heard.lastSeq, heard.heard, heard.silence, ?_⟩⟩
      · dsimp only
        split
        · simp
        · exact present
      · dsimp only
        split
        · simp
        · exact heard.known
    · exact ⟨(mismatchPicture_keeps s hk).1, (mismatchPicture_keeps s hk).2, mismatchPicture_hears s hk⟩
  · exact ⟨rfl, id, id⟩

end

/-- Settles O34. -/
theorem discardsAreOnlyCounted : Obligations.DiscardsAreOnlyCounted := by
  intro bytes s
  refine ⟨fun hc => event_of_configured _ hc, fun hc ha => ?_, fun f hf => exec_receiveDiscard_of_frame hf s,
    fun hc ha hn => ?_, rfl⟩
  · refine (event_of_configured (State.receive bytes) hc).trans ?_
    rw [State.receive, if_neg (by simp [ha])]
    rfl
  · obtain ⟨u, header, taken⟩ := takeBytes_of_unread ha hn
    have stays (before : State) : Within.Stays KeepsForm.workScope (State.unreadWork u before) := fun _ _ w =>
      w.unreadWork rfl rfl rfl rfl u before
    have table : Within.Stays { table := true, step := true } (State.unreadPicture u) := fun _ _ w => w.unreadPicture rfl u
    have run : exec (.receiveDiscard bytes) s = .next (State.finish s (s.unreadDelivery u)) := by
      refine (event_of_configured (State.receive bytes) hc).trans ?_
      rw [State.receive, if_pos ha, taken]
    have source : byteAt bytes 1 = u.header.source := by rw [header]
    have seq : BitVec.ofNat 8 (byteAt bytes 2) = u.header.seq := by rw [header]
    rw [source, seq]
    have whole : Within .delivered s (State.finish s (s.unreadDelivery u)) :=
      (Within.unreadDelivery (Within.refl _ s) u).finish s
    refine ⟨_, run, ?_, whole.receiveDiscard, fun hk => ?_⟩
    · cases hk : s.isConfigured u.header.source with
      | true => exact delivered_delivery table stays s hk s
      | false =>
        rw [State.unreadDelivery, deliver_of_unknown hk, ((Within.refl {} s.countDelivery).finish s).delivery rfl]
        rfl
    · have configured : (s.sourceNoted u.kind u.length u.header).isConfigured u.header.source = true := by
        rw [sourceNoted_isConfigured, hk]
      obtain ⟨content, present, hears⟩ := unreadPicture_keeps configured
      rw [sourceNoted_entry hk] at content present hears
      have after := delivered_unlapsed (k := u.kind) (len := u.length) (picture := State.unreadPicture u) stays hk s
        u.header.source
      have heard := (hears (StationEntry.heard_hear _ _)).of_unlapsed after
      refine ⟨heard.lastSeq, heard.heard, heard.silence, heard.known, fun dropped => ?_,
        (congrArg StationEntry.content after :).trans content⟩
      refine present ?_ ((congrArg StationEntry.presence after :).symm.trans dropped)
      rw [StationEntry.presence_of_hear]
      split <;> simp

end Sys2Proof.Machine
end

