-- ==== Sys2Proof/Proofs/TokenDeliveries.lean ====
section
/-!
SUPPORT. What the Token Unit's part of a delivery makes of the holders, the claim queues, the last orders and the last releases
(R120 to R122, R127 to R129), and the deliveries of a CLAIM and of a RELEASE.
-/

namespace Sys2Proof.Machine

/-! ### The hand-ons of a delivery, owner by owner (R1 step 6) -/

section
variable {before s : State}

/-- What the owners of the lists and the Zone Unit do after the tokens' work leaves the tokens. -/
theorem handOn_from_tokens {sc : Scope} (hi : sc.isl = true) {w : HandOn} (wc : Within.Stays sc w.claim)
    (wl : Within.Stays sc w.lists) (wz : Within.Stays sc w.zone) (before s : State) :
    Within sc (State.tokenWork before w.departed w.ended w.tokens s) (State.handOn w before s) := by
  unfold State.handOn
  exact (wz _ _ ((wc _ _ (Within.refl sc _).judgePlace).seeGrant.listWork hi wl before _)).roleFlags before

/-- The state in which a frame's own effect on the tokens is worked: what departed stations and faulted sections leave. -/
def State.tokensCleared (before : State) (departed : Option Nat) (s : State) : State :=
  (SectionSet.members (newlyFaulted before s)).foldl State.faultSection
    (match departed with
    | some n => (s.startLapse n).freeStation n
    | none => s)

theorem tokenWork_eq (before : State) (departed : Option Nat) (ended : SectionSet) (own : State → State) (s : State) :
    ∃ secs, State.tokenWork before departed ended own s = (own (State.tokensCleared before departed s)).grantChecks secs :=
  ⟨_, rfl⟩

theorem tokensCleared_within (before : State) (departed : Option Nat) (s : State) :
    Within { secs := true, lapse := true } s (State.tokensCleared before departed s) := by
  unfold State.tokensCleared
  refine Within.foldl _ (fun _ x v => Within.faultSection rfl v x) _ _ ?_
  cases departed with
  | some n => exact Within.freeStation rfl ((Within.refl _ s).startLapse rfl n) n
  | none => exact Within.refl _ s

/-- What every step of a chain of grant checks keeps, the chain keeps. -/
theorem grantChecks_induction {p : State → Prop} (hp : ∀ t x, p t → p (t.grantCheck x)) (secs : SectionSet) (h : p s) :
    p (s.grantChecks secs) := by
  unfold State.grantChecks
  generalize SectionSet.members secs = l
  induction l generalizing s with
  | nil => exact h
  | cons x xs ih => exact ih (hp s x h)

/-- What every step of a chain of faulted sections keeps, the chain keeps. -/
theorem faultSections_induction {p : State → Prop} (hp : ∀ t x, p t → p (t.faultSection x)) (l : List BusSection) (h : p s) :
    p (l.foldl State.faultSection s) := by
  induction l generalizing s with
  | nil => exact h
  | cons x xs ih => exact ih (hp s x h)

/-- A grant check grants nothing, or the head of a queue whose section, and every section it grants, is free (R121, R122). -/
theorem grantCheck_cases (s : State) (x : BusSection) : s.grantCheck x = s ∨ ∃ q secs,
    s.grantCheck x = s.grant q secs ∧ (∀ y, secs.get y = true → (s.sec y).holder = 0) ∧ (s.sec x).queues q = true := by
  by_cases hg : s.grantable x = true
  · have free (y : BusSection) (h : s.grantable y = true) : (s.sec y).holder = 0 := (grantable_iff.mp h).2.2.1
    cases hq : (s.sec x).queue with
    | nil => exact .inl (grantCheck_of_empty hq)
    | cons q rest =>
      have queued : (s.sec x).queues q.station = true := by simp [SectionRecord.queues, hq]
      by_cases hk : s.kindOf q.station = some .tie
      · rw [grantCheck_of_tie hg hq hk]
        split
        next ready =>
          refine .inr ⟨q.station, s.connects q.station, rfl, fun y hy => ?_, queued⟩
          by_cases same : y = x
          · rw [same]; exact free x hg
          · exact free y (tieReady_iff.mp ready y hy same).1
        next => exact .inl rfl
      · rw [grantCheck_of_single hg hq hk]
        refine .inr ⟨q.station, SectionSet.one x, rfl, fun y hy => ?_, queued⟩
        rw [SectionSet.get_one_iff.mp hy]
        exact free x hg
  · exact .inl (grantCheck_of_not_grantable hg)

end

/-! ### A claim that holds or waits (R120, R121) -/

section
variable {s : State} {n : Nat} {e : QueueEntry} {x : BusSection}

/-- A station is holder of a section, or an entry of it waits there. -/
def State.placed (n : Nat) (e : QueueEntry) (x : BusSection) (s : State) : Prop :=
  (s.sec x).holder = n ∨ e ∈ (s.sec x).queue

theorem placed_grantCheck (hn : n ≠ 0) (he : e.station = n) (s : State) (y : BusSection) (h : s.placed n e x) :
    (s.grantCheck y).placed n e x := by
  obtain same | ⟨q, secs, granted, free, -⟩ := grantCheck_cases s y
  · rwa [same]
  · rw [granted, State.placed, grant_sec]
    split
    next named =>
      by_cases own : q = n
      · exact .inl own
      · obtain holds | waits := h
        · exact absurd (holds.symm.trans (free x named)) hn
        · refine .inr ?_
          simp only [unqueue, List.mem_filter]
          exact ⟨waits, by simp [he, Ne.symm own]⟩
    next => exact h

theorem placed_appendClaim {secs : SectionSet} (hx : secs.get x = true) (s : State) :
    (s.appendClaim n secs).placed n ⟨n, s.pic.delivery⟩ x := by
  have read : (s.appendClaim n secs).sec x = { s.sec x with queue := (s.sec x).queue ++ [⟨n, s.pic.delivery⟩] } :=
    (PerSection.get_make ..).trans (if_pos hx)
  exact .inr (by rw [read]; simp)

/-- The fields of the token part of a Section Record. -/
theorem SectionRecord.tokenPart_fields {a b : SectionRecord} (h : a.tokenPart = b.tokenPart) :
    a.holder = b.holder ∧ a.grant = b.grant ∧ a.queue = b.queue ∧ a.lastOrder = b.lastOrder ∧
      a.lastRelease = b.lastRelease :=
  ⟨(congrArg SectionRecord.holder h :), (congrArg SectionRecord.grant h :), (congrArg SectionRecord.queue h :),
    (congrArg SectionRecord.lastOrder h :), (congrArg SectionRecord.lastRelease h :)⟩

theorem placed_of_tokenPart {t : State} (h : (t.sec x).tokenPart = (s.sec x).tokenPart) (p : s.placed n e x) :
    t.placed n e x := by
  obtain ⟨holder, -, queue, -⟩ := SectionRecord.tokenPart_fields h
  rwa [State.placed, holder, queue]

theorem not_zero_of_isConfigured (h : s.isConfigured n = true) : n ≠ 0 := by
  rintro rfl
  exact nomatch (h : false = true)

end

section
variable {s : State} {h : Header}

/-- For a frame with no effect on the entries but its source's, the work begins in the noted state. -/
theorem pictured_same (k : FrameKind) (len : Nat) (h : Header) (s : State) : s.pictured k len h id = s.noted k len h := rfl

/-- A CLAIM applied and not discarded: the claim is appended, and the grant checks follow. -/
theorem claimWork_of_appended {secs : SectionSet} {before u : State} (ha : u.reportsInStep h.source = true)
    (ht : u.claimTest h.source secs = none) : ∃ checked,
    Within idleClaimScope (((State.tokensCleared before none u).appendClaim h.source secs).grantChecks checked)
      (State.claimWork h secs before u) := by
  have work : State.claimWork h secs before u = (State.handOn { HandOn.quiet with
      tokens := fun t => t.appendClaim h.source secs
      claim := fun t => if h.source == t.own then t.ownClaim .appended else t } before u).voidBy h.source := by
    simp [State.claimWork, ha, ht]
  have handed := handOn_from_tokens (sc := idleClaimScope) (w := { HandOn.quiet with
      tokens := fun t => t.appendClaim h.source secs
      claim := fun t => if h.source == t.own then t.ownClaim .appended else t }) rfl
    (fun _ t v => by dsimp only; split <;> simp [v]) (Within.stays_id _) (Within.stays_id _) before u
  rw [work]
  exact ⟨_, Within.voidBy rfl handed _⟩

end

/-- Settles O39. -/
theorem claimIsQueuedOrGranted : Obligations.ClaimIsQueuedOrGranted := by
  intro h secs s u hc hk hu
  refine ⟨_, exec_claim h secs hc, fun ha ht x hx => ?_, fun hn hf x => ?_⟩
  · obtain ⟨checked, worked⟩ := claimWork_of_appended (before := s) ha ht
    have whole : Within idleClaimScope (((State.tokensCleared s none u).appendClaim h.source secs).grantChecks checked)
        (State.finish s (s.claimDelivery h secs)) := by
      rw [State.claimDelivery, deliver_of_configured hk, pictured_same, ← hu]
      exact worked.settle.endDelivery.finish s
    have delivery : (State.tokensCleared s none u).pic.delivery = u.pic.delivery :=
      (tokensCleared_within s none u).delivery rfl
    have appended := placed_appendClaim (n := h.source) hx (State.tokensCleared s none u)
    rw [delivery] at appended
    have checked := grantChecks_induction (p := State.placed h.source ⟨h.source, u.pic.delivery⟩ x)
      (fun t y => placed_grantCheck (not_zero_of_isConfigured hk) rfl t y) checked appended
    exact placed_of_tokenPart (whole.secs rfl x) checked
  · subst hu
    exact (((claimDelivery_of_no_effect hk hn hf).finish s).secs rfl x).trans ((within_noted s .claim 1 h).secs rfl x)

/-! ### A RELEASE (R127) -/

section
variable {s t : State} {n : Nat}

/-- Of the tokens and queues nothing has been added, and no section has a new holder. -/
structure Lessened (s t : State) : Prop where
  queue : ∀ y, ∀ e ∈ (t.sec y).queue, e ∈ (s.sec y).queue
  holder : ∀ y, (t.sec y).holder = (s.sec y).holder ∨ (t.sec y).holder = 0
  lastOrder : ∀ y, (t.sec y).lastOrder = (s.sec y).lastOrder

theorem Lessened.refl (s : State) : Lessened s s := ⟨fun _ _ h => h, fun _ => .inl rfl, fun _ => rfl⟩

theorem Lessened.trans {u : State} (h : Lessened s t) (k : Lessened t u) : Lessened s u where
  queue := fun y e he => h.queue y e (k.queue y e he)
  holder := fun y => (k.holder y).elim (fun same => same ▸ h.holder y) .inr
  lastOrder := fun y => (k.lastOrder y).trans (h.lastOrder y)

theorem Lessened.ofSecs (h : ∀ y, t.sec y = s.sec y) : Lessened s t := by
  refine ⟨fun y e he => ?_, fun y => .inl ?_, fun y => ?_⟩ <;> rw [h y] at *
  exact he

theorem Lessened.queues (h : Lessened s t) {y : BusSection} (hq : (s.sec y).queues n = false) : (t.sec y).queues n = false := by
  simp only [SectionRecord.queues, List.any_eq_false] at hq ⊢
  exact fun e he => hq e (h.queue y e he)

theorem Lessened.not_holder (h : Lessened s t) (hn : n ≠ 0) {y : BusSection} (hh : (s.sec y).holder ≠ n) :
    (t.sec y).holder ≠ n := by
  obtain same | none := h.holder y
  · rwa [same]
  · rw [none]
    exact hn.symm

theorem freeTokens_sec (n : Nat) (secs : SectionSet) (s : State) (y : BusSection) : (s.freeTokens n secs).sec y =
    if secs.get y && (s.sec y).holder == n then { s.sec y with holder := 0 } else s.sec y := PerSection.get_make ..

theorem leaveQueues_sec (n : Nat) (s : State) (y : BusSection) :
    (s.leaveQueues n).sec y = { s.sec y with queue := unqueue n (s.sec y).queue } := PerSection.get_make ..

theorem lessened_freeTokens (n : Nat) (secs : SectionSet) (s : State) : Lessened s (s.freeTokens n secs) := by
  refine ⟨fun y e he => ?_, fun y => ?_, fun y => ?_⟩
  · rw [freeTokens_sec] at he
    split at he <;> exact he
  · rw [freeTokens_sec]
    split
    · exact .inr rfl
    · exact .inl rfl
  · rw [freeTokens_sec]
    split <;> rfl

theorem lessened_leaveQueues (n : Nat) (s : State) : Lessened s (s.leaveQueues n) := by
  refine ⟨fun y e he => ?_, fun y => ?_, fun y => ?_⟩
  · rw [leaveQueues_sec] at he
    exact (List.mem_filter.mp he).1
  · rw [leaveQueues_sec]
    exact .inl rfl
  · rw [leaveQueues_sec]

/-- A station that has left every queue waits nowhere. -/
theorem queues_leaveQueues (n : Nat) (s : State) (y : BusSection) : ((s.leaveQueues n).sec y).queues n = false := by
  rw [leaveQueues_sec]
  simp [SectionRecord.queues, unqueue]

theorem lessened_faultSection (s : State) (x : BusSection) : Lessened s (s.faultSection x) := by
  have ties : Lessened s ((s.queuedTies x).foldl (fun s n => s.leaveQueues n) s) := by
    generalize s.queuedTies x = l
    induction l generalizing s with
    | nil => exact .refl s
    | cons n ns ih => exact (lessened_leaveQueues n s).trans (ih _)
  have emptied (t : State) : Lessened t (t.onSec x fun r => { r with queue := [] }) := by
    have read (y : BusSection) : (t.onSec x fun r => { r with queue := [] }).sec y =
        if y = x then { t.sec x with queue := [] } else t.sec y := by
      by_cases same : y = x
      · subst same
        simp [State.onSec, State.sec]
      · simp [State.onSec, State.sec, same]
    refine ⟨fun y e he => ?_, fun y => ?_, fun y => ?_⟩
    · rw [read] at he
      split at he
      · simp at he
      · exact he
    · rw [read]
      split
      next same => exact .inl (by rw [same])
      next => exact .inl rfl
    · rw [read]
      split
      next same => rw [same]
      next => rfl
  unfold State.faultSection
  dsimp only
  split
  · exact ties.trans (emptied _)
  · exact (ties.trans (emptied _)).trans (lessened_freeTokens _ _ _)

theorem lessened_tokensCleared (before s : State) : Lessened s (State.tokensCleared before none s) :=
  faultSections_induction (p := Lessened s) (fun t x h => h.trans (lessened_faultSection t x)) _ (.refl s)

/-- A grant check writes no last release and no last order. -/
theorem grantCheck_records (s : State) (x y : BusSection) : ((s.grantCheck x).sec y).lastRelease = (s.sec y).lastRelease ∧
    ((s.grantCheck x).sec y).lastOrder = (s.sec y).lastOrder := by
  obtain same | ⟨q, secs, granted, -⟩ := grantCheck_cases s x
  · rw [same]
    exact ⟨rfl, rfl⟩
  · rw [granted, grant_sec]
    split <;> exact ⟨rfl, rfl⟩

/-- A grant check queues nobody. -/
theorem grantCheck_queues (s : State) (x y : BusSection) (h : (s.sec y).queues n = false) :
    ((s.grantCheck x).sec y).queues n = false := by
  obtain same | ⟨q, secs, granted, -⟩ := grantCheck_cases s x
  · rwa [same]
  · rw [granted, grant_sec]
    split
    · simp only [SectionRecord.queues, List.any_eq_false, unqueue, List.mem_filter] at h ⊢
      exact fun e he => h e he.1
    · exact h

/-- A station that waits nowhere is granted nothing. -/
theorem grantCheck_not_holder (s : State) (x y : BusSection) (hq : ∀ z, (s.sec z).queues n = false)
    (h : (s.sec y).holder ≠ n) : ((s.grantCheck x).sec y).holder ≠ n := by
  obtain same | ⟨q, secs, granted, -, queued⟩ := grantCheck_cases s x
  · rwa [same]
  · have other : q ≠ n := by
      rintro rfl
      exact absurd (queued.symm.trans (hq x)) (by decide)
    rw [granted, grant_sec]
    split
    · exact other
    · exact h

end

section
variable {s : State} {h : Header} {secs : SectionSet} {cause : ReleaseCause}

/-- The last release written to each section a RELEASE names. -/
def State.noteRelease (n : Nat) (secs : SectionSet) (c : ReleaseCause) (s : State) : State :=
  s.onPic fun p => { p with
    secs := PerSection.make fun x =>
      if secs.get x then { p.secs.get x with lastRelease := some ⟨n, c, p.delivery⟩ } else p.secs.get x }

theorem noteRelease_sec (n : Nat) (secs : SectionSet) (c : ReleaseCause) (s : State) (x : BusSection) :
    (s.noteRelease n secs c).sec x =
      if secs.get x then { s.sec x with lastRelease := some ⟨n, c, s.pic.delivery⟩ } else s.sec x := PerSection.get_make ..

/-- The sender's claim record aside, a RELEASE of exactly the sections its sender connects frees them, or, where the sender
holds none of them, takes it out of the queues (R127). -/
theorem applyRelease_cases {n : Nat} (hs : secs = s.connects n) (c : ReleaseCause) :
    (s.applyRelease n secs c = (s.freeTokens n secs).noteRelease n secs c ∧ ∃ x, secs.get x = true ∧ (s.sec x).holder = n) ∨
    (s.applyRelease n secs c = (s.leaveQueues n).noteRelease n secs c ∧ ∀ x, secs.get x = true → (s.sec x).holder ≠ n) := by
  have holds : (BusSection.all.any fun x => secs.get x && (s.sec x).holder == n) = true ↔
      ∃ x, secs.get x = true ∧ (s.sec x).holder = n := by
    simp [BusSection.mem_all]
  unfold State.applyRelease
  rw [if_pos (by simp [State.releaseNames, hs])]
  dsimp only
  by_cases h : ∃ x, secs.get x = true ∧ (s.sec x).holder = n
  · rw [if_pos (holds.mpr h)]
    exact .inl ⟨rfl, h⟩
  · rw [if_neg (mt holds.mp h)]
    exact .inr ⟨rfl, fun x hx e => h ⟨x, hx, e⟩⟩

theorem applyRelease_recorded {n : Nat} (hs : secs = s.connects n) (c : ReleaseCause) {x : BusSection}
    (hx : secs.get x = true) : ((s.applyRelease n secs c).sec x).lastRelease = some ⟨n, c, s.pic.delivery⟩ := by
  obtain ⟨freed, -⟩ | ⟨left, -⟩ := applyRelease_cases hs c
  · rw [freed, noteRelease_sec, if_pos hx]
    rfl
  · rw [left, noteRelease_sec, if_pos hx]
    rfl

theorem noteRelease_places (n : Nat) (secs : SectionSet) (c : ReleaseCause) (s : State) (y : BusSection) :
    ((s.noteRelease n secs c).sec y).queue = (s.sec y).queue ∧ ((s.noteRelease n secs c).sec y).holder = (s.sec y).holder := by
  rw [noteRelease_sec]
  split <;> exact ⟨rfl, rfl⟩

theorem lessened_noteRelease (n : Nat) (secs : SectionSet) (c : ReleaseCause) (s : State) :
    Lessened s (s.noteRelease n secs c) := by
  refine ⟨fun y e he => ?_, fun y => .inl (noteRelease_places n secs c s y).2, fun y => ?_⟩
  · rwa [(noteRelease_places n secs c s y).1] at he
  · rw [noteRelease_sec]
    split <;> rfl

theorem lessened_applyRelease {n : Nat} (hs : secs = s.connects n) (c : ReleaseCause) :
    Lessened s (s.applyRelease n secs c) := by
  obtain ⟨freed, -⟩ | ⟨left, -⟩ := applyRelease_cases hs c
  · rw [freed]
    exact (lessened_freeTokens n secs s).trans (lessened_noteRelease ..)
  · rw [left]
    exact (lessened_leaveQueues n s).trans (lessened_noteRelease ..)

/-- The sender holds none of the sections its RELEASE names any more. -/
theorem applyRelease_holder {n : Nat} (hn : n ≠ 0) (hs : secs = s.connects n) (c : ReleaseCause) {x : BusSection}
    (hx : secs.get x = true) : ((s.applyRelease n secs c).sec x).holder ≠ n := by
  obtain ⟨freed, -⟩ | ⟨left, none⟩ := applyRelease_cases hs c
  · rw [freed, (noteRelease_places ..).2, freeTokens_sec]
    split
    next => exact hn.symm
    next other => exact fun e => other (by simp [hx, e])
  · rw [left, (noteRelease_places ..).2, leaveQueues_sec]
    exact none x hx

/-- A sender that holds none of them waits nowhere any more. -/
theorem applyRelease_queues {n : Nat} (hs : secs = s.connects n) (c : ReleaseCause)
    (hh : ∀ x, secs.get x = true → (s.sec x).holder ≠ n) (y : BusSection) :
    ((s.applyRelease n secs c).sec y).queues n = false := by
  obtain ⟨-, x, hx, holds⟩ | ⟨left, -⟩ := applyRelease_cases hs c
  · exact absurd holds (hh x hx)
  · rw [left, SectionRecord.queues, (noteRelease_places ..).1]
    exact queues_leaveQueues n s y

/-- A RELEASE applied: what the work does to the tokens. -/
theorem releaseWork_of_applied {before u : State} (ha : u.reportsInStep h.source = true) : ∃ checked,
    Within idleClaimScope (((State.tokensCleared before none u).applyRelease h.source secs cause).grantChecks checked)
      (State.releaseWork h secs cause before u) := by
  have work : State.releaseWork h secs cause before u = (State.handOn { HandOn.quiet with
      tokens := fun t => t.applyRelease h.source secs cause
      claim := fun t => if h.source == t.own then t.ownRelease true else t } before u).voidBy h.source := by
    simp [State.releaseWork, ha]
  have handed := handOn_from_tokens (sc := idleClaimScope) (w := { HandOn.quiet with
      tokens := fun t => t.applyRelease h.source secs cause
      claim := fun t => if h.source == t.own then t.ownRelease true else t }) rfl
    (fun _ t v => by dsimp only; split <;> simp [v]) (Within.stays_id _) (Within.stays_id _) before u
  rw [work]
  exact ⟨_, Within.voidBy rfl handed _⟩

end

theorem connects_of_within {sc : Scope} {s t : State} (w : Within sc s t) (n : Nat) : t.connects n = s.connects n := by
  simp only [State.connects, w.entry_fixed]

/-- Settles O42. -/
theorem releaseFreesTheTokens : Obligations.ReleaseFreesTheTokens := by
  intro h secs cause s u hc hk hu ha hs
  have hn := not_zero_of_isConfigured hk
  obtain ⟨checked, worked⟩ := releaseWork_of_applied (secs := secs) (cause := cause) (before := s) ha
  generalize hv : State.tokensCleared s none u = v at worked
  have cleared : Within { secs := true, lapse := true } u v := hv ▸ tokensCleared_within s none u
  have less : Lessened u v := hv ▸ lessened_tokensCleared s u
  have named : secs = v.connects h.source := hs.trans (connects_of_within cleared h.source).symm
  have whole : Within idleClaimScope ((v.applyRelease h.source secs cause).grantChecks checked)
      (State.finish s (s.releaseDelivery h secs cause)) := by
    rw [State.releaseDelivery, deliver_of_configured hk, pictured_same, ← hu]
    exact worked.settle.endDelivery.finish s
  have read (x : BusSection) := SectionRecord.tokenPart_fields (whole.secs rfl x)
  refine ⟨_, event_of_configured (State.releaseDelivery h secs cause) hc, fun x hx => ?_, fun hq x hx => ?_, fun hh y => ?_⟩
  · obtain ⟨-, -, -, -, release⟩ := read x
    rw [release, ← cleared.delivery rfl]
    exact grantChecks_induction (p := fun t => (t.sec x).lastRelease = some ⟨h.source, cause, v.pic.delivery⟩)
      (fun t y k => (grantCheck_records t y x).1.trans k) checked (applyRelease_recorded named cause hx)
  · obtain ⟨holder, -⟩ := read x
    rw [holder]
    have released := lessened_applyRelease (s := v) named cause
    exact (grantChecks_induction
      (p := fun t => (∀ y, (t.sec y).queues h.source = false) ∧ (t.sec x).holder ≠ h.source)
      (fun t y k => ⟨fun z => grantCheck_queues t y z (k.1 z), grantCheck_not_holder t y x k.1 k.2⟩) checked
      ⟨fun y => released.queues (less.queues (hq y)), applyRelease_holder hn named cause hx⟩).2
  · obtain ⟨-, -, queue, -⟩ := read y
    rw [SectionRecord.queues, queue]
    exact grantChecks_induction (p := fun t => (t.sec y).queues h.source = false)
      (fun t z k => grantCheck_queues t z y k) checked
      (applyRelease_queues named cause (fun x hx => less.not_holder hn (hh x hx)) y)

end Sys2Proof.Machine
end

