-- ==== Sys2Proof/Proofs/OrderDeliveries.lean ====
section
/-!
SUPPORT. The deliveries of an ORDER and of an INTERTRIP: the last orders a section order writes (R163), and what the Zone Unit
makes of the Intertrip Set (R92, R99).
-/

namespace Sys2Proof.Machine

/-! ### Section orders (R163) -/

section
variable {s t u : State} {h : Header}

/-- The hand-ons of a delivery write no last order. -/
theorem handOnQuiet_lastOrder (before u : State) (y : BusSection) :
    ((State.handOn HandOn.quiet before u).sec y).lastOrder = (u.sec y).lastOrder := by
  have handed := handOn_from_tokens (sc := { isl := true }) (w := HandOn.quiet) rfl (Within.stays_id _) (Within.stays_id _)
    (Within.stays_id _) before u
  obtain ⟨-, -, -, order, -⟩ := SectionRecord.tokenPart_fields (handed.secs rfl y)
  obtain ⟨checked, worked⟩ := tokenWork_eq before none SectionSet.empty id u
  rw [order, show HandOn.quiet.departed = none from rfl, show HandOn.quiet.ended = SectionSet.empty from rfl,
    show HandOn.quiet.tokens = id from rfl, worked]
  exact grantChecks_induction (p := fun t => (t.sec y).lastOrder = (u.sec y).lastOrder)
    (fun t x k => (grantCheck_records t x y).2.trans k) checked ((lessened_tokensCleared before u).lastOrder y)

theorem handOnQuiet_within (before u : State) : Within ownerScope u (State.handOn HandOn.quiet before u) :=
  Within.handOnQuiet rfl rfl rfl (Within.refl _ u) before

/-- The islands are read off the derived values. -/
theorem Within.sameIsland {sc : Scope} (w : Within sc s t) (hd : sc.derived = false) (x y : BusSection) :
    t.sameIsland x y = s.sameIsland x y := by
  have island (z : BusSection) : t.islandOf z = s.islandOf z := (congrArg SectionRecord.island (w.derived hd z) :)
  simp only [State.sameIsland, island]

theorem Within.kindOf {sc : Scope} (w : Within sc s t) (n : Nat) : t.kindOf n = s.kindOf n := by
  simp only [State.kindOf, w.entry_fixed]

theorem Within.secOf {sc : Scope} (w : Within sc s t) (n : Nat) : t.secOf n = s.secOf n := by
  simp only [State.secOf, w.entry_fixed]

/-- A section order of no pending adoption: the last order of every section of the island (R163). -/
theorem sectionOrder_lastOrder (hp : s.step.pendingAdoption = none) (x : BusSection) (o : OrderKind) (y : BusSection) :
    ((s.sectionOrder x o).sec y).lastOrder =
      if s.sameIsland x y then some ⟨o, s.pic.delivery⟩ else (s.sec y).lastOrder := by
  generalize hv : (s.onPic fun p => { p with
    secs := PerSection.make fun y =>
      if (s.islandSections x).get y then { p.secs.get y with lastOrder := some ⟨o, p.delivery⟩ } else p.secs.get y }) = v
  have written : (v.sec y).lastOrder = if s.sameIsland x y then some ⟨o, s.pic.delivery⟩ else (s.sec y).lastOrder := by
    have read : v.sec y = if s.sameIsland x y then { s.sec y with lastOrder := some ⟨o, s.pic.delivery⟩ } else s.sec y := by
      rw [← hv]
      simp [State.sec, State.islandSections]
    rw [read]
    split <;> rfl
  have ordered : Within {} v (s.sectionOrder x o) := by
    unfold State.sectionOrder
    rw [if_neg (by simp [hp])]
    dsimp only
    rw [hv]
    split
    · exact (Within.refl _ v).generatorOrder o
    · exact Within.refl _ v
  obtain ⟨-, -, -, order, -⟩ := SectionRecord.tokenPart_fields (ordered.secs rfl y)
  rw [order, written]

/-- An order that is no section order, or whose sender is no incomer, writes no last order. -/
theorem applyOrder_within {n : Nat} {o : OrderKind} (tie : Option Nat)
    (ho : s.kindOf n ≠ some .incomer ∨ o.isSectionOrder = false) : Within {} s (s.applyOrder n o tie) := by
  unfold State.applyOrder
  split
  next incomer =>
    have other : o.isSectionOrder = false := ho.resolve_left fun k => k (eq_of_beq incomer)
    rw [other]
    split
    next => contradiction
    next => exact (Within.refl _ s).tieOrder ..
    next => exact Within.refl _ s
  next => exact Within.refl _ s

theorem applyOrder_of_section {n : Nat} {o : OrderKind} {x : BusSection} (hk : s.kindOf n = some .incomer)
    (hx : s.secOf n = some x) (ho : o.isSectionOrder = true) : s.applyOrder n o none = s.sectionOrder x o := by
  simp [State.applyOrder, hk, hx, ho]

/-- What follows an order's effect: the own order noted, and a void (R164, R49). -/
theorem orderWork_within (o : OrderKind) (tie : Option Nat) (before u : State) :
    Within { step := true } (if u.reportsInStep h.source then
        (State.handOn HandOn.quiet before u).applyOrder h.source o tie else State.handOn HandOn.quiet before u)
      (State.orderWork h o tie before u) := by
  unfold State.orderWork
  refine Within.voidBy rfl ?_ _
  generalize (if u.reportsInStep h.source then (State.handOn HandOn.quiet before u).applyOrder h.source o tie
    else State.handOn HandOn.quiet before u) = v
  split
  · exact (Within.refl _ v).ownOrder _
  · exact Within.refl _ v

end

/-- Settles O44. -/
theorem sectionOrderReachesItsIsland : Obligations.SectionOrderReachesItsIsland := by
  intro h o tie x s u hc hk hu hp hx
  generalize hw : State.handOn HandOn.quiet s u = w
  have handed : Within ownerScope u w := hw ▸ handOnQuiet_within s u
  have orders (y : BusSection) : (w.sec y).lastOrder = (s.sec y).lastOrder := by
    have noted : Within pictureScope s u := hu ▸ within_noted s .order _ h
    obtain ⟨-, -, -, order, -⟩ := SectionRecord.tokenPart_fields (noted.secs rfl y)
    rw [← hw, handOnQuiet_lastOrder, order]
  have worked := orderWork_within (h := h) o tie s u
  rw [hw] at worked
  have after : Within { step := true } (if u.reportsInStep h.source then w.applyOrder h.source o tie else w)
      (State.finish s (s.orderDelivery h o tie)) := by
    rw [State.orderDelivery, deliver_of_configured hk, pictured_same, ← hu]
    exact worked.settle.endDelivery.finish s
  refine ⟨_, event_of_configured (State.orderDelivery h o tie) hc, fun ha hi ht ho y => ?_, fun hn y => ?_⟩
  · obtain ⟨-, -, -, order, -⟩ := SectionRecord.tokenPart_fields (after.secs rfl y)
    subst ht
    rw [order, if_pos ha, applyOrder_of_section ((handed.kindOf _).trans hi) ((handed.secOf _).trans hx) ho,
      sectionOrder_lastOrder (by rw [handed.step rfl, hp]), handed.sameIsland rfl, handed.delivery rfl, orders]
  · obtain ⟨-, -, -, order, -⟩ := SectionRecord.tokenPart_fields (after.secs rfl y)
    rw [order, ← orders]
    split
    next applied =>
      have none : w.kindOf h.source ≠ some .incomer ∨ o.isSectionOrder = false := by
        rw [handed.kindOf]
        exact hn.resolve_left fun not => absurd (applied.symm.trans not) (by decide)
      obtain ⟨-, -, -, kept, -⟩ := SectionRecord.tokenPart_fields ((applyOrder_within tie none).secs rfl y)
      exact kept
    next => rfl

/-! ### The Intertrip Set (R92, R99) -/

section
variable {s : State} {n : Nat}

theorem tellAccepted_eq (b : Bool) (s : State) : ∃ news, State.tellAccepted b s = { s with news := news } := by
  unfold State.tellAccepted
  split
  · exact ⟨s.news, rfl⟩
  · exact ⟨_, rfl⟩

theorem takeIntertrip_of_clear (hz : s.zoneTakes n = true) :
    s.takeIntertrip n false = s.keepIntertrips fun e => !(e.source == n) := by
  simp [State.takeIntertrip, hz]

theorem takeIntertrip_of_listed (hz : s.zoneTakes n = true) (hl : s.intertripListed n = true) :
    s.takeIntertrip n true = s.freshenIntertrip n := by
  simp [State.takeIntertrip, hz, hl]

theorem takeIntertrip_of_new (hz : s.zoneTakes n = true) (hl : s.intertripListed n = false) :
    s.takeIntertrip n true = s.addIntertrip n := by
  simp [State.takeIntertrip, hz, hl]

/-- The station with an entry added to the Set. -/
def State.withIntertrip (n : Nat) (s : State) : State := s.onZone fun z => { z with
  intertrips := z.intertrips ++ [{ source := n, accepted := s.downstream n, stale := false, stamp := s.pic.delivery }] }

/-- An accepted entry trips a breaker that is CLOSED or CLOSING (R99). -/
def State.zoneTrip (s : State) : State := if s.brk.state = .closed ∨ s.brk.state = .closing then s.trip .zone else s

theorem addIntertrip_of_other (hd : s.downstream n = false) : s.addIntertrip n = s.withIntertrip n := by
  simp [State.addIntertrip, State.withIntertrip, hd]

theorem addIntertrip_of_downstream (hd : s.downstream n = true) : s.addIntertrip n =
    State.tellAccepted s.acceptedIntertrip (((s.withIntertrip n).zoneTrip).raise .intertrip (.station n)) := by
  simp [State.addIntertrip, State.withIntertrip, State.zoneTrip, hd]

/-- Whatever it trips and raises, of the Zone Unit's record an addition changes the Set alone. -/
theorem addIntertrip_zone (s : State) (n : Nat) : (s.addIntertrip n).zone = (s.withIntertrip n).zone := by
  cases hd : s.downstream n with
  | false => rw [addIntertrip_of_other hd]
  | true =>
    rw [addIntertrip_of_downstream hd]
    obtain ⟨news, told⟩ := tellAccepted_eq s.acceptedIntertrip
      (((s.withIntertrip n).zoneTrip).raise .intertrip (.station n))
    obtain ⟨brk, fault, port, news', raised⟩ := raise_rest ((s.withIntertrip n).zoneTrip) .intertrip (.station n)
    have tripped : (s.withIntertrip n).zoneTrip.zone = (s.withIntertrip n).zone := by
      unfold State.zoneTrip
      split
      · obtain ⟨brk, news, trip⟩ := trip_eq (s.withIntertrip n) .zone
        rw [trip]
      · rfl
    rw [told, raised, tripped]

theorem addIntertrip_pending (hd : s.downstream n = true) : (s.addIntertrip n).fault.pending.get .intertrip = true := by
  obtain ⟨news, told⟩ := tellAccepted_eq s.acceptedIntertrip (((s.withIntertrip n).zoneTrip).raise .intertrip (.station n))
  rw [addIntertrip_of_downstream hd, told]
  exact raise_pending _ _ _

theorem addIntertrip_brk (hd : s.downstream n = true) :
    (s.addIntertrip n).brk = (((s.withIntertrip n).zoneTrip).raise .intertrip (.station n)).brk := by
  obtain ⟨news, told⟩ := tellAccepted_eq s.acceptedIntertrip (((s.withIntertrip n).zoneTrip).raise .intertrip (.station n))
  rw [addIntertrip_of_downstream hd, told]

theorem keepIntertrips_zone (p : IntertripEntry → Bool) (s : State) :
    (s.keepIntertrips p).zone = { s.zone with intertrips := s.zone.intertrips.filter p } := by
  obtain ⟨news, told⟩ := tellAccepted_eq s.acceptedIntertrip
    (s.onZone fun z => { z with intertrips := z.intertrips.filter p })
  rw [State.keepIntertrips, told]
  rfl

/-- An INTERTRIP leaves the Block List. -/
theorem takeIntertrip_blockList (hz : s.zoneTakes n = true) (v : Bool) :
    (s.takeIntertrip n v).zone.blockList = s.zone.blockList := by
  cases v with
  | false => rw [takeIntertrip_of_clear hz, keepIntertrips_zone]
  | true =>
    cases hl : s.intertripListed n with
    | true => rw [takeIntertrip_of_listed hz hl]; rfl
    | false => rw [takeIntertrip_of_new hz hl, addIntertrip_zone]; rfl

/-- The trip of an accepted entry at a breaker that is CLOSED or CLOSING (R99). -/
theorem zoneTrip_opens (hs : s.brk.state = .closed ∨ s.brk.state = .closing) : s.zoneTrip.brk.state = .opening ∧
    s.zoneTrip.brk.tripOut = true ∧ TripSource.zone ∈ s.zoneTrip.brk.sources := by
  rw [State.zoneTrip, if_pos hs]
  obtain closed | closing := hs
  · rw [trip_of_closed closed]
    exact ⟨rfl, rfl, mem_addSource _ _⟩
  · rw [trip_of_closing closing]
    exact ⟨rfl, rfl, mem_addSource _ _⟩

theorem zoneTrip_aborts (hs : s.brk.state = .closing) : News.closeAborted .zone ∈ s.zoneTrip.news := by
  rw [State.zoneTrip, if_pos (.inr hs), trip_of_closing hs]
  simp

/-- A raise at an OPENING breaker leaves its trip output driven. -/
theorem raise_tripOut_of_opening (k : FaultKind) (ctx : FaultContext) (h : s.brk.state = .opening) :
    (s.raise k ctx).brk.tripOut = s.brk.tripOut := by
  obtain same | trips | marks := raise_brk_cases s k ctx
  · rw [same]
  · rw [trips, trip_of_opening h]
    rfl
  · rw [marks, withdrawClose_of_not_closing (by simp [h])]

end

theorem mem_news_tellAccepted {s : State} {n : News} (b : Bool) (h : n ∈ s.news) : n ∈ (State.tellAccepted b s).news := by
  unfold State.tellAccepted
  split
  · exact h
  · simp [h]

/-- Settles O47. -/
theorem intertripIsListed : Obligations.IntertripIsListed := by
  refine ⟨fun h v s u hc hk hu other => ?_, fun n s hk other => ⟨fun hl hd => ⟨fun hs => ?_, fun hs => ?_, fun h1 h2 ha => ?_⟩,
    fun hn => ?_⟩⟩
  · subst hu
    obtain ⟨z, tables, rest⟩ := deliver_zone (State.takeIntertrip h.source v) hk .intertrip 1
    have after := rest.finish s
    have picture := within_noted s .intertrip 1 h
    have lists : z.zone.intertrips = s.zone.intertrips := (tables.intertrips rfl).trans (picture.intertrips rfl)
    have takes : z.zoneTakes h.source = true := by
      have own : z.own = s.own := congrArg StationSettings.number (tables.station.trans picture.station)
      simp [State.zoneTakes, (tables.isConfigured _).trans (picture.isConfigured _), hk, own, other]
    have listed : z.intertripListed h.source = s.intertripListed h.source := by
      simp only [State.intertripListed, lists]
    refine ⟨_, event_of_configured (State.intertripDelivery h v) hc, ?_, fun hv hl => ⟨?_, fun hd => ?_⟩, fun hv hl => ?_,
      fun hv => ?_⟩
    · exact (after.blockList rfl).trans ((takeIntertrip_blockList takes v).trans
        ((tables.blockList rfl).trans (picture.blockList rfl)))
    · refine (after.intertrips rfl).trans ?_
      rw [hv, takeIntertrip_of_new takes (listed.trans hl), addIntertrip_zone, ← lists, ← tables.downstream,
        ← tables.delivery rfl]
      rfl
    · refine after.stays _ ?_
      rw [hv, takeIntertrip_of_new takes (listed.trans hl)]
      exact addIntertrip_pending ((tables.downstream _).trans hd)
    · refine (after.intertrips rfl).trans ?_
      rw [hv, takeIntertrip_of_listed takes (listed.trans hl), ← lists]
      rfl
    · refine (after.intertrips rfl).trans ?_
      rw [hv, takeIntertrip_of_clear takes, keepIntertrips_zone, ← lists]
  all_goals have takes : s.zoneTakes n = true := by simp [State.zoneTakes, hk, other]
  · obtain ⟨opening, output, source⟩ := zoneTrip_opens (s := s.withIntertrip n) hs
    obtain ⟨opening', kept⟩ := raise_brk_of_opening .intertrip (.station n) opening
    rw [takeIntertrip_of_new takes hl, addIntertrip_brk hd]
    exact ⟨opening', (raise_tripOut_of_opening _ _ opening).trans output, kept source⟩
  · rw [takeIntertrip_of_new takes hl, addIntertrip_of_downstream hd]
    exact mem_news_tellAccepted _ (news_subset_raise _ _ _ (zoneTrip_aborts (s := s.withIntertrip n) hs))
  · have untripped : (s.withIntertrip n).zoneTrip = s.withIntertrip n := if_neg (not_or.mpr ⟨h1, h2⟩)
    rw [takeIntertrip_of_new takes hl, addIntertrip_brk hd, untripped]
    exact (raise_of_advisory (s := s.withIntertrip n) _ ha).1
  · cases hl : s.intertripListed n with
    | true =>
      rw [takeIntertrip_of_listed takes hl]
      exact ⟨rfl, rfl⟩
    | false =>
      rw [takeIntertrip_of_new takes hl, addIntertrip_of_other (hn.resolve_left (by simp [hl]))]
      exact ⟨rfl, rfl⟩

end Sys2Proof.Machine
end

