-- ==== Sys2Proof/Proofs/TieOrders.lean ====
section
/-!
SUPPORT. What leaves the tie role as it stands, the moves of an order at the tie (R173), and the delivery of a tie order (R163).
-/

namespace Sys2Proof.Machine

/-! ### Work that leaves the tie role -/

section
variable (s : State)

@[simp] theorem tracking_tie (f : State → State) : (State.tracking f s).tie = (f s).tie := by
  obtain ⟨r, h⟩ := tracking_eq f s
  rw [h]
  rfl

@[simp] theorem trip_tie (src : TripSource) : (s.trip src).tie = s.tie := by
  obtain ⟨brk, news, h⟩ := trip_eq s src
  rw [h]

@[simp] theorem raise_tie (k : FaultKind) (ctx : FaultContext) : (s.raise k ctx).tie = s.tie := by
  obtain ⟨brk, fault, port, news, h⟩ := raise_rest s k ctx
  rw [h]

@[simp] theorem withdrawClose_tie : s.withdrawClose.tie = s.tie := by
  obtain ⟨brk, h⟩ := withdrawClose_eq s
  rw [h]

@[simp] theorem endSession_tie (c : SessionEnd) : (s.endSession c).tie = s.tie := by
  obtain ⟨sync, h, -⟩ := endSession_eq s c
  rw [h]

@[simp] theorem openSession_tie : s.openSession.tie = s.tie := by simp [State.openSession]

@[simp] theorem requestRelease_tie (c : ReleaseCause) : (s.requestRelease c).tie = s.tie := by
  obtain ⟨link, stage, sync, h, -⟩ := requestRelease_eq s c
  rw [h]

@[simp] theorem requestClose_tie : s.requestClose.1.tie = s.tie := by
  unfold State.requestClose
  split
  · rfl
  · simp [State.beginClose]

@[simp] theorem closeForClaim_tie : s.closeForClaim.tie = s.tie := by
  have asked := requestClose_tie s
  unfold State.closeForClaim
  generalize s.requestClose = answer at asked ⊢
  obtain ⟨t, refusal⟩ := answer
  cases refusal with
  | none => exact asked
  | some r => cases r <;> simpa using asked

@[simp] theorem measureSides_tie : s.measureSides.tie = s.tie := by
  unfold State.measureSides
  dsimp only
  split
  · simp
  · split <;> simp

@[simp] theorem seeGrant_tie : s.seeGrant.tie = s.tie := by
  unfold State.seeGrant State.enterHolding
  split <;> simp

@[simp] theorem judgePlace_tie : s.judgePlace.tie = s.tie := by
  unfold State.judgePlace State.claimToWanted
  dsimp only
  split
  · split <;> simp
  · split <;> simp
  · split <;> simp
  · rfl

/-! ### The island tables -/

@[simp] theorem onIsland_tie (i : BusSection) (f : IslandTables → IslandTables) : (s.onIsland i f).tie = s.tie := rfl

@[simp] theorem moveFeeder_tie (i : BusSection) (n : Nat) (f : IslandTables → IslandTables) :
    (s.moveFeeder i n f).tie = s.tie := by
  unfold State.moveFeeder
  split <;> simp

@[simp] theorem feederLeft_tie (n : Nat) : (s.feederLeft n).tie = s.tie := by
  unfold State.feederLeft
  split <;> simp

@[simp] theorem feederShed_tie (n : Nat) : (s.feederShed n).tie = s.tie := by
  unfold State.feederShed
  split <;> simp

@[simp] theorem appendAdmitted_tie (i : BusSection) (n : Nat) : (s.appendAdmitted i n).tie = s.tie := by
  unfold State.appendAdmitted State.feederAdmitted
  split <;> simp

@[simp] theorem returnEntry_tie (i : BusSection) (e : AdmitEntry) : (s.returnEntry i e).tie = s.tie := by
  simp [State.returnEntry]

end

/-- A chain of steps that each leave the tie role leaves it. -/
theorem foldl_tie {α : Type} {f : State → α → State} (hf : ∀ s a, (f s a).tie = s.tie) (l : List α) :
    ∀ s, (l.foldl f s).tie = s.tie := by
  induction l with
  | nil => exact fun _ => rfl
  | cons a as ih => exact fun s => (ih _).trans (hf s a)

@[simp] theorem returnSection_tie (before s : State) (x : BusSection) : (State.returnSection before s x).tie = s.tie := by
  unfold State.returnSection
  split
  · exact foldl_tie (fun _ _ => by simp) _ s
  · rfl

theorem shedStep_tie (i : BusSection) : ∀ k s, (State.shedStep i k s).tie = s.tie
  | 0, _ => rfl
  | k + 1, s => by
    unfold State.shedStep
    split
    · split
      · rw [shedStep_tie i k]
        simp
      · rfl
    · rfl

theorem admitStep_tie (i : BusSection) : ∀ k s, (State.admitStep i k s).tie = s.tie
  | 0, _ => rfl
  | k + 1, s => by
    unfold State.admitStep
    split
    · split
      · rw [admitStep_tie i k]
        simp
      · rfl
    · rfl

@[simp] theorem shedAll_tie (before s : State) : (State.shedAll before s).tie = s.tie :=
  foldl_tie (fun t i => by rw [State.shedThenAdmit, admitStep_tie, shedStep_tie]) _ s

@[simp] theorem regroup_tie (before s : State) : (State.regroup before s).tie = s.tie := by
  unfold State.regroup
  split <;> rfl

theorem listWork_tie {own : State → State} (ho : ∀ t, (own t).tie = t.tie) (before : State) (due : Bool) (s : State) :
    (State.listWork before due own s).tie = s.tie := by
  unfold State.listWork
  have returned : ((BusSection.all.filter fun x => (before.sec x).live && !(s.sec x).live).foldl
      (State.returnSection before) s).tie = s.tie := foldl_tie (returnSection_tie before) _ s
  split
  · split <;> rfl
  · simp only [shedAll_tie, ho]
    split <;> simpa [State.recomputeCapacity] using returned

/-! ### The changeover role, whose moves leave the tie role -/

section
variable (s : State)

@[simp] theorem moveTo_tie (c : ChangeoverState) : (s.moveTo c).tie = s.tie := by simp [State.moveTo]

@[simp] theorem owe_tie (o : OrderKind) : (s.owe o).tie = s.tie := by
  obtain ⟨link, owed, h, -⟩ := owe_eq o s
  rw [h]

@[simp] theorem oweTie_tie (o : OrderKind) (n : Nat) : (s.oweTie o n).tie = s.tie := by
  obtain ⟨link, owed, h, -⟩ := oweTie_eq o n s
  rw [h]

@[simp] theorem postWant_tie (w : Want) : (s.postWant w).1.tie = s.tie := by
  obtain ⟨link, token, news, h⟩ := postWant_eq w s
  rw [h]

@[simp] theorem postChangeover_tie : s.postChangeover.tie = s.tie := by
  obtain ⟨link, token, news, due, h⟩ := postChangeover_eq s
  rw [h]

@[simp] theorem dropWant_tie : s.dropWant.tie = s.tie := by
  unfold State.dropWant
  split <;> simp

@[simp] theorem withdrawWant_tie (w : Want) : (s.withdrawWant w).tie = s.tie := by
  unfold State.withdrawWant
  split <;> simp

@[simp] theorem enterOpenRetransfer_tie : s.enterOpenRetransfer.tie = s.tie := by
  unfold State.enterOpenRetransfer
  dsimp only
  split <;> simp

@[simp] theorem judgeBackup_tie : s.judgeBackup.tie = s.tie := by
  have cleared : s.unsharedCleared.tie = s.tie := by
    obtain ⟨asked, h⟩ := unsharedCleared_eq s
    rw [h]
    rfl
  unfold State.judgeBackup
  rw [← State.unsharedCleared]
  dsimp only
  split
  · split
    · split
      · split
        · split
          · exact cleared
          · exact (foldl_tie (fun t n => oweTie_tie t .split n) _ _).trans cleared
        · split
          · split
            · simpa [State.enterRetransfer] using cleared
            · exact cleared
          · simpa using cleared
      · exact cleared
    · split
      · simpa using cleared
      · exact cleared
  · rfl

@[simp] theorem enterBackup_tie : s.enterBackup.tie = s.tie := by simp [State.enterBackup]

@[simp] theorem changeoverLiveChange_tie (live : Bool) : (s.changeoverLiveChange live).tie = s.tie := by
  unfold State.changeoverLiveChange State.leaveTieWait
  split <;> simp

@[simp] theorem changeoverJoined_tie : s.changeoverJoined.tie = s.tie := by
  unfold State.changeoverJoined State.giveUp State.withdrawChangeover
  split <;> simp

end

/-- Flags and islands that change reach the tie role by a faulted section alone (R173). -/
theorem roleFlags_tie {before s : State} (h : ∀ x, (s.sec x).faulted = (before.sec x).faulted) :
    (State.roleFlags before s).tie = s.tie := by
  have none : newlyFaulted before s = SectionSet.empty := newlyFaulted_of_same h
  have apart : SectionSet.meets s.ownSections SectionSet.empty = false := by
    simp [SectionSet.meets]
  unfold State.roleFlags
  simp only [h, beq_self_eq_true, Bool.not_true, none, apart, Bool.false_eq_true, if_false]
  split <;> split <;> simp

/-- While no faulted flag changes, the hand-ons of a delivery that asks nothing leave the tie role. -/
theorem handOnQuiet_tie {before u : State} (h : ∀ x, (u.sec x).faulted = (before.sec x).faulted) :
    (State.handOn HandOn.quiet before u).tie = u.tie := by
  have stands : State.tokenWork before HandOn.quiet.departed HandOn.quiet.ended HandOn.quiet.tokens u = u :=
    tokenWork_of_same h rfl
  have listed : Within ownerScope u (State.listWork before false id u.judgePlace.seeGrant) :=
    ((Within.refl _ u).judgePlace.seeGrant).listWork rfl (Within.stays_id _) before false
  have faulted (x : BusSection) : ((State.listWork before false id u.judgePlace.seeGrant).sec x).faulted =
      (before.sec x).faulted :=
    (congrArg SectionRecord.faulted (listed.derived rfl x) :).trans (h x)
  unfold State.handOn
  rw [stands]
  exact (roleFlags_tie faulted).trans ((listWork_tie (fun _ => rfl) before false _).trans (by simp))

/-! ### The noting of a source, and a void -/

section
variable (s : State)

/-- The frames that leave the ordered queue tell the changeover and the feeder role alone (R29). -/
theorem purgeOrdered_eq : ∃ link chg feeder, s.purgeOrdered = { s with link := link, chg := chg, feeder := feeder } := by
  unfold State.purgeOrdered
  dsimp only
  split <;> split
  · exact ⟨_, _, _, rfl⟩
  · exact ⟨_, s.chg, _, rfl⟩
  · exact ⟨_, _, s.feeder, rfl⟩
  · exact ⟨_, s.chg, s.feeder, rfl⟩

theorem loseStep_eq : ∃ step link chg feeder,
    s.loseStep = { s with step := step, link := link, chg := chg, feeder := feeder } := by
  obtain ⟨link, chg, feeder, h⟩ := purgeOrdered_eq (s.onStep fun t => { t with state := .desync, founding := 0 })
  refine ⟨{ s.step with state := .desync, founding := 0 }, { link with statusRequest := some .change }, chg, feeder, ?_⟩
  rw [State.loseStep, h]
  rfl

/-- A void concerns the step, the queue, and the roles whose frames it takes from the queue (R49). -/
theorem voidBy_eq (n : Nat) : ∃ step link chg feeder,
    s.voidBy n = { s with step := step, link := link, chg := chg, feeder := feeder } := by
  have same : ∃ step link chg feeder, s = { s with step := step, link := link, chg := chg, feeder := feeder } :=
    ⟨s.step, s.link, s.chg, s.feeder, rfl⟩
  unfold State.voidBy State.voidAdoption
  split
  · split
    · dsimp only
      split
      · obtain ⟨step, link, chg, feeder, h⟩ := loseStep_eq
          (s.onStep fun t => { t with pendingAdoption := none, voided := t.voided + 1 })
        exact ⟨step, link, chg, feeder, h⟩
      · exact ⟨_, s.link, s.chg, s.feeder, rfl⟩
    · exact same
  · exact same

theorem voidBy_tie (n : Nat) : (s.voidBy n).tie = s.tie := by
  obtain ⟨step, link, chg, feeder, h⟩ := voidBy_eq s n
  rw [h]

theorem enterDesync_tie : s.enterDesync.tie = s.tie := by
  obtain ⟨step, link, chg, feeder, h⟩ := loseStep_eq s
  have lost : s.loseStep.tie = s.tie := by rw [h]
  unfold State.enterDesync State.suspendClaim
  split
  · split
    · exact lost
    · dsimp only
      split <;> simpa using lost
  · rfl

theorem noted_tie (k : FrameKind) (len : Nat) (h : Header) : (s.noted k len h).tie = s.tie := by
  have entry (t : State) (n : Nat) (f : StationEntry → StationEntry) : (t.onEntry n f).tie = t.tie := by
    unfold State.onEntry
    split <;> rfl
  have noted : (s.countDelivery.noteSource k len h).tie = s.tie := by
    unfold State.noteSource
    dsimp only
    split
    · rw [enterDesync_tie, raise_tie, entry]
      rfl
    · rw [entry]
      rfl
  have derived : ((s.countDelivery.noteSource k len h).derive).tie = s.tie := noted
  unfold State.noted State.judgeQuorum
  split
  · rw [raise_tie, derived]
  · exact derived

end

/-! ### The moves of the tie (R173) -/

section
variable {s : State} {n : Nat}

theorem setTie_eq (t : TieRecord) (s : State) : ∃ link, s.setTie t = { s with link := link, tie := t } := by
  obtain ⟨r, h⟩ := tracking_eq (fun s => s.onTie fun _ => t) s
  exact ⟨_, h⟩

theorem setTie_tie (t : TieRecord) (s : State) : (s.setTie t).tie = t := by
  obtain ⟨link, h⟩ := setTie_eq t s
  rw [h]

theorem tieAssist_of_idle (hk : s.ownKind = some .tie) (hs : s.tie.state = .idle) (hb : s.brk.state = .opened) :
    s.tieAssist n = ((s.setTie { state := .assisting, ordering := n }).forgetClose.postWant .tie).1 := by
  simp [State.tieAssist, State.isTie, hk, hs, hb]

theorem tieAssist_of_other (h : s.tie.state ≠ .idle ∨ s.brk.state ≠ .opened) : s.tieAssist n = s := by
  refine if_neg fun all => ?_
  simp only [Bool.and_eq_true, beq_iff_eq] at all
  obtain ⟨⟨-, idle⟩, opened⟩ := all
  exact h.elim (· idle) (· opened)

theorem tieAssist_tie (hk : s.ownKind = some .tie) (hs : s.tie.state = .idle) (hb : s.brk.state = .opened) :
    (s.tieAssist n).tie = { state := .assisting, ordering := n } := by
  rw [tieAssist_of_idle hk hs hb, postWant_tie]
  exact setTie_tie _ _

/-- A claim judged keeps its want. -/
theorem judgeClaim_want (s : State) : s.judgeClaim.token.want = s.token.want := by
  unfold State.judgeClaim
  split
  · split
    · rfl
    · obtain ⟨link, requested⟩ := requestOrdered_eq s (.claim s.ownSections)
      dsimp only
      rw [requested]
      split <;> rfl
  · rfl

/-- A want posted with no claim standing and the breaker OPEN is recorded (R117). -/
theorem postWant_of_idle (w : Want) (ht : s.token.state = .idle) (hb : s.brk.state = .opened) (hw : s.brk.watch = false) :
    s.postWant w =
      ((s.onToken fun t => { t with state := .wanted, want := some w, cause := none, begun := false }).judgeClaim, .taken) := by
  simp [State.postWant, ht, hb, hw]

theorem tieAssist_want (hk : s.ownKind = some .tie) (hs : s.tie.state = .idle) (hb : s.brk.state = .opened)
    (ht : s.token.state = .idle) (hw : s.brk.watch = false) : (s.tieAssist n).token.want = some .tie := by
  obtain ⟨link, set⟩ := setTie_eq { state := .assisting, ordering := n } s
  rw [tieAssist_of_idle hk hs hb, postWant_of_idle, judgeClaim_want]
  · rfl
  all_goals rw [set]
  · exact ht
  · exact hb
  · exact hw

theorem tieTrip_of_opened (hb : s.brk.state = .opened) : s.tieTrip.tie = { state := .idle, ordering := 0 } := by
  rw [State.tieTrip, if_pos (by simp [hb])]
  exact setTie_tie _ _

theorem tieTrip_of_other (hb : s.brk.state ≠ .opened) :
    s.tieTrip.tie = { state := .splitting, ordering := 0 } ∧ s.tieTrip.brk = (s.trip .tie).brk := by
  obtain ⟨link, set⟩ := setTie_eq { state := .splitting, ordering := 0 } (s.trip .tie)
  rw [State.tieTrip, if_neg (by simp [hb]), set]
  exact ⟨rfl, rfl⟩

/-- A trip records its source in every state but OPEN (R66). -/
theorem mem_sources_of_trip (src : TripSource) (hb : s.brk.state ≠ .opened) : src ∈ (s.trip src).brk.sources := by
  cases hs : s.brk.state with
  | opened => exact absurd hs hb
  | closing => rw [trip_of_closing hs]; exact mem_addSource _ _
  | closed => rw [trip_of_closed hs]; exact mem_addSource _ _
  | opening => rw [trip_of_opening hs]; exact mem_addSource _ _
  | failed => rw [trip_of_failed hs]; exact mem_addSource _ _

/-- The withdrawal of a want changes no state of the breaker. -/
theorem withdrawWant_brk_state (w : Want) (s : State) : (s.withdrawWant w).brk.state = s.brk.state := by
  have marks (t : State) : t.withdrawClose.brk.state = t.brk.state := by
    unfold State.withdrawClose
    split <;> rfl
  have released (t : State) (c : ReleaseCause) : (t.requestRelease c).brk = t.brk := by
    obtain ⟨link, stage, sync, h, -⟩ := requestRelease_eq t c
    rw [h]
  unfold State.withdrawWant
  split
  · unfold State.dropWant
    split
    · rfl
    · rfl
    · rfl
    · rw [released]; rfl
    · rw [released]; rfl
    · rw [marks]; rfl
    · rfl
    · rfl
  · rfl

theorem tieSplit_of_idle (hs : s.tie.state = .idle) : s.tieSplit = s.tieTrip := by simp [State.tieSplit, hs]

theorem tieSplit_of_closing (hs : s.tie.state = .assisting ∨ s.tie.state = .merging) :
    s.tieSplit = (s.withdrawWant .tie).tieTrip := by
  obtain hs | hs := hs <;> simp [State.tieSplit, hs]

theorem tieSplit_of_splitting (hs : s.tie.state = .splitting) : s.tieSplit = s.trip .tie := by simp [State.tieSplit, hs]

/-- A SPLIT at an idle tie whose breaker is CLOSED (R173). -/
theorem tieSplit_of_closed (hs : s.tie.state = .idle) (hb : s.brk.state = .closed) :
    s.tieSplit.tie = { state := .splitting, ordering := 0 } ∧ s.tieSplit.brk.state = .opening ∧
      TripSource.tie ∈ s.tieSplit.brk.sources := by
  obtain ⟨tie, brk⟩ := tieTrip_of_other (s := s) (by simp [hb])
  rw [tieSplit_of_idle hs, brk, trip_of_closed hb]
  exact ⟨tie, rfl, mem_addSource _ _⟩

end

/-! ### A tie order delivered (R163) -/

section
variable {s : State} {n : Nat} {o : OrderKind} {tie : Option Nat}

/-- Where a tie order reaches the tie role: an incomer's TIE_ASSIST or SPLIT that names this tie, which joins the sender's
section. -/
def State.reachesTie (n : Nat) (o : OrderKind) (tie : Option Nat) (s : State) : Prop :=
  s.kindOf n = some .incomer ∧ o.isSectionOrder = false ∧ s.ownKind = some .tie ∧ tie = some s.own ∧
    ∃ x, s.secOf n = some x ∧ (s.connects s.own).get x = true

theorem applyOrder_of_reaches (h : s.reachesTie n o tie) : s.applyOrder n o tie =
    match o with
    | .tieAssist => s.tieAssist n
    | .split => s.tieSplit
    | _ => s := by
  obtain ⟨incomer, other, kind, rfl, x, sec, joins⟩ := h
  have own : s.kindOf s.own = some .tie := kind
  cases o <;> simp_all [State.applyOrder, State.tieOrder, OrderKind.isSectionOrder]

theorem applyOrder_of_not_reaches (h : ¬ s.reachesTie n o tie) (hn : o.isSectionOrder = false ∨ tie.isSome = true) :
    s.applyOrder n o tie = s := by
  unfold State.applyOrder
  split
  next incomer =>
    split
    next none_ _ => simp_all
    next x t sec other =>
      unfold State.tieOrder
      split
      next all =>
        simp only [Bool.and_eq_true, beq_iff_eq] at all
        obtain ⟨⟨kind, joins⟩, rfl⟩ := all
        exact absurd ⟨eq_of_beq incomer, other, kind, rfl, x, sec, joins⟩ h
      next => rfl
    next => rfl
  next => rfl

end

/-- Settles O45. -/
theorem tieTakesItsOrders : Obligations.TieTakesItsOrders := by
  refine ⟨fun n s hk => ⟨fun hs hb => ⟨tieAssist_tie hk hs hb, tieAssist_want hk hs hb⟩, tieAssist_of_other,
    tieSplit_of_closed, fun hs hb => ?_, fun hs => ⟨fun hb => ?_, fun hb => ?_⟩, tieSplit_of_splitting⟩,
    fun h o tie s u w hc hk other hu hw => ?_⟩
  · rw [tieSplit_of_idle hs, tieTrip_of_opened hb]
  · rw [tieSplit_of_closing hs, tieTrip_of_opened ((withdrawWant_brk_state _ s).trans hb)]
  · have shut : (s.withdrawWant .tie).brk.state ≠ .opened := by rwa [withdrawWant_brk_state]
    obtain ⟨tie, brk⟩ := tieTrip_of_other shut
    rw [tieSplit_of_closing hs, brk]
    exact ⟨tie, mem_sources_of_trip _ shut⟩
  · dsimp only
    have noted : Within pictureScope s u := hu ▸ within_noted s .order _ h
    have handed : Within ownerScope u w := hw ▸ handOnQuiet_within s u
    have own : u.own = s.own := congrArg StationSettings.number noted.station
    have own' : w.own = u.own := congrArg StationSettings.number handed.station
    have kind : w.ownKind = s.ownKind := by
      rw [State.ownKind, own', own, handed.kindOf, noted.kindOf]
      rfl
    have reaches : w.reachesTie h.source o tie ↔ u.kindOf h.source = some .incomer ∧ o.isSectionOrder = false ∧
        s.ownKind = some .tie ∧ tie = some s.own ∧ ∃ x, u.secOf h.source = some x ∧ (u.connects s.own).get x = true := by
      simp only [State.reachesTie, kind, own', own, handed.kindOf, handed.secOf, connects_of_within handed]
    have work : State.orderWork h o tie s u =
        (if u.reportsInStep h.source then w.applyOrder h.source o tie else w).voidBy h.source := by
      unfold State.orderWork
      dsimp only
      rw [← hw, if_neg (by simpa [own] using other)]
    have run : exec (.order h o tie) s = .next (State.finish s
        (((if u.reportsInStep h.source then w.applyOrder h.source o tie else w).voidBy h.source).settle.endDelivery)) := by
      refine (event_of_configured (State.orderDelivery h o tie) hc).trans ?_
      rw [State.orderDelivery, deliver_of_configured hk, pictured_same, ← hu, work]
    refine ⟨_, _, run, rfl, fun hf => ?_, ?_, ?_, ?_, ?_, fun hn hs => ?_⟩
    · rw [hw, handOnQuiet_tie hf, hu, noted_tie]
    · rintro ⟨applied, taken⟩ rfl
      rw [if_pos applied, applyOrder_of_reaches (reaches.mpr taken)]
    · rintro ⟨applied, taken⟩ rfl
      rw [if_pos applied, applyOrder_of_reaches (reaches.mpr taken)]
    · rintro ⟨applied, taken⟩ rfl idle opened
      rw [if_pos applied, applyOrder_of_reaches (reaches.mpr taken), voidBy_tie]
      exact tieAssist_tie (reaches.mpr taken).2.2.1 idle opened
    · rintro ⟨applied, taken⟩ rfl idle closed
      obtain ⟨splitting, -, source⟩ := tieSplit_of_closed idle closed
      rw [if_pos applied, applyOrder_of_reaches (reaches.mpr taken)]
      obtain ⟨step, link, chg, feeder, voided⟩ := voidBy_eq w.tieSplit h.source
      dsimp only
      rw [voided]
      exact ⟨splitting, source⟩
    · have nothing : (if u.reportsInStep h.source then w.applyOrder h.source o tie else w) = w := by
        split
        next applied => exact applyOrder_of_not_reaches (fun r => hn ⟨applied, reaches.mp r⟩) hs
        next => rfl
      rw [nothing]
      exact ⟨rfl, voidBy_tie w _⟩

end Sys2Proof.Machine
end

