-- ==== Sys2Proof/Proofs/OperationOutcome.lean ====
section
/-!
SUPPORT. The outcome of the operate record, and the operations that leave it as it stands: an operation in progress ends by
"closed", by an opening, or by the claim record's return to IDLE, and never as TIMED_OUT outside its limit (R179, R180).
-/

namespace Sys2Proof.Machine

/-- The state and the limit of the operate record. -/
def State.outcome (s : State) : OperateState × Timer := (s.port.state, s.port.limit)

theorem outcome_of_port {s t : State} (h : t.port = s.port) : t.outcome = s.outcome := by
  rw [State.outcome, State.outcome, h]

section
variable (s : State)

@[simp] theorem onToken_outcome (f : TokenRecord → TokenRecord) : (s.onToken f).outcome = s.outcome := rfl
@[simp] theorem onSync_outcome (f : SyncRecord → SyncRecord) : (s.onSync f).outcome = s.outcome := rfl
@[simp] theorem onDisp_outcome (f : DispatchRecord → DispatchRecord) : (s.onDisp f).outcome = s.outcome := rfl
@[simp] theorem onFeeder_outcome (f : FeederRecord → FeederRecord) : (s.onFeeder f).outcome = s.outcome := rfl
@[simp] theorem onChg_outcome (f : ChangeoverRecord → ChangeoverRecord) : (s.onChg f).outcome = s.outcome := rfl
@[simp] theorem onTie_outcome (f : TieRecord → TieRecord) : (s.onTie f).outcome = s.outcome := rfl
@[simp] theorem onProt_outcome (f : ProtectionRecord → ProtectionRecord) : (s.onProt f).outcome = s.outcome := rfl
@[simp] theorem onLink_outcome (f : LinkRecord → LinkRecord) : (s.onLink f).outcome = s.outcome := rfl
@[simp] theorem onBrk_outcome (f : BreakerRecord → BreakerRecord) : (s.onBrk f).outcome = s.outcome := rfl
@[simp] theorem onEng_outcome (f : EngineRecord → EngineRecord) : (s.onEng f).outcome = s.outcome := rfl
@[simp] theorem onZone_outcome (f : ZoneRecord → ZoneRecord) : (s.onZone f).outcome = s.outcome := rfl
@[simp] theorem onFault_outcome (f : FaultStore → FaultStore) : (s.onFault f).outcome = s.outcome := rfl
@[simp] theorem tell_outcome (n : News) : (s.tell n).outcome = s.outcome := rfl

/-! ### The breaker, the session and the queue -/

@[simp] theorem tracking_outcome (f : State → State) : (State.tracking f s).outcome = (f s).outcome := by
  obtain ⟨r, h⟩ := tracking_eq f s
  rw [h]
  rfl

@[simp] theorem trip_outcome (src : TripSource) : (s.trip src).outcome = s.outcome := by
  obtain ⟨brk, news, h⟩ := trip_eq s src
  rw [h]
  rfl

@[simp] theorem withdrawClose_outcome : s.withdrawClose.outcome = s.outcome := by
  obtain ⟨brk, h⟩ := withdrawClose_eq s
  rw [h]
  rfl

@[simp] theorem endSession_outcome (c : SessionEnd) : (s.endSession c).outcome = s.outcome := by
  obtain ⟨sync, h, -⟩ := endSession_eq s c
  rw [h]
  rfl

@[simp] theorem requestOrdered_outcome (f : OrderedFrame) : (s.requestOrdered f).outcome = s.outcome := by
  obtain ⟨link, h⟩ := requestOrdered_eq s f
  rw [h]
  rfl

@[simp] theorem requestRelease_outcome (c : ReleaseCause) : (s.requestRelease c).outcome = s.outcome := by
  obtain ⟨link, stage, sync, h, -⟩ := requestRelease_eq s c
  rw [h]
  rfl

@[simp] theorem openSession_outcome : s.openSession.outcome = s.outcome := by
  simp [State.openSession]

@[simp] theorem requestClose_outcome : s.requestClose.1.outcome = s.outcome := by
  unfold State.requestClose
  split
  · rfl
  · simp [State.beginClose]

@[simp] theorem attend_outcome : s.attend.outcome = s.outcome := rfl

@[simp] theorem tellBarred_outcome (b : Bool) : (State.tellBarred b s).outcome = s.outcome := by
  unfold State.tellBarred
  (repeat' split) <;> simp

@[simp] theorem severityActs_outcome (k : FaultKind) : (s.severityActs k).outcome = s.outcome := by
  unfold State.severityActs State.lockoutOnset
  (repeat' split) <;> simp

/-- A raise concerns the attention line alone of the port. -/
@[simp] theorem raise_outcome (k : FaultKind) (ctx : FaultContext) : (s.raise k ctx).outcome = s.outcome := by
  have recorded : (s.record k ctx).outcome = s.outcome := by
    unfold State.record
    split <;> simp
  unfold State.raise State.raiseActs State.joinBusFault
  dsimp only
  (repeat' split) <;> simp [recorded]

/-! ### The claim record -/

@[simp] theorem judgeClaim_outcome : s.judgeClaim.outcome = s.outcome := by
  obtain ⟨link, token, news, h⟩ := judgeClaim_eq s
  rw [h]
  rfl

@[simp] theorem postWant_outcome (w : Want) : (s.postWant w).1.outcome = s.outcome := by
  obtain ⟨link, token, news, h⟩ := postWant_eq w s
  rw [h]
  rfl

@[simp] theorem closeForClaim_outcome : s.closeForClaim.outcome = s.outcome := by
  have asked := requestClose_outcome s
  unfold State.closeForClaim
  generalize s.requestClose = answer at asked ⊢
  obtain ⟨t, refusal⟩ := answer
  cases refusal with
  | none => exact asked
  | some r => cases r <;> simpa using asked

@[simp] theorem measureSides_outcome : s.measureSides.outcome = s.outcome := by
  unfold State.measureSides
  dsimp only
  (repeat' split) <;> simp

@[simp] theorem dropWant_outcome : s.dropWant.outcome = s.outcome := by
  unfold State.dropWant
  (repeat' split) <;> simp

@[simp] theorem withdrawWant_outcome (w : Want) : (s.withdrawWant w).outcome = s.outcome := by
  unfold State.withdrawWant
  (repeat' split) <;> simp

@[simp] theorem claimToIdle_outcome (c : Option ReleaseCause) : (s.claimToIdle c).outcome = s.outcome := by
  simp [State.claimToIdle]

@[simp] theorem closeEnded_outcome (c : ReleaseCause) : (s.closeEnded c).outcome = s.outcome := by
  unfold State.closeEnded
  (repeat' split) <;> simp

@[simp] theorem tokenClosed_outcome (mark : Bool) : (s.tokenClosed mark).outcome = s.outcome := by
  unfold State.tokenClosed
  (repeat' split) <;> simp

@[simp] theorem tokenCloseFailed_outcome : s.tokenCloseFailed.outcome = s.outcome := by
  simp [State.tokenCloseFailed]

@[simp] theorem tokenLockout_outcome : s.tokenLockout.outcome = s.outcome := by
  unfold State.tokenLockout
  (repeat' split) <;> simp

@[simp] theorem tokenAcceptedNone_outcome : s.tokenAcceptedNone.outcome = s.outcome := by
  unfold State.tokenAcceptedNone
  (repeat' split) <;> simp

/-! ### The changeover role -/

@[simp] theorem requestOwed_outcome : s.requestOwed.outcome = s.outcome := by
  obtain ⟨link, owed, h, -⟩ := requestOwed_eq s
  rw [h]
  rfl

@[simp] theorem owe_outcome (o : OrderKind) : (s.owe o).outcome = s.outcome := by
  obtain ⟨link, owed, h, -⟩ := owe_eq o s
  rw [h]
  rfl

@[simp] theorem oweTie_outcome (o : OrderKind) (n : Nat) : (s.oweTie o n).outcome = s.outcome := by
  obtain ⟨link, owed, h, -⟩ := oweTie_eq o n s
  rw [h]
  rfl

@[simp] theorem moveTo_outcome (c : ChangeoverState) : (s.moveTo c).outcome = s.outcome := by
  obtain ⟨link, h⟩ := moveTo_eq c s
  rw [h]
  rfl

@[simp] theorem postChangeover_outcome : s.postChangeover.outcome = s.outcome := by
  obtain ⟨link, token, news, due, h⟩ := postChangeover_eq s
  rw [h]
  rfl

@[simp] theorem oweTies_outcome (o : OrderKind) (ties : List Nat) : (ties.foldl (fun s n => s.oweTie o n) s).outcome = s.outcome := by
  induction ties generalizing s with
  | nil => rfl
  | cons n ns ih => exact (ih _).trans (oweTie_outcome s o n)

@[simp] theorem withdrawChangeover_outcome : s.withdrawChangeover.outcome = s.outcome := by
  simp [State.withdrawChangeover]

@[simp] theorem enterRetransfer_outcome : s.enterRetransfer.outcome = s.outcome := by
  simp [State.enterRetransfer]

@[simp] theorem enterOpenRetransfer_outcome : s.enterOpenRetransfer.outcome = s.outcome := by
  unfold State.enterOpenRetransfer
  dsimp only
  (repeat' split) <;> simp

@[simp] theorem judgeBackup_outcome : s.judgeBackup.outcome = s.outcome := by
  unfold State.judgeBackup
  dsimp only
  (repeat' split) <;> simp

@[simp] theorem enterBackup_outcome : s.enterBackup.outcome = s.outcome := by
  simp [State.enterBackup]

@[simp] theorem judgeIsolating_outcome : s.judgeIsolating.outcome = s.outcome := by
  unfold State.judgeIsolating
  (repeat' split) <;> simp

@[simp] theorem enterIsolating_outcome : s.enterIsolating.outcome = s.outcome := by
  simp [State.enterIsolating]

@[simp] theorem enterNormal_outcome : s.enterNormal.outcome = s.outcome := by
  unfold State.enterNormal
  dsimp only
  (repeat' split) <;> simp

@[simp] theorem judgeParallel_outcome : s.judgeParallel.outcome = s.outcome := by
  unfold State.judgeParallel
  (repeat' split) <;> simp

@[simp] theorem enterParallel_outcome : s.enterParallel.outcome = s.outcome := by
  simp [State.enterParallel]

@[simp] theorem leaveParallel_outcome : s.leaveParallel.outcome = s.outcome := by
  simp [State.leaveParallel]

@[simp] theorem leaveTieWait_outcome : s.leaveTieWait.outcome = s.outcome := by
  simp [State.leaveTieWait]

@[simp] theorem giveUp_outcome : s.giveUp.outcome = s.outcome := by
  simp [State.giveUp]

@[simp] theorem enterLocked_outcome : s.enterLocked.outcome = s.outcome := by
  simp [State.enterLocked]

@[simp] theorem judgeStart_outcome : s.judgeStart.outcome = s.outcome := by
  unfold State.judgeStart
  (repeat' split) <;> simp

@[simp] theorem changeoverClosed_outcome (mark : Bool) : (s.changeoverClosed mark).outcome = s.outcome := by
  unfold State.changeoverClosed
  (repeat' split) <;> simp

@[simp] theorem changeoverOpened_outcome : s.changeoverOpened.outcome = s.outcome := by
  unfold State.changeoverOpened
  (repeat' split) <;> simp

@[simp] theorem changeoverUnrequested_outcome : s.changeoverUnrequested.outcome = s.outcome := by
  unfold State.changeoverUnrequested
  (repeat' split) <;> simp

@[simp] theorem changeoverClaimIdle_outcome (c : Option ReleaseCause) (m : Bool) : (s.changeoverClaimIdle c m).outcome = s.outcome := by
  unfold State.changeoverClaimIdle
  (repeat' split) <;> simp

@[simp] theorem changeoverClaimTest_outcome (k : Nat) : (s.changeoverClaimTest k).outcome = s.outcome := by
  unfold State.changeoverClaimTest
  (repeat' split) <;> simp

@[simp] theorem changeoverHoldLost_outcome : s.changeoverHoldLost.outcome = s.outcome := by
  unfold State.changeoverHoldLost
  (repeat' split) <;> simp

@[simp] theorem maintenanceOpen_outcome : s.maintenanceOpen.outcome = s.outcome := by
  unfold State.maintenanceOpen
  dsimp only
  (repeat' split) <;> simp

@[simp] theorem maintenanceClose_outcome : s.maintenanceClose.outcome = s.outcome := by
  unfold State.maintenanceClose
  (repeat' split) <;> simp

/-! ### The feeder role -/

@[simp] theorem requestFeeder_outcome (f : OrderedFrame) (r : FeederRequest) : (s.requestFeeder f r).outcome = s.outcome := by
  unfold State.requestFeeder
  (repeat' split) <;> simp

@[simp] theorem settleMarks_outcome : s.settleMarks.outcome = s.outcome := by
  unfold State.settleMarks
  (repeat' split) <;> simp

@[simp] theorem dueRequest_outcome : s.dueRequest.outcome = s.outcome := by
  unfold State.dueRequest
  (repeat' split) <;> simp

@[simp] theorem judgeFeeder_outcome : s.judgeFeeder.outcome = s.outcome := by
  unfold State.judgeFeeder
  (repeat' split) <;> simp

@[simp] theorem oweWithdraw_outcome : s.oweWithdraw.outcome = s.outcome := by
  simp [State.oweWithdraw]

@[simp] theorem giveUpPlace_outcome : s.giveUpPlace.outcome = s.outcome := by
  unfold State.giveUpPlace
  (repeat' split) <;> simp

@[simp] theorem oweAdmit_outcome : s.oweAdmit.outcome = s.outcome := by
  simp [State.oweAdmit]

@[simp] theorem judgeFeederClose_outcome : s.judgeFeederClose.outcome = s.outcome := by
  unfold State.judgeFeederClose
  (repeat' split) <;> simp

@[simp] theorem feederOpened_outcome (l : List TripSource) : (s.feederOpened l).outcome = s.outcome := by
  unfold State.feederOpened
  (repeat' split) <;> simp

@[simp] theorem feederCloseFailed_outcome : s.feederCloseFailed.outcome = s.outcome := by
  simp [State.feederCloseFailed]

@[simp] theorem feederAborted_outcome (src : TripSource) : (s.feederAborted src).outcome = s.outcome := by
  unfold State.feederAborted
  (repeat' split) <;> simp

@[simp] theorem feederUnrequested_outcome : s.feederUnrequested.outcome = s.outcome := by
  unfold State.feederUnrequested
  (repeat' split) <;> simp

/-! ### The generator role -/

@[simp] theorem changeRole_outcome (f : DispatchRecord → DispatchRecord) : (s.changeRole f).outcome = s.outcome := by
  obtain ⟨link, h⟩ := changeRole_eq f s
  rw [h]
  rfl

@[simp] theorem drive_outcome (on : Bool) : (s.drive on).outcome = s.outcome := by
  simp [State.drive]

@[simp] theorem judgeWant_outcome : s.judgeWant.outcome = s.outcome := by
  unfold State.judgeWant
  (repeat' split) <;> simp

@[simp] theorem withdrawEither_outcome : s.withdrawEither.outcome = s.outcome := by
  unfold State.withdrawEither
  (repeat' split) <;> simp

@[simp] theorem judgeSurplus_outcome : s.judgeSurplus.outcome = s.outcome := by
  unfold State.judgeSurplus
  (repeat' split) <;> simp

@[simp] theorem enterStandby_outcome : s.enterStandby.outcome = s.outcome := by
  simp [State.enterStandby]

@[simp] theorem enterStarting_outcome : s.enterStarting.outcome = s.outcome := by
  simp [State.enterStarting]

@[simp] theorem startEngine_outcome : s.startEngine.outcome = s.outcome := by
  simp [State.startEngine]

@[simp] theorem enterReady_outcome : s.enterReady.outcome = s.outcome := by
  simp [State.enterReady]

@[simp] theorem enterOnline_outcome : s.enterOnline.outcome = s.outcome := by
  simp [State.enterOnline]

@[simp] theorem leaveReady_outcome : s.leaveReady.outcome = s.outcome := by
  simp [State.leaveReady]

@[simp] theorem enterCooldown_outcome : s.enterCooldown.outcome = s.outcome := by
  unfold State.enterCooldown
  dsimp only
  (repeat' split) <;> simp

@[simp] theorem unloadTrip_outcome : s.unloadTrip.outcome = s.outcome := by
  unfold State.unloadTrip
  (repeat' split) <;> simp

@[simp] theorem enterUnloading_outcome (r : UnloadReason) : (s.enterUnloading r).outcome = s.outcome := by
  simp [State.enterUnloading]

@[simp] theorem generatorBarred_outcome (b : Bool) : (s.generatorBarred b).outcome = s.outcome := by
  unfold State.generatorBarred
  (repeat' split) <;> simp

@[simp] theorem generatorClosed_outcome (r : Bool) : (s.generatorClosed r).outcome = s.outcome := by
  unfold State.generatorClosed
  (repeat' split) <;> simp

@[simp] theorem generatorOpened_outcome : s.generatorOpened.outcome = s.outcome := by
  unfold State.generatorOpened
  (repeat' split) <;> simp

@[simp] theorem judgeAutonomous_outcome : s.judgeAutonomous.outcome = s.outcome := by
  unfold State.judgeAutonomous
  (repeat' split) <;> simp

/-! ### The tie role -/

@[simp] theorem setTie_outcome (t : TieRecord) : (s.setTie t).outcome = s.outcome := by
  simp [State.setTie]

@[simp] theorem tieToIdle_outcome : s.tieToIdle.outcome = s.outcome := by
  simp [State.tieToIdle]

@[simp] theorem tieMerge_outcome : s.tieMerge.1.outcome = s.outcome := by
  unfold State.tieMerge
  (repeat' split) <;> simp

@[simp] theorem tieTrip_outcome : s.tieTrip.outcome = s.outcome := by
  unfold State.tieTrip
  (repeat' split) <;> simp

@[simp] theorem tieSplit_outcome : s.tieSplit.outcome = s.outcome := by
  unfold State.tieSplit
  (repeat' split) <;> simp

@[simp] theorem tieOpened_outcome : s.tieOpened.outcome = s.outcome := by
  unfold State.tieOpened
  (repeat' split) <;> simp

@[simp] theorem tieClosed_outcome (m : Bool) : (s.tieClosed m).outcome = s.outcome := by
  unfold State.tieClosed
  (repeat' split) <;> simp

@[simp] theorem tieClaimIdle_outcome (c m : Bool) : (s.tieClaimIdle c m).outcome = s.outcome := by
  unfold State.tieClaimIdle
  (repeat' split) <;> simp

@[simp] theorem tieUnrequested_outcome : s.tieUnrequested.outcome = s.outcome := by
  unfold State.tieUnrequested
  (repeat' split) <;> simp

/-! ### The held elements -/

@[simp] theorem operate_outcome (n : Nat) (k : ElementKind) (r : Route) (empty : Bool) :
    (s.operate n k r empty).outcome = s.outcome := by
  have judged (t : State) : t.judgeIntertrip.outcome = t.outcome := by
    obtain ⟨link, h⟩ := judgeIntertrip_eq t
    rw [h]
    rfl
  unfold State.operate State.onSlot
  dsimp only
  (repeat' split) <;> simp [judged]

@[simp] theorem releaseSlot_outcome (n : Nat) : (s.releaseSlot n).outcome = s.outcome := by
  unfold State.releaseSlot State.onSlot
  (repeat' split) <;> simp

theorem foldl_outcome {α : Type} {f : State → α → State} (hf : ∀ s a, (f s a).outcome = s.outcome) (l : List α) (s : State) :
    (l.foldl f s).outcome = s.outcome := by
  induction l generalizing s with
  | nil => rfl
  | cons a as ih => exact (ih _).trans (hf s a)

@[simp] theorem releaseHeld_outcome : s.releaseHeld.outcome = s.outcome := by
  unfold State.releaseHeld
  split
  · rfl
  · exact foldl_outcome releaseSlot_outcome _ s

/-! ### The actions of an operation -/

@[simp] theorem actOpen_outcome : s.actOpen.1.outcome = s.outcome := by
  unfold State.actOpen
  dsimp only
  (repeat' split) <;> simp

@[simp] theorem actMerge_outcome : s.actMerge.1.outcome = s.outcome := by
  have merged := tieMerge_outcome s
  unfold State.actMerge
  generalize s.tieMerge = p at merged ⊢
  obtain ⟨t, b⟩ := p
  cases b <;> exact merged

@[simp] theorem actClose_outcome : s.actClose.1.outcome = s.outcome := by
  have posted := postWant_outcome s .maintenance
  unfold State.actClose
  generalize s.postWant .maintenance = p at posted ⊢
  obtain ⟨t, answer⟩ := p
  dsimp only
  (repeat' split) <;> simp_all

/-- An operation's own action ends no operation (R179). -/
@[simp] theorem act_outcome (o : Operation) : (s.act o).1.outcome = s.outcome := by
  unfold State.act State.setBar
  dsimp only
  (repeat' split) <;> simp

end

/-! ### The hand-ons -/

/-- The outcomes an operation taken can have before its limit (R179). -/
def State.Untimed (s : State) : Prop := s.port.state = .inProgress ∨ s.port.state = .done ∨ s.port.state = .refused

section
variable {s t : State}

theorem State.Untimed.of_outcome (h : t.outcome = s.outcome) (u : s.Untimed) : t.Untimed := by
  have state : t.port.state = s.port.state := congrArg Prod.fst h
  rwa [State.Untimed, state]

theorem State.Untimed.operateClosed (u : s.Untimed) : s.operateClosed.Untimed := by
  unfold State.operateClosed
  split
  · exact .inr (.inl rfl)
  · exact u

theorem State.Untimed.operateOpened (u : s.Untimed) : s.operateOpened.Untimed := by
  unfold State.operateOpened
  split
  · exact .inr (.inl rfl)
  · exact u

theorem State.Untimed.operateClaimIdle (u : s.Untimed) (c : Option ReleaseCause) (closed : Bool) :
    (s.operateClaimIdle c closed).Untimed := by
  unfold State.operateClaimIdle
  split
  · exact .inr (.inr rfl)
  · exact u

theorem State.Untimed.judgeOperation (u : s.Untimed) : s.judgeOperation.Untimed := by
  unfold State.judgeOperation
  split
  · exact .inr (.inl rfl)
  · split
    · exact .inr (.inl rfl)
    · exact u

theorem roleClosed_outcome (s : State) (mark : Bool) : (s.roleClosed mark).outcome = s.outcome := by
  unfold State.roleClosed
  split <;> simp

theorem roleOpened_outcome (s : State) (l : List TripSource) : (s.roleOpened l).outcome = s.outcome := by
  unfold State.roleOpened
  split <;> simp

theorem roleUnrequested_outcome (s : State) : s.roleUnrequested.outcome = s.outcome := by
  unfold State.roleUnrequested
  split <;> simp

theorem roleClaimIdle_outcome (s : State) (c : Option ReleaseCause) (closed marked : Bool) :
    (s.roleClaimIdle c closed marked).outcome = s.outcome := by
  unfold State.roleClaimIdle
  split <;> simp

/-- A hand-on ends an operation as DONE or REFUSED, or leaves it (R179). -/
theorem State.Untimed.takeNews (u : s.Untimed) (n : News) : (s.takeNews n).Untimed := by
  cases n with
  | closed mark => exact (of_outcome ((roleClosed_outcome _ mark).trans (tokenClosed_outcome s mark)) u).operateClosed
  | opened sources => exact (of_outcome (roleOpened_outcome s sources) u).operateOpened
  | claimIdle c closed marked => exact (of_outcome (roleClaimIdle_outcome s c closed marked) u).operateClaimIdle c closed
  | claimWithdrawn => exact (of_outcome (roleClaimIdle_outcome s none false false) u).operateClaimIdle none false
  | closedUnrequested => exact of_outcome (roleUnrequested_outcome s) u
  | acceptedChanged held => cases held <;> exact of_outcome (by simp [State.takeNews]) u
  | closeFailed => exact of_outcome (by simp [State.takeNews]) u
  | closeAborted src => exact of_outcome (by simp [State.takeNews]) u
  | lockoutOnset => exact of_outcome (by simp [State.takeNews]) u
  | lockoutEnd => exact of_outcome (by simp [State.takeNews, State.changeoverLockoutEnd]) u
  | barredChanged b => exact of_outcome (by simp [State.takeNews]) u
  | claimTest k => exact of_outcome (by simp [State.takeNews]) u
  | holdExpired => exact of_outcome (by simp [State.takeNews]) u
  | syncTimedOut => exact of_outcome (by simp [State.takeNews]) u
  | blockListEmptied => exact of_outcome (by simp [State.takeNews]) u

theorem State.Untimed.settleFor (k : Nat) : ∀ {s : State}, s.Untimed → (Machine.settleFor k s).Untimed := by
  induction k with
  | zero => exact id
  | succ k ih =>
    intro s u
    unfold Machine.settleFor
    split
    · exact u
    · refine ih (List.foldlRecOn _ _ (of_outcome rfl u) fun t ut n _ => ?_)
      exact ut.takeNews n

/-- What follows an event ends an operation as DONE or REFUSED, or leaves it (R179). -/
theorem State.Untimed.finish (u : s.Untimed) (before : State) : (State.finish before s).Untimed := by
  have settled : s.settle.Untimed := u.settleFor _
  have judged : s.settle.judgeAutonomous.judgeStart.Untimed := of_outcome (by simp) settled
  have after : s.settle.wrapUp.settle.Untimed := judged.judgeOperation.settleFor _
  obtain ⟨request, status⟩ := changeStatus_eq before { s.settle.wrapUp.settle with news := [] }
  rw [State.finish, status]
  exact after

end

end Sys2Proof.Machine
end

