-- ==== Sys2Proof/Proofs/Operations.lean ====
section
/-!
SUPPORT. The operate record taken, its actions by station kind, and its limit (R66, R112, R117, R159, R168, R173, R179, R180).
-/

namespace Sys2Proof.Machine

/-! ### An operation taken (R179) -/

section
variable {o : Operation} {s v : State}

theorem takeOperation_of_begun (h : (s.inProgressWith o).act o = (v, .begun)) : s.takeOperation o = v.answer .ok [] := by
  unfold State.takeOperation
  dsimp only
  rw [← State.inProgressWith, h]

theorem takeOperation_of_done (h : (s.inProgressWith o).act o = (v, .done)) :
    s.takeOperation o = (v.endOperation .done none).answer .ok [] := by
  unfold State.takeOperation
  dsimp only
  rw [← State.inProgressWith, h]

theorem takeOperation_of_refused {r : OperateReason} (h : (s.inProgressWith o).act o = (v, .refused r)) :
    s.takeOperation o = (v.endOperation .refused (some r)).answer .refused [] := by
  unfold State.takeOperation
  dsimp only
  rw [← State.inProgressWith, h]

theorem act_within (o : Operation) (s : State) : Within { bar := true } (s.inProgressWith o) ((s.inProgressWith o).act o).1 :=
  (Within.refl _ _).act rfl o

theorem act_operation (h : ((s.inProgressWith o).act o).1 = v) : v.port.operation = some o := by
  subst h
  exact (act_within o s).operation rfl

theorem act_inProgress (h : ((s.inProgressWith o).act o).1 = v) : v.port.state = .inProgress ∧ v.port.limit = some 60000 := by
  have outcome : v.outcome = (.inProgress, some 60000) := by
    rw [← h, act_outcome]
    rfl
  exact ⟨congrArg Prod.fst outcome, congrArg Prod.snd outcome⟩

/-- What an operation's action changes beyond the port, and what follows of it, whatever the port then holds. -/
theorem Within.frame_beyondPort {sc : Scope} {u t : State} {p : PortRecord} (h : Within sc s u)
    (k : Within {} { u with port := p } t) : Frame sc { s with port := t.port } t where
  pending := k.pending.trans h.pending
  settings := k.settings.trans h.settings
  pins := k.pins.trans h.pins
  meas := k.meas.trans h.meas
  nextSeq := k.nextSeq.trans h.nextSeq
  startSilence := k.startSilence.trans h.startSilence
  roundTimer := k.roundTimer.trans h.roundTimer
  roundCount := k.roundCount.trans h.roundCount
  transmitted := k.transmitted.trans h.transmitted
  receiveDiscard := k.receiveDiscard.trans h.receiveDiscard
  lastComposed := k.lastComposed.trans h.lastComposed
  mediumIdle := k.mediumIdle.trans h.mediumIdle
  sent := k.sent.trans h.sent
  guard := k.guard.trans h.guard
  step q := (k.step rfl).trans (h.step q)
  fixed := k.fixed.trans h.fixed
  table q := (k.table rfl).trans (h.table q)
  lapse q r := (k.lapse rfl rfl).trans (h.lapse q r)
  delivery q := (k.delivery rfl).trans (h.delivery q)
  quorumCount q := (k.quorumCount rfl).trans (h.quorumCount q)
  quorum q := (k.quorum rfl).trans (h.quorum q)
  derived q x := (k.derived rfl x).trans (h.derived q x)
  configuredSec x := (k.configuredSec x).trans (h.configuredSec x)
  secs q x := (k.secs rfl x).trans (h.secs q x)
  isl q := (k.isl rfl).trans (h.isl q)
  speedBias q := (k.speedBias rfl).trans (h.speedBias q)
  voltageBias q := (k.voltageBias rfl).trans (h.voltageBias q)
  blockList q := (k.blockList rfl).trans (h.blockList q)
  intertrips q := (k.intertrips rfl).trans (h.intertrips q)
  failure q := (k.failure rfl).trans (h.failure q)
  barLatch q := (k.barLatch rfl).trans (h.barLatch q)
  response := rfl
  operation _ := rfl
  settled _ := ⟨rfl, rfl, rfl⟩
  attention q := q
  request q := k.request (h.request q)
  stays c q := k.stays c (h.stays c q)
  capture c q := k.capture c (h.capture c q)
  lockout q := k.lockout (h.lockout q)
  busFault x q := k.busFault x (h.busFault x q)

/-- The three ways an operation is taken, as the port then shows them. -/
theorem takeOperation_cases (o : Operation) (s : State) : ∃ p c,
    s.takeOperation o = { ((s.inProgressWith o).act o).1 with port := p } ∧ p.response = some ⟨c, []⟩ ∧
      p.operation = some o ∧
      ((c = .ok ∧ (p.state = .inProgress ∨ p.state = .done)) ∨
        (c = .refused ∧ p.state = .refused ∧ p.limit = none ∧ p.attention = true)) := by
  obtain ⟨v, a, hv⟩ : ∃ v a, (s.inProgressWith o).act o = (v, a) := ⟨_, _, rfl⟩
  rw [hv]
  have operation : v.port.operation = some o := act_operation (congrArg Prod.fst hv)
  cases a with
  | begun =>
    exact ⟨_, .ok, takeOperation_of_begun hv, rfl, operation, .inl ⟨rfl, .inl (act_inProgress (congrArg Prod.fst hv)).1⟩⟩
  | done => exact ⟨_, .ok, takeOperation_of_done hv, rfl, operation, .inl ⟨rfl, .inr rfl⟩⟩
  | refused r => exact ⟨_, .refused, takeOperation_of_refused hv, rfl, operation, .inr ⟨rfl, rfl, rfl, rfl⟩⟩

theorem exec_operation (o : Operation) (hc : s.settings.state = .configured) (hp : s.port.state ≠ .inProgress) :
    exec o.command s = .next (State.finish s (s.takeOperation o)) :=
  (exec_command o s).trans (operate_of_free o hc hp)

end

/-- Settles O11. -/
theorem operationIsTaken : Obligations.OperationIsTaken := by
  intro o s hc hp
  obtain ⟨p, c, taken, response, operation, outcome⟩ := takeOperation_cases o s
  generalize hu : ((s.inProgressWith o).act o).1 = u at taken
  have acted : Within { bar := true } (s.inProgressWith o) u := hu ▸ act_within o s
  generalize ht : State.finish s (s.takeOperation o) = t
  have after : Within {} { u with port := p } t := by
    rw [← ht, taken]
    exact (Within.refl _ _).finish s
  have free : Frame { bar := true } { s with port := t.port } t := acted.frame_beyondPort after
  refine ⟨t, c, ht ▸ exec_operation o hc hp, after.response.trans response, ?_, (after.operation rfl).trans operation,
    ?_, ?_, free⟩
  · exact outcome.imp And.left And.left
  · rintro rfl
    obtain ⟨⟨⟩, -⟩ | ⟨-, refused, limit, raised⟩ := outcome
    obtain ⟨state, -, limit'⟩ := after.settled (by rw [refused]; decide)
    exact ⟨state.trans refused, limit'.trans limit, after.attention raised⟩
  · rintro rfl
    obtain ⟨-, taken_⟩ | ⟨⟨⟩, -⟩ := outcome
    have untimed : State.Untimed { u with port := p } := taken_.imp id .inl
    rw [← ht, taken]
    exact untimed.finish s

section
variable {o : Operation} {s v : State}

/-- An operation whose action is DONE at once (R179). -/
theorem operation_done (hc : s.settings.state = .configured) (hp : s.port.state ≠ .inProgress)
    (hv : (s.inProgressWith o).act o = (v, .done)) : ∃ t, exec o.command s = .next t ∧
      t.port.response = some ⟨.ok, []⟩ ∧ t.port.state = .done ∧
      Within {} ((v.endOperation .done none).answer .ok []) t := by
  have after := (Within.refl {} ((v.endOperation .done none).answer .ok [])).finish s
  refine ⟨_, exec_operation o hc hp, ?_⟩
  rw [takeOperation_of_done hv]
  have settled := after.settled (fun q : OperateState.done = .inProgress => nomatch q)
  exact ⟨after.response, settled.1, after⟩

/-- An operation whose action is refused at once (R179). -/
theorem operation_refused {r : OperateReason} (hc : s.settings.state = .configured) (hp : s.port.state ≠ .inProgress)
    (hv : (s.inProgressWith o).act o = (v, .refused r)) : ∃ t, exec o.command s = .next t ∧
      t.port.response = some ⟨.refused, []⟩ ∧ t.port.state = .refused ∧ t.port.reason = some r ∧
      Within {} ((v.endOperation .refused (some r)).answer .refused []) t := by
  have after := (Within.refl {} ((v.endOperation .refused (some r)).answer .refused [])).finish s
  refine ⟨_, exec_operation o hc hp, ?_⟩
  rw [takeOperation_of_refused hv]
  obtain ⟨state, reason, -⟩ := after.settled (fun q : OperateState.refused = .inProgress => nomatch q)
  exact ⟨after.response, state, reason, after⟩

theorem act_bar (hk : s.ownKind = some .generator) (ho : o = .bar ∨ o = .unbar) : s.act o = (s.setBar (o == .bar), .done) := by
  obtain rfl | rfl := ho <;> exact if_pos (by simp [State.isGenerator, hk])

theorem setBar_latch (on : Bool) (s : State) : (s.setBar on).fault.barLatch = on := by
  obtain ⟨news, h⟩ := tellBarred_eq s.barred (s.onFault fun f => { f with barLatch := on })
  rw [State.setBar, h]
  rfl

/-- BAR and UNBAR are a generator's, MERGE and SPLIT a tie's (R179). -/
theorem act_of_wrongKind (h : (s.ownKind ≠ some .generator ∧ (o = .bar ∨ o = .unbar)) ∨
    (s.ownKind ≠ some .tie ∧ (o = .merge ∨ o = .split))) : s.act o = (s, .refused .wrongKind) := by
  obtain ⟨hk, rfl | rfl⟩ | ⟨hk, rfl | rfl⟩ := h <;> simp [State.act, State.isGenerator, State.isTie, hk]

end

/-- Settles O12. -/
theorem operationsByKind : Obligations.OperationsByKind := by
  intro o s hc hp
  refine ⟨fun hk ho => ?bar, fun wrong => ?wrongKind, fun hk hr => ?notReady, fun hk hb => ?closed⟩
  case bar =>
    obtain ⟨t, run, response, state, after⟩ := operation_done hc hp (act_bar (s := s.inProgressWith o) hk ho)
    exact ⟨t, run, response, state, (after.barLatch rfl).trans (setBar_latch _ _)⟩
  case wrongKind =>
    obtain ⟨t, run, response, state, reason, after⟩ := operation_refused hc hp
      (act_of_wrongKind (s := s.inProgressWith o) wrong)
    exact ⟨t, run, response, state, reason,
      Within.frame_beyondPort (s := s.inProgressWith o) (Within.refl {} (s.inProgressWith o)) after⟩
  case notReady =>
    have acted : (s.inProgressWith .close).act .close = (s.inProgressWith .close, .refused .notReady) := by
      have kind : (s.inProgressWith .close).ownKind = some .generator := hk
      have role : (s.inProgressWith .close).disp.role ≠ .ready := hr
      simp [State.act, State.actClose, kind, role]
    obtain ⟨t, run, response, -, reason, -⟩ := operation_refused hc hp acted
    exact ⟨t, run, response, reason⟩
  case closed =>
    have acted : (s.inProgressWith .close).act .close = (s.inProgressWith .close, .done) := by
      have kind : (s.inProgressWith .close).ownKind = some .feeder := hk
      have brk : (s.inProgressWith .close).brk.state = .closed := hb
      simp [State.act, State.actClose, kind, brk]
    obtain ⟨t, run, response, state, -⟩ := operation_done hc hp acted
    exact ⟨t, run, response, state⟩

/-! ### What each operation begins (R66, R159, R117, R173, R179) -/

section
variable {o : Operation} {s v : State}

/-- What an operation that is not refused has begun, judged in the state its answer leaves. -/
theorem operation_begins {a : OperateAnswer} {p : State → Prop} (hc : s.settings.state = .configured)
    (hp : s.port.state ≠ .inProgress) (hv : (s.inProgressWith o).act o = (v, a)) (ha : ∀ r, a ≠ .refused r)
    (hbegun : a = .begun → p (v.answer .ok [])) (hdone : a = .done → p ((v.endOperation .done none).answer .ok [])) :
    ∃ t u, exec o.command s = .next t ∧ t = State.finish s u ∧ u.port.operation = some o ∧
      u.port.response = some ⟨.ok, []⟩ ∧ p u := by
  have operation : v.port.operation = some o := act_operation (congrArg Prod.fst hv)
  refine ⟨_, s.takeOperation o, exec_operation o hc hp, rfl, ?_⟩
  cases a with
  | begun => rw [takeOperation_of_begun hv]; exact ⟨operation, rfl, hbegun rfl⟩
  | done => rw [takeOperation_of_done hv]; exact ⟨operation, rfl, hdone rfl⟩
  | refused r => exact absurd rfl (ha r)

theorem begun_inProgress {a : OperateAnswer} (hv : (s.inProgressWith o).act o = (v, a)) :
    (v.answer .ok []).port.state = .inProgress ∧ (v.answer .ok []).port.limit = some 60000 :=
  act_inProgress (v := v) (congrArg Prod.fst hv)

/-! #### The changeover role under a maintenance OPEN -/

/-- The moves of the changeover role that leave the breaker, the port and the manual hold. -/
structure KeepsHold (s t : State) : Prop where
  brk : t.brk = s.brk
  hold : t.chg.manualHold = s.chg.manualHold

theorem KeepsHold.trans {t u : State} (h : KeepsHold s t) (k : KeepsHold t u) : KeepsHold s u :=
  ⟨k.brk.trans h.brk, k.hold.trans h.hold⟩

theorem moveTo_keepsHold (c : ChangeoverState) (s : State) : KeepsHold s (s.moveTo c) := by
  obtain ⟨link, h⟩ := moveTo_eq c s
  rw [h]
  exact ⟨rfl, rfl⟩

theorem owe_keepsHold (o : OrderKind) (s : State) : KeepsHold s (s.owe o) := by
  obtain ⟨link, owed, h, -⟩ := owe_eq o s
  rw [h]
  exact ⟨rfl, rfl⟩

theorem oweTie_keepsHold (o : OrderKind) (n : Nat) (s : State) : KeepsHold s (s.oweTie o n) := by
  obtain ⟨link, owed, h, -⟩ := oweTie_eq o n s
  rw [h]
  exact ⟨rfl, rfl⟩

theorem postChangeover_keepsHold (s : State) : KeepsHold s s.postChangeover := by
  obtain ⟨link, token, news, due, h⟩ := postChangeover_eq s
  rw [h]
  exact ⟨rfl, rfl⟩

theorem oweTies_keepsHold (o : OrderKind) (ties : List Nat) (s : State) :
    KeepsHold s (ties.foldl (fun s n => s.oweTie o n) s) :=
  List.foldlRecOn (motive := KeepsHold s) ties _ ⟨rfl, rfl⟩ fun t h n _ => h.trans (oweTie_keepsHold o n t)

theorem enterOpenRetransfer_keepsHold (s : State) : KeepsHold s s.enterOpenRetransfer := by
  have moved := moveTo_keepsHold .openRetransfer s
  unfold State.enterOpenRetransfer
  dsimp only
  split
  · exact moved.trans ⟨rfl, rfl⟩
  · exact moved.trans (postChangeover_keepsHold _)

theorem judgeBackup_keepsHold (s : State) : KeepsHold s s.judgeBackup := by
  have cleared : KeepsHold s s.unsharedCleared := by
    obtain ⟨asked, h⟩ := unsharedCleared_eq s
    rw [h]
    exact ⟨rfl, rfl⟩
  have asks (t : State) : KeepsHold t (t.onChg fun c => { c with splitAsked := true }) := ⟨rfl, rfl⟩
  unfold State.judgeBackup
  rw [← State.unsharedCleared]
  dsimp only
  split
  · split
    · split
      · split
        · split
          · exact cleared
          · exact cleared.trans ((asks _).trans (oweTies_keepsHold .split _ _))
        · split
          · split
            · exact cleared.trans ((moveTo_keepsHold .retransfer _).trans (postChangeover_keepsHold _))
            · exact cleared
          · exact cleared.trans (enterOpenRetransfer_keepsHold _)
      · exact cleared
    · split
      · exact cleared.trans (owe_keepsHold .start _)
      · exact cleared
  · exact ⟨rfl, rfl⟩

theorem enterBackup_keepsHold (s : State) : KeepsHold s s.enterBackup :=
  (moveTo_keepsHold .onBackup s).trans (judgeBackup_keepsHold _)

theorem judgeIsolating_keepsHold (s : State) : KeepsHold s s.judgeIsolating := by
  unfold State.judgeIsolating
  split
  · split
    · exact enterBackup_keepsHold s
    · split
      · have limit (t : State) : KeepsHold t (t.onChg fun c => { c with tieTimer := some (s.station.tieAssistLimit * 1000) }) :=
          ⟨rfl, rfl⟩
        exact (moveTo_keepsHold .tieWait s).trans ((limit _).trans (oweTie_keepsHold .tieAssist _ _))
      · exact (owe_keepsHold .start s).trans (enterBackup_keepsHold _)
  · exact ⟨rfl, rfl⟩

theorem enterIsolating_keepsHold (s : State) : KeepsHold s s.enterIsolating :=
  (moveTo_keepsHold .isolating s).trans (judgeIsolating_keepsHold _)

theorem leaveParallel_keepsHold (s : State) : KeepsHold s s.leaveParallel := by
  have stopped : KeepsHold s (s.onChg fun c => { c with parallelTimer := none }) := ⟨rfl, rfl⟩
  exact stopped.trans ((owe_keepsHold .resume _).trans (enterBackup_keepsHold _))

/-- A want withdrawn concerns the claim record, its session and its close. -/
theorem withdrawWant_eq (w : Want) (s : State) : ∃ brk link token sync news,
    s.withdrawWant w = { s with brk := brk, link := link, token := token, sync := sync, news := news } ∧
      brk.state = s.brk.state := by
  have same : ∃ brk link token sync news,
      s = { s with brk := brk, link := link, token := token, sync := sync, news := news } ∧ brk.state = s.brk.state :=
    ⟨s.brk, s.link, s.token, s.sync, s.news, rfl, rfl⟩
  have released (t : State) (c : ReleaseCause) : ∃ brk link token sync news, t.requestRelease c =
      { t with brk := brk, link := link, token := token, sync := sync, news := news } ∧ brk.state = t.brk.state := by
    obtain ⟨link, stage, sync, h, -⟩ := requestRelease_eq t c
    exact ⟨t.brk, link, _, sync, t.news, h, rfl⟩
  have unwanted : ∃ brk link token sync news, (s.onToken fun t => { t with want := none }) =
      { s with brk := brk, link := link, token := token, sync := sync, news := news } ∧ brk.state = s.brk.state :=
    ⟨s.brk, s.link, _, s.sync, s.news, rfl, rfl⟩
  unfold State.withdrawWant
  split
  · unfold State.dropWant
    split
    · exact same
    · exact ⟨s.brk, s.link, { s.token with state := .idle, want := none }, s.sync, _, rfl, rfl⟩
    · exact unwanted
    · obtain ⟨brk, link, token, sync, news, h, state⟩ := released (s.onToken fun t => { t with want := none }) .withdrawn
      exact ⟨brk, link, token, sync, news, h, state⟩
    · obtain ⟨brk, link, token, sync, news, h, state⟩ := released (s.onToken fun t => { t with want := none }) .withdrawn
      exact ⟨brk, link, token, sync, news, h, state⟩
    · have kept := withdrawWant_brk_state w s
      unfold State.withdrawClose
      split
      · exact ⟨{ s.brk with mark := true }, s.link, { s.token with want := none }, s.sync, s.news, rfl, rfl⟩
      · exact unwanted
    · exact unwanted
    · exact unwanted
  · exact same

theorem giveUp_of_closed (hb : s.brk.state = .closed) :
    s.giveUp.brk.state = .closed ∧ s.giveUp.chg.manualHold = s.chg.manualHold := by
  obtain ⟨brk, link, token, sync, news, h, state⟩ := withdrawWant_eq .changeover
    (s.onChg fun c => { c with wantDue := false, deadWait := false })
  obtain ⟨kept, hold⟩ := enterBackup_keepsHold s.withdrawChangeover
  have withdrawn : s.withdrawChangeover = { s.onChg fun c => { c with wantDue := false, deadWait := false } with
      brk := brk, link := link, token := token, sync := sync, news := news } := h
  rw [State.giveUp]
  refine ⟨(congrArg BreakerRecord.state kept).trans ?_, hold.trans ?_⟩
  · rw [withdrawn]
    exact state.trans hb
  · rw [withdrawn]
    rfl

/-- The manual hold is set; in NORMAL and PARALLEL the changeover role itself trips (R167, R170). -/
theorem maintenanceOpen_of_closed (hb : s.brk.state = .closed) : s.maintenanceOpen.chg.manualHold = true ∧
    s.maintenanceOpen.brk.state = if s.chg.state = .normal ∨ s.chg.state = .parallel then .opening else .closed := by
  generalize hu : (s.onChg fun c => { c with manualHold := true, splitAsked := false }) = u
  have state : u.chg.state = s.chg.state := by rw [← hu]; rfl
  have hold : u.chg.manualHold = true := by rw [← hu]; rfl
  have shut : u.brk.state = .closed := by rw [← hu]; exact hb
  have tripped : (u.trip .changeover).brk.state = .opening ∧ (u.trip .changeover).chg.manualHold = true := by
    rw [trip_of_closed shut]
    exact ⟨rfl, hold⟩
  have neither {c : ChangeoverState} (hc : u.chg.state = c) (hn : c ≠ .normal) (hp : c ≠ .parallel) :
      (if s.chg.state = .normal ∨ s.chg.state = .parallel then BreakerState.opening else .closed) = .closed :=
    if_neg (by rw [← state, hc]; exact fun either => either.elim hn hp)
  unfold State.maintenanceOpen
  rw [hu]
  dsimp only
  split
  next normal =>
    obtain ⟨kept, hold'⟩ := enterIsolating_keepsHold (u.trip .changeover)
    rw [if_pos (.inl (state ▸ normal)), kept, hold']
    exact ⟨tripped.2, tripped.1⟩
  next backup =>
    rw [neither backup (by decide) (by decide)]
    split
    · exact ⟨hold, shut⟩
    · obtain ⟨kept, hold'⟩ := judgeBackup_keepsHold u
      rw [kept, hold']
      exact ⟨hold, shut⟩
  next retransfer =>
    rw [neither retransfer (by decide) (by decide)]
    obtain ⟨kept, hold'⟩ := giveUp_of_closed shut
    exact ⟨hold'.trans hold, kept⟩
  next parallel =>
    obtain ⟨kept, hold'⟩ := leaveParallel_keepsHold (u.trip .changeover)
    rw [if_pos (.inr (state ▸ parallel)), kept, hold']
    exact ⟨tripped.2, tripped.1⟩
  next openRetransfer =>
    rw [neither openRetransfer (by decide) (by decide)]
    obtain ⟨kept, hold'⟩ := giveUp_of_closed shut
    exact ⟨hold'.trans hold, kept⟩
  next normal _ _ parallel _ =>
    rw [neither rfl normal parallel]
    exact ⟨hold, shut⟩

/-! #### The feeder role's marks (R159) -/

theorem requestFeeder_eq (f : OrderedFrame) (r : FeederRequest) (s : State) : ∃ link flight,
    s.requestFeeder f r = { s with link := link, feeder := { s.feeder with inFlight := flight } } := by
  obtain ⟨link, h⟩ := requestOrdered_eq s f
  unfold State.requestFeeder
  rw [h]
  split
  · exact ⟨link, some r, rfl⟩
  · exact ⟨link, s.feeder.inFlight, rfl⟩

/-- A due request concerns the queue and what is in flight. -/
theorem dueRequest_eq (s : State) : ∃ link flight,
    s.dueRequest = { s with link := link, feeder := { s.feeder with inFlight := flight } } := by
  unfold State.dueRequest
  split
  · exact requestFeeder_eq _ _ s
  · split
    · split
      · exact requestFeeder_eq _ _ s
      · split
        · exact requestFeeder_eq _ _ s
        · exact ⟨s.link, s.feeder.inFlight, rfl⟩
    · exact ⟨s.link, s.feeder.inFlight, rfl⟩

/-- The judgment of the feeder's requests keeps the mark its place does not answer. -/
theorem judgeFeeder_eq (s : State) : ∃ link feeder, s.judgeFeeder = { s with link := link, feeder := feeder } ∧
    (s.ownAdmission = .out → feeder.admitOwed = s.feeder.admitOwed) ∧
    (s.ownAdmission ≠ .out → feeder.withdrawOwed = s.feeder.withdrawOwed ∧
      (s.feeder.admitOwed = false → feeder.admitOwed = false)) := by
  unfold State.judgeFeeder
  split
  · obtain ⟨link, flight, due⟩ := dueRequest_eq s.settleMarks
    rw [due]
    unfold State.settleMarks
    split
    next out =>
      exact ⟨link, { s.feeder with withdrawOwed := false, inFlight := flight }, rfl, fun _ => rfl,
        fun other => absurd (eq_of_beq out) other⟩
    next listed =>
      exact ⟨link, { s.feeder with admitOwed := false, inFlight := flight }, rfl,
        fun out => absurd (beq_iff_eq.mpr out) listed, fun _ => ⟨rfl, fun _ => rfl⟩⟩
  · exact ⟨s.link, s.feeder, rfl, fun _ => rfl, fun _ => ⟨rfl, id⟩⟩

theorem oweAdmit_owed (h : s.ownAdmission = .out) : s.oweAdmit.feeder.admitOwed = true := by
  obtain ⟨link, feeder, judged, owed, -⟩ := judgeFeeder_eq (s.onFeeder fun f => { f with admitOwed := true })
  rw [State.oweAdmit, judged]
  exact owed h

theorem oweWithdraw_eq (s : State) : ∃ link feeder, s.oweWithdraw = { s with link := link, feeder := feeder } ∧
    (s.ownAdmission ≠ .out → feeder.withdrawOwed = true ∧ feeder.admitOwed = false) := by
  obtain ⟨link, feeder, judged, -, owed⟩ :=
    judgeFeeder_eq (s.onFeeder fun f => { f with withdrawOwed := true, admitOwed := false })
  refine ⟨link, feeder, judged, fun listed => ?_⟩
  obtain ⟨withdraw, admission⟩ := owed listed
  exact ⟨withdraw, admission rfl⟩

/-! #### The tie's moves -/

theorem Within.ownKind {sc : Scope} {t : State} (h : Within sc s t) : t.ownKind = s.ownKind := by
  have own : t.own = s.own := congrArg StationSettings.number h.station
  rw [State.ownKind, own, h.kindOf]
  rfl

theorem tieTrip_brk_of_opened (hb : s.brk.state = .opened) : s.tieTrip.brk = s.brk := by
  obtain ⟨link, set⟩ := setTie_eq { state := .idle, ordering := 0 } s
  rw [State.tieTrip, if_pos (by simp [hb]), State.tieToIdle, set]

/-- A SPLIT at a tie that is not SPLITTING withdraws the want of a close it was about, and trips (R173). -/
theorem tieSplit_eq (hs : s.tie.state ≠ .splitting) : ∃ brk link token sync news,
    s.tieSplit = State.tieTrip { s with brk := brk, link := link, token := token, sync := sync, news := news } ∧
      brk.state = s.brk.state := by
  cases h : s.tie.state with
  | idle => exact ⟨s.brk, s.link, s.token, s.sync, s.news, tieSplit_of_idle h, rfl⟩
  | splitting => exact absurd h hs
  | assisting =>
    obtain ⟨brk, link, token, sync, news, withdrawn, state⟩ := withdrawWant_eq .tie s
    exact ⟨brk, link, token, sync, news, by rw [tieSplit_of_closing (.inl h), withdrawn], state⟩
  | merging =>
    obtain ⟨brk, link, token, sync, news, withdrawn, state⟩ := withdrawWant_eq .tie s
    exact ⟨brk, link, token, sync, news, by rw [tieSplit_of_closing (.inr h), withdrawn], state⟩

/-- What a trip from CLOSED leaves of the breaker (R66). -/
def State.trippedBy (limit : Nat) (src : TripSource) (s : State) : Prop :=
  s.brk.state = .opening ∧ s.brk.tripOut = true ∧ s.brk.openTimer = some limit ∧ src ∈ s.brk.sources

theorem trip_trippedBy (src : TripSource) (hb : s.brk.state = .closed) : (s.trip src).trippedBy s.station.openLimit src := by
  rw [trip_of_closed hb]
  exact ⟨rfl, rfl, rfl, mem_addSource src _⟩

theorem tieSplit_of_opened (hs : s.tie.state ≠ .splitting) (hb : s.brk.state = .opened) :
    s.tieSplit.tie.state = .idle ∧ s.tieSplit.brk.state = .opened := by
  obtain ⟨brk, link, token, sync, news, split, state⟩ := tieSplit_eq hs
  have opened : brk.state = .opened := state.trans hb
  rw [split, tieTrip_of_opened opened, tieTrip_brk_of_opened opened]
  exact ⟨rfl, opened⟩

theorem tieSplit_of_shut (hs : s.tie.state ≠ .splitting) (hb : s.brk.state = .closed) :
    s.tieSplit.tie = { state := .splitting, ordering := 0 } ∧ s.tieSplit.trippedBy s.station.openLimit .tie := by
  obtain ⟨brk, link, token, sync, news, split, state⟩ := tieSplit_eq hs
  have shut : brk.state = .closed := state.trans hb
  generalize hv : ({ s with brk := brk, link := link, token := token, sync := sync, news := news } : State) = v at split
  have closed : v.brk.state = .closed := by rw [← hv]; exact shut
  have limit : v.station.openLimit = s.station.openLimit := by rw [← hv]; rfl
  obtain ⟨tie, record⟩ := tieTrip_of_other (s := v) (by simp [closed])
  rw [split, State.trippedBy, record, ← limit]
  exact ⟨tie, trip_trippedBy .tie closed⟩

theorem openReached_of_opening (h : s.brk.state = .opening) : s.openReached = false := by
  simp [State.openReached, h]

/-! #### The actions by station kind -/

theorem act_open_of_plain (hk : s.ownKind = some .feeder ∨ s.ownKind = some .generator) (hb : s.brk.state = .closed) :
    s.act .opn = (s.trip .maintenance, .begun) := by
  have opening : (s.trip .maintenance).brk.state = .opening := (trip_trippedBy .maintenance hb).1
  obtain hk | hk := hk <;> simp [State.act, State.actOpen, hk, openReached_of_opening opening]

theorem act_open_of_incomer (hk : s.ownKind = some .incomer) (hb : s.brk.state = .closed) :
    ∃ v, s.act .opn = (v, .begun) ∧ v.chg.manualHold = true ∧ v.brk.state = .opening := by
  obtain ⟨hold, state⟩ := maintenanceOpen_of_closed hb
  have acted (v : State) (h : v = if (s.chg.state == .normal || s.chg.state == .parallel) ||
      s.maintenanceOpen.brk.state == .opened then s.maintenanceOpen else s.maintenanceOpen.trip .maintenance)
      (opening : v.brk.state = .opening) : s.act .opn = (v, .begun) := by
    simp only [State.act, State.actOpen, hk, ← h, openReached_of_opening opening, Bool.false_eq_true, if_false]
  by_cases trips : s.chg.state = .normal ∨ s.chg.state = .parallel
  · rw [if_pos trips] at state
    exact ⟨_, acted _ (by simp [trips]) state, hold, state⟩
  · rw [if_neg trips] at state
    have opening : (s.maintenanceOpen.trip .maintenance).brk.state = .opening := (trip_trippedBy .maintenance state).1
    obtain ⟨brk, news, tripped⟩ := trip_eq s.maintenanceOpen .maintenance
    refine ⟨_, acted _ ?_ opening, ?_, opening⟩
    · rw [if_neg (by simpa [state] using trips)]
    · rw [tripped]
      exact hold

theorem backupNext_of_noHold (h : s.chg.manualHold = false) : s.backupNext =
    if s.chg.monitor = .healthy ∧ s.brk.state = .opened ∧ s.fault.lockout = false ∧ s.islandShared s.ownSec = false then
      if (s.sec s.ownSec).live then if s.generatorServes then .retransfer else .onBackup else .openRetransfer
    else .onBackup := by
  simp only [State.backupNext, h, true_and]

/-- CLOSE at an incomer: the manual hold is cleared, and ON_BACKUP judges that change (R168). -/
theorem maintenanceClose_chg (hk : s.ownKind = some .incomer) : s.maintenanceClose.chg.manualHold = false ∧
    (s.chg.manualHold = false → s.maintenanceClose.chg = s.chg) ∧
    (s.chg.manualHold = true → s.chg.state = .onBackup →
      s.maintenanceClose.chg.state = (s.onChg fun c => { c with manualHold := false }).backupNext) := by
  cases hold : s.chg.manualHold with
  | false =>
    have nothing : s.maintenanceClose = s := by simp [State.maintenanceClose, hold]
    rw [nothing]
    exact ⟨hold, fun _ => rfl, nofun⟩
  | true =>
    have judged : s.maintenanceClose = (s.onChg fun c => { c with manualHold := false }).judgeBackup := by
      simp [State.maintenanceClose, hold]
    rw [judged]
    exact ⟨(judgeBackup_keepsHold _).hold, nofun, fun _ backup =>
      (judgeBackup_of_backup (s := s.onChg fun c => { c with manualHold := false }) hk backup).1⟩

theorem act_close_of_incomer (hk : s.ownKind = some .incomer) :
    ∃ a, s.act .close = (s.maintenanceClose, a) ∧ ∀ r, a ≠ .refused r := by
  refine ⟨if s.maintenanceClose.changeoverIn .normal then .done else .begun, ?_, fun r => ?_⟩
  · simp only [State.act, State.actClose, hk]
  · split <;> nofun

theorem act_close_of_feeder (hk : s.ownKind = some .feeder) (hb : s.brk.state ≠ .closed) :
    s.act .close = (s.oweAdmit, .begun) := by
  simp [State.act, State.actClose, hk, hb]

theorem judgeClaim_state (s : State) :
    s.judgeClaim.token.state = s.token.state ∨ s.judgeClaim.token.state = .claiming := by
  unfold State.judgeClaim
  split
  · split
    · exact .inl rfl
    · obtain ⟨link, requested⟩ := requestOrdered_eq s (.claim s.ownSections)
      dsimp only
      rw [requested]
      split
      · exact .inr rfl
      · exact .inl rfl
  · exact .inl rfl

/-- CLOSE at a READY generator whose claim record stands free posts want MAINTENANCE (R117, R159). -/
theorem act_close_of_generator (hk : s.ownKind = some .generator) (hr : s.disp.role = .ready) (ht : s.token.state = .idle)
    (hb : s.brk.state = .opened) (hw : s.brk.watch = false) : ∃ v, s.act .close = (v, .begun) ∧
      v.token.want = some .maintenance ∧ (v.token.state = .wanted ∨ v.token.state = .claiming) := by
  generalize hv : (s.onToken fun t => { t with state := .wanted, want := some .maintenance, cause := none, begun := false }) = v
  refine ⟨v.judgeClaim, ?_, (judgeClaim_want v).trans ?_, ?_⟩
  · simp [State.act, State.actClose, hk, hr, postWant_of_idle .maintenance ht hb hw, hv]
  · rw [← hv]
    rfl
  · have wanted : v.token.state = .wanted := by rw [← hv]; rfl
    exact (judgeClaim_state v).imp (fun h => h.trans wanted) id

/-- MERGE, and CLOSE taken as MERGE, at an idle tie whose breaker is OPEN (R173). -/
theorem act_merge (hk : s.ownKind = some .tie) (hs : s.tie.state = .idle) (hb : s.brk.state = .opened)
    (ho : o = .merge ∨ o = .close) : ∃ v, s.act o = (v, .begun) ∧ v.tie = { state := .merging, ordering := 0 } := by
  refine ⟨((s.setTie { state := .merging, ordering := 0 }).postWant .tie).1, ?_, (postWant_tie _ _).trans (setTie_tie _ _)⟩
  obtain rfl | rfl := ho <;> simp [State.act, State.actClose, State.actMerge, State.tieMerge, State.isTie, hk, hs, hb]

theorem act_split (hk : s.ownKind = some .tie) (ho : o = .split ∨ o = .opn) :
    s.act o = (s.tieSplit, if s.tieSplit.openReached then .done else .begun) := by
  obtain rfl | rfl := ho <;> simp [State.act, State.actOpen, State.isTie, hk]

end

/-- Settles O13. -/
theorem operationsBegin : Obligations.OperationsBegin := by
  intro s hc hp begins inProgress tripped
  have kindOf {k : StationKind} (o : Operation) (hk : s.ownKind = some k) : (s.inProgressWith o).ownKind = some k := hk
  refine ⟨fun hk hb => ?_, fun hk hb => ?_, fun hk => ?_, fun hk hb ha => ?_, fun hk hr ht hb hw => ?_,
    fun hk hs hb => ?_, fun hk hs o ho => ⟨fun hb => ?_, fun hb => ?_⟩⟩
  · have acted := act_open_of_plain (s := s.inProgressWith .opn) hk hb
    exact operation_begins hc hp acted nofun
      (fun _ => ⟨begun_inProgress acted, trip_trippedBy (s := s.inProgressWith .opn) .maintenance hb⟩) nofun
  · obtain ⟨v, acted, hold, opening⟩ := act_open_of_incomer (kindOf .opn hk) hb
    exact operation_begins hc hp acted nofun (fun _ => ⟨begun_inProgress acted, hold, opening⟩) nofun
  · obtain ⟨a, acted, taken⟩ := act_close_of_incomer (kindOf .close hk)
    have closed := maintenanceClose_chg (kindOf .close hk)
    rw [backupNext_of_noHold (s := (s.inProgressWith .close).onChg fun c => { c with manualHold := false }) rfl] at closed
    exact operation_begins hc hp acted taken (fun _ => closed) (fun _ => closed)
  · have acted := act_close_of_feeder (kindOf .close hk) hb
    exact operation_begins hc hp acted nofun
      (fun _ => ⟨begun_inProgress acted, oweAdmit_owed (s := s.inProgressWith .close) ha⟩) nofun
  · obtain ⟨v, acted, want, state⟩ := act_close_of_generator (kindOf .close hk) hr ht hb hw
    exact operation_begins hc hp acted nofun (fun _ => ⟨begun_inProgress acted, want, state⟩) nofun
  · have merges (o : Operation) (ho : o = .merge ∨ o = .close) :
        begins o fun u => inProgress u ∧ u.tie = { state := .merging, ordering := 0 } := by
      obtain ⟨v, acted, tie⟩ := act_merge (kindOf o hk) hs hb ho
      exact operation_begins hc hp acted nofun (fun _ => ⟨begun_inProgress acted, tie⟩) nofun
    exact ⟨merges .merge (.inl rfl), merges .close (.inr rfl)⟩
  · obtain ⟨idle, opened⟩ := tieSplit_of_opened (s := s.inProgressWith o) hs hb
    have acted := act_split (kindOf o hk) ho
    have tie : State.isTie (State.tieSplit (s.inProgressWith o)) = true := by
      have kept := ((Within.refl {} (s.inProgressWith o)).tieSplit).ownKind
      simp [State.isTie, kept, kindOf o hk]
    rw [if_pos (by simp [State.openReached, opened, tie])] at acted
    exact operation_begins hc hp acted nofun nofun (fun _ => ⟨rfl, idle⟩)
  · obtain ⟨tie, opening⟩ := tieSplit_of_shut (s := s.inProgressWith o) hs hb
    have acted := act_split (kindOf o hk) ho
    rw [if_neg (by simp [openReached_of_opening opening.1])] at acted
    exact operation_begins hc hp acted nofun (fun _ => ⟨begun_inProgress acted, tie, opening⟩) nofun

end Sys2Proof.Machine
end

