-- ==== Sys2Proof/Proofs/OperateLimit.lean ====
section
/-!
SUPPORT. The operate limit, and the withdrawal of the operation it ends (R130, R159, R173, R180).
-/

namespace Sys2Proof.Machine

section
variable {s u : State}

/-- A want withdrawn leaves the claim record by its state (R130). -/
structure Withdrawn (s u : State) : Prop where
  want : s.token.state ≠ .idle → u.token.want = none
  wanted : s.token.state = .wanted → u.token.state = .idle ∧ u.news = s.news ++ [.claimWithdrawn]
  placed : s.token.state = .queued ∨ s.token.state = .holding →
    u.token.state = .releasing ∧ u.token.cause = some .withdrawn
  closing : s.token.state = .closing → u.token.state = .closing ∧ (s.brk.state = .closing → u.brk.mark = true)

theorem dropWant_withdrawn (s : State) : Withdrawn s s.dropWant := by
  have released : (State.requestRelease .withdrawn (s.onToken fun t => { t with want := none })).token.want = none ∧
      (State.requestRelease .withdrawn (s.onToken fun t => { t with want := none })).token.state = .releasing ∧
      (State.requestRelease .withdrawn (s.onToken fun t => { t with want := none })).token.cause = some .withdrawn := by
    obtain ⟨link, stage, sync, h, -⟩ := requestRelease_eq (s.onToken fun t => { t with want := none }) .withdrawn
    rw [h]
    exact ⟨rfl, rfl, rfl⟩
  have placed (hs : s.token.state = .queued ∨ s.token.state = .holding) : Withdrawn s s.dropWant := by
    have dropped : s.dropWant = State.requestRelease .withdrawn (s.onToken fun t => { t with want := none }) := by
      obtain hs | hs := hs <;> simp [State.dropWant, hs]
    rw [dropped]
    obtain hs | hs := hs <;> exact ⟨fun _ => released.1, by simp [hs], fun _ => released.2, by simp [hs]⟩
  have cleared (hs : s.token.state = .claiming ∨ s.token.state = .releasing ∨ s.token.state = .suspended) :
      Withdrawn s s.dropWant := by
    have dropped : s.dropWant = s.onToken fun t => { t with want := none } := by
      obtain hs | hs | hs := hs <;> simp [State.dropWant, hs]
    rw [dropped]
    obtain hs | hs | hs := hs <;> exact ⟨fun _ => rfl, by simp [hs], by simp [hs], by simp [hs]⟩
  cases hs : s.token.state with
  | idle => exact ⟨fun other => absurd hs other, by simp [hs], by simp [hs], by simp [hs]⟩
  | wanted =>
    have dropped : s.dropWant = (s.onToken fun t => { t with state := .idle, want := none }).tell .claimWithdrawn := by
      simp [State.dropWant, hs]
    rw [dropped]
    exact ⟨fun _ => rfl, fun _ => ⟨rfl, rfl⟩, by simp [hs], by simp [hs]⟩
  | closing =>
    have dropped : s.dropWant = (s.onToken fun t => { t with want := none }).withdrawClose := by simp [State.dropWant, hs]
    rw [dropped]
    refine ⟨fun _ => ?_, by simp [hs], by simp [hs], fun _ => ⟨?_, fun closing => ?_⟩⟩
    · simp [State.withdrawClose, apply_ite]
    · simp [State.withdrawClose, apply_ite, hs]
    · simp [State.withdrawClose, closing]
  | queued => exact placed (.inl hs)
  | holding => exact placed (.inr hs)
  | claiming => exact cleared (.inl hs)
  | releasing => exact cleared (.inr (.inl hs))
  | suspended => exact cleared (.inr (.inr hs))

theorem withdrawWant_withdrawn {w : Want} (h : s.token.want = some w) : Withdrawn s (s.withdrawWant w) := by
  rw [State.withdrawWant, if_pos (beq_iff_eq.mpr h)]
  exact dropWant_withdrawn s

theorem withdrawWant_of_other {w : Want} (h : s.token.want ≠ some w) : s.withdrawWant w = s :=
  if_neg fun same => h (eq_of_beq same)

/-! ### The withdrawal by station kind (R180) -/

theorem withdrawOperation_of_generator (hk : s.ownKind = some .generator) :
    s.withdrawOperation = s.withdrawWant .maintenance := by
  simp only [State.withdrawOperation, hk]

theorem withdrawOperation_of_incomer (hk : s.ownKind = some .incomer) : s.withdrawOperation = s := by
  simp only [State.withdrawOperation, hk]

theorem withdrawOperation_of_tie (hk : s.ownKind = some .tie) : s.withdrawOperation =
    if s.tie.state = .merging then
      if s.claimEndsMerge then s.withdrawWant .tie else (s.withdrawWant .tie).tieToIdle
    else s := by
  simp only [State.withdrawOperation, hk, beq_iff_eq]

theorem withdrawOperation_of_feeder (hk : s.ownKind = some .feeder) : s.withdrawOperation =
    if s.ownAdmission = .waiting then s.oweWithdraw
    else if s.ownAdmission = .out then s.onFeeder fun f => { f with admitOwed := false }
    else s := by
  simp only [State.withdrawOperation, hk, beq_iff_eq]

theorem withdrawOperation_port (s : State) : s.withdrawOperation.port = s.port := by
  have withdrawn (w : Want) : (s.withdrawWant w).port = s.port := by
    obtain ⟨brk, link, token, sync, news, h, -⟩ := withdrawWant_eq w s
    rw [h]
  have toIdle (t : State) : t.tieToIdle.port = t.port := by
    obtain ⟨link, h⟩ := setTie_eq { state := .idle, ordering := 0 } t
    rw [State.tieToIdle, h]
  obtain ⟨link, feeder, owed, -⟩ := oweWithdraw_eq s
  unfold State.withdrawOperation
  split
  · exact withdrawn .maintenance
  · split
    · dsimp only
      split
      · exact withdrawn .tie
      · exact (toIdle _).trans (withdrawn .tie)
    · rfl
  · split
    · rw [owed]
    · split <;> rfl
  · rfl

/-- The return of the tie role to IDLE leaves what a withdrawal has made of the claim record. -/
theorem Withdrawn.tieToIdle (h : Withdrawn s u) : Withdrawn s u.tieToIdle := by
  obtain ⟨link, set⟩ := setTie_eq { state := .idle, ordering := 0 } u
  rw [State.tieToIdle, set]
  exact ⟨h.want, h.wanted, h.placed, h.closing⟩

theorem claimEndsMerge_iff : s.claimEndsMerge = true ↔
    s.token.state ≠ .idle ∧ (s.token.closedMark = false ∨ s.token.closedMarked = true) := by
  cases hm : s.token.closedMark <;> cases hd : s.token.closedMarked <;> simp [State.claimEndsMerge, hm, hd]

end

/-- Settles O14. -/
theorem operateLimitTimesOut : Obligations.OperateLimitTimesOut := by
  intro s hc hl hp base withdrawn
  have expired : s.operateTimedOut = base.withdrawOperation := rfl
  have after : Within {} base (State.finish s base.withdrawOperation) := ((Within.refl _ base).withdrawOperation).finish s
  refine ⟨_, base.withdrawOperation, ?_, rfl, withdrawOperation_port base, after.frame, fun hk hw => ?_, fun hk hw => ?_,
    fun hk hs hw => ?_, fun hk hs ht hm => ?_, fun hk hs hm => ?_, fun hk hs => ?_, fun hk ha => ?_, fun hk ha => ?_,
    fun hk ha => ?_, fun hk => ?_⟩
  · rw [← expired]
    exact timerEvent_of_running (timer := (·.port.limit)) State.operateTimedOut hc hl
  · rw [withdrawOperation_of_generator (s := base) hk]
    obtain ⟨want, wanted, placed, closing⟩ := withdrawWant_withdrawn (s := base) hw
    exact ⟨want, wanted, placed, closing⟩
  · rw [withdrawOperation_of_generator (s := base) hk, withdrawWant_of_other (s := base) hw]
  · have left : Withdrawn base base.withdrawOperation := by
      rw [withdrawOperation_of_tie (s := base) hk, if_pos (show base.tie.state = .merging from hs)]
      split
      · exact withdrawWant_withdrawn (s := base) hw
      · exact (withdrawWant_withdrawn (s := base) hw).tieToIdle
    obtain ⟨want, wanted, placed, closing⟩ := left
    exact ⟨want, wanted, placed, closing⟩
  · rw [withdrawOperation_of_tie (s := base) hk, if_pos (show base.tie.state = .merging from hs),
      if_pos (claimEndsMerge_iff (s := base) |>.mpr ⟨ht, hm⟩)]
    exact ⟨withdrawWant_tie base .tie, fun hw => withdrawWant_of_other (s := base) hw⟩
  · have none : ¬ base.claimEndsMerge = true := fun ends => by
      obtain ⟨stands, mark⟩ := claimEndsMerge_iff.mp ends
      obtain idle | ⟨closed, clear⟩ := hm
      · exact stands idle
      · obtain open_ | marked := mark
        · exact Bool.noConfusion (closed.symm.trans open_)
        · exact Bool.noConfusion (clear.symm.trans marked)
    rw [withdrawOperation_of_tie (s := base) hk, if_pos (show base.tie.state = .merging from hs), if_neg none]
    exact congrArg TieRecord.state (setTie_tie _ _)
  · rw [withdrawOperation_of_tie (s := base) hk, if_neg (show ¬ base.tie.state = .merging from hs)]
  · rw [withdrawOperation_of_feeder (s := base) hk, if_pos (show base.ownAdmission = .waiting from ha)]
    obtain ⟨link, feeder, owed, marks⟩ := oweWithdraw_eq base
    rw [owed]
    exact marks (by rw [show base.ownAdmission = .waiting from ha]; decide)
  · have out : base.ownAdmission = .out := ha
    rw [withdrawOperation_of_feeder (s := base) hk, if_neg (by simp [out]), if_pos out]
    rfl
  · have admitted : base.ownAdmission = .admitted := ha
    rw [withdrawOperation_of_feeder (s := base) hk, if_neg (by simp [admitted]), if_neg (by simp [admitted])]
  · exact withdrawOperation_of_incomer (s := base) hk

end Sys2Proof.Machine
end

