-- ==== Sys2Proof/Proofs/ClearFaults.lean ====
section
/-!
SUPPORT. CLEAR_FAULTS: the store cleared, the two causes that may still stand raised again, and the end of lockout (R113, R114).
-/

namespace Sys2Proof.Machine

section
variable (kinds : PerKind Bool) (s : State)

/-! ### The store cleared (R113) -/

/-- Whether a clear of these kinds takes this one from the store. -/
def State.clears (k : FaultKind) : Prop := kinds.get k = true ∧ s.fault.pending.get k = true

/-- Whether a clear finds the cause of BREAKER_DISAGREE standing. -/
def State.disagreeReturns : Prop := s.clears kinds .breakerDisagree ∧ s.disagreeStands = true

/-- Whether a clear finds the cause of BUS_FAULT standing. -/
def State.busReturns : Prop := s.clears kinds .busFault ∧ s.slotsStanding ≠ []

/-- The store cleared, with the breaker-failure demand of a cleared BREAKER_NO_OPEN ended. -/
def State.storeCleared : State :=
  if kinds.get .breakerNoOpen && s.fault.pending.get .breakerNoOpen then
    (s.onFault (FaultStore.clear kinds)).breakerFailureEnds
  else s.onFault (FaultStore.clear kinds)

/-- After it, BREAKER_DISAGREE raised again where its cause still stands. -/
def State.disagreeJudged : State :=
  if kinds.get .breakerDisagree && s.fault.pending.get .breakerDisagree && s.disagreeStands then
    (s.storeCleared kinds).raise .breakerDisagree .none
  else s.storeCleared kinds

theorem clearedUp_eq : s.clearedUp kinds =
    if kinds.get .busFault && s.fault.pending.get .busFault then
      (s.disagreeJudged kinds).reraiseBus s.slotsStanding s.slotsOperated
    else s.disagreeJudged kinds := rfl

theorem storeCleared_eq : ∃ link zone,
    s.storeCleared kinds = { s with fault := FaultStore.clear kinds s.fault, link := link, zone := zone } := by
  unfold State.storeCleared
  split
  · obtain ⟨link, asserted, ended⟩ := breakerFailureEnds_eq (s.onFault (FaultStore.clear kinds))
    exact ⟨link, _, ended⟩
  · exact ⟨s.link, s.zone, rfl⟩

theorem storeCleared_fault : (s.storeCleared kinds).fault = FaultStore.clear kinds s.fault := by
  obtain ⟨link, zone, cleared⟩ := storeCleared_eq kinds s
  rw [cleared]

theorem clear_count (f : FaultStore) (k : FaultKind) : (FaultStore.clear kinds f).count.get k =
    if kinds.get k && f.pending.get k then 0 else f.count.get k := by
  simp [FaultStore.clear]

/-- A kind named in the clear leaves the store with its count. -/
theorem clear_of_named {f : FaultStore} (ok : f.Ok) {k : FaultKind} (h : kinds.get k = true) :
    (FaultStore.clear kinds f).pending.get k = false ∧ (FaultStore.clear kinds f).count.get k = 0 := by
  refine ⟨by simp [clear_pending, h], ?_⟩
  rw [clear_count, h, Bool.true_and]
  split
  · rfl
  next idle =>
    have counted := ok.counted k
    simp only [idle] at counted
    have none : ¬ 1 ≤ f.count.get k := fun one => Bool.noConfusion (counted.mpr one)
    omega

theorem clear_of_other {f : FaultStore} {k : FaultKind} (h : kinds.get k = false) :
    (FaultStore.clear kinds f).pending.get k = f.pending.get k ∧ (FaultStore.clear kinds f).count.get k = f.count.get k := by
  simp [clear_pending, clear_count, h]

theorem clear_capture_of_other {f : FaultStore} {c : Capture} (hc : f.capture = some c) (h : kinds.get c.kind = false) :
    (FaultStore.clear kinds f).capture = some c := by
  simp [FaultStore.clear, hc, h]

theorem clear_capture_of_named {f : FaultStore} (ok : f.Ok) {c : Capture} (hc : f.capture = some c)
    (h : kinds.get c.kind = true) : (FaultStore.clear kinds f).capture = none := by
  simp [FaultStore.clear, hc, h, ok.captured c hc]

/-! ### BREAKER_DISAGREE raised again (R114) -/

/-- A raise of a kind that joins no set leaves the sets of the bus fault. -/
theorem raise_busSlots_of_plain {k : FaultKind} (hb : k ≠ .busFault) (hs : k ≠ .startFailed) (ctx : FaultContext) :
    (s.raise k ctx).fault.busSlots = s.fault.busSlots := by
  rw [raise_of_plain hb hs, tellBarred_fault, severityActs_fault, announced_fault]
  unfold State.record
  split <;> rfl

theorem masked_of_unmaskable {k : FaultKind} (h : FaultKindTable.maskable k = false) : s.masked k = false := by
  unfold State.masked
  split
  · rw [h, Bool.false_and]
  · rfl

theorem disagreeJudged_of_returns (h : s.disagreeReturns kinds) :
    s.disagreeJudged kinds = (s.storeCleared kinds).raise .breakerDisagree .none := by
  obtain ⟨⟨named, pending⟩, stands⟩ := h
  exact if_pos (by simp [named, pending, stands])

theorem disagreeJudged_of_gone (h : ¬ s.disagreeReturns kinds) : s.disagreeJudged kinds = s.storeCleared kinds :=
  if_neg fun all => h (by simpa [State.disagreeReturns, State.clears] using all)

theorem disagreeJudged_within : Within {} (s.storeCleared kinds) (s.disagreeJudged kinds) := by
  unfold State.disagreeJudged
  split
  · exact (Within.refl _ _).raise _ _ (by simp)
  · exact .refl _ _

/-- The kinds that are not raised again stay as the clear leaves them. -/
theorem disagreeJudged_get {k : FaultKind} (h : ¬ (k = .breakerDisagree ∧ s.disagreeReturns kinds)) :
    (s.disagreeJudged kinds).fault.pending.get k = (FaultStore.clear kinds s.fault).pending.get k ∧
      (s.disagreeJudged kinds).fault.count.get k = (FaultStore.clear kinds s.fault).count.get k := by
  rw [← storeCleared_fault kinds s]
  by_cases returns : s.disagreeReturns kinds
  · rw [disagreeJudged_of_returns kinds s returns, raise_fault_pending, raise_fault_count]
    exact record_get_of_ne _ _ _ fun same => h ⟨same, returns⟩
  · rw [disagreeJudged_of_gone kinds s returns]
    exact ⟨rfl, rfl⟩

theorem disagreeJudged_busSets : (s.disagreeJudged kinds).fault.busFault = (FaultStore.clear kinds s.fault).busFault ∧
    (s.disagreeJudged kinds).fault.busSlots = (FaultStore.clear kinds s.fault).busSlots := by
  rw [← storeCleared_fault kinds s]
  by_cases returns : s.disagreeReturns kinds
  · rw [disagreeJudged_of_returns kinds s returns]
    exact ⟨raise_busFault_of_plain (by decide) (by decide) _ _, raise_busSlots_of_plain _ (by decide) (by decide) _⟩
  · rw [disagreeJudged_of_gone kinds s returns]
    exact ⟨rfl, rfl⟩

/-! ### BUS_FAULT raised again, and the slots that rejoin (R114) -/

/-- The slots that rejoin, one after another, add to the sets of the bus fault alone. -/
theorem joinBusFaults_eq (slots : List Nat) (t : State) : ∃ busFault,
    slots.foldl (fun s k => s.joinBusFault k) t = (t.onFault fun f => { f with
      busFault := busFault, busSlots := slots.foldl (fun l k => updateAt (fun _ => true) (k - 1) l) f.busSlots }) ∧
    ((∀ x, t.fault.busFault.get x = t.ownSections.get x) → ∀ x, busFault.get x = t.ownSections.get x) := by
  induction slots generalizing t with
  | nil => exact ⟨t.fault.busFault, rfl, id⟩
  | cons k ks ih =>
    obtain ⟨busFault, joined, sections⟩ := ih (t.joinBusFault k)
    refine ⟨busFault, joined, fun own => sections fun x => ?_⟩
    show (t.fault.busFault.union t.ownSections).get x = t.ownSections.get x
    rw [SectionSet.get_union, own x, Bool.or_self]

theorem raise_busFault_slots (t : State) (n : Nat) :
    (t.raise .busFault (.slot n)).fault.busSlots = updateAt (fun _ => true) (n - 1) t.fault.busSlots := by
  have joins : t.raise .busFault (.slot n) =
      State.tellBarred t.barred (((t.announced .busFault (.slot n)).severityActs .busFault).joinBusFault n) := by
    unfold State.raise State.raiseActs State.announced
    simp only [record_masked]
  have recorded : (t.record .busFault (.slot n)).fault.busSlots = t.fault.busSlots := by
    unfold State.record
    split <;> rfl
  rw [joins, tellBarred_fault, State.joinBusFault, onFault_fault, severityActs_fault, announced_fault]
  simp only [recorded]

/-- The marks set, slot by slot, are those of the slots named. -/
theorem marks_getD (slots : List Nat) (hs : ∀ k ∈ slots, 1 ≤ k) {m : Nat} (hm : 1 ≤ m) :
    ∀ l : List Bool, m ≤ l.length → (slots.foldl (fun l k => updateAt (fun _ => true) (k - 1) l) l).getD (m - 1) false =
      (l.getD (m - 1) false || decide (m ∈ slots)) := by
  induction slots with
  | nil => simp
  | cons k ks ih =>
    intro l hl
    have first : 1 ≤ k := hs k List.mem_cons_self
    rw [List.foldl_cons, ih (fun j hj => hs j (List.mem_cons_of_mem _ hj)) _ (by simpa using hl), updateAt_getD]
    by_cases same : m = k
    · subst same
      rw [if_pos ⟨rfl, by omega⟩]
      simp
    · rw [if_neg (by omega)]
      simp [same]

/-! ### The clear as a whole -/

theorem mem_slotsOperated {s : State} {n : Nat} :
    n ∈ s.slotsOperated ↔ n ∈ s.busFaultSlots ∧ (s.slotRun n).state = .operated := by
  simp [State.slotsOperated]

theorem mem_slotsStanding {s : State} {n : Nat} : n ∈ s.slotsStanding ↔
    (n ∈ s.busFaultSlots ∧ (s.slotRun n).state = .operated) ∧ (s.slotRun n).released = false := by
  simp [State.slotsStanding, mem_slotsOperated]

theorem busFaultSlots_range {s : State} {n : Nat} (h : n ∈ s.busFaultSlots) : 1 ≤ n ∧ n ≤ 8 := by
  have member : n ∈ slotNumbers := List.mem_of_mem_filter h
  simp only [slotNumbers, List.mem_range'_1] at member
  omega

/-- The slots that keep a bus fault standing come in ascending order. -/
theorem slotsStanding_sorted (s : State) : s.slotsStanding.Pairwise (· < ·) := by
  have ascending : slotNumbers.Pairwise (· < ·) := by decide
  exact ((ascending.filter _).filter _).filter _

theorem ownSections_disagreeJudged : (s.disagreeJudged kinds).ownSections = s.ownSections := by
  obtain ⟨link, zone, cleared⟩ := storeCleared_eq kinds s
  by_cases returns : s.disagreeReturns kinds
  · obtain ⟨brk, fault, port, news, raised⟩ := raise_rest (s.storeCleared kinds) .breakerDisagree .none
    rw [disagreeJudged_of_returns kinds s returns, raised, cleared]
    rfl
  · rw [disagreeJudged_of_gone kinds s returns, cleared]
    rfl

theorem clearedUp_of_gone (h : ¬ s.busReturns kinds) : s.clearedUp kinds = s.disagreeJudged kinds := by
  rw [clearedUp_eq]
  split
  next gone =>
    have none : s.slotsStanding = [] := by
      by_contra stands
      exact h ⟨by simpa [State.clears] using gone, stands⟩
    rw [none, State.reraiseBus]
  next => rfl

/-- Where the cause of BUS_FAULT stands it is raised again, and every slot found OPERATED rejoins (R114). -/
theorem clearedUp_of_returns (h : s.busReturns kinds) : ∃ n busFault, n ∈ s.slotsStanding ∧
    (∀ m ∈ s.slotsStanding, n ≤ m) ∧ (∀ x, busFault.get x = s.ownSections.get x) ∧
    s.clearedUp kinds = ((s.disagreeJudged kinds).raise .busFault (.slot n)).onFault fun f => { f with
      busFault := busFault
      busSlots := s.slotsOperated.foldl (fun l k => updateAt (fun _ => true) (k - 1) l) f.busSlots } := by
  obtain ⟨⟨named, pending⟩, stands⟩ := h
  obtain ⟨n, rest, standing⟩ := List.exists_cons_of_ne_nil stands
  have sorted := slotsStanding_sorted s
  rw [standing, List.pairwise_cons] at sorted
  obtain ⟨busFault, joined, sections⟩ :=
    joinBusFaults_eq s.slotsOperated ((s.disagreeJudged kinds).raise .busFault (.slot n))
  have own : ((s.disagreeJudged kinds).raise .busFault (.slot n)).ownSections = s.ownSections := by
    obtain ⟨brk, fault, port, news, raised⟩ := raise_rest (s.disagreeJudged kinds) .busFault (.slot n)
    rw [← ownSections_disagreeJudged kinds s, raised]
    rfl
  refine ⟨n, busFault, by simp [standing], fun m hm => ?_, fun x => ?_, ?_⟩
  · obtain rfl | later := List.mem_cons.mp (standing ▸ hm)
    · exact Nat.le_refl _
    · exact Nat.le_of_lt (sorted.1 m later)
  · rw [← own]
    refine sections (fun y => ?_) x
    rw [own, raise_busFault_sections, SectionSet.get_union, (disagreeJudged_busSets kinds s).1,
      ownSections_disagreeJudged]
    simp [FaultStore.clear, named, pending]
  · rw [clearedUp_eq, if_pos (by simp [named, pending]), standing, State.reraiseBus]
    exact joined

/-- The end of lockout leaves the rest of the fault store. -/
theorem clearFaults_fault : ∃ lockout,
    (s.clearFaults kinds).fault = { (s.clearedUp kinds).fault with lockout := lockout } := by
  have whole : s.clearFaults kinds = State.tellBarred s.barred (s.clearedUp kinds).judgeLockoutEnd := rfl
  rw [whole, tellBarred_fault]
  unfold State.judgeLockoutEnd
  split
  · exact ⟨false, rfl⟩
  · exact ⟨(s.clearedUp kinds).fault.lockout, rfl⟩

/-- The kinds that are not raised again stay as the clear leaves them. -/
theorem clearedUp_get {k : FaultKind} (hd : ¬ (k = .breakerDisagree ∧ s.disagreeReturns kinds))
    (hb : ¬ (k = .busFault ∧ s.busReturns kinds)) :
    (s.clearedUp kinds).fault.pending.get k = (FaultStore.clear kinds s.fault).pending.get k ∧
      (s.clearedUp kinds).fault.count.get k = (FaultStore.clear kinds s.fault).count.get k := by
  rw [← (disagreeJudged_get kinds s hd).1, ← (disagreeJudged_get kinds s hd).2]
  by_cases returns : s.busReturns kinds
  · obtain ⟨n, busFault, -, -, -, raised⟩ := clearedUp_of_returns kinds s returns
    rw [raised, onFault_fault, raise_fault_pending, raise_fault_count]
    exact record_get_of_ne _ _ _ fun same => hb ⟨same, returns⟩
  · rw [clearedUp_of_gone kinds s returns]
    exact ⟨rfl, rfl⟩

/-- BREAKER_DISAGREE raised again is new. -/
theorem clearedUp_disagree (ok : s.fault.Ok) (h : s.disagreeReturns kinds) :
    (s.clearedUp kinds).fault.pending.get .breakerDisagree = true ∧
      (s.clearedUp kinds).fault.count.get .breakerDisagree = 1 := by
  have judged : (s.disagreeJudged kinds).fault.pending.get .breakerDisagree = true ∧
      (s.disagreeJudged kinds).fault.count.get .breakerDisagree = 1 := by
    rw [disagreeJudged_of_returns kinds s h]
    refine ⟨raise_pending _ _ _, raise_count_of_new _ ?_⟩
    rw [storeCleared_fault]
    exact (clear_of_named kinds ok h.1.1).1
  by_cases returns : s.busReturns kinds
  · obtain ⟨n, busFault, -, -, -, raised⟩ := clearedUp_of_returns kinds s returns
    rw [raised, onFault_fault, raise_fault_pending, raise_fault_count,
      (record_get_of_ne (s.disagreeJudged kinds) .busFault (.slot n) (j := .breakerDisagree) (by decide)).1,
      (record_get_of_ne (s.disagreeJudged kinds) .busFault (.slot n) (j := .breakerDisagree) (by decide)).2]
    exact judged
  · rw [clearedUp_of_gone kinds s returns]
    exact judged

/-- BUS_FAULT raised again is new, and joined by every slot found OPERATED. -/
theorem clearedUp_busFault (ok : s.fault.Ok) (h : s.busReturns kinds) :
    (s.clearedUp kinds).fault.pending.get .busFault = true ∧ (s.clearedUp kinds).fault.count.get .busFault = 1 ∧
      (∀ x, (s.clearedUp kinds).fault.busFault.get x = s.ownSections.get x) ∧
      ∀ n, n ∈ (s.clearedUp kinds).busFaultSlots ↔ n ∈ s.slotsOperated := by
  obtain ⟨n, busFault, stands, -, sections, raised⟩ := clearedUp_of_returns kinds s h
  obtain ⟨⟨named, pending⟩, -⟩ := h
  have new : (s.disagreeJudged kinds).fault.pending.get .busFault = false := by
    rw [(disagreeJudged_get kinds s (k := .busFault) (fun h => FaultKind.noConfusion h.1)).1]
    exact (clear_of_named kinds ok named).1
  rw [raised]
  refine ⟨raise_pending _ _ _, raise_count_of_new _ new, sections, fun m => ?_⟩
  have first : ∀ k ∈ s.slotsOperated, 1 ≤ k := fun k hk => (busFaultSlots_range (mem_slotsOperated.mp hk).1).1
  have operated : n ∈ s.slotsOperated := mem_slotsOperated.mpr (mem_slotsStanding.mp stands).1
  have slots : (s.disagreeJudged kinds).fault.busSlots = List.replicate 8 false := by
    rw [(disagreeJudged_busSets kinds s).2]
    simp [FaultStore.clear, named, pending]
  have marks (hm : 1 ≤ m) (hl : m ≤ 8) :
      (s.slotsOperated.foldl (fun l k => updateAt (fun _ => true) (k - 1) l)
        (updateAt (fun _ => true) (n - 1) (List.replicate 8 false))).getD (m - 1) false = decide (m ∈ s.slotsOperated) := by
    have whole := marks_getD (n :: s.slotsOperated) (by simpa using ⟨first n operated, first⟩) hm (List.replicate 8 false)
      (by simpa using hl)
    rw [List.foldl_cons] at whole
    have unset : (List.replicate 8 false).getD (m - 1) false = false := by interval_cases m <;> rfl
    rw [whole, unset, Bool.false_or]
    by_cases same : m = n <;> simp [same, operated]
  have mark : (s.clearedUp kinds).fault.busSlots = s.slotsOperated.foldl (fun l k => updateAt (fun _ => true) (k - 1) l)
      (updateAt (fun _ => true) (n - 1) (List.replicate 8 false)) := by
    rw [raised, onFault_fault, raise_busFault_slots, slots]
  rw [← raised, State.busFaultSlots, mark, List.mem_filter]
  constructor
  · rintro ⟨member, set⟩
    simp only [slotNumbers, List.mem_range'_1] at member
    rw [marks (by omega) (by omega)] at set
    exact of_decide_eq_true set
  · intro hm
    obtain ⟨low, high⟩ := busFaultSlots_range (mem_slotsOperated.mp hm).1
    refine ⟨by simp only [slotNumbers, List.mem_range'_1]; omega, ?_⟩
    rw [marks low high]
    exact decide_eq_true hm

/-- A BUS_FAULT cleared whose cause has gone leaves both sets empty (R113). -/
theorem clearedUp_busGone (hg : s.clears kinds .busFault) (h : ¬ s.busReturns kinds) :
    (∀ x, (s.clearedUp kinds).fault.busFault.get x = false) ∧ (s.clearedUp kinds).busFaultSlots = [] := by
  obtain ⟨named, pending⟩ := hg
  rw [clearedUp_of_gone kinds s h, State.busFaultSlots, (disagreeJudged_busSets kinds s).1,
    (disagreeJudged_busSets kinds s).2]
  simp only [FaultStore.clear, named, pending, Bool.and_self, if_true]
  exact ⟨SectionSet.get_empty, by decide⟩

theorem clearedUp_capture_of_none (ok : s.fault.Ok) {c : Capture} (hc : s.fault.capture = some c)
    (hn : kinds.get c.kind = true) :
    (¬ s.disagreeReturns kinds → ¬ s.busReturns kinds → (s.clearedUp kinds).fault.capture = none) ∧
    (s.disagreeReturns kinds → (s.clearedUp kinds).fault.capture.map (fun c => (c.kind, c.context)) =
      some (.breakerDisagree, .none)) ∧
    (¬ s.disagreeReturns kinds → s.busReturns kinds → ∃ n, n ∈ s.slotsStanding ∧ (∀ m ∈ s.slotsStanding, n ≤ m) ∧
      (s.clearedUp kinds).fault.capture.map (fun c => (c.kind, c.context)) = some (.busFault, .slot n)) := by
  have empty : (s.storeCleared kinds).fault.capture = none := by
    rw [storeCleared_fault]
    exact clear_capture_of_named kinds ok hc hn
  refine ⟨fun hd hb => ?_, fun hd => ?_, fun hd hb => ?_⟩
  · rw [clearedUp_of_gone kinds s hb, disagreeJudged_of_gone kinds s hd, empty]
  · have new : (s.storeCleared kinds).fault.pending.get .breakerDisagree = false := by
      rw [storeCleared_fault]
      exact (clear_of_named kinds ok hd.1.1).1
    have taken : (s.disagreeJudged kinds).fault.capture =
        some ((s.storeCleared kinds).captureNow .breakerDisagree .none) := by
      rw [disagreeJudged_of_returns kinds s hd]
      exact raise_capture .none new empty (masked_of_unmaskable _ rfl)
    have kept : (s.clearedUp kinds).fault.capture = (s.disagreeJudged kinds).fault.capture := by
      by_cases returns : s.busReturns kinds
      · obtain ⟨n, busFault, -, -, -, raised⟩ := clearedUp_of_returns kinds s returns
        rw [raised, onFault_fault, raise_fault_capture]
        exact record_keeps_capture _ (.inr (.inl (by simp [taken])))
      · rw [clearedUp_of_gone kinds s returns]
    rw [kept, taken]
    rfl
  · obtain ⟨n, busFault, stands, least, -, raised⟩ := clearedUp_of_returns kinds s hb
    refine ⟨n, stands, least, ?_⟩
    have new : (s.storeCleared kinds).fault.pending.get .busFault = false := by
      rw [storeCleared_fault]
      exact (clear_of_named kinds ok hb.1.1).1
    rw [disagreeJudged_of_gone kinds s hd] at raised
    rw [raised, onFault_fault, raise_capture (.slot n) new empty (masked_of_unmaskable _ rfl)]
    rfl

theorem disagreeReturns_iff : s.disagreeReturns kinds ↔
    (kinds.get .breakerDisagree = true ∧ s.fault.pending.get .breakerDisagree = true) ∧
      s.brk.origin = .disagree ∧ (s.position = .travelling ∨ s.position = .invalid) := by
  simp [State.disagreeReturns, State.clears, State.disagreeStands]

theorem busReturns_iff : s.busReturns kinds ↔ (kinds.get .busFault = true ∧ s.fault.pending.get .busFault = true) ∧
    ∃ n, (n ∈ s.busFaultSlots ∧ (s.slotRun n).state = .operated) ∧ (s.slotRun n).released = false := by
  simp only [State.busReturns, State.clears, ← mem_slotsStanding]
  exact and_congr_right fun _ => ⟨List.exists_mem_of_ne_nil _, fun ⟨_, member⟩ => List.ne_nil_of_mem member⟩

/-- What a clear leaves beside the stores, the zone's demand and what a raise acts on. -/
theorem clearFaults_rest : (s.clearFaults kinds).settings = s.settings ∧ (s.clearFaults kinds).pic = s.pic ∧
    (s.clearFaults kinds).meas = s.meas ∧ (s.clearFaults kinds).isl = s.isl ∧ (s.clearFaults kinds).step = s.step := by
  have up := clearedUp_within kinds s
  have raised (t : State) (n : Nat) : (t.raise .busFault (.slot n)).pic = t.pic := by
    obtain ⟨brk, fault, port, news, h⟩ := raise_rest t .busFault (.slot n)
    rw [h]
  have judged : (s.disagreeJudged kinds).pic = s.pic := by
    obtain ⟨link, zone, cleared⟩ := storeCleared_eq kinds s
    by_cases returns : s.disagreeReturns kinds
    · obtain ⟨brk, fault, port, news, h⟩ := raise_rest (s.storeCleared kinds) .breakerDisagree .none
      rw [disagreeJudged_of_returns kinds s returns, h, cleared]
    · rw [disagreeJudged_of_gone kinds s returns, cleared]
  have pic : (s.clearedUp kinds).pic = s.pic := by
    by_cases returns : s.busReturns kinds
    · obtain ⟨n, busFault, -, -, -, h⟩ := clearedUp_of_returns kinds s returns
      rw [h, onFault_pic, raised, judged]
    · rw [clearedUp_of_gone kinds s returns, judged]
  have ended : ∃ fault news, s.clearFaults kinds = { s.clearedUp kinds with fault := fault, news := news } := by
    obtain ⟨news, told⟩ := tellBarred_eq s.barred (s.clearedUp kinds).judgeLockoutEnd
    have whole : s.clearFaults kinds = State.tellBarred s.barred (s.clearedUp kinds).judgeLockoutEnd := rfl
    rw [whole, told]
    unfold State.judgeLockoutEnd
    split
    · exact ⟨_, news, rfl⟩
    · exact ⟨(s.clearedUp kinds).fault, news, rfl⟩
  obtain ⟨fault, news, h⟩ := ended
  rw [h]
  exact ⟨up.settings, pic, up.meas, up.isl rfl, up.step rfl⟩

end

/-- Settles O15. -/
theorem clearFaultsClears : Obligations.ClearFaultsClears := by
  refine ⟨fun kinds s hc g => ?_, fun kinds s hc => ?_⟩
  · intro gone disagrees operated stands disagree bus
    have run : exec (.clearFaults kinds) s = .next (State.finish s ((s.clearFaults kinds).answer .ok [])) := by
      show execClearFaults kinds s = _
      simp only [execClearFaults, hc, event_of_configured (fun s : State => (s.clearFaults kinds).answer .ok []) hc]
    have after := (Within.refl {} ((s.clearFaults kinds).answer .ok [])).finish s
    obtain ⟨lockout, store⟩ := clearFaults_fault kinds s
    obtain ⟨settings, pic, meas, isl, step⟩ := clearFaults_rest kinds s
    have slots : (s.clearFaults kinds).busFaultSlots = (s.clearedUp kinds).busFaultSlots := by
      rw [State.busFaultSlots, store]
      rfl
    have returnsD : disagree ↔ s.disagreeReturns kinds := (disagreeReturns_iff kinds s).symm
    have returnsB : bus ↔ s.busReturns kinds := (busReturns_iff kinds s).symm
    have configured : (s.clearFaults kinds).configured = true := by simp [State.configured, settings, hc]
    refine ⟨_, s.clearFaults kinds, run, rfl, after.response, fun k hk hd hb => ?_, fun hd => ?_, fun hb => ?_,
      fun hg hb => ?_, fun k hk => ?_, fun c hcap hk => ?_, fun c hcap hk => ?_, ?_, pic, meas, isl, step⟩
    · rw [store]
      rw [returnsD] at hd
      rw [returnsB] at hb
      obtain ⟨pending, count⟩ := clearedUp_get kinds s hd hb
      rw [pending, count]
      exact clear_of_named kinds g.store hk
    · rw [store]
      exact clearedUp_disagree kinds s g.store (returnsD.mp hd)
    · obtain ⟨pending, count, sections, rejoined⟩ := clearedUp_busFault kinds s g.store (returnsB.mp hb)
      rw [store]
      refine ⟨pending, count, sections, fun n => ?_⟩
      rw [slots, rejoined, mem_slotsOperated]
    · rw [slots, store]
      exact clearedUp_busGone kinds s hg (fun h => hb (returnsB.mpr h))
    · have other (h : k = .breakerDisagree ∧ s.disagreeReturns kinds) : False := by
        obtain ⟨rfl, ⟨named, -⟩, -⟩ := h
        exact Bool.noConfusion (hk.symm.trans named)
      have other' (h : k = .busFault ∧ s.busReturns kinds) : False := by
        obtain ⟨rfl, ⟨named, -⟩, -⟩ := h
        exact Bool.noConfusion (hk.symm.trans named)
      obtain ⟨pending, count⟩ := clearedUp_get kinds s other other'
      rw [store, pending, count]
      exact clear_of_other kinds hk
    · rw [store]
      exact (clearedUp_within kinds s).capture c (clear_capture_of_other kinds hcap hk)
    · rw [returnsD, returnsB, store]
      obtain ⟨none, byDisagree, byBus⟩ := clearedUp_capture_of_none kinds s g.store hcap hk
      refine ⟨none, byDisagree, fun hd hb => ?_⟩
      obtain ⟨n, standing, least, context⟩ := byBus hd hb
      exact ⟨n, mem_slotsStanding.mp standing, fun m hm => least m (mem_slotsStanding.mpr hm), context⟩
    · rw [← lockoutStands_iff]
      exact ⟨lockoutOnly_clearFaults s kinds configured, (g.clearFaults kinds).lockout⟩
  · have run : exec (.clearFaults kinds) s = .next ((s.clearStore kinds).answer .ok []) := by
      show execClearFaults kinds s = _
      simp only [execClearFaults, hc]
    refine ⟨_, run, rfl, fun k => clear_pending kinds s.fault k, fun c hcap hk hp => ?_, fun locked => ?_, rfl⟩
    · show (FaultStore.clear kinds s.fault).capture = none
      simp [FaultStore.clear, hcap, hk, hp]
    · exact (Bool.and_eq_true_iff.mp locked).1

end Sys2Proof.Machine
end

