-- ==== Sys2Proof/Proofs/ClosePermissive.lean ====
section
/-!
SUPPORT. The close permissive: each condition of R62 as the model tests it, and a close request's outcome (R62 to R64).
-/

namespace Sys2Proof.Machine

section
variable {s : State}

/-- At a CONFIGURED station lockout stands exactly while a kind of severity LOCKOUT is pending (R110, R113). -/
theorem lockout_iff_pending (g : Good s) (only : LockoutOnly s) (hc : s.configured = true) :
    s.fault.lockout = true ↔ ∃ k, s.fault.pending.get k = true ∧ s.severityOf k = .lockout :=
  ⟨fun locked => (lockoutStands_iff s).mp (only hc locked), fun stands => g.lockout ((lockoutStands_iff s).mpr stands)⟩

theorem holdsAll_iff (n : Nat) : s.holdsAll n = true ↔
    (∃ x, (s.connects n).get x = true) ∧ ∀ x, (s.connects n).get x = true → (s.sec x).holder = n := by
  have inAll (x : BusSection) : x ∈ BusSection.all := by cases x <;> decide
  simp only [State.holdsAll, SectionSet.isEmpty, Bool.not_not, Bool.and_eq_true, List.any_eq_true, List.all_eq_true,
    Bool.or_eq_true, Bool.not_eq_true', beq_iff_eq, inAll, true_and, forall_const]
  refine and_congr_right fun _ => forall_congr' fun x => ?_
  cases (s.connects n).get x <;> simp

theorem mayCloseOnto_iff : s.mayCloseOnto = true ↔ if s.ownKind = some .feeder then s.admissionOf s.own = .admitted
    else (∃ x, s.ownSections.get x = true) ∧ ∀ x, s.ownSections.get x = true → (s.sec x).holder = s.own := by
  unfold State.mayCloseOnto
  by_cases hk : s.ownKind = some .feeder
  · simp [hk]
  · simp only [hk, beq_iff_eq, if_false]
    exact holdsAll_iff s.own

theorem acceptedIntertrip_iff : s.acceptedIntertrip = false ↔ ∀ e ∈ s.zone.intertrips, e.accepted = false := by
  simp [State.acceptedIntertrip]

/-- The two-incomer test, at an incomer and at a tie (R63). -/
theorem twoIncomers_iff : s.twoIncomers = false ↔
    (s.ownKind = some .incomer → ∀ n ∈ s.incomersOn s.ownSec, n = s.own) ∧
    (s.ownKind = some .tie → ∀ y, s.ownSec.next = some y → (s.incomersOn s.ownSec).length +
      (if s.sameIsland s.ownSec y = true then 0 else (s.incomersOn y).length) < 2) := by
  cases fixed : (s.entry s.own).fixed with
  | none =>
    have kind : s.ownKind = none := by simp [State.ownKind, State.kindOf, fixed]
    simp [State.twoIncomers, fixed, kind]
  | some c =>
    have kind : s.ownKind = some c.kind := by simp [State.ownKind, State.kindOf, fixed]
    have sec : s.ownSec = c.sec := by simp [State.ownSec, State.secOf, fixed]
    rw [kind, sec]
    unfold State.twoIncomers
    rw [fixed]
    dsimp only
    cases hk : c.kind with
    | incomer => simp
    | tie =>
      cases next : c.sec.next with
      | none => simp
      | some y => by_cases same : s.sameIsland c.sec y = true <;> simp [same]
    | generator => simp
    | feeder => simp

theorem requestClose_of_refused {r : CloseRefusal} (h : s.closeRefusal = some r) :
    s.requestClose = (s.recordRefusal r, some r) := by
  simp [State.requestClose, h]

theorem requestClose_of_permitted (h : s.closeRefusal = none) : s.requestClose = (s.beginClose, none) := by
  simp [State.requestClose, h]

theorem beginClose_state (s : State) : s.beginClose.brk.state = .closing := by
  obtain ⟨sync, h, -⟩ := endSession_eq (s.onBrk fun b => { b with
    state := .closing, closeOut := true, closeTimer := some s.station.closeLimit, disagreementTimer := none,
    sources := [], mark := false }) .closeBegun
  rw [State.beginClose, h]
  rfl

end

/-- Settles O25. -/
theorem closePermissiveInOrder : Obligations.ClosePermissiveInOrder := by
  intro s g only hc c1 c2 c3 c4 c5 c6 c7 c8
  have t1 : (!(s.brk.state == .opened) || s.brk.watch) = true ↔ ¬ c1 := by
    cases hw : s.brk.watch <;> simp [c1, hw]
  have t2 : (!(s.position == .opened)) = true ↔ ¬ c2 := by simp [c2]
  have t3 : (!s.inStep) = true ↔ ¬ c3 := by simp [c3, State.inStep]
  have t4 : (!s.pic.quorum) = true ↔ ¬ c4 := by simp [c4]
  have t5 : s.fault.lockout = true ↔ ¬ c5 := by
    rw [lockout_iff_pending g only hc]
    simp [c5]
  have t6 : s.acceptedIntertrip = true ↔ ¬ c6 := by
    rw [← Bool.not_eq_false, acceptedIntertrip_iff]
  have t7 : (!s.mayCloseOnto) = true ↔ ¬ c7 := by
    rw [Bool.not_eq_true', ← Bool.not_eq_true, mayCloseOnto_iff]
  have t8 : s.twoIncomers = true ↔ ¬ c8 := by
    rw [← Bool.not_eq_false, twoIncomers_iff]
  have holds {b : Bool} {c : Prop} (t : b = true ↔ ¬ c) (h : c) : ¬ b = true := fun fails => t.mp fails h
  unfold State.closeRefusal
  refine ⟨fun h1 => ?_, fun h1 h2 => ?_, fun h1 h2 h3 => ?_, fun h1 h2 h3 h4 => ?_, fun h1 h2 h3 h4 h5 => ?_,
    fun h1 h2 h3 h4 h5 h6 => ?_, fun h1 h2 h3 h4 h5 h6 h7 => ?_, fun h1 h2 h3 h4 h5 h6 h7 h8 => ?_,
    fun h1 h2 h3 h4 h5 h6 h7 h8 => ?_, fun permitted => ?_, fun r refused => requestClose_of_refused refused⟩
  · rw [if_pos (t1.mpr h1)]
  · rw [if_neg (holds t1 h1), if_pos (t2.mpr h2)]
  · rw [if_neg (holds t1 h1), if_neg (holds t2 h2), if_pos (t3.mpr h3)]
  · rw [if_neg (holds t1 h1), if_neg (holds t2 h2), if_neg (holds t3 h3), if_pos (t4.mpr h4)]
  · rw [if_neg (holds t1 h1), if_neg (holds t2 h2), if_neg (holds t3 h3), if_neg (holds t4 h4), if_pos (t5.mpr h5)]
  · rw [if_neg (holds t1 h1), if_neg (holds t2 h2), if_neg (holds t3 h3), if_neg (holds t4 h4), if_neg (holds t5 h5),
      if_pos (t6.mpr h6)]
  · rw [if_neg (holds t1 h1), if_neg (holds t2 h2), if_neg (holds t3 h3), if_neg (holds t4 h4), if_neg (holds t5 h5),
      if_neg (holds t6 h6), if_pos (t7.mpr h7)]
    by_cases hk : s.ownKind = some .feeder <;> simp [hk]
  · rw [if_neg (holds t1 h1), if_neg (holds t2 h2), if_neg (holds t3 h3), if_neg (holds t4 h4), if_neg (holds t5 h5),
      if_neg (holds t6 h6), if_neg (holds t7 h7), if_pos (t8.mpr h8)]
  · rw [if_neg (holds t1 h1), if_neg (holds t2 h2), if_neg (holds t3 h3), if_neg (holds t4 h4), if_neg (holds t5 h5),
      if_neg (holds t6 h6), if_neg (holds t7 h7), if_neg (holds t8 h8)]
  · rw [requestClose_of_permitted permitted]
    exact ⟨rfl, beginClose_state s⟩

end Sys2Proof.Machine
end

