-- ==== Sys2Proof/Proofs/QueueAppends.lean ====
section
/-!
SUPPORT. What a round end appends to the ORDERED queue: the DROPs that are due, and after them no DROP (R27, R33).
-/

namespace Sys2Proof.Machine

/-- The ORDERED queue grows at its end, by frames that are no DROP. -/
def State.Appends (s t : State) : Prop :=
  ∃ l, t.link.ordered = s.link.ordered ++ l ∧ ∀ f ∈ l, f.isDrop = false

section
variable {s t u : State}

theorem State.Appends.of_same (h : t.link.ordered = s.link.ordered) : s.Appends t := ⟨[], by simpa using h, by simp⟩

theorem State.Appends.refl (s : State) : s.Appends s := .of_same rfl

theorem State.Appends.trans (h : s.Appends t) (k : t.Appends u) : s.Appends u := by
  obtain ⟨l, hl, nl⟩ := h
  obtain ⟨m, hm, nm⟩ := k
  refine ⟨l ++ m, by rw [hm, hl, List.append_assoc], fun f hf => ?_⟩
  exact (List.mem_append.mp hf).elim (nl f) (nm f)

theorem State.Appends.mem (h : s.Appends t) {f : OrderedFrame} (hf : f ∈ s.link.ordered) : f ∈ t.link.ordered := by
  obtain ⟨l, hl, -⟩ := h
  rw [hl]
  exact List.mem_append_left _ hf

theorem State.Appends.length_le (h : s.Appends t) : s.link.ordered.length ≤ t.link.ordered.length := by
  obtain ⟨l, hl, -⟩ := h
  simp [hl]

/-- A DROP in the longer queue stood in the shorter one. -/
theorem State.Appends.drop_mem (h : s.Appends t) {n : Nat} (hf : OrderedFrame.drop n ∈ t.link.ordered) :
    OrderedFrame.drop n ∈ s.link.ordered := by
  obtain ⟨l, hl, none⟩ := h
  rw [hl, List.mem_append] at hf
  exact hf.resolve_right fun new => nomatch none _ new

end

/-! ### The operations of a round end -/

section
variable (s : State)

theorem appends_requestOrdered {f : OrderedFrame} (hf : f.isDrop = false) : s.Appends (s.requestOrdered f) := by
  unfold State.requestOrdered
  split
  · exact ⟨[f], rfl, by simpa using hf⟩
  · split
    · exact .refl s
    · exact .refl s

theorem appends_tracking {f : State → State} (h : s.Appends (f s)) : s.Appends (State.tracking f s) := by
  obtain ⟨r, tracked⟩ := tracking_eq f s
  rw [tracked]
  exact h

theorem appends_judgeClaim : s.Appends s.judgeClaim := by
  unfold State.judgeClaim
  split
  · split
    · exact .refl s
    · have requested := appends_requestOrdered s (f := .claim s.ownSections) rfl
      dsimp only
      split
      · exact requested
      · exact requested
  · exact .refl s

theorem appends_sendRelease : s.Appends s.sendRelease := by
  unfold State.sendRelease
  split
  · exact appends_requestOrdered s rfl
  · exact .refl s

theorem appends_tokenRound : s.Appends s.tokenRound := by
  have judged : s.Appends (s.onToken fun t => { t with retryRound := false }).judgeClaim :=
    appends_judgeClaim (s.onToken fun t => { t with retryRound := false })
  unfold State.tokenRound State.releaseAtRound
  split
  · exact judged.trans (appends_sendRelease _)
  · exact judged

theorem appends_requestFeeder {f : OrderedFrame} (r : FeederRequest) (hf : f.isDrop = false) :
    s.Appends (s.requestFeeder f r) := by
  have requested := appends_requestOrdered s hf
  unfold State.requestFeeder
  split
  · exact requested
  · exact requested

theorem appends_judgeFeeder : s.Appends s.judgeFeeder := by
  have settled : s.Appends s.settleMarks := by
    unfold State.settleMarks
    split
    · exact .refl s
    · exact .refl s
  have due (t : State) : t.Appends t.dueRequest := by
    unfold State.dueRequest
    split
    · exact appends_requestFeeder t _ rfl
    · split
      · split
        · exact appends_requestFeeder t _ rfl
        · split
          · exact appends_requestFeeder t _ rfl
          · exact .refl t
      · exact .refl t
  unfold State.judgeFeeder
  split
  · exact settled.trans (due _)
  · exact .refl s

theorem trip_ordered (src : TripSource) : (s.trip src).link.ordered = s.link.ordered := by
  obtain ⟨brk, news, h⟩ := trip_eq s src
  rw [h]

theorem appends_judgeFeederClose : s.Appends s.judgeFeederClose := by
  have requested : s.Appends s.requestClose.1 := by
    cases h : s.closeRefusal with
    | some r => rw [requestClose_of_refused h]; exact .refl s
    | none =>
      rw [requestClose_of_permitted h]
      obtain ⟨sync, ended, -⟩ := endSession_eq (s.onBrk fun b => { b with
        state := .closing, closeOut := true, closeTimer := some s.station.closeLimit, disagreementTimer := none,
        sources := [], mark := false }) .closeBegun
      rw [State.beginClose, ended]
      exact .refl s
  unfold State.judgeFeederClose
  split
  · split
    · split
      · exact requested
      · exact .refl s
    · split
      · exact .of_same (trip_ordered s .admission)
      · exact .refl s
    · exact .refl s
  · exact .refl s

theorem appends_requestOwed : s.Appends s.requestOwed := by
  unfold State.requestOwed
  split
  · exact .refl s
  · split
    · dsimp only
      split
      · exact appends_requestOrdered s (f := .order _ _) rfl
      · exact appends_requestOrdered s rfl
    · exact .refl s

theorem appends_owe (o : OrderKind) : s.Appends (s.owe o) := appends_requestOwed (s.onChg _)

theorem appends_oweTie (o : OrderKind) (n : Nat) : s.Appends (s.oweTie o n) := appends_requestOwed (s.onChg _)

theorem appends_oweTies (o : OrderKind) (ties : List Nat) : s.Appends (ties.foldl (fun s n => s.oweTie o n) s) :=
  List.foldlRecOn (motive := s.Appends) ties _ (.refl s) fun t h n _ => h.trans (appends_oweTie t o n)

theorem appends_moveTo (c : ChangeoverState) : s.Appends (s.moveTo c) := appends_tracking s (.refl s)

theorem appends_postWant (w : Want) : s.Appends (s.postWant w).1 := by
  unfold State.postWant
  split
  · exact .refl s
  · split
    · exact .refl s
    · exact appends_judgeClaim (s.onToken _)

theorem appends_postChangeover : s.Appends s.postChangeover := by
  have posted := appends_postWant s .changeover
  unfold State.postChangeover
  generalize s.postWant .changeover = answered at posted ⊢
  obtain ⟨t, answer⟩ := answered
  cases answer <;> exact posted

theorem appends_enterOpenRetransfer : s.Appends s.enterOpenRetransfer := by
  have moved := appends_moveTo s .openRetransfer
  unfold State.enterOpenRetransfer
  dsimp only
  split
  · exact moved
  · exact moved.trans (appends_postChangeover _)

theorem appends_judgeBackup : s.Appends s.judgeBackup := by
  have cleared : s.Appends s.unsharedCleared := by
    obtain ⟨asked, h⟩ := unsharedCleared_eq s
    rw [h]
    exact .refl s
  unfold State.judgeBackup
  rw [← State.unsharedCleared]
  dsimp only
  split
  · split
    · split
      · split
        · split
          · exact cleared
          · exact cleared.trans (appends_oweTies (s.unsharedCleared.onChg _) .split _)
        · split
          · split
            · exact cleared.trans ((appends_moveTo _ .retransfer).trans (appends_postChangeover _))
            · exact cleared
          · exact cleared.trans (appends_enterOpenRetransfer _)
      · exact cleared
    · split
      · exact cleared.trans (appends_owe _ .start)
      · exact cleared
  · exact .refl s

theorem appends_changeoverRound : s.Appends s.changeoverRound := by
  have judged (t : State) : t.Appends t.judgeBackup.requestOwed := (appends_judgeBackup t).trans (appends_requestOwed _)
  unfold State.changeoverRound
  split
  · dsimp only
    split
    · exact (appends_postChangeover s).trans (judged _)
    · exact judged s
  · exact .refl s

theorem appends_refreshBlock : s.Appends s.refreshBlock := by
  unfold State.refreshBlock
  split
  · exact .refl s
  · exact .refl s

theorem appends_generatorRound : s.Appends s.generatorRound := by
  unfold State.generatorRound State.unloadTrip
  split
  · split
    · exact .of_same (trip_ordered _ .dispatch)
    · exact .refl s
  · exact .refl s

/-- Regaining step concerns the step and the claim record (R48, R51, R130). -/
theorem becomeInStep_eq : ∃ token news, s.becomeInStep = { s with
    token := token, news := news
    step := { s.step with state := .inStep, founding := 0, pendingAdoption := none } } := by
  unfold State.becomeInStep State.resumeClaim
  split
  · exact ⟨_, s.news, rfl⟩
  · split
    · exact ⟨_, s.news, rfl⟩
    · split
      · exact ⟨s.token, s.news, rfl⟩
      · exact ⟨_, _, rfl⟩

theorem appends_found : s.Appends s.found := by
  obtain ⟨token, news, h⟩ := becomeInStep_eq (s.zeroStamps.onStep fun t => { t with
    epoch := some ⟨s.foundingSerial, s.own⟩, highest := some s.foundingSerial, founded := t.founded + 1 })
  have founded : s.found = _ := h
  rw [founded]
  exact .refl s

theorem advanceFounding_eq : s.advanceFounding = s.onStep fun t => { t with
    founding := if s.step.state = .inStep then 0 else satSucc 255 s.step.founding } := by
  unfold State.advanceFounding
  by_cases hs : s.step.state = .inStep
  · simp [State.inStep, hs]
  · simp only [State.inStep, hs, if_false, beq_eq_false_iff_ne.mpr hs, Bool.false_eq_true]
    rfl

theorem appends_judgeFounding : s.Appends s.judgeFounding := by
  have advanced : s.Appends s.advanceFounding := by
    rw [advanceFounding_eq]
    exact .refl s
  unfold State.judgeFounding
  dsimp only
  split
  · exact advanced.trans (appends_found _)
  · exact advanced

theorem appends_requestPair : s.Appends s.requestPair := by
  unfold State.requestPair
  split
  · exact ⟨[.summaryOne s.step.nextSummary, .summaryTwo s.step.nextSummary], rfl, by simp [OrderedFrame.isDrop]⟩
  · exact .refl s

theorem appends_retrySummary : s.Appends s.retrySummary := by
  unfold State.retrySummary
  split
  · dsimp only
    split
    · exact appends_requestPair (s.onStep _)
    · exact .refl s
  · exact .refl s

/-- What follows the judgment of the refused pair in a round end: the blocks' own round work. -/
def State.roundTail (s : State) : State :=
  s.tokenRound.judgeFeeder.judgeFeederClose.changeoverRound.refreshBlock.generatorRound

theorem appends_roundTail : s.Appends s.roundTail :=
  (appends_tokenRound s).trans ((appends_judgeFeeder _).trans ((appends_judgeFeederClose _).trans
    ((appends_changeoverRound _).trans ((appends_refreshBlock _).trans (appends_generatorRound _)))))

end

/-! ### The DROPs requested (R33) -/

section
variable (s : State)

/-- One DROP judged: appended where it is due and the queue has room. -/
def State.judgeDrop (s : State) (n : Nat) : State := if s.dropDue n then s.requestOrdered (.drop n) else s

theorem dropDue_iff {s : State} {n : Nat} : s.dropDue n = true ↔ s.isConfigured n = true ∧ n ≠ s.own ∧
    3 ≤ (s.entry n).silence ∧ (s.entry n).presence = .live ∧ s.step.state = .inStep ∧
    OrderedFrame.drop n ∉ s.link.ordered := by
  simp [State.dropDue, State.inStep, Config.silenceLimit, and_assoc]
  exact fun _ _ _ _ _ => decide_eq_true_iff

theorem judgeDrop_eq (n : Nat) : ∃ link, s.judgeDrop n = { s with link := link } ∧
    (link.ordered = s.link.ordered ∨ (link.ordered = s.link.ordered ++ [.drop n] ∧ s.dropDue n = true)) ∧
    (s.dropDue n = true → OrderedFrame.drop n ∈ link.ordered ∨ 8 ≤ link.ordered.length) := by
  unfold State.judgeDrop
  split
  next due =>
    unfold State.requestOrdered
    split
    next room => exact ⟨_, rfl, .inr ⟨rfl, due⟩, fun _ => .inl (by simp)⟩
    next full =>
      have length : 8 ≤ s.link.ordered.length := by
        simp [State.acceptsOrdered, OrderedFrame.isRequest, Config.orderedCapacity] at full
        exact Nat.not_lt.mp (of_decide_eq_false full)
      split
      · exact ⟨_, rfl, .inl rfl, fun _ => .inr length⟩
      · exact ⟨s.link, rfl, .inl rfl, fun _ => .inr length⟩
  next quiet => exact ⟨s.link, rfl, .inl rfl, fun due => absurd due quiet⟩

/-- The DROPs judged for a list of stations: what the queue then holds of them. -/
theorem judgeDrops_eq (ns : List Nat) : ∀ s : State, ∃ link, ns.foldl State.judgeDrop s = { s with link := link } ∧
    (∃ l, link.ordered = s.link.ordered ++ l ∧ ∀ f ∈ l, ∃ n, f = .drop n ∧ s.isConfigured n = true ∧ n ≠ s.own ∧
      3 ≤ (s.entry n).silence ∧ (s.entry n).presence = .live ∧ s.step.state = .inStep) ∧
    (∀ n ∈ ns, s.isConfigured n = true → n ≠ s.own → 3 ≤ (s.entry n).silence → (s.entry n).presence = .live →
      s.step.state = .inStep → OrderedFrame.drop n ∈ link.ordered ∨ 8 ≤ link.ordered.length) := by
  induction ns with
  | nil => exact fun s => ⟨s.link, rfl, ⟨[], by simp, by simp⟩, by simp⟩
  | cons n ns ih =>
    intro s
    obtain ⟨link, judged, grown, taken⟩ := judgeDrop_eq s n
    obtain ⟨link', rest, ⟨l, longer, due⟩, all⟩ := ih (s.judgeDrop n)
    rw [judged] at rest longer due all
    have whole : (n :: ns).foldl State.judgeDrop s = { s with link := link' } := by
      rw [List.foldl_cons, judged, rest]
    refine ⟨link', whole, ?_, fun m hm configured other silent live step => ?_⟩
    · obtain same | ⟨appended, isDue⟩ := grown
      · exact ⟨l, by rw [longer, same], due⟩
      · refine ⟨.drop n :: l, by rw [longer, appended]; simp, fun f hf => ?_⟩
        obtain rfl | later := List.mem_cons.mp hf
        · obtain ⟨configured, other, silent, live, step, -⟩ := dropDue_iff.mp isDue
          exact ⟨n, rfl, configured, other, silent, live, step⟩
        · exact due f later
    · obtain rfl | later := List.mem_cons.mp hm
      · have reached : OrderedFrame.drop m ∈ link.ordered ∨ 8 ≤ link.ordered.length := by
          by_cases waits : OrderedFrame.drop m ∈ s.link.ordered
          · refine .inl ?_
            obtain same | ⟨appended, -⟩ := grown
            · rw [same]; exact waits
            · rw [appended]; exact List.mem_append_left _ waits
          · exact taken (dropDue_iff.mpr ⟨configured, other, silent, live, step, waits⟩)
        refine reached.imp (fun member => ?_) (fun full => ?_)
        · rw [longer]; exact List.mem_append_left _ member
        · rw [longer, List.length_append]; exact Nat.le_trans full (Nat.le_add_right _ _)
      · exact all m later configured other silent live step

end

end Sys2Proof.Machine
end

