-- ==== Sys2Proof/Proofs/RoundEnd.lean ====
section
/-!
SUPPORT. The round end: what it counts before the step is judged, founding, and the summary pair requested again (R25, R31, R32,
R44, R49 to R51).
-/

namespace Sys2Proof.Machine

/-! ### Section Records, whole -/

theorem SectionRecord.eq_of_parts {a b : SectionRecord} (ht : a.tokenPart = b.tokenPart) (hd : a.derivedPart = b.derivedPart) :
    a = b := by
  obtain ⟨holder, grant, queue, order, release⟩ := SectionRecord.tokenPart_fields ht
  have configured : a.configured = b.configured := (congrArg SectionRecord.configured hd :)
  have live : a.live = b.live := (congrArg SectionRecord.live hd :)
  have faulted : a.faulted = b.faulted := (congrArg SectionRecord.faulted hd :)
  have island : a.island = b.island := (congrArg SectionRecord.island hd :)
  cases a
  cases b
  simp_all

theorem PerSection.eq_of_get {α : Type} {t u : PerSection α} (h : ∀ x, t.get x = u.get x) : t = u := by
  have hA : t.a = u.a := h .A
  have hB : t.b = u.b := h .B
  have hC : t.c = u.c := h .C
  have hD : t.d = u.d := h .D
  cases t
  cases u
  simp_all

/-- Work that keeps both parts of the Section Records keeps them whole. -/
theorem Within.secsWhole {s t : State} {sc : Scope} (h : Within sc s t) (hd : sc.derived = false) (hs : sc.secs = false) :
    t.pic.secs = s.pic.secs :=
  PerSection.eq_of_get fun x => SectionRecord.eq_of_parts (h.secs hs x) (h.derived hd x)

/-! ### The round counted, and the silence counts (R25, R31, R32) -/

section
variable (s : State)

/-- The link record once the round is counted: the timer again, a STATUS requested, start silence ended at the sixth round. -/
theorem countRound_eq : ∃ link, s.countRound.judgeStartSilence.advanceSilence = { s with
      link := link
      pic := { s.pic with table := s.pic.table.mapIdx fun k e => e.silent (k + 1 == s.own) } } ∧
    link.roundCount = s.link.roundCount + 1 ∧ link.roundTimer = some s.campus.round ∧ link.statusRequest.isSome = true ∧
    link.startSilence = (s.link.startSilence && !(decide ((s.link.roundCount + 1).toNat = 6))) ∧
    link.ordered = s.link.ordered := by
  have six : (s.countRound.link.roundCount.toNat == Config.startSilenceRounds) =
      decide ((s.link.roundCount + 1).toNat = 6) := rfl
  unfold State.judgeStartSilence
  rw [six]
  cases decide ((s.link.roundCount + 1).toNat = 6) with
  | false => exact ⟨_, rfl, rfl, rfl, rfl, by simp [State.countRound, State.requestStatus], rfl⟩
  | true =>
    simp only [if_true]
    unfold State.endStartSilence
    cases silence : s.link.startSilence with
    | false =>
      have none : s.countRound.link.startSilence = false := silence
      rw [none]
      exact ⟨_, rfl, rfl, rfl, rfl, none, rfl⟩
    | true =>
      have stands : s.countRound.link.startSilence = true := silence
      rw [stands]
      exact ⟨_, rfl, rfl, rfl, rfl, rfl, rfl⟩

/-! ### The pending source (R39, R49) -/

theorem purgeOrdered_ordered : s.purgeOrdered.link.ordered = s.link.ordered.filter (·.isDrop) := by
  unfold State.purgeOrdered
  dsimp only
  split <;> split <;> rfl

theorem purgeOrdered_step : s.purgeOrdered.step = s.step := by
  obtain ⟨link, chg, feeder, h⟩ := purgeOrdered_eq s
  rw [h]

/-- What a void keeps of the step, and of the ORDERED queue. -/
structure KeepsStep (s t : State) : Prop where
  inStep : t.step.state = .inStep ↔ s.step.state = .inStep
  epoch : t.step.epoch = s.step.epoch
  highest : t.step.highest = s.step.highest
  nextSummary : t.step.nextSummary = s.step.nextSummary
  guard : t.step.guard = s.step.guard
  pairRefused : t.step.pairRefused = s.step.pairRefused
  founded : t.step.founded = s.step.founded
  ordered : ∀ f ∈ t.link.ordered, f ∈ s.link.ordered
  pic : t.pic = s.pic
  isl : t.isl = s.isl

theorem KeepsStep.refl : KeepsStep s s := ⟨Iff.rfl, rfl, rfl, rfl, rfl, rfl, rfl, fun _ h => h, rfl, rfl⟩

theorem voidAdoption_keepsStep : KeepsStep s s.voidAdoption := by
  unfold State.voidAdoption
  dsimp only
  split
  next joining =>
    generalize hu : (s.onStep fun t => { t with pendingAdoption := none, voided := t.voided + 1 }) = u
    have lost : u.loseStep.step = { u.step with state := .desync, founding := 0 } :=
      purgeOrdered_step (u.onStep fun t => { t with state := .desync, founding := 0 })
    have queue : u.loseStep.link.ordered = u.link.ordered.filter (·.isDrop) :=
      purgeOrdered_ordered (u.onStep fun t => { t with state := .desync, founding := 0 })
    have state : s.step.state = .joining := eq_of_beq joining
    obtain ⟨step, link, chg, feeder, whole⟩ := loseStep_eq u
    have pic : u.loseStep.pic = u.pic := by rw [whole]
    have isl : u.loseStep.isl = u.isl := by rw [whole]
    subst hu
    refine ⟨?_, ?_, ?_, ?_, ?_, ?_, ?_, fun f hf => ?_, pic, isl⟩
    · rw [lost]
      simp [state]
    · rw [lost]; rfl
    · rw [lost]; rfl
    · rw [lost]; rfl
    · rw [lost]; rfl
    · rw [lost]; rfl
    · rw [lost]; rfl
    · rw [queue] at hf
      exact List.mem_of_mem_filter hf
  next => exact ⟨Iff.rfl, rfl, rfl, rfl, rfl, rfl, rfl, fun _ h => h, rfl, rfl⟩

theorem judgePendingSource_keepsStep : KeepsStep s s.judgePendingSource := by
  unfold State.judgePendingSource
  split
  · split
    · exact voidAdoption_keepsStep s
    · exact .refl s
  · exact .refl s

/-! ### The summary pair requested again (R44) -/

theorem retrySummary_eq : ∃ link serial refused, s.retrySummary = { s with
    link := link, step := { s.step with nextSummary := serial, pairRefused := refused } } := by
  unfold State.retrySummary
  split
  · dsimp only
    split
    · unfold State.requestPair
      split
      · exact ⟨_, s.step.nextSummary + 1, false, rfl⟩
      · exact ⟨_, s.step.nextSummary, true, rfl⟩
    · exact ⟨s.link, s.step.nextSummary, false, rfl⟩
  · exact ⟨s.link, s.step.nextSummary, s.step.pairRefused, rfl⟩

/-- A refused pair is requested again while the station is the source, its guard is down and a station asks. -/
theorem retrySummary_requests {s : State} (hr : s.step.pairRefused = true) (hs : s.summarySource = true)
    (hg : s.step.guard = 0) (ha : s.someoneAsks = true) :
    (OrderedFrame.summaryOne s.step.nextSummary ∈ s.retrySummary.link.ordered ∧
      OrderedFrame.summaryTwo s.step.nextSummary ∈ s.retrySummary.link.ordered) ∨
    (7 ≤ s.retrySummary.link.ordered.length ∧ s.retrySummary.step.pairRefused = true) := by
  have again : s.retrySummary = (s.onStep fun t => { t with pairRefused := false }).requestPair := by
    simp [State.retrySummary, hr, hs, hg, ha]
  rw [again]
  unfold State.requestPair
  split
  · exact .inl (by simp)
  next full =>
    refine .inr ⟨?_, rfl⟩
    simp [State.acceptsPair, Config.orderedCapacity] at full
    have length : 7 ≤ s.link.ordered.length := by omega
    exact length

/-! ### Founding (R50, R51) -/

theorem found_eq : ∃ token news, s.found = { s.zeroStamps with
    token := token, news := news
    step := { s.step with
      state := .inStep, founding := 0, pendingAdoption := none, epoch := some ⟨s.foundingSerial, s.own⟩
      highest := some s.foundingSerial, founded := s.step.founded + 1 } } := by
  obtain ⟨token, news, h⟩ := becomeInStep_eq (s.zeroStamps.onStep fun t => { t with
    epoch := some ⟨s.foundingSerial, s.own⟩, highest := some s.foundingSerial, founded := t.founded + 1 })
  exact ⟨token, news, h⟩

theorem lowerHeard_iff : s.lowerHeard = false ↔ ∀ n, 1 ≤ n → n < s.own → s.isConfigured n = true →
    (s.entry n).presence = .live → 3 ≤ (s.entry n).silence := by
  have range (n : Nat) : n ∈ List.range' 1 (s.own - 1) ↔ 1 ≤ n ∧ n < s.own := by
    rw [List.mem_range'_1]
    omega
  have heard (n : Nat) : (s.isConfigured n && (s.entry n).presence == .live &&
      decide ((s.entry n).silence < Config.silenceLimit)) = true ↔
      s.isConfigured n = true ∧ (s.entry n).presence = .live ∧ (s.entry n).silence < 3 := by
    rw [Bool.and_eq_true, Bool.and_eq_true, beq_iff_eq, and_assoc]
    exact and_congr_right fun _ => and_congr_right fun _ => decide_eq_true_iff
  rw [State.lowerHeard, ← Bool.not_eq_true, List.any_eq_true, not_exists]
  refine forall_congr' fun n => ?_
  rw [heard, range]
  constructor
  · intro none low high configured live
    by_contra silent
    exact none ⟨⟨low, high⟩, configured, live, Nat.lt_of_not_le silent⟩
  · rintro all ⟨⟨low, high⟩, configured, live, silent⟩
    exact absurd (all low high configured live) (Nat.not_le_of_lt silent)

theorem mayFound_iff : s.mayFound = true ↔ s.step.state ≠ .inStep ∧ 3 ≤ s.step.founding ∧ s.pic.quorum = true ∧
    (s.entry s.own).presence = .live ∧
    (∀ n, 1 ≤ n → n < s.own → s.isConfigured n = true → (s.entry n).presence = .live → 3 ≤ (s.entry n).silence) ∧
    s.link.startSilence = false ∧ s.step.pendingAdoption = none := by
  rw [← lowerHeard_iff]
  have limit : decide (Config.silenceLimit ≤ s.step.founding) = true ↔ 3 ≤ s.step.founding := decide_eq_true_iff
  simp only [State.mayFound, State.inStep, Bool.and_eq_true, Bool.not_eq_true', beq_eq_false_iff_ne, limit, beq_iff_eq,
    Option.isNone_iff_eq_none, and_assoc, ne_eq]

/-- The stamps a founding sets to 0 (R51). -/
theorem zeroStamps_tables : s.zeroStamps.pic.delivery = 0 ∧
    (∀ x, (s.zeroStamps.sec x).holder = (s.sec x).holder ∧ (s.zeroStamps.sec x).grant = 0 ∧
      (s.zeroStamps.sec x).queue = (s.sec x).queue.map (fun q => { q with entry := 0 }) ∧
      (s.zeroStamps.sec x).lastOrder = (s.sec x).lastOrder.map (fun o => { o with stamp := 0 })) ∧
    (∀ i, (s.zeroStamps.island i).runList = (s.island i).runList.map (fun e => { e with entry := 0 }) ∧
      (s.zeroStamps.island i).queue =
        (s.island i).queue.map (fun e => { e with entry := 0, former := e.former.map fun _ => 0 }) ∧
      (s.zeroStamps.island i).admitted = (s.island i).admitted.map (fun e => { e with admission := 0 })) := by
  refine ⟨rfl, fun x => ?_, fun i => ?_⟩
  · cases x <;> exact ⟨rfl, rfl, rfl, rfl⟩
  · cases i <;> exact ⟨rfl, rfl, rfl⟩

/-- The judgment of the founding, once the founding wait stands at its new value. -/
theorem judgeFounding_eq : s.judgeFounding =
    if s.advanceFounding.mayFound then s.advanceFounding.found else s.advanceFounding := rfl

end

/-! ### The round end as a whole -/

section
variable (s : State)

/-- A round end up to the judgment of the refused pair. -/
def State.roundJudged (s : State) : State := s.roundOpened.requestDrops.judgeFounding.retrySummary

theorem endRound_eq : s.endRound = s.roundJudged.roundTail := rfl

theorem roundTail_within : Within {} s s.roundTail :=
  Within.generatorRound (Within.refreshBlock (Within.changeoverRound (Within.judgeFeederClose (Within.judgeFeeder
    (Within.tokenRound (.refl _ s))))))

/-- The state a round end starts from, with the round counted, the silence counts advanced and the guard lowered. -/
def State.roundCounted (s : State) : State := s.countRound.judgeStartSilence.advanceSilence.lowerGuard

theorem roundOpened_within {sc : Scope} (hs : sc.step = true) : Within sc s.roundCounted s.roundOpened := by
  generalize hu : s.countRound.judgeStartSilence.advanceSilence = u
  have void : Within sc u u.judgePendingSource := (Within.refl _ u).judgePendingSource hs
  have lowered : Within sc u.lowerGuard u.judgePendingSource.lowerGuard :=
    { void with
      guard := congrArg (· - 1) void.guard, step := fun off => nomatch hs.symm.trans off
      good := fun g => (void.good ⟨g.brk, g.store, g.link, g.lockout, g.table, g.port⟩).lowerGuard }
  rw [State.roundCounted, State.roundOpened, hu]
  exact lowered

theorem requestDrops_eq : ∃ link, s.requestDrops = { s with link := link } ∧
    (∃ l, link.ordered = s.link.ordered ++ l ∧ ∀ f ∈ l, ∃ n, f = .drop n ∧ s.isConfigured n = true ∧ n ≠ s.own ∧
      3 ≤ (s.entry n).silence ∧ (s.entry n).presence = .live ∧ s.step.state = .inStep) ∧
    (∀ n, 1 ≤ n → n ≤ 30 → s.isConfigured n = true → n ≠ s.own → 3 ≤ (s.entry n).silence →
      (s.entry n).presence = .live → s.step.state = .inStep →
      OrderedFrame.drop n ∈ link.ordered ∨ 8 ≤ link.ordered.length) := by
  obtain ⟨link, judged, grown, all⟩ := judgeDrops_eq stationNumbers s
  refine ⟨link, judged, grown, fun n low high => all n ?_⟩
  rw [stationNumbers, List.mem_range'_1]
  omega

end

section
variable {s : State}

/-- What the Station Table keeps when the silence counts advance. -/
theorem silent_map_fixed (table : List StationEntry) (own : Nat) :
    (table.mapIdx fun k e => e.silent (k + 1 == own)).map (·.fixed) = table.map (·.fixed) := by
  apply List.ext_getElem
  · simp
  · intro i h1 h2
    simp [StationEntry.silent]

theorem isConfigured_of_fixed {t : State} (h : t.pic.table.map (·.fixed) = s.pic.table.map (·.fixed)) (n : Nat) :
    t.isConfigured n = s.isConfigured n := by
  cases n with
  | zero => rfl
  | succ k => rw [State.isConfigured, State.isConfigured, entry_succ_fixed, entry_succ_fixed, h]

end

/-- What a round end has counted when the DROPs are judged. -/
structure RoundOpened (s o : State) : Prop where
  station : o.station = s.station
  quorum : o.pic.quorum = s.pic.quorum
  delivery : o.pic.delivery = s.pic.delivery
  secs : o.pic.secs = s.pic.secs
  configured : ∀ n, o.isConfigured n = s.isConfigured n
  isl : o.isl = s.isl
  inStep : o.step.state = .inStep ↔ s.step.state = .inStep
  epoch : o.step.epoch = s.step.epoch
  highest : o.step.highest = s.step.highest
  nextSummary : o.step.nextSummary = s.step.nextSummary
  guard : o.step.guard = s.step.guard - 1
  pairRefused : o.step.pairRefused = s.step.pairRefused
  founded : o.step.founded = s.step.founded
  ordered : ∀ f ∈ o.link.ordered, f ∈ s.link.ordered

theorem roundOpened_holds (s : State) : RoundOpened s s.roundOpened := by
  obtain ⟨link, counted, -, -, -, -, ordered⟩ := countRound_eq s
  have within := roundOpened_within s (sc := { step := true }) rfl
  have keeps : KeepsStep s.countRound.judgeStartSilence.advanceSilence
      s.countRound.judgeStartSilence.advanceSilence.judgePendingSource := judgePendingSource_keepsStep _
  rw [counted] at keeps
  have pic : s.roundOpened.pic = { s.pic with table := s.pic.table.mapIdx fun k e => e.silent (k + 1 == s.own) } := by
    rw [State.roundOpened, counted]
    exact keeps.pic
  have whole : s.roundOpened = State.lowerGuard (State.judgePendingSource { s with
      link := link, pic := { s.pic with table := s.pic.table.mapIdx fun k e => e.silent (k + 1 == s.own) } }) := by
    rw [State.roundOpened, counted]
  refine ⟨within.station.trans ?_, by rw [pic], by rw [pic], by rw [pic], fun n => isConfigured_of_fixed ?_ n, ?_, ?_, ?_,
    ?_, ?_, ?_, ?_, ?_, ?_⟩
  · rw [State.roundCounted, counted]
    rfl
  · rw [pic]
    exact silent_map_fixed _ _
  all_goals rw [whole]
  · exact keeps.isl
  · exact keeps.inStep
  · exact keeps.epoch
  · exact keeps.highest
  · exact keeps.nextSummary
  · exact congrArg (· - 1) keeps.guard
  · exact keeps.pairRefused
  · exact keeps.founded
  · intro f hf
    rw [← ordered]
    exact keeps.ordered f hf

/-- Settles O35. -/
theorem roundEndCounts : Obligations.RoundEndCounts := by
  intro s hc o wait founds serial
  obtain ⟨link, counted, roundCount, roundTimer, request, startSilence, -⟩ := countRound_eq s
  have base : s.roundCounted = { s with
      link := link, step := { s.step with guard := s.step.guard - 1 }
      pic := { s.pic with table := s.pic.table.mapIdx fun k e => e.silent (k + 1 == s.own) } } := by
    rw [State.roundCounted, counted]
    rfl
  have opened : RoundOpened s o := roundOpened_holds s
  have own : o.own = s.own := congrArg StationSettings.number opened.station
  -- The founding is judged in `e`: the DROPs requested, the founding wait advanced.
  obtain ⟨queue, dropped, ⟨l, grown, due⟩, all⟩ := requestDrops_eq o
  generalize hd : ({ o with link := queue } : State) = d at dropped
  generalize he : d.advanceFounding = e
  have advanced : e = { o with link := queue, step := { o.step with founding := wait } } := by
    rw [← he, advanceFounding_eq, ← hd]
    rfl
  have mayFound : e.mayFound = true ↔ founds := by
    have silence : queue.startSilence = o.link.startSilence := by
      have kept := ((Within.refl {} o).requestDrops).startSilence
      rwa [dropped, ← hd] at kept
    rw [mayFound_iff, advanced]
    show _ ∧ _ ∧ o.pic.quorum = true ∧ (o.entry o.own).presence = .live ∧
      (∀ n, 1 ≤ n → n < o.own → o.isConfigured n = true → (o.entry n).presence = .live → 3 ≤ (o.entry n).silence) ∧
      queue.startSilence = false ∧ _ ↔ _
    simp only [opened.quorum, own, opened.configured, silence]
    rfl
  have judged : s.roundJudged = (if e.mayFound then e.found else e).retrySummary := by
    rw [State.roundJudged, show s.roundOpened = o from rfl, dropped, judgeFounding_eq, he]
  generalize hv : s.roundJudged = v at judged
  have ends : s.endRound = v.roundTail := by rw [endRound_eq, hv]
  generalize ht : State.finish s v.roundTail = t
  have after : Within {} v t := ht ▸ (roundTail_within v).finish s
  have whole : Within { isl := true, secs := true, delivery := true, step := true } s.roundCounted t := by
    rw [← ht, ← ends]
    exact ((roundOpened_within s rfl).trans (endRound_within s)).finish s
  have table : t.pic.table = o.pic.table :=
    (whole.lapse rfl rfl).trans ((roundOpened_within s (sc := { step := true }) rfl).lapse rfl rfl).symm
  have entry (n : Nat) : t.entry n = o.entry n := entry_of_table table n
  have appends : d.Appends v.roundTail := by
    have drops : o.requestDrops.Appends s.roundJudged := (appends_judgeFounding _).trans (appends_retrySummary _)
    rw [dropped, hv] at drops
    exact drops.trans (appends_roundTail v)
  rw [base] at whole
  refine ⟨t, v.roundTail, ?_, ht.symm, whole.roundCount.trans roundCount, whole.roundTimer.trans roundTimer,
    whole.request request, whole.startSilence.trans startSilence, whole.guard, whole.lapse rfl rfl,
    fun n low high configured other silent live step => ?_, fun n member => ?_, fun step refused source guard asks => ?_,
    fun hf => ?_, fun hf => ?_, ?_⟩
  · rw [← ht, ← ends]
    exact event_of_configured State.endRound hc
  · rw [entry] at silent live
    have reached := all n low high ((opened.configured n).trans configured) (own ▸ other) silent live
      (opened.inStep.mpr step)
    subst hd
    exact reached.imp appends.mem fun full => Nat.le_trans full appends.length_le
  · have waits := appends.drop_mem member
    rw [← hd] at waits
    have placed : OrderedFrame.drop n ∈ o.link.ordered ++ l := grown ▸ waits
    obtain before | new := List.mem_append.mp placed
    · exact .inl (opened.ordered _ before)
    · obtain ⟨m, same, configured, other, silent, live, step⟩ := due _ new
      obtain rfl : n = m := OrderedFrame.drop.inj same
      rw [entry]
      exact .inr ⟨(opened.configured n).symm.trans configured, own ▸ other, silent, live, opened.inStep.mp step⟩
  · have inStep : o.step.state = .inStep := opened.inStep.mpr step
    have stays : ¬ e.mayFound = true := fun may => ((mayFound_iff e).mp may).1 (by rw [advanced]; exact inStep)
    rw [if_neg stays] at judged
    have requests := retrySummary_requests (s := e) (by rw [advanced]; exact opened.pairRefused.trans refused)
      (by rw [advanced]; exact source) (by rw [advanced]; exact opened.guard.trans (by omega)) (by rw [advanced]; exact asks)
    have number : e.step.nextSummary = s.step.nextSummary := by rw [advanced]; exact opened.nextSummary
    rw [← judged, number] at requests
    have tail := appends_roundTail v
    refine requests.imp (fun ⟨one, two⟩ => ⟨tail.mem one, tail.mem two⟩) fun ⟨full, still⟩ =>
      ⟨Nat.le_trans full tail.length_le, ?_⟩
    rw [after.step rfl]
    exact still
  · rw [if_pos (mayFound.mpr hf)] at judged
    obtain ⟨token, news, found⟩ := found_eq e
    obtain ⟨link', summary, refused, again⟩ := retrySummary_eq e.found
    obtain ⟨delivery, secs, isl⟩ := zeroStamps_tables e
    have number : e.foundingSerial = serial := by
      have highest : e.step.highest = s.step.highest := by rw [advanced]; exact opened.highest
      unfold State.foundingSerial
      rw [highest]
      show _ = (s.step.highest.map (· + 1)).getD 1
      cases s.step.highest <;> rfl
    have own' : e.own = s.own := by rw [advanced]; exact own
    have result : v = { e.zeroStamps with
        token := token, news := news, link := link'
        step := { e.step with
          state := .inStep, founding := 0, pendingAdoption := none, epoch := some ⟨serial, s.own⟩, highest := some serial
          founded := e.step.founded + 1, nextSummary := summary, pairRefused := refused } } := by
      rw [judged, again, found, number, own']
    have step := after.step rfl
    have founded : e.step.founded = s.step.founded := by rw [advanced]; exact opened.founded
    have sec (x : BusSection) : e.sec x = s.sec x := by
      rw [advanced]
      exact congrArg (PerSection.get · x) opened.secs
    have island (i : BusSection) : e.island i = s.island i := by
      rw [advanced]
      exact congrArg (PerSection.get · i) opened.isl
    rw [step, after.delivery rfl, result]
    refine ⟨rfl, rfl, rfl, rfl, congrArg (· + 1) founded, delivery, fun x => ?_, fun i => ?_⟩
    · obtain ⟨holder, grant, queue, order, -⟩ := SectionRecord.tokenPart_fields (after.secs rfl x)
      have read : v.sec x = e.zeroStamps.sec x := by rw [result]; rfl
      rw [holder, grant, queue, order, read, ← sec x]
      exact secs x
    · have read : t.island i = e.zeroStamps.island i := by
        rw [State.island, after.isl rfl, result]
        rfl
      rw [read, ← island i]
      exact isl i
  · rw [if_neg (fun may => hf (mayFound.mp may))] at judged
    obtain ⟨link', summary, refused, again⟩ := retrySummary_eq e
    have result : v = { o with
        link := link', step := { o.step with founding := wait, nextSummary := summary, pairRefused := refused } } := by
      rw [judged, again, advanced]
    have kept := after.secsWhole rfl rfl
    rw [after.step rfl, after.delivery rfl, after.isl rfl, kept, result]
    exact ⟨rfl, opened.epoch, rfl, opened.founded, opened.delivery, opened.isl, opened.secs⟩
  · have whole' := whole.frame
    exact { whole' with
      nextSeq := rfl, startSilence := rfl, roundTimer := rfl, roundCount := rfl, transmitted := rfl, receiveDiscard := rfl
      lastComposed := rfl, mediumIdle := rfl, sent := rfl, fixed := rfl, table := fun _ => rfl, lapse := fun _ _ => rfl
      request := fun _ => whole.request request }

end Sys2Proof.Machine
end

