-- ==== Sys2Proof/Proofs/Adoptions.lean ====
section
/-!
SUPPORT. The summary's two parts: a part 1 that is taken, and a part 2 that completes or voids the pending adoption (R2, R46 to
R49, R116).
-/

namespace Sys2Proof.Machine

/-! ### A part 1 that is taken (R46) -/

section
variable {s : State} {h : Header} {p : SummaryOne}

theorem Within.digest {sc : Scope} {t : State} (w : Within sc s t) : t.digest = s.digest := by
  simp only [State.digest, w.settings]

theorem Within.perUnitOf {sc : Scope} {t : State} (w : Within sc s t) (n : Nat) (power : Int) :
    t.perUnitOf n power = s.perUnitOf n power := by
  simp only [State.perUnitOf, State.ratingOf, w.kindOf, w.entry_fixed]

theorem takesSummary_state {n : Nat} (h : s.takesSummary n p = true) : s.step.state ≠ .inStep := by
  intro inStep
  simp [State.takesSummary, State.inStep, inStep] at h

/-- The Section Records and lists a part 1 carries. -/
theorem adoptOne_tables (h : Header) (p : SummaryOne) (s : State) : (s.adoptOne h p).pic.delivery = p.delivery + 1 ∧
    (∀ x, ((s.adoptOne h p).sec x).holder = (p.tokens.get x).holder ∧
      ((s.adoptOne h p).sec x).grant = (p.tokens.get x).grant ∧
      ((s.adoptOne h p).sec x).queue = (p.tokens.get x).queue ∧ ((s.adoptOne h p).sec x).lastOrder = none ∧
      ((s.adoptOne h p).sec x).lastRelease = none) ∧
    (∀ i, ((s.adoptOne h p).island i).runList = [] ∧ ((s.adoptOne h p).island i).queue = [] ∧
      ((s.adoptOne h p).island i).admitted = []) := by
  have met (t : State) : ∃ step, t.meetEpoch p.epoch = { t with step := step } := by
    unfold State.meetEpoch
    split
    · exact ⟨t.step, rfl⟩
    · exact ⟨_, rfl⟩
  unfold State.adoptOne
  dsimp only
  obtain ⟨step, same⟩ := met _
  rw [same]
  refine ⟨rfl, fun x => ?_, fun i => ?_⟩
  · cases x <;> exact ⟨rfl, rfl, rfl, rfl, rfl⟩
  · cases i <;> exact ⟨rfl, rfl, rfl⟩

theorem meetEpoch_step (e : EpochId) (s : State) : ∃ highest,
    (s.meetEpoch e).step = { s.step with highest := highest } := by
  unfold State.meetEpoch
  split
  · exact ⟨s.step.highest, rfl⟩
  · exact ⟨_, rfl⟩

/-- The epoch and the pending adoption of a part 1, which leaves the station out of step. -/
theorem adoptOne_step (h : Header) (p : SummaryOne) (hs : s.step.state ≠ .inStep) :
    (s.adoptOne h p).step.epoch = some p.epoch ∧
    (s.adoptOne h p).step.pendingAdoption = some ⟨h.source, p.serial, p.epoch⟩ ∧
    (s.adoptOne h p).step.state ≠ .inStep := by
  have voided : (if s.step.pendingAdoption.isSome then s.voidAdoption else s).step.state ≠ .inStep := by
    split
    · exact fun inStep => hs ((voidAdoption_keepsStep s).inStep.mp inStep)
    · exact hs
  have entries : (s.adoptEntries h p).step.state ≠ .inStep := by
    have kept := (((Within.refl { table := true } (if s.step.pendingAdoption.isSome then s.voidAdoption else s)).adoptTable
      rfl p).onEntry rfl h.source (fun e => { e with presence := .live, lastSeq := some h.seq }) fun _ => rfl).step rfl
    rw [State.adoptEntries, kept]
    exact voided
  unfold State.adoptOne
  dsimp only
  obtain ⟨highest, step⟩ := meetEpoch_step p.epoch _
  rw [step]
  exact ⟨rfl, rfl, entries⟩

/-- A carried entry of a configured station, as it stands at the receiver (R2, R46, R116). -/
structure StationEntry.Carried (own : Word32) (perUnit : Int → Int) (c : SummaryEntry) (old e : StationEntry) : Prop where
  fixed : e.fixed = old.fixed
  stale : e.stale = c.stale
  silence : e.silence = 0
  content : e.content = c.content.map fun b => { b with digest := own, perUnit := perUnit b.realPower }

theorem adopt_carried {own : Word32} {perUnit : Int → Int} {c : SummaryEntry} {e : StationEntry} (hf : e.fixed.isSome = true) :
    StationEntry.Carried own perUnit c e (e.adopt own perUnit c) ∧ (e.adopt own perUnit c).presence = c.presence ∧
      (e.adopt own perUnit c).lastSeq = c.lastSeq ∧
      (c.presence = .dropped ∨ c.presence = .mismatched → (e.adopt own perUnit c).holds .closing = true →
        (e.adopt own perUnit c).lapse = .lapsed) := by
  unfold StationEntry.adopt
  rw [if_pos hf]
  refine ⟨⟨rfl, rfl, rfl, rfl⟩, rfl, rfl, fun gone closing => ?_⟩
  have holds : StationEntry.holds { e with
      presence := c.presence, lastSeq := c.lastSeq, stale := c.stale, silence := 0
      content := c.content.map fun b => { b with digest := own, perUnit := perUnit b.realPower } } .closing = true := closing
  unfold StationEntry.adoptedLapse
  dsimp only
  rw [holds, if_pos (by obtain gone | gone := gone <;> simp [gone])]

/-- The entries once a part 1 has been taken. -/
theorem adoptEntries_entry {k : Nat} {c : SummaryEntry} (hk : s.isConfigured (k + 1) = true) (hc : p.entries[k]? = some c) :
    StationEntry.Carried s.digest (s.perUnitOf (k + 1)) c (s.entry (k + 1)) ((s.adoptEntries h p).entry (k + 1)) ∧
      (k + 1 ≠ h.source → ((s.adoptEntries h p).entry (k + 1)).presence = c.presence ∧
        ((s.adoptEntries h p).entry (k + 1)).lastSeq = c.lastSeq ∧
        (c.presence = .dropped ∨ c.presence = .mismatched → ((s.adoptEntries h p).entry (k + 1)).holds .closing = true →
          ((s.adoptEntries h p).entry (k + 1)).lapse = .lapsed)) := by
  have voided := voidedFirst_within s
  unfold State.adoptEntries
  generalize (if s.step.pendingAdoption.isSome then s.voidAdoption else s) = v at voided
  have entry : (v.adoptTable p).entry (k + 1) = (s.entry (k + 1)).adopt s.digest (s.perUnitOf (k + 1)) c := by
    rw [adoptTable_entry, hc, voided.entry rfl rfl, voided.digest]
    exact congrArg (fun f => StationEntry.adopt s.digest f c (s.entry (k + 1))) (funext fun b => voided.perUnitOf (k + 1) b)
  obtain ⟨⟨fixed, stale, silence, content⟩, presence, seq, lapse⟩ :=
    adopt_carried (own := s.digest) (perUnit := s.perUnitOf (k + 1)) (c := c) (e := s.entry (k + 1)) hk
  by_cases source : k + 1 = h.source
  · have configured : (v.adoptTable p).isConfigured h.source = true := by
      rw [((Within.refl { table := true } v).adoptTable rfl p).isConfigured, voided.isConfigured, ← source, hk]
    refine ⟨?_, fun other => absurd source other⟩
    rw [source, onEntry_entry_self configured, ← source, entry]
    exact ⟨fixed, stale, silence, content⟩
  · rw [onEntry_entry_of_ne source, entry]
    exact ⟨⟨fixed, stale, silence, content⟩, fun _ => ⟨presence, seq, lapse⟩⟩

theorem adoptEntries_source (hk : s.isConfigured h.source = true) :
    ((s.adoptEntries h p).entry h.source).presence = .live ∧ ((s.adoptEntries h p).entry h.source).lastSeq = some h.seq := by
  have voided := voidedFirst_within s
  unfold State.adoptEntries
  generalize (if s.step.pendingAdoption.isSome then s.voidAdoption else s) = v at voided
  have configured : (v.adoptTable p).isConfigured h.source = true := by
    rw [((Within.refl { table := true } v).adoptTable rfl p).isConfigured, voided.isConfigured, hk]
  rw [onEntry_entry_self configured]
  exact ⟨rfl, rfl⟩

end

/-- Settles O49. -/
theorem partOneCarriesTheTables : Obligations.PartOneCarriesTheTables := by
  intro h p s hc hk taken
  generalize hv : s.sourceNoted .summary (SummaryOne.length p) h = v
  have takes : v.takesSummary h.source p = true := hv ▸ taken
  have noted : Within { delivery := true, table := true, step := true } s v := hv ▸ within_sourceNoted s .summary _ h
  have run := (FrameDelivery.partOne h s p).run hc
  rw [silenceEnded_of_ne (by simp), deliver_of_configured hk, hv, takes] at run
  generalize ht : State.finish s _ = t at run
  have after : Within { derived := true } (v.adoptOne h p) t := by
    have pictured := pictured_within .summary (SummaryOne.length p) h (State.partOnePicture h p) s
    rw [hv, show State.partOnePicture h p v = v.adoptOne h p from if_pos takes] at pictured
    rw [← ht]
    exact ((pictured.roleFlags s).settle.endDelivery).finish s
  obtain ⟨delivery, secs, isl⟩ := adoptOne_tables h p v
  obtain ⟨epoch, pending, state⟩ := adoptOne_step h p (takesSummary_state takes)
  have entry (n : Nat) : t.entry n = (v.adoptEntries h p).entry n :=
    (after.entry rfl rfl n).trans ((adoptOne_within h p v).entry rfl rfl n)
  refine ⟨t, run, (after.delivery rfl).trans delivery, ?_, ?_, ?_, fun x => ?_, fun i => ?_, fun k c configured carried => ?_, ?_⟩
  · rw [after.step rfl]; exact epoch
  · rw [after.step rfl]; exact pending
  · rw [after.step rfl]; exact state
  · obtain ⟨holder, grant, queue, order, release⟩ := SectionRecord.tokenPart_fields (after.secs rfl x)
    rw [holder, grant, queue, order, release]
    exact secs x
  · rw [State.island, after.isl rfl]
    exact isl i
  · obtain ⟨⟨fixed, stale, silence, content⟩, other⟩ :=
      adoptEntries_entry (s := v) (h := h) ((noted.isConfigured (k + 1)).trans configured) carried
    dsimp only
    rw [entry]
    refine ⟨fixed.trans (noted.entry_fixed (k + 1)), stale, silence, ?_, other⟩
    rw [content, noted.digest]
    simp only [noted.perUnitOf]
  · rw [entry]
    exact adoptEntries_source ((noted.isConfigured h.source).trans hk)

/-! ### A part 2 (R48, R49) -/

section
variable {s : State} {h : Header}

/-- Out of step a gap costs nothing: the noting leaves the step. -/
theorem sourceNoted_step (hs : s.step.state ≠ .inStep) (k : FrameKind) (len : Nat) (h : Header) :
    (s.sourceNoted k len h).step = s.step := by
  generalize hu : s.countDelivery.onEntry h.source (StationEntry.hear h.seq) = u
  have heard : u.step = s.step := by
    rw [← hu]
    unfold State.onEntry
    split <;> rfl
  have raised : (u.raise .linkGap (.frame k h len)).step = s.step :=
    (((Within.refl {} u).raise .linkGap (.frame k h len) (by simp)).step rfl).trans heard
  have out : (u.raise .linkGap (.frame k h len)).inStep = false := by
    simp [State.inStep, raised, hs]
  unfold State.sourceNoted State.noteSource
  rw [hu]
  dsimp only
  split
  · simpa [State.enterDesync, out] using raised
  · exact heard

theorem voidAdoption_of_outOfStep (hs : s.step.state ≠ .inStep) : s.voidAdoption.step.state = .desync ∧
    s.voidAdoption.step.pendingAdoption = none ∧ s.voidAdoption.step.voided = s.step.voided + 1 := by
  unfold State.voidAdoption
  dsimp only
  split
  next joining =>
    have lost : (State.loseStep (s.onStep fun t => { t with pendingAdoption := none, voided := t.voided + 1 })).step =
        { s.step with state := .desync, founding := 0, pendingAdoption := none, voided := s.step.voided + 1 } :=
      purgeOrdered_step ((s.onStep fun t => { t with pendingAdoption := none, voided := t.voided + 1 }).onStep fun t =>
        { t with state := .desync, founding := 0 })
    rw [lost]
    exact ⟨rfl, rfl, rfl⟩
  next other =>
    refine ⟨?_, rfl, rfl⟩
    cases state : s.step.state with
    | joining => simp [state] at other
    | desync => exact state
    | inStep => exact absurd state hs

/-- The lists of an island that the carried ones replace last. -/
theorem adoptLists_island (is : List SummaryIsland) : ∀ s : State, (is.map (·.name)).Nodup →
    (∀ i ∈ is, ((s.adoptLists is).island i.name).runList = i.runList ∧
      ((s.adoptLists is).island i.name).queue = i.queue ∧ ((s.adoptLists is).island i.name).admitted = i.admitted) ∧
    ∀ x, x ∉ is.map (·.name) → (s.adoptLists is).island x = s.island x := by
  induction is with
  | nil => exact fun s _ => ⟨by simp, fun _ _ => rfl⟩
  | cons i is ih =>
    intro s distinct
    obtain ⟨new, distinct⟩ := List.nodup_cons.mp (List.map_cons ▸ distinct)
    generalize hu : s.onIsland i.name (fun t => { t with
      runList := i.runList, queue := i.queue, admitted := i.admitted
      stood := (mergeBy admitBefore i.admitted (returnedEntries i.queue)).map (·.feeder) }) = u
    have rest : s.adoptLists (i :: is) = u.adoptLists is := by rw [← hu]; rfl
    obtain ⟨carried, others⟩ := ih u distinct
    rw [rest]
    refine ⟨fun j hj => ?_, fun x hx => ?_⟩
    · obtain rfl | later := List.mem_cons.mp hj
      · rw [others _ new, ← hu, State.island, State.onIsland]
        simp
      · exact carried j later
    · rw [List.map_cons, List.mem_cons, not_or] at hx
      rw [others x hx.2, ← hu]
      simp [State.island, State.onIsland, hx.1]

theorem adoptLists_eq (is : List SummaryIsland) : ∀ s : State, ∃ isl, s.adoptLists is = { s with isl := isl } := by
  induction is with
  | nil => exact fun s => ⟨s.isl, rfl⟩
  | cons i is ih =>
    intro s
    obtain ⟨isl, rest⟩ := ih (s.onIsland i.name fun t => { t with
      runList := i.runList, queue := i.queue, admitted := i.admitted
      stood := (mergeBy admitBefore i.admitted (returnedEntries i.queue)).map (·.feeder) })
    exact ⟨isl, rest⟩

/-- A completed adoption: IN_STEP, with the carried last orders and lists (R48). -/
theorem adoptTwo_parts (p : SummaryTwo) (s : State) : (s.adoptTwo p).step.state = .inStep ∧
    (s.adoptTwo p).step.pendingAdoption = none ∧ (s.adoptTwo p).step.completed = s.step.completed + 1 ∧
    (∀ x, ((s.adoptTwo p).sec x).lastOrder = p.lastOrders.get x) ∧
    ((p.islands.map (·.name)).Nodup → ∀ i ∈ p.islands, ((s.adoptTwo p).island i.name).runList = i.runList ∧
      ((s.adoptTwo p).island i.name).queue = i.queue ∧ ((s.adoptTwo p).island i.name).admitted = i.admitted) := by
  generalize hu : (s.onPic fun q => { q with
    secs := PerSection.make fun x => { q.secs.get x with lastOrder := p.lastOrders.get x } }) = u
  obtain ⟨isl, listed⟩ := adoptLists_eq p.islands u
  obtain ⟨token, news, inStep⟩ := becomeInStep_eq
    (((u.adoptLists p.islands).recomputeCapacity).onStep fun t => { t with completed := t.completed + 1 })
  have whole : s.adoptTwo p = State.becomeInStep
      (((u.adoptLists p.islands).recomputeCapacity).onStep fun t => { t with completed := t.completed + 1 }) := by
    rw [← hu]
    rfl
  have order (x : BusSection) : (u.sec x).lastOrder = p.lastOrders.get x := by
    rw [← hu]
    cases x <;> rfl
  have step : (u.adoptLists p.islands).step = s.step := by
    rw [listed, ← hu]
    rfl
  have sec (x : BusSection) : (u.adoptLists p.islands).sec x = u.sec x := by
    rw [listed]
    rfl
  rw [whole, inStep]
  refine ⟨rfl, rfl, congrArg (fun r : StepRecord => r.completed + 1) step, fun x => ?_, fun distinct i hi => ?_⟩
  · exact (congrArg SectionRecord.lastOrder (sec x)).trans (order x)
  · obtain ⟨runList, queue, admitted⟩ := (adoptLists_island p.islands u distinct).1 i hi
    have read (x : BusSection) : (((u.adoptLists p.islands).recomputeCapacity).island x) =
        { (u.adoptLists p.islands).island x with capacity := (u.adoptLists p.islands).capacityNow x } := by
      cases x <;> rfl
    refine ⟨?_, ?_, ?_⟩
    · exact (congrArg IslandTables.runList (read i.name)).trans runList
    · exact (congrArg IslandTables.queue (read i.name)).trans queue
    · exact (congrArg IslandTables.admitted (read i.name)).trans admitted

theorem completesAdoption_iff {p : SummaryTwo} {a : Adoption} (ha : s.step.pendingAdoption = some a) (n : Nat) :
    s.completesAdoption n p = true ↔ a = ⟨n, p.serial, p.epoch⟩ ∧ p.delivery + 1 = s.pic.delivery := by
  obtain ⟨source, serial, epoch⟩ := a
  simp [State.completesAdoption, ha, and_assoc]

end

/-- Settles O50. -/
theorem partTwoCompletesTheAdoption : Obligations.PartTwoCompletesTheAdoption := by
  intro h p a s hc hk ha hs
  have run := (FrameDelivery.partTwo h s p).run hc
  rw [silenceEnded_of_ne (by simp), deliver_of_configured hk] at run
  generalize hu : s.pictured .summary (SummaryTwo.length p) h (State.meetEpoch p.epoch) = u at run
  generalize hw : State.handOn HandOn.quiet s u = w
  have pictured : Within { derived := true } ((s.sourceNoted .summary (SummaryTwo.length p) h).meetEpoch p.epoch) u :=
    hu ▸ pictured_within .summary (SummaryTwo.length p) h (State.meetEpoch p.epoch) s
  have handed : Within ownerScope u w := hw ▸ handOnQuiet_within s u
  obtain ⟨highest, met⟩ := meetEpoch_step p.epoch (s.sourceNoted .summary (SummaryTwo.length p) h)
  have step : w.step = { s.step with highest := highest } := by
    rw [handed.step rfl, pictured.step rfl, met, sourceNoted_step hs]
  have delivery : w.pic.delivery = s.pic.delivery + 1 := by
    rw [handed.delivery rfl, pictured.delivery rfl,
      ((Within.refl { step := true } (s.sourceNoted .summary (SummaryTwo.length p) h)).meetEpoch rfl p.epoch).delivery rfl,
      sourceNoted_delivery]
  have pending : w.step.pendingAdoption = some a := by rw [step]; exact ha
  have out : w.step.state ≠ .inStep := by rw [step]; exact hs
  have work : State.partTwoWork h p s u =
      if w.completesAdoption h.source p then State.adoptedOrder w (w.adoptTwo p) else w.voidAdoption := by
    unfold State.partTwoWork
    rw [hw]
    exact if_pos (by simp [pending, State.inStep, out])
  have completes : w.completesAdoption h.source p = true ↔
      a = ⟨h.source, p.serial, p.epoch⟩ ∧ p.delivery = s.pic.delivery := by
    rw [completesAdoption_iff pending, delivery, add_left_inj]
  rw [work] at run
  refine ⟨_, run, ?_⟩
  by_cases match_ : a = ⟨h.source, p.serial, p.epoch⟩ ∧ p.delivery = s.pic.delivery
  · rw [if_pos (completes.mpr match_)]
    have after : Within {} (w.adoptTwo p) (State.finish s (State.adoptedOrder w (w.adoptTwo p)).settle.endDelivery) :=
      ((((Within.refl {} (w.adoptTwo p)).adoptedOrder w).settle).endDelivery).finish s
    obtain ⟨inStep, none, completed, orders, lists⟩ := adoptTwo_parts p w
    have number : w.step.completed = s.step.completed := by rw [step]
    refine ⟨by rw [after.step rfl]; exact none, fun _ _ => ⟨?_, ?_, fun x => ?_, fun distinct i hi => ?_⟩,
      fun other => absurd match_ (not_and_or.mpr other)⟩
    · rw [after.step rfl]; exact inStep
    · rw [after.step rfl, completed, number]
    · obtain ⟨-, -, -, order, -⟩ := SectionRecord.tokenPart_fields (after.secs rfl x)
      exact order.trans (orders x)
    · rw [State.island, after.isl rfl]
      exact lists distinct i hi
  · rw [if_neg fun complete => match_ (completes.mp complete)]
    have after : Within {} w.voidAdoption (State.finish s w.voidAdoption.settle.endDelivery) :=
      (((Within.refl {} w.voidAdoption).settle).endDelivery).finish s
    obtain ⟨desync, none, voided⟩ := voidAdoption_of_outOfStep out
    have number : w.step.voided = s.step.voided := by rw [step]
    rw [after.step rfl]
    exact ⟨none, fun ha hd => absurd ⟨ha, hd⟩ match_, fun _ => ⟨desync, voided.trans (by rw [number])⟩⟩

end Sys2Proof.Machine
end

