-- ==== Sys2Proof/Proofs/IslandLists.lean ====
section
/-!
SUPPORT. The lists of an island as the operations on them move its entries: what the shed and admission steps keep of an island's
tables, what they end with, and what merge, split and returns leave of a station (R153 to R158).
-/

namespace Sys2Proof

section
variable {α : Type}

theorem mem_insertBefore {p : α → Bool} {v a : α} {l : List α} : a ∈ insertBefore p v l ↔ a = v ∨ a ∈ l := by
  induction l with
  | nil => simp [insertBefore]
  | cons x xs ih =>
    unfold insertBefore
    split
    · simp
    · simp only [List.mem_cons, ih]
      exact or_left_comm

theorem mem_mergeBy {lt : α → α → Bool} {a : α} {xs ys : List α} : a ∈ mergeBy lt xs ys ↔ a ∈ xs ∨ a ∈ ys := by
  unfold mergeBy
  induction ys generalizing xs with
  | nil => simp
  | cons y ys ih =>
    simp only [List.foldl_cons, ih, mem_insertBefore, List.mem_cons]
    exact or_assoc.trans or_left_comm

end

namespace Machine

/-! ### One island's tables after each move -/

/-- The tables of an island that has taken an admitted entry back into its queue, before the first entry that meets `p`. -/
def IslandTables.takeBack (p : WaitEntry → Bool) (d : Word32) (e : AdmitEntry) (t : IslandTables) : IslandTables :=
  { t with
    admitted := t.admitted.filter fun a => !(a.feeder == e.feeder)
    queue := insertBefore p ⟨e.feeder, d, some e.admission⟩ t.queue }

/-- The tables of an island that has taken the head of its queue onto its Admitted List. -/
def IslandTables.takeUp (d : Word32) (n : Nat) (rest : List WaitEntry) (t : IslandTables) : IslandTables :=
  { t with queue := rest, admitted := t.admitted ++ [⟨n, d⟩], stood := standLast n t.stood }

section
variable (s : State)

theorem onIsland_island (i j : BusSection) (f : IslandTables → IslandTables) :
    (s.onIsland i f).island j = if j = i then f (s.island i) else s.island j := by
  unfold State.onIsland State.island
  split
  next same => rw [same]; exact PerSection.get_set_self ..
  next other => exact PerSection.get_set_of_ne _ _ other

theorem Within.island {sc : Scope} {s t : State} (h : Within sc s t) (hi : sc.isl = false) (j : BusSection) :
    t.island j = s.island j := congrArg (fun u : PerSection IslandTables => u.get j) (h.isl hi)

theorem moveFeeder_within (i : BusSection) (n : Nat) (f : IslandTables → IslandTables) :
    Within {} (s.onIsland i f) (s.moveFeeder i n f) := by
  unfold State.moveFeeder
  split
  · exact (Within.refl {} (s.onIsland i f)).tracking
  · exact .refl _ _

theorem returnEntry_island (i j : BusSection) (e : AdmitEntry) : ∃ p, (s.returnEntry i e).island j =
    if j = i then (s.island i).takeBack p s.pic.delivery e else s.island j :=
  ⟨_, ((moveFeeder_within s i e.feeder _).island rfl j).trans (onIsland_island s i j _)⟩

theorem appendAdmitted_island (i j : BusSection) (n : Nat) : (s.appendAdmitted i n).island j =
    if j = i then (s.island i).takeUp s.pic.delivery n (s.island i).queue else s.island j :=
  (((Within.refl {} _).feederAdmitted n).island rfl j).trans
    (((moveFeeder_within s i n _).island rfl j).trans (onIsland_island s i j _))

/-! ### The shed and admission steps (R158) -/

/-- One shed of the last admitted entry. -/
def State.shedOne (i : BusSection) (e : AdmitEntry) (s : State) : State := (s.returnEntry i e).feederShed e.feeder

/-- One admission of the head of a queue. -/
def State.admitOne (i : BusSection) (n : Nat) (rest : List WaitEntry) (s : State) : State :=
  (s.onIsland i fun t => { t with queue := rest }).appendAdmitted i n

theorem shedOne_within (i : BusSection) (e : AdmitEntry) : Within { isl := true } s (s.shedOne i e) :=
  ((Within.refl _ s).returnEntry rfl i e).feederShed e.feeder

theorem admitOne_within (i : BusSection) (n : Nat) (rest : List WaitEntry) : Within { isl := true } s (s.admitOne i n rest) :=
  ((Within.refl _ s).onIsland rfl i _).appendAdmitted rfl i n

theorem shedOne_island (i j : BusSection) (e : AdmitEntry) : ∃ p, (s.shedOne i e).island j =
    if j = i then (s.island i).takeBack p s.pic.delivery e else s.island j := by
  obtain ⟨p, h⟩ := returnEntry_island s i j e
  exact ⟨p, (((Within.refl {} _).feederShed e.feeder).island rfl j).trans h⟩

theorem admitOne_island (i j : BusSection) (n : Nat) (rest : List WaitEntry) : (s.admitOne i n rest).island j =
    if j = i then (s.island i).takeUp s.pic.delivery n rest else s.island j := by
  unfold State.admitOne
  rw [appendAdmitted_island]
  split
  · rw [onIsland_island, if_pos rfl]
    rfl
  next other => rw [onIsland_island, if_neg other]

end

section
variable {p : State → Prop} {i : BusSection}

/-- What every shed keeps, the shed step keeps. -/
theorem shedStep_induction (hp : ∀ s e, p s → (s.island i).admitted.getLast? = some e → p (s.shedOne i e)) :
    ∀ k s, p s → p (State.shedStep i k s)
  | 0, _, h => h
  | k + 1, s, h => by
    unfold State.shedStep
    split
    · split
      next e last => exact shedStep_induction hp k _ (hp s e h last)
      next => exact h
    · exact h

/-- What every admission keeps, the admission step keeps. -/
theorem admitStep_induction (hp : ∀ s e rest, p s → (s.island i).queue = e :: rest →
      (s.ratingOf e.feeder : Int) ≤ s.account i → p (s.admitOne i e.feeder rest)) :
    ∀ k s, p s → p (State.admitStep i k s)
  | 0, _, h => h
  | k + 1, s, h => by
    unfold State.admitStep
    split
    next e rest head =>
      split
      next fits =>
        have room : (s.ratingOf e.feeder : Int) ≤ s.account i := of_decide_eq_true ((Bool.and_eq_true ..).mp fits).2
        exact admitStep_induction hp k _ (hp s e rest h head room)
      next => exact h
    next => exact h

/-- In a dead island the admission step admits nothing. -/
theorem admitStep_of_dead {s : State} (h : s.islandLive i = false) (k : Nat) : State.admitStep i k s = s := by
  cases k with
  | zero => rfl
  | succ k =>
    unfold State.admitStep
    split
    · rw [if_neg (by simp [h])]
    · rfl

/-- What sheds keep of an island's tables, the shed step keeps. -/
theorem shedStep_island {q : IslandTables → Prop} {d : Word32}
    (hq : ∀ t b e, q t → e ∈ t.admitted → q (t.takeBack b d e)) (k : Nat) {s : State} (hd : s.pic.delivery = d)
    (h : q (s.island i)) : q ((State.shedStep i k s).island i) := by
  refine (shedStep_induction (p := fun t => t.pic.delivery = d ∧ q (t.island i)) (fun t e ⟨hd, h⟩ last => ?_) k s ⟨hd, h⟩).2
  obtain ⟨b, tables⟩ := shedOne_island t i i e
  rw [tables, if_pos rfl, hd]
  exact ⟨((shedOne_within t i e).delivery rfl).trans hd, hq _ b e h (List.mem_of_getLast? last)⟩

/-- What admissions keep of an island's tables, the admission step keeps. -/
theorem admitStep_island {q : IslandTables → Prop} {d : Word32}
    (hq : ∀ t e rest, q t → t.queue = e :: rest → q (t.takeUp d e.feeder rest)) (k : Nat) {s : State}
    (hd : s.pic.delivery = d) (h : q (s.island i)) : q ((State.admitStep i k s).island i) := by
  refine (admitStep_induction (p := fun t => t.pic.delivery = d ∧ q (t.island i)) (fun t e rest ⟨hd, h⟩ head _ => ?_) k s
    ⟨hd, h⟩).2
  rw [admitOne_island, if_pos rfl, hd]
  exact ⟨((admitOne_within t i e.feeder rest).delivery rfl).trans hd, hq _ e rest h head⟩

theorem shedThenAdmit_within (s : State) (i : BusSection) : Within { isl := true } s (s.shedThenAdmit i) :=
  (Within.refl _ s).shedThenAdmit rfl i

/-- Shed, then admission, touches no other island. -/
theorem shedThenAdmit_island_of_ne {j : BusSection} (hj : j ≠ i) (s : State) : (s.shedThenAdmit i).island j = s.island j := by
  refine admitStep_induction (p := fun t => t.island j = s.island j) (fun t e rest h _ _ => ?_) _ _
    (shedStep_induction (p := fun t => t.island j = s.island j) (fun t e h _ => ?_) _ s rfl)
  · rw [admitOne_island, if_neg hj, h]
  · obtain ⟨b, tables⟩ := shedOne_island t i j e
    rw [tables, if_neg hj, h]

/-- The tables of one island after the chain of sheds and admissions: as they stood, or after its own one. -/
theorem shedThenAdmits_island (j : BusSection) : ∀ (l : List BusSection) (s : State), l.Nodup → ∃ w,
    Within { isl := true } s w ∧ w.island j = s.island j ∧
      (l.foldl State.shedThenAdmit s).island j = (if j ∈ l then w.shedThenAdmit j else w).island j
  | [], s, _ => ⟨s, .refl _ s, rfl, rfl⟩
  | x :: xs, s, h => by
    obtain ⟨fresh, rest⟩ := List.nodup_cons.mp h
    obtain ⟨w, within, same, after⟩ := shedThenAdmits_island j xs (s.shedThenAdmit x) rest
    by_cases hx : j = x
    · subst hx
      rw [if_neg fresh] at after
      exact ⟨s, .refl _ s, rfl, by rw [List.foldl_cons, after, same, if_pos (List.mem_cons_self ..)]⟩
    · have kept : w.island j = s.island j := same.trans (shedThenAdmit_island_of_ne hx s)
      refine ⟨w, (shedThenAdmit_within s x).trans within, kept, ?_⟩
      rw [List.foldl_cons, after]
      simp [hx]

end

/-! ### The account (R152, R158) -/

section
variable {s t : State} {i : BusSection} {sc : Scope}

theorem Within.ratingOf (h : Within sc s t) (n : Nat) : t.ratingOf n = s.ratingOf n := by
  unfold State.ratingOf
  rw [h.entry_fixed]

/-- The account an island's tables make with the ratings and the reserve of a state. -/
def IslandTables.accountIn (s : State) (t : IslandTables) : Int :=
  ((t.capacity * (100 - s.campus.reserve) / 100 : Nat) : Int) -
    ((t.admitted.foldl (fun acc e => acc + s.ratingOf e.feeder) 0 : Nat) : Int)

theorem account_eq (s : State) (i : BusSection) : s.account i = (s.island i).accountIn s := rfl

theorem Within.accountIn (h : Within sc s t) (u : IslandTables) : u.accountIn t = u.accountIn s := by
  have rating : t.ratingOf = s.ratingOf := funext h.ratingOf
  have campus : t.campus = s.campus := by simp only [State.campus, h.settings]
  unfold IslandTables.accountIn
  rw [rating, campus]

theorem Within.account (h : Within sc s t) (hi : sc.isl = false) (i : BusSection) : t.account i = s.account i := by
  rw [account_eq, account_eq, h.accountIn, h.island hi]

theorem account_nonneg_of_empty (h : (s.island i).admitted = []) : 0 ≤ s.account i := by
  rw [account_eq, IslandTables.accountIn, h]
  exact Int.sub_nonneg_of_le (Int.natCast_nonneg _)

theorem admitOne_account (s : State) (i : BusSection) (n : Nat) (rest : List WaitEntry) :
    (s.admitOne i n rest).account i = s.account i - s.ratingOf n := by
  rw [account_eq, (admitOne_within s i n rest).accountIn, admitOne_island, if_pos rfl, account_eq]
  simp only [IslandTables.accountIn, IslandTables.takeUp, List.foldl_append, List.foldl_cons, List.foldl_nil]
  omega

/-- After the shed step the account is not below 0. -/
theorem shedStep_account : ∀ (k : Nat) (s : State), (s.island i).admitted.length ≤ k → 0 ≤ (State.shedStep i k s).account i
  | 0, _, h => account_nonneg_of_empty (List.eq_nil_of_length_eq_zero (Nat.le_zero.mp h))
  | k + 1, s, h => by
    unfold State.shedStep
    split
    next below =>
      split
      next e last =>
        refine shedStep_account k (s.shedOne i e) ?_
        obtain ⟨b, tables⟩ := shedOne_island s i i e
        have fewer : ((s.island i).admitted.filter fun a => !(a.feeder == e.feeder)).length < (s.island i).admitted.length :=
          List.length_filter_lt_length_iff_exists.mpr ⟨e, List.mem_of_getLast? last, by simp⟩
        rw [tables, if_pos rfl]
        exact Nat.le_of_lt_succ (Nat.lt_of_lt_of_le fewer h)
      next none => exact account_nonneg_of_empty (List.getLast?_eq_none_iff.mp none)
    next fits => exact not_lt.mp fits

/-- The admission step keeps the account from falling below 0. -/
theorem admitStep_account (k : Nat) (h : 0 ≤ s.account i) : 0 ≤ (State.admitStep i k s).account i :=
  admitStep_induction (p := fun t => 0 ≤ t.account i) (fun t e rest _ _ fits => by
    rw [admitOne_account]
    exact Int.sub_nonneg_of_le fits) k s h

theorem Within.islandLive (h : Within sc s t) (hd : sc.derived = false) (i : BusSection) : t.islandLive i = s.islandLive i := by
  unfold State.islandLive State.islandOf
  have same (x : BusSection) : (t.sec x).island = (s.sec x).island ∧ (t.sec x).live = (s.sec x).live :=
    ⟨(congrArg SectionRecord.island (h.derived hd x) :), (congrArg SectionRecord.live (h.derived hd x) :)⟩
  simp only [fun x => (same x).1, fun x => (same x).2]

/-- After the admission step the head of a live island's queue does not fit the account. -/
theorem admitStep_head : ∀ (k : Nat) (s : State), (s.island i).queue.length ≤ k → s.islandLive i = true → ∀ w rest,
    ((State.admitStep i k s).island i).queue = w :: rest →
    (State.admitStep i k s).account i < (State.admitStep i k s).ratingOf w.feeder
  | 0, s, h, _, w, rest, head => by
    have none : (s.island i).queue = [] := List.eq_nil_of_length_eq_zero (Nat.le_zero.mp h)
    exact absurd (none.symm.trans head) (by simp)
  | k + 1, s, h, live, w, rest, head => by
    unfold State.admitStep at head ⊢
    split at head
    next e tail queue =>
      split at head
      next fits =>
        simp only [fits, if_true]
        refine admitStep_head k (s.admitOne i e.feeder tail) ?_ ?_ w rest head
        · rw [admitOne_island, if_pos rfl]
          rw [queue] at h
          exact Nat.le_of_succ_le_succ h
        · rwa [(admitOne_within s i e.feeder tail).islandLive rfl]
      next full =>
        rw [queue] at head
        injection head with first
        subst first
        rw [if_neg full]
        simpa [live] using full
    next none => exact absurd (none.symm.trans head) (by simp)

end

/-! ### A station that stands in no list (R155) -/

/-- A station stands on no Admitted List of the tables. -/
def IslandTables.Unadmitted (n : Nat) (t : IslandTables) : Prop := ∀ e ∈ t.admitted, e.feeder ≠ n

/-- A station stands in no Admission Queue and on no Admitted List of the tables. -/
def IslandTables.Unlisted (n : Nat) (t : IslandTables) : Prop := (∀ e ∈ t.queue, e.feeder ≠ n) ∧ t.Unadmitted n

section
variable {t : IslandTables} {n : Nat} {d : Word32}

theorem IslandTables.Unadmitted.takeBack (h : t.Unadmitted n) (b : WaitEntry → Bool) (e : AdmitEntry) :
    (t.takeBack b d e).Unadmitted n := fun a ha => h a (List.mem_of_mem_filter ha)

theorem IslandTables.Unlisted.takeBack {e : AdmitEntry} (h : t.Unlisted n) (b : WaitEntry → Bool) (he : e.feeder ≠ n) :
    (t.takeBack b d e).Unlisted n := by
  refine ⟨fun w hw => ?_, h.2.takeBack b e⟩
  obtain rfl | old := mem_insertBefore.mp hw
  · exact he
  · exact h.1 w old

theorem IslandTables.Unlisted.takeUp {e : WaitEntry} {rest : List WaitEntry} (h : t.Unlisted n) (he : t.queue = e :: rest) :
    (t.takeUp d e.feeder rest).Unlisted n := by
  have queue : ∀ w ∈ e :: rest, w.feeder ≠ n := he ▸ h.1
  refine ⟨fun w hw => queue w (List.mem_cons_of_mem _ hw), fun a ha => ?_⟩
  obtain old | rfl := List.mem_append.mp ha |>.imp_right List.mem_singleton.mp
  · exact h.2 a old
  · exact queue e (List.mem_cons_self ..)

end

section
variable {s t : State} {n : Nat}

theorem admissionOf_eq_out_iff : s.admissionOf n = .out ↔ ∀ i, (s.island i).Unlisted n := by
  unfold State.admissionOf
  split
  next admitted =>
    simp only [List.any_eq_true, beq_iff_eq] at admitted
    obtain ⟨i, -, e, he, rfl⟩ := admitted
    simp only [reduceCtorEq, false_iff, not_forall]
    exact ⟨i, fun free => free.2 e he rfl⟩
  next unadmitted =>
    simp only [List.any_eq_true, beq_iff_eq, not_exists, not_and] at unadmitted
    split
    next waiting =>
      simp only [List.any_eq_true, beq_iff_eq] at waiting
      obtain ⟨i, -, e, he, rfl⟩ := waiting
      simp only [reduceCtorEq, false_iff, not_forall]
      exact ⟨i, fun free => free.1 e he rfl⟩
    next unqueued =>
      simp only [List.any_eq_true, beq_iff_eq, not_exists, not_and] at unqueued
      exact iff_of_true rfl fun i => ⟨unqueued i (BusSection.mem_all i), unadmitted i (BusSection.mem_all i)⟩

/-! ### Returns, merge and split (R143, R156, R157) -/

/-- What taking an admitted entry back keeps of each island's tables, the return of a section keeps. -/
theorem returnSection_island {q : IslandTables → Prop} (before : State) (x : BusSection) {keep : AdmitEntry → Prop}
    (hk : ∀ t e, q t → e ∈ t.admitted → keep e) (hq : ∀ t b d e, q t → keep e → q (t.takeBack b d e))
    (h : ∀ i, q (s.island i)) (i : BusSection) : q ((State.returnSection before s x).island i) := by
  unfold State.returnSection
  split
  next j _ =>
    have entries : ∀ e ∈ (s.island j).admitted.filter fun e => s.secOf e.feeder == some x, keep e :=
      fun e he => hk _ e (h j) (List.mem_of_mem_filter he)
    generalize ((s.island j).admitted.filter fun e => s.secOf e.feeder == some x) = l at entries
    clear hk
    induction l generalizing s with
    | nil => exact h i
    | cons e es ih =>
      refine ih (fun k => ?_) fun a ha => entries a (List.mem_cons_of_mem _ ha)
      obtain ⟨b, tables⟩ := returnEntry_island s j k e
      rw [((Within.refl {} _).feederLeft e.feeder).island rfl k, tables]
      split
      · exact hq _ b _ e (h j) (entries e (List.mem_cons_self ..))
      · exact h k
  next => exact h i

theorem returnSection_unadmitted (before : State) (x : BusSection) (h : ∀ i, (s.island i).Unadmitted n) (i : BusSection) :
    ((State.returnSection before s x).island i).Unadmitted n :=
  returnSection_island before x (keep := fun _ => True) (fun _ _ _ _ => trivial) (fun _ b _ e k _ => k.takeBack b e) h i

theorem returnSection_unlisted (before : State) (x : BusSection) (h : ∀ i, (s.island i).Unlisted n) (i : BusSection) :
    ((State.returnSection before s x).island i).Unlisted n :=
  returnSection_island before x (keep := fun e => e.feeder ≠ n) (fun _ e k he => k.2 e he) (fun _ b _ _ k he => k.takeBack b he)
    h i

/-- The entries of a regrouped island's lists come from the lists as they stood. -/
theorem regrouped_mem (s : State) (i : BusSection) : (∀ e ∈ (s.regrouped i).queue, ∃ j, e ∈ (s.island j).queue) ∧
    ∀ e ∈ (s.regrouped i).admitted, ∃ j, e ∈ (s.island j).admitted := by
  unfold State.regrouped
  dsimp only
  refine List.foldlRecOn BusSection.all _ (motive := fun t : IslandTables => (∀ e ∈ t.queue, ∃ j, e ∈ (s.island j).queue) ∧
    ∀ e ∈ t.admitted, ∃ j, e ∈ (s.island j).admitted) ⟨fun _ h => (nomatch h), fun _ h => (nomatch h)⟩ fun t ⟨hw, ha⟩ j _ => ?_
  refine ⟨fun e he => ?_, fun e he => ?_⟩
  · obtain old | moved := mem_mergeBy.mp he
    · exact hw e old
    · exact ⟨j, List.mem_of_mem_filter moved⟩
  · obtain old | moved := mem_mergeBy.mp he
    · exact ha e old
    · exact ⟨j, List.mem_of_mem_filter moved⟩

/-- An island's lists after merge and split: as they stood, or regrouped. -/
theorem regroup_lists (before s : State) (i : BusSection) :
    (((State.regroup before s).island i).queue = (s.island i).queue ∧
      ((State.regroup before s).island i).admitted = (s.island i).admitted) ∨
    (((State.regroup before s).island i).queue = (s.regrouped i).queue ∧
      ((State.regroup before s).island i).admitted = (s.regrouped i).admitted) := by
  unfold State.regroup
  split
  · refine .inr ?_
    rw [State.island, onIsl_isl, PerSection.get_make]
    exact ⟨rfl, rfl⟩
  · exact .inl ⟨rfl, rfl⟩

theorem regroup_unadmitted (before : State) (h : ∀ i, (s.island i).Unadmitted n) (i : BusSection) :
    ((State.regroup before s).island i).Unadmitted n := by
  intro e he
  obtain ⟨-, same⟩ | ⟨-, grouped⟩ := regroup_lists before s i
  · exact h i e (same ▸ he)
  · obtain ⟨j, old⟩ := (regrouped_mem s i).2 e (grouped ▸ he)
    exact h j e old

theorem regroup_unlisted (before : State) (h : ∀ i, (s.island i).Unlisted n) (i : BusSection) :
    ((State.regroup before s).island i).Unlisted n := by
  refine ⟨fun e he => ?_, regroup_unadmitted before (fun j => (h j).2) i⟩
  obtain ⟨same, -⟩ | ⟨grouped, -⟩ := regroup_lists before s i
  · exact (h i).1 e (same ▸ he)
  · obtain ⟨j, old⟩ := (regrouped_mem s i).1 e (grouped ▸ he)
    exact (h j).1 e old

theorem recomputeCapacity_lists (s : State) (i : BusSection) : (s.recomputeCapacity.island i).queue = (s.island i).queue ∧
    (s.recomputeCapacity.island i).admitted = (s.island i).admitted := by
  rw [State.island, State.recomputeCapacity, onIsl_isl, PerSection.get_make]
  exact ⟨rfl, rfl⟩

/-! ### The lists as a frame's own effect finds them -/

/-- The tables once the returns of sections turned dead, merge or split and the capacity are done (R1, log 11). -/
def State.listsReady (before : State) (capacityDue : Bool) (s : State) : State :=
  let s1 := (BusSection.all.filter fun x => (before.sec x).live && !(s.sec x).live).foldl (State.returnSection before) s
  let s2 := State.regroup before s1
  if capacityDue || State.partitionChanged before s then s2.recomputeCapacity else s2

theorem listWork_eq (before : State) (due : Bool) (own : State → State) (hs : s.step.pendingAdoption = none) :
    State.listWork before due own s = State.shedAll before (own (State.listsReady before due s)) := by
  unfold State.listWork
  rw [hs]
  rfl

theorem listsReady_within (before : State) (due : Bool) (s : State) : Within { isl := true } s (State.listsReady before due s) := by
  have returned := Within.regroup (sc := { isl := true }) rfl (Within.foldl _ (fun _ x v => Within.returnSection rfl v before x)
    (BusSection.all.filter fun x => (before.sec x).live && !(s.sec x).live) s (.refl _ s)) before
  unfold State.listsReady
  dsimp only
  split
  · exact returned.recomputeCapacity rfl
  · exact returned

/-- What returns, merge, split and capacity keep of every island's tables. -/
theorem listsReady_island {q : IslandTables → Prop} (before : State) (due : Bool)
    (returns : ∀ t x, (∀ i, q (State.island t i)) → ∀ i, q ((State.returnSection before t x).island i))
    (regroups : ∀ t, (∀ i, q (State.island t i)) → ∀ i, q ((State.regroup before t).island i))
    (lists : ∀ t u, t.queue = u.queue → t.admitted = u.admitted → q u → q t)
    (h : ∀ i, q (s.island i)) (i : BusSection) : q ((State.listsReady before due s).island i) := by
  have returned : ∀ i, q (((BusSection.all.filter fun x => (before.sec x).live && !(s.sec x).live).foldl
      (State.returnSection before) s).island i) :=
    List.foldlRecOn _ _ (motive := fun t => ∀ i, q (State.island t i)) h fun t k x _ => returns t x k
  unfold State.listsReady
  dsimp only
  split
  · obtain ⟨queue, admitted⟩ := recomputeCapacity_lists (State.regroup before ((BusSection.all.filter fun x =>
      (before.sec x).live && !(s.sec x).live).foldl (State.returnSection before) s)) i
    exact lists _ _ queue admitted (regroups _ returned i)
  · exact regroups _ returned i

theorem listsReady_unadmitted (before : State) (due : Bool) (h : ∀ i, (s.island i).Unadmitted n) (i : BusSection) :
    ((State.listsReady before due s).island i).Unadmitted n :=
  listsReady_island before due (fun _ x k => returnSection_unadmitted before x k) (fun _ k => regroup_unadmitted before k)
    (fun _ _ _ ha k e he => k e (ha ▸ he)) h i

theorem listsReady_unlisted (before : State) (due : Bool) (h : ∀ i, (s.island i).Unlisted n) (i : BusSection) :
    ((State.listsReady before due s).island i).Unlisted n :=
  listsReady_island before due (fun _ x k => returnSection_unlisted before x k) (fun _ k => regroup_unlisted before k)
    (fun _ _ hw ha k => ⟨fun e he => k.1 e (hw ▸ he), fun e he => k.2 e (ha ▸ he)⟩) h i

/-! ### Shed, then admission, on every island the delivery has touched (R158) -/

/-- One island's tables after the shed and admission steps: its own ones, where the delivery has touched it, from tables that stand
as they did. -/
theorem shedAll_island (before s : State) (i : BusSection) : ∃ w, Within { isl := true } s w ∧ w.island i = s.island i ∧
    (State.shedAll before s).island i =
      (if i ∈ s.islandNames ∧ State.islandTouched before s i = true then w.shedThenAdmit i else w).island i := by
  have names : (s.islandNames.filter fun i => State.islandTouched before s i).Nodup :=
    List.Nodup.filter _ (List.Nodup.filter _ (by decide))
  obtain ⟨w, within, same, after⟩ := shedThenAdmits_island i _ s names
  refine ⟨w, within, same, after.trans ?_⟩
  simp only [List.mem_filter]

theorem shedAll_unlisted (before : State) {i : BusSection} (h : (s.island i).Unlisted n) :
    ((State.shedAll before s).island i).Unlisted n := by
  obtain ⟨w, -, same, after⟩ := shedAll_island before s i
  rw [after]
  rw [← same] at h
  split
  · have shed := shedStep_island (q := IslandTables.Unlisted n) (fun t b e k he => k.takeBack b (k.2 e he))
      (w.island i).admitted.length rfl h
    exact admitStep_island (q := IslandTables.Unlisted n) (fun t e rest k head => k.takeUp head) _ rfl shed
  · exact h

theorem leaveWaiting_island (s : State) (n : Nat) (i : BusSection) : (s.leaveWaiting n).island i =
    { s.island i with queue := (s.island i).queue.filter fun e => !(e.feeder == n) } := by
  rw [State.island, State.leaveWaiting, onIsl_isl, PerSection.get_make]
  rfl

theorem leaveWaiting_unlisted (h : ∀ i, (s.island i).Unadmitted n) (i : BusSection) :
    ((s.leaveWaiting n).island i).Unlisted n := by
  rw [leaveWaiting_island]
  refine ⟨fun e he => ?_, h i⟩
  have kept : (!(e.feeder == n)) = true := (List.mem_filter.mp he).2
  simpa using kept

end

end Machine
end Sys2Proof
end

