-- ==== Sys2Proof/Proofs/Drops.lean ====
section
/-!
SUPPORT. The delivery of a DROP: the entry it names, and the tokens, queue places, block, intertrip and waiting place of the
station it takes out (R5, R34, R52, R102, R128, R155).
-/

namespace Sys2Proof.Machine

/-! ### What a departed station leaves (R102, R128, R155) -/

section
variable {s t : State} {n : Nat}

/-- A station holds no section and waits for none. -/
def State.Tokenless (n : Nat) (s : State) : Prop := ∀ y, (s.sec y).holder ≠ n ∧ (s.sec y).queues n = false

theorem tokenless_freeStation (hn : n ≠ 0) (s : State) : (s.freeStation n).Tokenless n := fun y => by
  refine ⟨(lessened_leaveQueues n _).not_holder hn ?_, queues_leaveQueues n _ y⟩
  have held : (s.tokensOf n).get y = (!(n == 0) && (s.sec y).holder == n) := PerSection.get_make ..
  rw [freeTokens_sec, held]
  split
  next => exact hn.symm
  next other => simpa [hn] using other

theorem tokenless_grantCheck (h : s.Tokenless n) (x : BusSection) : (s.grantCheck x).Tokenless n := fun y =>
  ⟨grantCheck_not_holder s x y (fun z => (h z).2) (h y).1, grantCheck_queues s x y (h y).2⟩

theorem tokenless_tokenWork (hn : n ≠ 0) (before : State) (ended : SectionSet) (s : State) :
    (State.tokenWork before (some n) ended id s).Tokenless n := by
  have cleared : (State.tokensCleared before (some n) s).Tokenless n :=
    faultSections_induction (p := State.Tokenless n) (fun t x h y =>
      ⟨(lessened_faultSection t x).not_holder hn (h y).1, (lessened_faultSection t x).queues (h y).2⟩) _
      (tokenless_freeStation hn (s.startLapse n))
  obtain ⟨secs, work⟩ := tokenWork_eq before (some n) ended id s
  rw [work]
  exact grantChecks_induction (p := State.Tokenless n) (fun _ x h => tokenless_grantCheck h x) secs cleared

theorem Within.tokenless {sc : Scope} (w : Within sc s t) (hs : sc.secs = false) (h : s.Tokenless n) : t.Tokenless n := fun y => by
  obtain ⟨holder, -, queue, -⟩ := SectionRecord.tokenPart_fields (w.secs hs y)
  have queues : (t.sec y).queues n = (s.sec y).queues n := by simp only [SectionRecord.queues, queue]
  rw [holder, queues]
  exact h y

/-- What changes nothing of a scope's parts lies within every scope. -/
theorem Within.widen {sc : Scope} (w : Within {} s t) : Within sc s t :=
  { w with
    step := fun _ => w.step rfl, table := fun _ => w.table rfl, lapse := fun _ _ => w.lapse rfl rfl
    delivery := fun _ => w.delivery rfl, quorumCount := fun _ => w.quorumCount rfl, quorum := fun _ => w.quorum rfl
    derived := fun _ => w.derived rfl, secs := fun _ => w.secs rfl, isl := fun _ => w.isl rfl
    speedBias := fun _ => w.speedBias rfl, voltageBias := fun _ => w.voltageBias rfl
    blockList := fun _ => w.blockList rfl, intertrips := fun _ => w.intertrips rfl, failure := fun _ => w.failure rfl
    barLatch := fun _ => w.barLatch rfl, operation := fun _ => w.operation rfl }

/-- No block of a station is listed, and every intertrip of it is stale. -/
def ZoneRecord.Left (n : Nat) (z : ZoneRecord) : Prop :=
  (∀ e ∈ z.blockList, e.source ≠ n) ∧ ∀ e ∈ z.intertrips, e.source = n → e.stale = true

theorem zoneDrop_left (n : Nat) (s : State) : (s.zoneDrop n).zone.Left n := by
  refine ⟨fun e he => ?_, fun e he same => ?_⟩
  · have kept : e ∈ s.zone.blockList.filter fun e => !(e.source == n) := by
      rw [← removeBlock_blockList s n]
      exact he
    simpa using (List.mem_filter.mp kept).2
  · obtain ⟨d, -, rfl⟩ := List.mem_map.mp he
    split at same
    next stale => rw [if_pos stale]
    next other => exact absurd (beq_iff_eq.mpr same) other

theorem Within.zoneLeft {sc : Scope} (w : Within sc s t) (hl : sc.lists = false) (h : s.zone.Left n) : t.zone.Left n := by
  rw [ZoneRecord.Left, w.blockList hl, w.intertrips hl]
  exact h

/-- What a delivery asks of the owners for a station taken out. -/
def HandOn.departure (n : Nat) : HandOn :=
  { HandOn.quiet with departed := some n, lists := State.leaveWaiting n, zone := State.zoneDrop n }

theorem departure_tokenless (hn : n ≠ 0) (before s : State) : (State.handOn (HandOn.departure n) before s).Tokenless n :=
  (handOn_from_tokens (sc := { isl := true, lists := true }) (w := HandOn.departure n) rfl (Within.stays_id _)
    (fun _ _ v => v.leaveWaiting rfl n) (fun _ _ v => v.zoneDrop rfl n) before s).tokenless rfl
    (tokenless_tokenWork hn before _ s)

theorem departure_zoneLeft (before s : State) : (State.handOn (HandOn.departure n) before s).zone.Left n :=
  ((Within.refl {} _).roleFlags before).zoneLeft rfl (zoneDrop_left n _)

/-- While no adoption is pending, the lists of a delivery are those its own effect leaves, shed and filled up again. -/
theorem handOn_lists {sc : Scope} {w : HandOn} (wt : Within.Stays { secs := true, lapse := true } w.tokens)
    (wc : Within.Stays { secs := true, lapse := true } w.claim) (wz : Within.Stays sc w.zone) (before : State)
    (hp : s.step.pendingAdoption = none) : ∃ v, Within { secs := true, lapse := true } s v ∧
      Within sc (State.shedAll before (w.lists (State.listsReady before w.capacityDue v))) (State.handOn w before s) := by
  have tokens := (wc _ _ ((Within.refl _ s).tokenWork rfl rfl wt before w.departed w.ended).judgePlace).seeGrant
  refine ⟨_, tokens, ?_⟩
  rw [← listWork_eq before w.capacityDue w.lists (by rw [tokens.step rfl, hp])]
  exact (wz _ _ (Within.refl sc _)).roleFlags before

/-- The lists of a departed station that stood on no Admitted List. -/
theorem departure_unlisted (before : State) (hp : s.step.pendingAdoption = none) (h : ∀ i, (s.island i).Unadmitted n)
    (i : BusSection) : ((State.handOn (HandOn.departure n) before s).island i).Unlisted n := by
  obtain ⟨v, tokens, lists⟩ := handOn_lists (sc := { lists := true }) (w := HandOn.departure n) (Within.stays_id _)
    (Within.stays_id _) (fun _ _ v => v.zoneDrop rfl n) before hp
  have unadmitted : ∀ j, (v.island j).Unadmitted n := fun j => by rw [tokens.island rfl]; exact h j
  rw [lists.island rfl]
  exact shedAll_unlisted before (leaveWaiting_unlisted (listsReady_unadmitted before false unadmitted) i)

end

/-! ### A DROP that is applied (R5, R34, R52) -/

theorem reportsInStep_of_same {s t : State} {n : Nat} (he : t.entry n = s.entry n) (hs : t.step.epoch = s.step.epoch) :
    t.reportsInStep n = s.reportsInStep n := by
  unfold State.reportsInStep
  rw [he, hs]

/-- What becoming DESYNC keeps of the step record. -/
theorem enterDesync_step (s : State) : s.enterDesync.step.epoch = s.step.epoch ∧
    s.enterDesync.step.pendingAdoption = s.step.pendingAdoption := by
  unfold State.enterDesync
  split
  · have lost : s.loseStep.step = { s.step with state := .desync, founding := 0 } :=
      purgeOrdered_step (s.onStep fun t => { t with state := .desync, founding := 0 })
    rw [((Within.refl {} s.loseStep).suspendClaim).step rfl, lost]
    exact ⟨rfl, rfl⟩
  · exact ⟨rfl, rfl⟩

section
variable {s : State} {h : Header} {n : Nat}

/-- What the picture of a DROP keeps of the step record. -/
theorem dropPicture_step (s : State) : (s.dropPicture h n).step.epoch = s.step.epoch ∧
    (s.dropPicture h n).step.pendingAdoption = s.step.pendingAdoption := by
  cases ht : s.takesOut h n with
  | true =>
    have w := ((Within.refl { table := true } s).dropEntry rfl n).unqueueDrop n
    rw [dropPicture_of_takesOut ht]
    split
    · obtain ⟨epoch, pending⟩ := enterDesync_step ((s.dropEntry n).unqueueDrop n)
      rw [epoch, pending, w.step rfl]
      exact ⟨rfl, rfl⟩
    · rw [w.step rfl]
      exact ⟨rfl, rfl⟩
  | false =>
    rw [(dropPicture_of_stays ht).step rfl]
    exact ⟨rfl, rfl⟩

/-- A DROP that names an IN_STEP station itself and takes it out leaves it in DESYNC. -/
theorem dropPicture_desync (ht : s.takesOut h s.own = true) (hs : s.step.state = .inStep) :
    (s.dropPicture h s.own).step.state = .desync := by
  have w := ((Within.refl { table := true } s).dropEntry rfl s.own).unqueueDrop s.own
  rw [dropPicture_of_takesOut ht, if_pos rfl]
  exact enterDesync_of_inStep (by rw [w.step rfl, hs])

/-- The entries once a DROP has taken its station out. -/
theorem dropPicture_entry (ht : s.takesOut h n = true) (k : Nat) : (s.dropPicture h n).entry k = if k = n then
      { s.entry n with presence := .dropped, stale := (s.entry n).stale || (s.entry n).content.isSome, silence := 0 }
    else s.entry k := by
  obtain ⟨-, -, configured⟩ := appliesDrop_iff.mp (takesOut_iff.mp ht).1
  rw [(dropPicture_within ht).entry rfl rfl, State.dropEntry]
  split
  next same => rw [same, onEntry_entry_self configured]
  next other => rw [onEntry_entry_of_ne other]

/-- A DROP stays applied in the state its work begins in. -/
theorem appliesDrop_pictured (s : State) : (s.pictured .drop 1 h (State.dropPicture h n)).appliesDrop h n =
    (s.sourceNoted .drop 1 h).appliesDrop h n := by
  by_cases other : n = h.source
  · simp [State.appliesDrop, other]
  · have pictured := pictured_within .drop 1 h (State.dropPicture h n) s
    have drawn : Within { table := true, step := true } (s.sourceNoted .drop 1 h)
        ((s.sourceNoted .drop 1 h).dropPicture h n) := (Within.refl _ _).dropPicture rfl rfl h n
    have source : ((s.sourceNoted .drop 1 h).dropPicture h n).entry h.source = (s.sourceNoted .drop 1 h).entry h.source := by
      cases ht : (s.sourceNoted .drop 1 h).takesOut h n with
      | true => rw [dropPicture_entry ht, if_neg (Ne.symm other)]
      | false => rw [(dropPicture_of_stays ht).entry rfl rfl]
    have reports := reportsInStep_of_same (t := s.pictured .drop 1 h (State.dropPicture h n)) (s := s.sourceNoted .drop 1 h)
      (n := h.source) ((pictured.entry rfl rfl _).trans source)
      ((congrArg StepRecord.epoch (pictured.step rfl)).trans (dropPicture_step _).1)
    simp only [State.appliesDrop, reports, pictured.isConfigured, drawn.isConfigured]

/-- The work of a DROP that takes its station out. -/
theorem dropWork_of_takesOut {before : State} (ha : s.appliesDrop h n = true) (hp : (before.entry n).presence ≠ .dropped) :
    State.dropWork h n before s = ((State.handOn (HandOn.departure n) before s).voidBy h.source).voidBy n := by
  unfold State.dropWork
  rw [if_pos (by simp [ha, hp])]
  rfl

theorem dropWork_of_dropped {before : State} (hp : (before.entry n).presence = .dropped) :
    State.dropWork h n before s = (State.handOn HandOn.quiet before s).voidBy h.source := by
  unfold State.dropWork
  rw [if_neg (by simp [hp])]

theorem voidBy_of_none (hp : s.step.pendingAdoption = none) (k : Nat) : s.voidBy k = s := by
  simp [State.voidBy, hp]

end

/-- The state after a DROP, and the states its delivery passes through: what it noted of its source, what the other stations
see of that, and the state its work begins in. -/
structure DropRun (h : Header) (n : Nat) (s v u p t : State) : Prop where
  noted : Within { delivery := true, table := true, step := true } s v
  seen : Within { derived := true } v u
  pictured : Within { derived := true } (v.dropPicture h n) p
  applies : p.appliesDrop h n = v.appliesDrop h n
  applied : v.appliesDrop h n = u.appliesDrop h n
  named : n ≠ h.source → v.entry n = s.entry n
  entries : ∀ k, (t.entry k).unlapsed = ((v.dropPicture h n).entry k).unlapsed
  worked : Within {} (State.dropWork h n s p) t

theorem dropRun {h : Header} (n : Nat) {s : State} (hk : s.isConfigured h.source = true) (first : State) :
    DropRun h n s (s.sourceNoted .drop 1 h) (s.noted .drop 1 h) (s.pictured .drop 1 h (State.dropPicture h n))
      (State.finish first (s.deliver .drop 1 h (State.dropPicture h n) (State.dropWork h n))) where
  noted := within_sourceNoted s .drop 1 h
  seen := pictured_within .drop 1 h id s
  pictured := pictured_within .drop 1 h _ s
  applies := appliesDrop_pictured s
  applied := by
    have seen := pictured_within .drop 1 h id s
    have reports := reportsInStep_of_same (t := s.noted .drop 1 h) (s := s.sourceNoted .drop 1 h) (n := h.source)
      (seen.entry rfl rfl _) (congrArg StepRecord.epoch (seen.step rfl) :)
    have configured : (s.noted .drop 1 h).isConfigured n = (s.sourceNoted .drop 1 h).isConfigured n := seen.isConfigured n
    simp only [State.appliesDrop, reports, configured]
  named := sourceNoted_entry_of_ne
  entries := delivered_unlapsed (FrameDelivery.drop h s n).stays hk first
  worked := by
    rw [deliver_of_configured hk]
    exact ((Within.refl {} _).settle).endDelivery.finish first

section
variable {h : Header} {n : Nat} {s v u p t : State}

theorem DropRun.applies_iff (r : DropRun h n s v u p t) (ha : u.appliesDrop h n = true) :
    v.appliesDrop h n = true ∧ p.appliesDrop h n = true ∧ n ≠ 0 ∧ v.entry n = s.entry n := by
  have applied : v.appliesDrop h n = true := r.applied.trans ha
  obtain ⟨-, other, configured⟩ := appliesDrop_iff.mp applied
  exact ⟨applied, r.applies.trans applied, not_zero_of_isConfigured configured, r.named other⟩

/-- A DROP of a station whose entry is not DROPPED takes it out. -/
theorem DropRun.takesOut (r : DropRun h n s v u p t) (ha : u.appliesDrop h n = true) (hp : (u.entry n).presence ≠ .dropped) :
    v.takesOut h n = true ∧
      Within { step := true } (State.handOn (HandOn.departure n) s p) t := by
  obtain ⟨applied, stays, -, same⟩ := r.applies_iff ha
  have before : (u.entry n) = s.entry n := (r.seen.entry rfl rfl n).trans same
  refine ⟨takesOut_iff.mpr ⟨applied, by rwa [← r.seen.entry rfl rfl n]⟩, ?_⟩
  have work := dropWork_of_takesOut (h := h) stays (before ▸ hp)
  exact (Within.voidBy rfl (Within.voidBy rfl (.refl _ _) h.source) n).trans (work ▸ r.worked.widen)

/-- One that names a DROPPED entry leaves the tables to a delivery that asks nothing. -/
theorem DropRun.stays (r : DropRun h n s v u p t) (ha : u.appliesDrop h n = true) (hp : (u.entry n).presence = .dropped) :
    (∀ k, (t.entry k).unlapsed = (u.entry k).unlapsed) ∧ Within { derived := true } v p ∧
      Within {} ((State.handOn HandOn.quiet s p).voidBy h.source) t := by
  obtain ⟨-, -, -, same⟩ := r.applies_iff ha
  have seen : u.entry n = v.entry n := r.seen.entry rfl rfl n
  have stays : v.takesOut h n = false := by simp [State.takesOut, ← seen, hp]
  have work := dropWork_of_dropped (h := h) (s := p) (n := n) (before := s) (by rw [← same, ← seen, hp])
  refine ⟨fun k => ?_, (dropPicture_of_stays stays).widen.trans r.pictured, work ▸ r.worked⟩
  rw [r.entries k, (dropPicture_of_stays stays).entry rfl rfl, r.seen.entry rfl rfl]

end

/-- Settles O48. -/
theorem dropTakesTheStationOut : Obligations.DropTakesTheStationOut := by
  intro h n s u hc hk hu ha
  have d := FrameDelivery.drop h s n
  obtain ⟨mark, request, ended, -⟩ := silenceEnded_eq (.drop h n) h s
  have silent : s.silenceEnded (.drop h n) h = if n = s.own then s.endStartSilence else s := by simp [State.silenceEnded]
  have configured : (s.silenceEnded (.drop h n) h).isConfigured h.source = true := by rw [silenceEnded_isConfigured, hk]
  have run := dropRun n configured s
  rw [silent, ← hu, ← silent] at run
  refine ⟨_, d.run hc, ?_⟩
  have entry : (s.silenceEnded (.drop h n) h).entry n = s.entry n := by rw [ended]; rfl
  have own : (s.silenceEnded (.drop h n) h).own = s.own := by rw [ended]; rfl
  have zone : (s.silenceEnded (.drop h n) h).zone = s.zone := by rw [ended]
  have isl : (s.silenceEnded (.drop h n) h).isl = s.isl := by rw [ended]
  generalize s.silenceEnded (.drop h n) h = r at run entry own zone isl
  generalize State.finish s (r.deliver .drop 1 h (State.dropPicture h n) (State.dropWork h n)) = t at run
  generalize r.sourceNoted .drop 1 h = v at run
  generalize r.pictured .drop 1 h (State.dropPicture h n) = p at run
  obtain ⟨-, -, known, named⟩ := run.applies_iff ha
  have seen (k : Nat) : u.entry k = v.entry k := run.seen.entry rfl rfl k
  have step : u.step = v.step := run.seen.step rfl
  by_cases out : (u.entry n).presence = .dropped
  · obtain ⟨entries, pictured, worked⟩ := run.stays ha out
    have same : (t.entry n).unlapsed = (s.entry n).unlapsed := by rw [entries, seen, named, entry]
    have quiet := Within.handOn (sc := { isl := true, secs := true, lapse := true }) rfl rfl rfl (w := HandOn.quiet)
      (Within.stays_id _) (Within.stays_id _) (Within.stays_id _) (Within.stays_id _) (.refl _ p) r
    have voided := Within.voidBy (sc := { step := true }) rfl (.refl _ (State.handOn HandOn.quiet r p)) h.source
    refine ⟨(congrArg StationEntry.presence (entries n) :).trans out, (congrArg StationEntry.content same :),
      (congrArg StationEntry.lastSeq same :), fun k _ => entries k, fun live => absurd out live,
      fun _ => ⟨entries n, ?_, ?_, fun idle => ?_⟩⟩
    · rw [worked.blockList rfl, voided.blockList rfl, quiet.blockList rfl, pictured.blockList rfl, run.noted.blockList rfl, zone]
    · rw [worked.intertrips rfl, voided.intertrips rfl, quiet.intertrips rfl, pictured.intertrips rfl,
        run.noted.intertrips rfl, zone]
    · have handed : (State.handOn HandOn.quiet r p).step = u.step := by rw [quiet.step rfl, pictured.step rfl, step]
      rw [worked.step rfl, voidBy_of_none (by rw [handed, idle]), handed]
  · obtain ⟨takes, worked⟩ := run.takesOut ha out
    have entries (k : Nat) : (t.entry k).unlapsed = (if k = n then { s.entry n with
          presence := .dropped, stale := (s.entry n).stale || (s.entry n).content.isSome, silence := 0 }
        else u.entry k : StationEntry).unlapsed := by
      rw [run.entries, dropPicture_entry takes, named, entry, seen]
    have named_entry := entries n
    rw [if_pos rfl] at named_entry
    have tokens := worked.tokenless rfl (departure_tokenless known r p)
    have zoneLeft := worked.zoneLeft rfl (departure_zoneLeft (n := n) r p)
    refine ⟨(congrArg StationEntry.presence named_entry :), (congrArg StationEntry.content named_entry :),
      (congrArg StationEntry.lastSeq named_entry :), fun k other => by rw [entries, if_neg other], fun _ =>
      ⟨fun held => ?_, (congrArg StationEntry.silence named_entry :), tokens, zoneLeft.1, zoneLeft.2, fun idle free i => ?_,
        fun self inStep => ?_⟩, fun dropped => absurd dropped out⟩
    · have stale : (t.entry n).stale = ((s.entry n).stale || (s.entry n).content.isSome) :=
        (congrArg StationEntry.stale named_entry :)
      rw [seen, named, entry] at held
      rw [stale, held, Bool.or_true]
    · have pending : p.step.pendingAdoption = none := by
        rw [run.pictured.step rfl, (dropPicture_step v).2, ← step, idle]
      have drawn : Within { table := true, step := true } v (v.dropPicture h n) := (Within.refl _ v).dropPicture rfl rfl h n
      have unadmitted (j : BusSection) : (p.island j).Unadmitted n := by
        rw [run.pictured.island rfl, drawn.island rfl, run.noted.island rfl, State.island, isl]
        exact free j
      rw [worked.island rfl]
      exact (departure_unlisted r pending unadmitted i).1
    · have stationOwn : v.own = n := by
        rw [self, ← own]
        exact congrArg StationSettings.number run.noted.station
      have lost : (v.dropPicture h n).step.state = .desync := by
        rw [← stationOwn] at takes ⊢
        exact dropPicture_desync takes (by rw [← step, inStep])
      rw [run.worked.step rfl]
      exact KeepsDesync.dropWork n r p ((congrArg StepRecord.state (run.pictured.step rfl)).trans lost)

end Sys2Proof.Machine
end

