-- ==== Sys2Proof/Proofs/Admissions.lean ====
section
/-!
SUPPORT. The deliveries of a feeder's two requests: the list that a feeder is placed in, what the shed and admission steps then
leave of its place, and the withdrawal from every list (R153 to R155, R158).
-/

namespace Sys2Proof.Machine

/-! ### The name of an island (R14) -/

section
variable {s : State} {i x : BusSection}

theorem islandAfter_some {below : Option BusSection} {joined : Bool} (h : s.islandAfter below joined x = some i) :
    i = x ∨ below = some i := by
  unfold State.islandAfter at h
  split at h
  · split at h
    · exact .inr h
    · exact .inl (Option.some.inj h).symm
  · exact absurd h (by simp)

/-- An island is named after one of its own sections. -/
theorem partition_named (h : s.partition.get x = some i) : s.partition.get i = some i := by
  have own {y z : BusSection} (hz : s.partition.get z = some y) (hy : y = z) : s.partition.get y = some y := by
    subst hy
    exact hz
  have namedA (h : s.partition.get .A = some i) : s.partition.get i = some i :=
    own h ((islandAfter_some (below := none) (joined := false) h).resolve_right (by simp))
  have namedB (h : s.partition.get .B = some i) : s.partition.get i = some i :=
    (islandAfter_some (below := s.partition.get .A) (joined := s.joinedUp .A) h).elim (own h) namedA
  have namedC (h : s.partition.get .C = some i) : s.partition.get i = some i :=
    (islandAfter_some (below := s.partition.get .B) (joined := s.joinedUp .B) h).elim (own h) namedB
  have namedD (h : s.partition.get .D = some i) : s.partition.get i = some i :=
    (islandAfter_some (below := s.partition.get .C) (joined := s.joinedUp .C) h).elim (own h) namedC
  cases x with
  | A => exact namedA h
  | B => exact namedB h
  | C => exact namedC h
  | D => exact namedD h

theorem noted_named {u : State} {k : FrameKind} {len : Nat} {h : Header} (hu : u = s.noted k len h)
    (hx : u.islandOf x = some i) : u.islandOf i = some i := by
  subst hu
  have judged : Within {} (s.sourceNoted k len h).derive (s.noted k len h) := (Within.refl {} _).judgeQuorum s
  have derived : Derived (s.noted k len h) := judged.derivedKept rfl rfl (derived_derive _)
  unfold State.islandOf at hx ⊢
  rw [derived.island] at hx ⊢
  exact partition_named hx

end

/-! ### The lists a feeder is placed in (R153, R154) -/

/-- A feeder stands on the Admitted List under one number alone, or, as shed, in the queue under it. -/
def IslandTables.Joined (n : Nat) (d : Word32) (t : IslandTables) : Prop :=
  (∀ e ∈ t.admitted, e.feeder = n → e = ⟨n, d⟩) ∧
    ((⟨n, d⟩ : AdmitEntry) ∈ t.admitted ∨ (⟨n, d, some d⟩ : WaitEntry) ∈ t.queue)

/-- A feeder waits in the queue, not returned, and stands on no Admitted List. -/
def IslandTables.Waiting (n : Nat) (d : Word32) (t : IslandTables) : Prop :=
  t.Unadmitted n ∧ (⟨n, d, none⟩ : WaitEntry) ∈ t.queue

/-- A feeder waits in the queue, not returned, or has been admitted. -/
def IslandTables.Waited (n : Nat) (d : Word32) (t : IslandTables) : Prop :=
  (⟨n, d, none⟩ : WaitEntry) ∈ t.queue ∨ (⟨n, d⟩ : AdmitEntry) ∈ t.admitted

section
variable {t : IslandTables} {n : Nat} {d : Word32}

theorem IslandTables.Joined.takeBack {e : AdmitEntry} (h : t.Joined n d) (b : WaitEntry → Bool) (he : e ∈ t.admitted) :
    (t.takeBack b d e).Joined n d := by
  refine ⟨fun a ha => h.1 a (List.mem_of_mem_filter ha), ?_⟩
  by_cases own : e.feeder = n
  · have this : e = ⟨n, d⟩ := h.1 e he own
    subst this
    exact .inr (mem_insertBefore.mpr (.inl rfl))
  · exact h.2.imp (fun stands => List.mem_filter.mpr ⟨stands, by simpa using Ne.symm own⟩)
      fun shed => mem_insertBefore.mpr (.inr shed)

theorem IslandTables.Joined.takeUp {e : WaitEntry} {rest : List WaitEntry} (h : t.Joined n d) (he : t.queue = e :: rest) :
    (t.takeUp d e.feeder rest).Joined n d := by
  refine ⟨fun a ha own => ?_, ?_⟩
  · obtain old | new := List.mem_append.mp ha
    · exact h.1 a old own
    · rw [List.mem_singleton.mp new] at own ⊢
      exact congrArg (AdmitEntry.mk · d) own
  · obtain stands | shed := h.2
    · exact .inl (List.mem_append_left _ stands)
    · rw [he] at shed
      obtain head | tail := List.mem_cons.mp shed
      · rw [← head]
        exact .inl (List.mem_append_right _ (List.mem_singleton.mpr rfl))
      · exact .inr tail

theorem IslandTables.Joined.listed (h : t.Joined n d) : ¬ t.Unlisted n := fun free =>
  h.2.elim (fun stands => free.2 _ stands rfl) fun shed => free.1 _ shed rfl

theorem IslandTables.Waiting.listed (h : t.Waiting n d) : ¬ t.Unlisted n := fun free => free.1 _ h.2 rfl

theorem IslandTables.Waiting.takeBack (h : t.Waiting n d) (b : WaitEntry → Bool) (e : AdmitEntry) :
    (t.takeBack b d e).Waiting n d := ⟨h.1.takeBack b e, mem_insertBefore.mpr (.inr h.2)⟩

theorem IslandTables.Waited.takeUp {e : WaitEntry} {rest : List WaitEntry} (h : t.Waited n d) (he : t.queue = e :: rest) :
    (t.takeUp d e.feeder rest).Waited n d := by
  obtain waits | stands := h
  · rw [he] at waits
    obtain head | tail := List.mem_cons.mp waits
    · rw [← head]
      exact .inr (List.mem_append_right _ (List.mem_singleton.mpr rfl))
    · exact .inl tail
  · exact .inr (List.mem_append_left _ stands)

end

/-! ### The island a request touches, after the shed and admission steps (R158) -/

section
variable {before s t : State} {n : Nat} {d : Word32} {i : BusSection}

theorem shedStep_within (s : State) (i : BusSection) (k : Nat) : Within { isl := true } s (State.shedStep i k s) :=
  Within.shedStep rfl i k s (.refl _ s)

theorem islandLive_of_live {x : BusSection} (hx : s.islandOf x = some i) (live : (s.sec x).live = true) :
    s.islandLive i = true :=
  List.any_eq_true.mpr ⟨x, BusSection.mem_all x, by simp [hx, live]⟩

theorem touched_of_listed (hb : (before.island i).Unlisted n) (hs : ¬ (s.island i).Unlisted n) :
    State.islandTouched before s i = true := by
  unfold State.islandTouched
  by_contra untouched
  simp only [Bool.not_eq_true, Bool.or_eq_false_iff, Bool.not_eq_false', beq_iff_eq] at untouched
  obtain ⟨⟨⟨-, admitted⟩, queue⟩, -⟩ := untouched
  exact hs ⟨queue ▸ hb.1, fun e he => hb.2 e (admitted ▸ he)⟩

/-- An island is touched, and under its own name. -/
structure State.Touched (before s : State) (i : BusSection) : Prop where
  named : s.islandOf i = some i
  touched : State.islandTouched before s i = true

/-- The tables of a touched island come from its own shed and admission steps. -/
theorem shedAll_touched (h : State.Touched before s i) : ∃ w, Within { isl := true } s w ∧ w.island i = s.island i ∧
    (State.shedAll before s).island i = (w.shedThenAdmit i).island i := by
  obtain ⟨w, within, same, after⟩ := shedAll_island before s i
  have name : i ∈ s.islandNames := by simp [State.islandNames, BusSection.mem_all, ← h.named, State.islandOf]
  rw [if_pos ⟨name, h.touched⟩] at after
  exact ⟨w, within, same, after⟩

theorem shedAll_joined (h : State.Touched before s i) (hj : (s.island i).Joined n s.pic.delivery) :
    ((State.shedAll before s).island i).Joined n s.pic.delivery := by
  obtain ⟨w, within, same, after⟩ := shedAll_touched h
  have delivery : w.pic.delivery = s.pic.delivery := within.delivery rfl
  rw [← same] at hj
  rw [after]
  have shed := shedStep_island (q := IslandTables.Joined n s.pic.delivery) (fun _ b _ k he => k.takeBack b he)
    (w.island i).admitted.length delivery hj
  exact admitStep_island (q := IslandTables.Joined n s.pic.delivery) (fun _ _ _ k head => k.takeUp head) _
    ((shedStep_within w i _).delivery rfl |>.trans delivery) shed

theorem shedAll_waited (h : State.Touched before s i) (hw : (s.island i).Waiting n s.pic.delivery) :
    ((State.shedAll before s).island i).Waited n s.pic.delivery := by
  obtain ⟨w, within, same, after⟩ := shedAll_touched h
  have delivery : w.pic.delivery = s.pic.delivery := within.delivery rfl
  rw [← same] at hw
  rw [after]
  have shed := shedStep_island (q := IslandTables.Waiting n s.pic.delivery) (fun _ b e k _ => k.takeBack b e)
    (w.island i).admitted.length delivery hw
  exact admitStep_island (q := IslandTables.Waited n s.pic.delivery) (fun _ _ _ k head => k.takeUp head) _
    ((shedStep_within w i _).delivery rfl |>.trans delivery) (.inl shed.2)

/-- In a dead island a feeder that waits goes on waiting. -/
theorem shedAll_waiting (h : State.Touched before s i) (dead : s.islandLive i = false)
    (hw : (s.island i).Waiting n s.pic.delivery) : ((State.shedAll before s).island i).Waiting n s.pic.delivery := by
  obtain ⟨w, within, same, after⟩ := shedAll_touched h
  rw [← same] at hw
  have shed := shedStep_island (q := IslandTables.Waiting n s.pic.delivery) (fun _ b e k _ => k.takeBack b e)
    (w.island i).admitted.length (within.delivery rfl) hw
  have still : (State.shedStep i (w.island i).admitted.length w).islandLive i = false := by
    rw [(shedStep_within w i _).islandLive rfl, within.islandLive rfl, dead]
  rw [after, State.shedThenAdmit, admitStep_of_dead still]
  exact shed

/-- After the shed and admission steps the account is not below 0, and the head of a live island's queue does not fit it. -/
theorem shedAll_settles (h : State.Touched before s i) : 0 ≤ (State.shedAll before s).account i ∧
    (s.islandLive i = true → ∀ w rest, ((State.shedAll before s).island i).queue = w :: rest →
      (State.shedAll before s).account i < (State.shedAll before s).ratingOf w.feeder) := by
  obtain ⟨w, within, -, after⟩ := shedAll_touched h
  have whole : Within { isl := true } s (w.shedThenAdmit i) := within.trans (shedThenAdmit_within w i)
  have all : Within { isl := true } s (State.shedAll before s) := (Within.refl _ s).shedAll rfl before
  have account : (State.shedAll before s).account i = (w.shedThenAdmit i).account i := by
    rw [account_eq, account_eq, all.accountIn, whole.accountIn, after]
  rw [account]
  refine ⟨admitStep_account _ (shedStep_account _ w (Nat.le_refl _)), fun live v rest head => ?_⟩
  rw [after] at head
  rw [all.ratingOf, ← whole.ratingOf]
  refine admitStep_head _ _ (Nat.le_refl _) ?_ v rest head
  rw [(shedStep_within w i _).islandLive rfl, within.islandLive rfl, live]

/-! ### An applied request (R154, R155) -/

theorem applyAdmit_eq {x : BusSection} (a : Bool) (hk : s.kindOf n = some .feeder) (ho : s.admissionOf n = .out)
    (hx : s.secOf n = some x) (hi : s.islandOf x = some i) : s.applyAdmit n a =
      if a = true ∧ (s.sec x).live = true then s.appendAdmitted i n
      else s.onIsland i fun t => { t with
        queue := insertBefore (fun y => s.waitBefore ⟨n, s.pic.delivery, none⟩ y) ⟨n, s.pic.delivery, none⟩ t.queue } := by
  unfold State.applyAdmit
  rw [if_pos (by simp [hk, ho])]
  simp only [hx, hi, Bool.and_eq_true]

theorem applyAdmit_island_of_ne {x j : BusSection} (a : Bool) (hk : s.kindOf n = some .feeder) (ho : s.admissionOf n = .out)
    (hx : s.secOf n = some x) (hi : s.islandOf x = some i) (hj : j ≠ i) : (s.applyAdmit n a).island j = s.island j := by
  rw [applyAdmit_eq a hk ho hx hi]
  split
  · rw [appendAdmitted_island, if_neg hj]
  · rw [onIsland_island, if_neg hj]

/-- A closed feeder of a live section is placed on the Admitted List (R154). -/
theorem applyAdmit_joined {x : BusSection} {a : Bool} (hk : s.kindOf n = some .feeder) (ho : s.admissionOf n = .out)
    (hx : s.secOf n = some x) (hi : s.islandOf x = some i) (ha : a = true ∧ (s.sec x).live = true) :
    ((s.applyAdmit n a).island i).Joined n s.pic.delivery := by
  rw [applyAdmit_eq a hk ho hx hi, if_pos ha, appendAdmitted_island, if_pos rfl]
  refine ⟨fun e he own => ?_, .inl (List.mem_append_right _ (List.mem_singleton.mpr rfl))⟩
  obtain old | new := List.mem_append.mp he
  · exact absurd own ((admissionOf_eq_out_iff.mp ho i).2 e old)
  · exact List.mem_singleton.mp new

/-- Any other feeder is queued (R154). -/
theorem applyAdmit_waiting {x : BusSection} {a : Bool} (hk : s.kindOf n = some .feeder) (ho : s.admissionOf n = .out)
    (hx : s.secOf n = some x) (hi : s.islandOf x = some i) (ha : ¬ (a = true ∧ (s.sec x).live = true)) :
    ((s.applyAdmit n a).island i).Waiting n s.pic.delivery := by
  rw [applyAdmit_eq a hk ho hx hi, if_neg ha, onIsland_island, if_pos rfl]
  exact ⟨(admissionOf_eq_out_iff.mp ho i).2, mem_insertBefore.mpr (.inl rfl)⟩

theorem applyWithdraw_unlisted (s : State) (n : Nat) (i : BusSection) : ((s.applyWithdraw n).island i).Unlisted n := by
  have left : (((s.leaveWaiting n).leaveAdmitted n).island i).Unlisted n := by
    have tables : ((s.leaveWaiting n).leaveAdmitted n).island i = { s.island i with
        queue := (s.island i).queue.filter fun e => !(e.feeder == n)
        admitted := (s.island i).admitted.filter fun e => !(e.feeder == n) } := by
      rw [State.island, State.leaveAdmitted, onIsl_isl, PerSection.get_make]
      have queue := leaveWaiting_island s n i
      unfold State.island at queue
      rw [queue]
      rfl
    rw [tables]
    refine ⟨fun e he => ?_, fun e he => ?_⟩
    · simpa using (List.mem_filter.mp he).2
    · simpa using (List.mem_filter.mp he).2
  have within : Within {} ((s.leaveWaiting n).leaveAdmitted n) (s.applyWithdraw n) := by
    unfold State.applyWithdraw
    dsimp only
    split
    · exact (Within.refl _ _).feederLeft n
    · exact .refl _ _
  rwa [within.island rfl]

end

/-! ### The deliveries of the two requests -/

section
variable {s u : State} {h : Header} {n : Nat}

/-- A delivery whose own effect is on the lists alone: from the state that effect finds, to its end. -/
theorem listDelivery {own : State → State} {k : FrameKind} {len : Nat} {work : State → State → State} (first : State)
    (hk : s.isConfigured h.source = true) (hu : u = s.noted k len h) (hp : u.step.pendingAdoption = none)
    (hw : Within { step := true } (State.handOn { HandOn.quiet with lists := own } s u) (work s u)) :
    ∃ v, Within { secs := true, lapse := true } u v ∧ Within { step := true }
      (State.shedAll s (own (State.listsReady s false v))) (State.finish first (s.deliver k len h id work)) := by
  obtain ⟨v, tokens, lists⟩ := handOn_lists (sc := { step := true }) (w := { HandOn.quiet with lists := own })
    (Within.stays_id _) (Within.stays_id _) (Within.stays_id _) s hp
  refine ⟨v, tokens, ?_⟩
  rw [deliver_of_configured hk, pictured_same, ← hu]
  exact (((lists.trans hw).settle).endDelivery).finish first

theorem admitDelivery_lists (a : Bool) (hk : s.isConfigured h.source = true) (hu : u = s.noted .admitFeeder 1 h)
    (ha : u.reportsInStep h.source = true) (hp : u.step.pendingAdoption = none) :
    ∃ v, Within { secs := true, lapse := true } u v ∧ Within { step := true }
      (State.shedAll s ((State.listsReady s false v).applyAdmit h.source a)) (State.finish s (s.admitDelivery h a)) := by
  refine listDelivery (own := fun t => t.applyAdmit h.source a) s hk hu hp ?_
  simp only [State.admitWork, ha, if_true]
  refine Within.voidBy rfl ?_ _
  split
  · exact (Within.refl _ _).ownAdmit true
  · exact .refl _ _

theorem withdrawDelivery_lists (hk : s.isConfigured h.source = true) (hu : u = s.noted .withdraw 0 h)
    (ha : u.reportsInStep h.source = true) (hp : u.step.pendingAdoption = none) :
    ∃ v, Within { secs := true, lapse := true } u v ∧ Within { step := true }
      (State.shedAll s ((State.listsReady s false v).applyWithdraw h.source)) (State.finish s (s.withdrawDelivery h)) := by
  refine listDelivery (own := fun t => t.applyWithdraw h.source) s hk hu hp ?_
  simp only [State.withdrawWork, ha, if_true]
  refine Within.voidBy rfl ?_ _
  split
  · exact (Within.refl _ _).ownWithdraw true
  · exact .refl _ _

end

/-- The lists as the own effect of a frame finds them, from the state its work began in: a station listed nowhere stays so. -/
structure ListsFound (n : Nat) (u w : State) : Prop where
  kind : w.kindOf n = u.kindOf n
  sec : w.secOf n = u.secOf n
  derived : ∀ x, (w.sec x).derivedPart = (u.sec x).derivedPart
  delivery : w.pic.delivery = u.pic.delivery
  out : (∀ i, (u.island i).Unlisted n) → w.admissionOf n = .out

theorem listsFound {u v : State} (n : Nat) (before : State) (tokens : Within { secs := true, lapse := true } u v) :
    ListsFound n u (State.listsReady before false v) := by
  have ready := listsReady_within before false v
  refine ⟨(ready.kindOf n).trans (tokens.kindOf n), (ready.secOf n).trans (tokens.secOf n),
    fun x => (ready.derived rfl x).trans (tokens.derived rfl x), (ready.delivery rfl).trans (tokens.delivery rfl),
    fun free => admissionOf_eq_out_iff.mpr (listsReady_unlisted before false fun i => ?_)⟩
  rw [tokens.island rfl]
  exact free i

/-- Settles O43. -/
theorem admitAndWithdrawMoveTheFeeder : Obligations.AdmitAndWithdrawMoveTheFeeder := by
  refine ⟨fun h a x i s u hc hk hu ha hp kind out sec name => ?_, fun h s u hc hk hu ha hp => ?_⟩
  · obtain ⟨v, tokens, after⟩ := admitDelivery_lists a hk hu ha hp
    refine ⟨_, event_of_configured (State.admitDelivery h a) hc, ?_⟩
    generalize State.finish s (s.admitDelivery h a) = t at after
    obtain ⟨kind', sec', derived, delivery, free⟩ := listsFound h.source s tokens
    generalize State.listsReady s false v = w at kind' sec' derived delivery free after
    have noted : Within pictureScope s u := hu ▸ within_noted s .admitFeeder 1 h
    have unlisted := admissionOf_eq_out_iff.mp out
    have out' := free unlisted
    rw [← kind'] at kind
    rw [← sec'] at sec
    have island (y : BusSection) : w.islandOf y = u.islandOf y := (congrArg SectionRecord.island (derived y) :)
    have live (y : BusSection) : (w.sec y).live = (u.sec y).live := (congrArg SectionRecord.live (derived y) :)
    have named : u.islandOf i = some i := noted_named hu name
    rw [← island] at name
    have placed : Within { isl := true } w (w.applyAdmit h.source a) := (Within.refl _ w).applyAdmit rfl _ _
    have delivery' : (w.applyAdmit h.source a).pic.delivery = u.pic.delivery := (placed.delivery rfl).trans delivery
    have placed_delivery : w.pic.delivery = (w.applyAdmit h.source a).pic.delivery := (placed.delivery rfl).symm
    have islandLive : (w.applyAdmit h.source a).islandLive i = u.islandLive i := by
      rw [placed.islandLive rfl]
      simp only [State.islandLive, island, live]
    have before : (s.island i).Unlisted h.source := noted.island rfl i ▸ unlisted i
    have touched (listed : ¬ ((w.applyAdmit h.source a).island i).Unlisted h.source) :
        State.Touched s (w.applyAdmit h.source a) i :=
      ⟨((congrArg SectionRecord.island (placed.derived rfl i) :).trans (island i)).trans named, touched_of_listed before listed⟩
    have others (j : BusSection) (hj : j ≠ i) : (t.island j).Unlisted h.source := by
      rw [after.island rfl]
      refine shedAll_unlisted s ?_
      rw [applyAdmit_island_of_ne a kind out' sec name hj]
      exact admissionOf_eq_out_iff.mp out' j
    have settles (listed : ¬ ((w.applyAdmit h.source a).island i).Unlisted h.source) : 0 ≤ t.account i ∧
        (u.islandLive i = true → ∀ e rest, (t.island i).queue = e :: rest → t.account i < t.ratingOf e.feeder) := by
      rw [after.account rfl, after.island rfl, ← islandLive]
      simp only [after.ratingOf]
      exact shedAll_settles (touched listed)
    by_cases joins : a = true ∧ (w.sec x).live = true
    · have joined := applyAdmit_joined kind out' sec name joins
      rw [placed_delivery] at joined
      have stands := shedAll_joined (touched joined.listed) joined
      rw [← after.island rfl i, delivery'] at stands
      have lives : u.islandLive i = true := islandLive_of_live ((island x).symm.trans name) (live x ▸ joins.2)
      exact ⟨fun _ => stands.2, fun no => absurd (live x ▸ joins) no, fun dead => absurd (dead.symm.trans lives) (by decide),
        others, settles joined.listed⟩
    · have waiting := applyAdmit_waiting kind out' sec name joins
      rw [placed_delivery] at waiting
      have waited := shedAll_waited (touched waiting.listed) waiting
      rw [← after.island rfl i, delivery'] at waited
      refine ⟨fun yes => absurd ((live x).symm ▸ yes) joins, fun _ => waited, fun dead => ?_, others, settles waiting.listed⟩
      have still := shedAll_waiting (touched waiting.listed) (islandLive.trans dead) waiting
      rw [← after.island rfl i, delivery'] at still
      exact still.2
  · obtain ⟨v, tokens, after⟩ := withdrawDelivery_lists hk hu ha hp
    refine ⟨_, event_of_configured (State.withdrawDelivery h) hc, admissionOf_eq_out_iff.mpr fun i => ?_⟩
    rw [after.island rfl]
    exact shedAll_unlisted s (applyWithdraw_unlisted _ h.source i)

end Sys2Proof.Machine
end

