-- ==== Sys2Proof/Proofs/SetWatches.lean ====
section
/-!
SUPPORT. What judges a measurement set, apart from the set's own work on it: the running parts of the slots, and the utility
monitor with its count. The operations that hand on a set's other effects leave them as they stand (R54, R58).
-/

namespace Sys2Proof.Machine

/-- The running parts of the slots, and the utility monitor with its count. -/
def State.watched (s : State) : List SlotRun × MonitorState × Nat := (s.prot.slots, s.chg.monitor, s.chg.run)

section
variable (s : State)

@[simp] theorem onToken_watched (f : TokenRecord → TokenRecord) : (s.onToken f).watched = s.watched := rfl
@[simp] theorem onSync_watched (f : SyncRecord → SyncRecord) : (s.onSync f).watched = s.watched := rfl
@[simp] theorem onDisp_watched (f : DispatchRecord → DispatchRecord) : (s.onDisp f).watched = s.watched := rfl
@[simp] theorem onBrk_watched (f : BreakerRecord → BreakerRecord) : (s.onBrk f).watched = s.watched := rfl
@[simp] theorem onEng_watched (f : EngineRecord → EngineRecord) : (s.onEng f).watched = s.watched := rfl
@[simp] theorem onMeas_watched (f : MeasurementRecord → MeasurementRecord) : (s.onMeas f).watched = s.watched := rfl
@[simp] theorem tell_watched (n : News) : (s.tell n).watched = s.watched := rfl

@[simp] theorem onChg_watched {f : ChangeoverRecord → ChangeoverRecord} (monitor : ∀ c, (f c).monitor = c.monitor)
    (run : ∀ c, (f c).run = c.run) : (s.onChg f).watched = s.watched := by
  simp only [State.watched, onChg_chg, onChg_prot, monitor, run]

/-! ### The breaker, the session and the claim -/

@[simp] theorem tracking_watched (f : State → State) : (State.tracking f s).watched = (f s).watched := by
  obtain ⟨r, h⟩ := tracking_eq f s
  rw [h]
  rfl

@[simp] theorem raise_watched (k : FaultKind) (ctx : FaultContext) : (s.raise k ctx).watched = s.watched := by
  obtain ⟨brk, fault, port, news, h⟩ := raise_rest s k ctx
  rw [h]
  rfl

@[simp] theorem trip_watched (src : TripSource) : (s.trip src).watched = s.watched := by
  obtain ⟨brk, news, h⟩ := trip_eq s src
  rw [h]
  rfl

@[simp] theorem breakWindow_watched : s.breakWindow.watched = s.watched := by
  obtain ⟨sync, h⟩ := breakWindow_eq s
  rw [h]
  rfl

@[simp] theorem endSession_watched (c : SessionEnd) : (s.endSession c).watched = s.watched := by
  obtain ⟨sync, h, -⟩ := endSession_eq s c
  rw [h]
  rfl

@[simp] theorem openSession_watched : s.openSession.watched = s.watched := by simp [State.openSession]

@[simp] theorem withdrawClose_watched : s.withdrawClose.watched = s.watched := by
  obtain ⟨brk, h⟩ := withdrawClose_eq s
  rw [h]
  rfl

@[simp] theorem requestRelease_watched (c : ReleaseCause) : (s.requestRelease c).watched = s.watched := by
  obtain ⟨link, stage, sync, h, -⟩ := requestRelease_eq s c
  rw [h]
  rfl

@[simp] theorem requestClose_watched : s.requestClose.1.watched = s.watched := by
  unfold State.requestClose
  split
  · rfl
  · simp [State.beginClose]

@[simp] theorem closeForClaim_watched : s.closeForClaim.watched = s.watched := by
  have asked := requestClose_watched s
  unfold State.closeForClaim
  generalize s.requestClose = answer at asked ⊢
  obtain ⟨t, refusal⟩ := answer
  cases refusal with
  | none => exact asked
  | some r => cases r <;> simpa using asked

@[simp] theorem measureSides_watched : s.measureSides.watched = s.watched := by
  unfold State.measureSides
  dsimp only
  split
  · simp
  · split <;> simp

@[simp] theorem postWant_watched (w : Want) : (s.postWant w).1.watched = s.watched := by
  obtain ⟨link, token, news, h⟩ := postWant_eq w s
  rw [h]
  rfl

@[simp] theorem dropWant_watched : s.dropWant.watched = s.watched := by
  unfold State.dropWant
  split <;> simp

@[simp] theorem withdrawWant_watched (w : Want) : (s.withdrawWant w).watched = s.watched := by
  unfold State.withdrawWant
  split <;> simp

/-! ### A changed live flag, and the end of a set loss (R56, R58) -/

@[simp] theorem changeRole_watched (f : DispatchRecord → DispatchRecord) : (s.changeRole f).watched = s.watched := by
  obtain ⟨link, h⟩ := changeRole_eq f s
  rw [h]
  rfl

@[simp] theorem judgeEngine_watched : s.judgeEngine.watched = s.watched := by
  unfold State.judgeEngine State.enterReady State.judgeWant State.leaveReady State.withdrawEither State.enterStarting
  split
  · split
    · split <;> simp
    · simp
  · split
    · split <;> simp
    · rfl

@[simp] theorem flagChange_watched (before : State) : (State.flagChange before s).watched = s.watched := by
  unfold State.flagChange State.tokenFlagChange State.generatorFlagChange State.syncFlagChange
  split
  · split <;> simp
  · split <;> simp

@[simp] theorem tokenLossEnd_watched : s.tokenLossEnd.watched = s.watched := by
  unfold State.tokenLossEnd
  split <;> simp

/-! ### The session at a set, the biases and the currents (R68, R70, R135, R151) -/

@[simp] theorem syncBiases_watched (f : SyncFigures) : (s.syncBiases f).watched = s.watched := by
  unfold State.syncBiases
  split <;> rfl

@[simp] theorem syncSet_watched (m : MeasurementSet) : (s.syncSet m).watched = s.watched := by
  have taken : (s.syncTake m).1.watched = s.watched := by
    unfold State.syncTake
    dsimp only
    split
    · split
      · split <;> simp [State.publish]
      · rfl
    · rfl
  unfold State.syncSet
  generalize s.syncTake m = answer at taken ⊢
  obtain ⟨t, offered⟩ := answer
  cases offered with
  | false => exact taken
  | true =>
    refine Eq.trans ?_ taken
    unfold State.tokenOffer
    dsimp only
    split <;> simp

@[simp] theorem computeBias_watched : s.computeBias.watched = s.watched := by
  unfold State.computeBias
  split
  · rfl
  · split
    · rfl
    · split <;> rfl

@[simp] theorem refreshBias_watched : s.refreshBias.watched = s.watched := by
  unfold State.refreshBias
  split
  · split
    · rfl
    · split <;> rfl
  · rfl

@[simp] theorem outsidePosition_watched : s.outsidePosition.watched = s.watched := by
  unfold State.outsidePosition
  split <;> first | rfl | (split <;> rfl)

@[simp] theorem leaveFailed_watched : s.leaveFailed.watched = s.watched := by
  unfold State.leaveFailed
  dsimp only
  split
  · split
    · obtain ⟨link, asserted, h⟩ := breakerFailureEnds_eq (s.onBrk fun b =>
        { b with state := .opened, tripOut := false, openTimer := none, origin := .none })
      rw [h]
      rfl
    · rfl
  · rfl

@[simp] theorem judgeCurrents_watched : s.judgeCurrents.watched = s.watched := by
  unfold State.judgeCurrents
  dsimp only
  split
  · split
    · split <;> simp
    · rfl
  · simp
  · rfl

/-! ### The changeover role at a change of its monitor (R167 to R171) -/

@[simp] theorem owe_watched (o : OrderKind) : (s.owe o).watched = s.watched := by
  obtain ⟨link, owed, h, -⟩ := owe_eq o s
  rw [h]
  rfl

@[simp] theorem oweTie_watched (o : OrderKind) (n : Nat) : (s.oweTie o n).watched = s.watched := by
  obtain ⟨link, owed, h, -⟩ := oweTie_eq o n s
  rw [h]
  rfl

@[simp] theorem oweTies_watched (o : OrderKind) (ties : List Nat) :
    (ties.foldl (fun s n => s.oweTie o n) s).watched = s.watched := by
  induction ties generalizing s with
  | nil => rfl
  | cons n ns ih => exact (ih _).trans (oweTie_watched s o n)

@[simp] theorem moveTo_watched (c : ChangeoverState) : (s.moveTo c).watched = s.watched := by
  obtain ⟨link, h⟩ := moveTo_eq c s
  rw [h]
  rfl

@[simp] theorem postChangeover_watched : s.postChangeover.watched = s.watched := by
  obtain ⟨link, token, news, due, h⟩ := postChangeover_eq s
  rw [h]
  rfl

@[simp] theorem withdrawChangeover_watched : s.withdrawChangeover.watched = s.watched := by
  simp [State.withdrawChangeover]

@[simp] theorem enterOpenRetransfer_watched : s.enterOpenRetransfer.watched = s.watched := by
  unfold State.enterOpenRetransfer
  dsimp only
  split <;> simp

@[simp] theorem unsharedCleared_watched : s.unsharedCleared.watched = s.watched := by
  obtain ⟨asked, h⟩ := unsharedCleared_eq s
  rw [h]
  rfl

@[simp] theorem judgeBackup_watched : s.judgeBackup.watched = s.watched := by
  unfold State.judgeBackup
  rw [← State.unsharedCleared]
  dsimp only
  split
  · split
    · split
      · split
        · split <;> simp
        · split
          · split <;> simp [State.enterRetransfer]
          · simp
      · simp
    · split <;> simp
  · rfl

@[simp] theorem enterBackup_watched : s.enterBackup.watched = s.watched := by simp [State.enterBackup]

@[simp] theorem enterIsolating_watched : s.enterIsolating.watched = s.watched := by
  unfold State.enterIsolating State.judgeIsolating
  split
  · split
    · simp
    · split <;> simp
  · simp

@[simp] theorem monitorChanged_watched (left now : MonitorState) : (s.monitorChanged left now).watched = s.watched := by
  unfold State.monitorChanged
  dsimp only
  split
  · have lost : (if (left == .healthy) = true then s.onChg fun c => { c with splitAsked := false } else s).watched = s.watched := by
      split <;> rfl
    generalize (if (left == .healthy) = true then s.onChg fun c => { c with splitAsked := false } else s) = t at lost ⊢
    rw [← lost]
    split
    · split <;> simp
    · split <;> simp [State.leaveTieWait]
    · simp
    · split <;> simp [State.giveUp]
    · split <;> simp [State.leaveParallel]
    · split <;> simp
    · rfl
  · rfl

end

end Sys2Proof.Machine
end

