-- ==== Sys2Proof/Proofs/SetArrivals.lean ====
section
/-!
SUPPORT. A set arrival: the set stored from counts that a gap clears, the slots evaluated on it, and the utility monitor's
judgment of it (R54 to R58, R76 to R85, R165).
-/

namespace Sys2Proof.Machine

/-! ### The set stored (R54 to R58) -/

section
variable {s r : State} {m : MeasurementSet} {sc : Scope}

theorem isSetGap_iff : s.isSetGap m = true ↔ s.meas.setLoss = false ∧ ∃ q, s.meas.lastSeq = some q ∧ m.seq ≠ q + 1 := by
  unfold State.isSetGap
  cases s.meas.lastSeq <;> simp

/-- The measurement record a set leaves, from the record whose flags it advances. -/
def State.measAfter (m : MeasurementSet) (before : MeasurementRecord) (s : State) : MeasurementRecord :=
  { latest := some m, lastSeq := some m.seq, setLoss := false, lossTimer := some (s.station.halfMs * 4)
    line := before.line.advance (lineClass s.station m), bus := before.bus.advance (busClass s.station m)
    discards := s.meas.discards }

/-- Work outside the measurement record, beside a record written. -/
theorem Within.besideMeas (h : Within sc s r) (x : MeasurementRecord) : Within sc { s with meas := x } { r with meas := x } :=
  { h with
    meas := rfl
    good := fun g =>
      have k := h.good ⟨g.brk, g.store, g.link, g.lockout, g.table, g.port⟩
      ⟨k.brk, k.store, k.link, k.lockout, k.table, k.port⟩
    only := h.only }

/-- Storing a set writes the measurement record; a gap is raised beside it, and breaks the window. -/
theorem gapped_within {before : MeasurementRecord} (gap : s.isSetGap m = true → before = s.meas.clearRuns)
    (other : ¬ s.isSetGap m = true → before = s.meas) :
    Within {} { s with meas := s.measAfter m before } ((s.gapped m).storeSet m) := by
  unfold State.gapped
  split
  next holds =>
    obtain ⟨brk, fault, port, news, raised⟩ := raise_rest s .setGap (.set m)
    obtain ⟨sync, broken⟩ := breakWindow_eq ((s.raise .setGap (.set m)).onMeas MeasurementRecord.clearRuns)
    have beside := (((Within.refl {} s).raise .setGap (.set m) (by simp)).besideMeas (s.measAfter m before)).onSync fun _ => sync
    have stored : (s.setGap m).storeSet m =
        State.onSync (fun _ => sync) { s.raise .setGap (.set m) with meas := s.measAfter m before } := by
      rw [State.setGap, broken, gap holds, raised]
      rfl
    rw [stored]
    exact beside
  next none =>
    rw [other none]
    exact .refl _ _

theorem gapped_pending (h : s.isSetGap m = true) : ((s.gapped m).storeSet m).fault.pending.get .setGap = true := by
  obtain ⟨sync, broken⟩ := breakWindow_eq ((s.raise .setGap (.set m)).onMeas MeasurementRecord.clearRuns)
  rw [State.gapped, if_pos h, State.setGap, broken]
  exact raise_pending _ _ _

theorem gapped_watched (m : MeasurementSet) (s : State) : ((s.gapped m).storeSet m).watched = s.watched := by
  unfold State.gapped State.setGap State.storeSet
  split <;> simp

/-- The state in which the set is handed on: the changed flags and the end of a loss come first (R58, log 41). -/
def State.handedSet (m : MeasurementSet) (s : State) : State :=
  let stored := (s.gapped m).storeSet m
  let flagged := if State.flagsDiffer (s.gapped m) stored then State.flagChange (s.gapped m) stored else stored
  if s.meas.setLoss then flagged.tokenLossEnd else flagged

theorem takeSet_eq (m : MeasurementSet) (s : State) : s.takeSet m =
    (((((s.handedSet m).evaluate m).syncSet m).monitorTake (s.isSetGap m) m).computeBias.judgeCurrents).refreshBias := rfl

theorem handedSet_within (m : MeasurementSet) (s : State) : Within {} ((s.gapped m).storeSet m) (s.handedSet m) := by
  have flagged : Within {} ((s.gapped m).storeSet m) (if State.flagsDiffer (s.gapped m) ((s.gapped m).storeSet m) then
      State.flagChange (s.gapped m) ((s.gapped m).storeSet m) else (s.gapped m).storeSet m) := by
    split
    · exact (Within.refl _ _).flagChange _
    · exact .refl _ _
  unfold State.handedSet
  dsimp only
  split
  · exact flagged.tokenLossEnd
  · exact flagged

theorem handedSet_watched (m : MeasurementSet) (s : State) : (s.handedSet m).watched = s.watched := by
  rw [← gapped_watched m s]
  unfold State.handedSet
  dsimp only
  split <;> split <;> simp

end

/-! ### The slots evaluated (R76 to R85) -/

/-- A slot's running part but for its intertrip demand. -/
def SlotRun.undemanded (r : SlotRun) : SlotRun := { r with demand := false }

theorem SlotRun.fields_of_undemanded {a b : SlotRun} (h : a.undemanded = b.undemanded) : a.state = b.state ∧
    a.count = b.count ∧ a.acc = b.acc ∧ a.pickups = b.pickups ∧ a.operations = b.operations :=
  ⟨(congrArg SlotRun.state h :), (congrArg SlotRun.count h :), (congrArg SlotRun.acc h :),
    (congrArg SlotRun.pickups h :), (congrArg SlotRun.operations h :)⟩

section
variable {s : State} {n j : Nat} {m : MeasurementSet}

theorem slotRun_eq_of_watched {t : State} (h : t.watched = s.watched) (n : Nat) : t.slotRun n = s.slotRun n :=
  congrArg (fun w : List SlotRun × MonitorState × Nat => w.1.getD (n - 1) .initial) h

theorem monitor_eq_of_watched {t : State} (h : t.watched = s.watched) : t.chg.monitor = s.chg.monitor :=
  congrArg (fun w : List SlotRun × MonitorState × Nat => w.2.1) h

theorem onSlot_slotRun_of_ne (f : SlotRun → SlotRun) (s : State) (hj : 1 ≤ j) (hn : 1 ≤ n) (h : n ≠ j) :
    (s.onSlot j f).slotRun n = s.slotRun n :=
  (updateAt_getD f .initial (j - 1) (n - 1) s.prot.slots).trans (if_neg fun same => h (by omega))

theorem onSlot_slotRun (f : SlotRun → SlotRun) (s : State) (hn : 1 ≤ n) (hl : n ≤ s.prot.slots.length) :
    (s.onSlot n f).slotRun n = f (s.slotRun n) :=
  (updateAt_getD f .initial (n - 1) (n - 1) s.prot.slots).trans (if_pos ⟨rfl, by omega⟩)

@[simp] theorem judgeIntertrip_watched (s : State) : s.judgeIntertrip.watched = s.watched := by
  obtain ⟨link, h⟩ := judgeIntertrip_eq s
  rw [h]
  rfl

@[simp] theorem judgeAnnouncement_watched (s : State) : s.judgeAnnouncement.watched = s.watched := by
  unfold State.judgeAnnouncement State.startBlock State.endBlock
  dsimp only
  split
  · rfl
  · split
    · split
      · rfl
      · rw [tracking_watched]; rfl
    · rw [tracking_watched]; rfl

theorem onSlot_watched_of {t : State} (h : t.watched = s.watched) (n : Nat) (f : SlotRun → SlotRun) :
    (t.onSlot n f).watched = (s.onSlot n f).watched :=
  Prod.ext (congrArg (fun w : List SlotRun × MonitorState × Nat => updateAt f (n - 1) w.1) h) (congrArg Prod.snd h :)

/-- An operation marks its own slot's demand, by its route, and no other thing that is watched (R83). -/
theorem operate_watched (s : State) (n : Nat) (k : ElementKind) (r : Route) (empty : Bool) :
    (s.operate n k r empty).watched = (s.routeDemand n r).watched := by
  have tripped : (s.routeTrip r).watched = s.watched := by
    obtain ⟨brk, news, h⟩ := routeTrip_eq r s
    rw [h]
    rfl
  have demanded : ((s.routeTrip r).routeDemand n r).watched = (s.routeDemand n r).watched := by
    unfold State.routeDemand
    split
    · rw [judgeIntertrip_watched, judgeIntertrip_watched, onSlot_watched_of tripped]
    · exact tripped
  rw [operate_eq]
  split <;> simp [demanded]

theorem routeDemand_watched (s : State) (n : Nat) (r : Route) : (s.routeDemand n r).watched = s.watched ∨
    (s.routeDemand n r).watched = (s.onSlot n fun x => { x with demand := true }).watched := by
  unfold State.routeDemand
  split
  · exact .inr (judgeIntertrip_watched _)
  · exact .inl rfl

/-- An evaluated slot in use: its move, and perhaps its demand; the other parts watched stay. -/
theorem evaluateSlot_watched {k : ElementKind} {r : Route} (hu : (s.slotSettings n).inUse = some (k, r)) :
    let v := moveSlot (s.slotSettings n) k s.blocked s.meas.line.live m (s.slotRun n)
    (State.evaluateSlot m s n).watched = (s.onSlot n fun _ => v.run).watched ∨
      (State.evaluateSlot m s n).watched = ((s.onSlot n fun _ => v.run).onSlot n fun x => { x with demand := true }).watched := by
  intro v
  have judged : (((s.onSlot n fun _ => v.run).judgeAnnouncement).judgeIntertrip).watched = (s.onSlot n fun _ => v.run).watched := by
    simp
  have result : State.evaluateSlot m s n =
      if v.operates then (((s.onSlot n fun _ => v.run).judgeAnnouncement).judgeIntertrip).operate n k r v.listEmpty
      else ((s.onSlot n fun _ => v.run).judgeAnnouncement).judgeIntertrip := by
    unfold State.evaluateSlot
    rw [hu]
  rw [result]
  split
  · rw [operate_watched]
    generalize ((s.onSlot n fun _ => v.run).judgeAnnouncement).judgeIntertrip = t at judged ⊢
    obtain same | marked := routeDemand_watched t n r
    · exact .inl (same.trans judged)
    · exact .inr (marked.trans (onSlot_watched_of judged n _))
  · exact .inl judged

theorem evaluateSlot_of_unused (hu : (s.slotSettings n).inUse = none) : State.evaluateSlot m s n = s := by
  unfold State.evaluateSlot
  rw [hu]

/-- The running part of an evaluated slot, its demand apart. -/
theorem evaluateSlot_slotRun {k : ElementKind} {r : Route} (hn : 1 ≤ n) (hl : n ≤ s.prot.slots.length)
    (hu : (s.slotSettings n).inUse = some (k, r)) : ((State.evaluateSlot m s n).slotRun n).undemanded =
      (moveSlot (s.slotSettings n) k s.blocked s.meas.line.live m (s.slotRun n)).run.undemanded := by
  obtain moved | marked := evaluateSlot_watched (m := m) hu
  · rw [slotRun_eq_of_watched moved, onSlot_slotRun _ s hn hl]
  · rw [slotRun_eq_of_watched marked, onSlot_slotRun _ _ hn (by rw [State.onSlot, onProt_prot, updateAt_length]; exact hl),
      onSlot_slotRun _ s hn hl]
    rfl

/-- What the evaluation of a slot leaves: the other slots, the number of slots and the utility monitor. -/
theorem evaluateSlot_keeps (m : MeasurementSet) (s : State) (hj : 1 ≤ j) :
    (∀ n, 1 ≤ n → n ≠ j → (State.evaluateSlot m s j).slotRun n = s.slotRun n) ∧
      (State.evaluateSlot m s j).prot.slots.length = s.prot.slots.length ∧
      (State.evaluateSlot m s j).watched.2 = s.watched.2 := by
  cases hu : (s.slotSettings j).inUse with
  | none =>
    rw [evaluateSlot_of_unused hu]
    exact ⟨fun _ _ _ => rfl, rfl, rfl⟩
  | some use =>
    obtain ⟨k, r⟩ := use
    obtain moved | marked := evaluateSlot_watched (m := m) hu
    · refine ⟨fun n hn other => ?_, ?_, by rw [moved]; rfl⟩
      · rw [slotRun_eq_of_watched moved, onSlot_slotRun_of_ne _ _ hj hn other]
      · exact (congrArg (fun w : List SlotRun × MonitorState × Nat => w.1.length) moved).trans (updateAt_length ..)
    · refine ⟨fun n hn other => ?_, ?_, by rw [marked]; rfl⟩
      · rw [slotRun_eq_of_watched marked, onSlot_slotRun_of_ne _ _ hj hn other, onSlot_slotRun_of_ne _ _ hj hn other]
      · exact (congrArg (fun w : List SlotRun × MonitorState × Nat => w.1.length) marked).trans
          ((updateAt_length ..).trans (updateAt_length ..))

theorem evaluateSlots_of_not_mem (m : MeasurementSet) (hn : 1 ≤ n) : ∀ (l : List Nat) (s : State), (∀ j ∈ l, 1 ≤ j) → n ∉ l →
    (l.foldl (State.evaluateSlot m) s).slotRun n = s.slotRun n
  | [], _, _, _ => rfl
  | j :: js, s, least, out => by
    obtain ⟨others, -, -⟩ := evaluateSlot_keeps m s (least j (List.mem_cons_self ..))
    rw [List.foldl_cons, evaluateSlots_of_not_mem m hn js _ (fun i hi => least i (List.mem_cons_of_mem _ hi))
      fun h => out (List.mem_cons_of_mem _ h)]
    exact others n hn fun same => out (same ▸ List.mem_cons_self ..)

/-- A chain of evaluations reaches a slot once, in a state that holds it as it stood. -/
theorem evaluateSlots_slotRun (m : MeasurementSet) (hn : 1 ≤ n) : ∀ (l : List Nat) (s : State), l.Nodup → (∀ j ∈ l, 1 ≤ j) →
    n ∈ l → ∃ w, Within {} s w ∧ w.slotRun n = s.slotRun n ∧ w.prot.slots.length = s.prot.slots.length ∧
      (l.foldl (State.evaluateSlot m) s).slotRun n = (State.evaluateSlot m w n).slotRun n
  | [], _, _, _, member => nomatch member
  | j :: js, s, distinct, least, member => by
    obtain ⟨fresh, rest⟩ := List.nodup_cons.mp distinct
    have least' : ∀ i ∈ js, 1 ≤ i := fun i hi => least i (List.mem_cons_of_mem _ hi)
    by_cases here : n = j
    · subst here
      refine ⟨s, .refl _ s, rfl, rfl, ?_⟩
      rw [List.foldl_cons]
      exact evaluateSlots_of_not_mem m hn js _ least' fresh
    · obtain ⟨others, length, -⟩ := evaluateSlot_keeps m s (least j (List.mem_cons_self ..))
      obtain ⟨w, within, same, long, result⟩ := evaluateSlots_slotRun m hn js (State.evaluateSlot m s j) rest least'
        ((List.mem_cons.mp member).resolve_left here)
      exact ⟨w, ((Within.refl {} s).evaluateSlot m j).trans within, same.trans (others n hn here), long.trans length, result⟩

theorem evaluate_monitor (m : MeasurementSet) (s : State) : (s.evaluate m).watched.2 = s.watched.2 := by
  have positive : ∀ j ∈ slotNumbers, 1 ≤ j := by decide
  unfold State.evaluate
  generalize slotNumbers = l at positive
  induction l generalizing s with
  | nil => rfl
  | cons j js ih =>
    obtain ⟨-, -, monitor⟩ := evaluateSlot_keeps m s (positive j (List.mem_cons_self ..))
    exact (ih _ fun i hi => positive i (List.mem_cons_of_mem _ hi)).trans monitor

end

/-! ### The utility monitor at a set (R165) -/

section
variable {s : State} {m : MeasurementSet} {gap : Bool}

theorem inBand_iff {c : StationSettings} : inBand c m = true ↔
    magnitudeInBand c m.lineVolts.p1 = true ∧ magnitudeInBand c m.lineVolts.p2 = true ∧
      magnitudeInBand c m.lineVolts.p3 = true ∧ ((m.lineFreq : Int) - c.lineFrequency).natAbs ≤ c.frequencyBand := by
  simp [inBand, and_assoc]

/-- The monitor's record as it takes a set: a gap has cleared the count. -/
def ChangeoverRecord.gapCleared (gap : Bool) (c : ChangeoverRecord) : ChangeoverRecord := if gap then { c with run := 0 } else c

/-- The state in which the monitor has moved, before the machine takes its change. -/
def State.monitorMoved (gap : Bool) (m : MeasurementSet) (s : State) : State :=
  s.onChg fun c => (c.gapCleared gap).monitorSet s.station (inBand s.station m)

theorem monitorTake_of_incomer (hk : s.ownKind = some .incomer) : s.monitorTake gap m =
    if (s.monitorMoved gap m).chg.monitor == s.chg.monitor then s.monitorMoved gap m
    else (s.monitorMoved gap m).monitorChanged s.chg.monitor (s.monitorMoved gap m).chg.monitor :=
  if_pos (by simp [State.isIncomer, hk])

theorem monitorTake_of_other (hk : s.ownKind ≠ some .incomer) : s.monitorTake gap m = s :=
  if_neg (by simp [State.isIncomer, hk])

theorem monitorTake_watched (hk : s.ownKind = some .incomer) : (s.monitorTake gap m).watched = (s.monitorMoved gap m).watched := by
  rw [monitorTake_of_incomer hk]
  split
  · rfl
  · exact monitorChanged_watched ..

theorem monitorTake_slots (gap : Bool) (m : MeasurementSet) (s : State) (n : Nat) :
    (s.monitorTake gap m).slotRun n = s.slotRun n := by
  by_cases hk : s.ownKind = some .incomer
  · exact slotRun_eq_of_watched (s := s.monitorMoved gap m) (monitorTake_watched hk) n
  · rw [monitorTake_of_other hk]

/-- The next state of the monitor: four consecutive sets in band turn it back, one out of band ends what stands. -/
def monitorNext (good fourth : Bool) : MonitorState → MonitorState
  | .healthy => if good then .healthy else .disturbed
  | .disturbed => if good && fourth then .healthy else .disturbed
  | .failed => if good && fourth then .returning else .failed
  | .returning => if good then .returning else .failed

theorem monitorNext_spec (good fourth : Bool) (c : MonitorState) :
    (c = .healthy → (good = true → monitorNext good fourth c = .healthy) ∧
      (¬ good = true → monitorNext good fourth c = .disturbed)) ∧
    (c = .disturbed → (good = true ∧ fourth = true → monitorNext good fourth c = .healthy) ∧
      (¬ (good = true ∧ fourth = true) → monitorNext good fourth c = .disturbed)) ∧
    (c = .failed → (good = true ∧ fourth = true → monitorNext good fourth c = .returning) ∧
      (¬ (good = true ∧ fourth = true) → monitorNext good fourth c = .failed)) ∧
    (c = .returning → (good = true → monitorNext good fourth c = .returning) ∧
      (¬ good = true → monitorNext good fourth c = .failed)) := by
  refine ⟨?_, ?_, ?_, ?_⟩ <;> rintro rfl
  · exact ⟨fun h => if_pos h, fun h => if_neg h⟩
  · exact ⟨fun h => if_pos (Bool.and_eq_true .. |>.mpr h), fun h => if_neg fun k => h (Bool.and_eq_true .. |>.mp k)⟩
  · exact ⟨fun h => if_pos (Bool.and_eq_true .. |>.mpr h), fun h => if_neg fun k => h (Bool.and_eq_true .. |>.mp k)⟩
  · exact ⟨fun h => if_pos h, fun h => if_neg h⟩

theorem monitorSet_monitor (st : StationSettings) (good : Bool) (c : ChangeoverRecord) :
    (c.monitorSet st good).monitor = monitorNext good (decide (3 ≤ c.run)) c.monitor := by
  have fourth : satSucc Config.runLength c.run = Config.runLength ↔ 3 ≤ c.run := by
    unfold satSucc Config.runLength
    by_cases short : c.run < 4
    · rw [if_pos short]
      omega
    · rw [if_neg short]
      omega
  cases hm : c.monitor with
  | healthy => cases good <;> simp [ChangeoverRecord.monitorSet, monitorNext, hm]
  | returning => cases good <;> simp [ChangeoverRecord.monitorSet, monitorNext, hm]
  | disturbed =>
    cases good with
    | false => simp [ChangeoverRecord.monitorSet, monitorNext, hm]
    | true => by_cases enough : 3 ≤ c.run <;> simp [ChangeoverRecord.monitorSet, monitorNext, hm, fourth, enough]
  | failed =>
    cases good with
    | false => simp [ChangeoverRecord.monitorSet, monitorNext, hm]
    | true => by_cases enough : 3 ≤ c.run <;> simp [ChangeoverRecord.monitorSet, monitorNext, hm, fourth, enough]

theorem monitorTake_monitor (hk : s.ownKind = some .incomer) : (s.monitorTake gap m).chg.monitor =
    monitorNext (inBand s.station m) (!gap && decide (3 ≤ s.chg.run)) s.chg.monitor := by
  refine (monitor_eq_of_watched (monitorTake_watched (gap := gap) (m := m) hk)).trans ((monitorSet_monitor ..).trans ?_)
  cases gap <;> rfl

end

/-! ### The whole arrival -/

section
variable {s : State} {m : MeasurementSet}

/-- What follows the evaluation and the monitor leaves the slots and the monitor. -/
theorem takeSet_slotRun (m : MeasurementSet) (s : State) (n : Nat) :
    (s.takeSet m).slotRun n = ((s.handedSet m).evaluate m).slotRun n := by
  have after : (s.takeSet m).watched = ((((s.handedSet m).evaluate m).syncSet m).monitorTake (s.isSetGap m) m).watched := by
    rw [takeSet_eq]
    simp
  rw [slotRun_eq_of_watched after, monitorTake_slots]
  exact slotRun_eq_of_watched (syncSet_watched _ m) n

theorem handedSet_from (m : MeasurementSet) (s : State) : Within {}
    { s with meas := s.measAfter m (if s.isSetGap m then s.meas.clearRuns else s.meas) } (s.handedSet m) :=
  (gapped_within (fun gap => if_pos gap) fun none => if_neg none).trans (handedSet_within m s)

/-- The utility monitor's next state at a set of an incomer. -/
theorem takeSet_monitor (hk : s.ownKind = some .incomer) : (s.takeSet m).chg.monitor =
    monitorNext (inBand s.station m) (!s.isSetGap m && decide (3 ≤ s.chg.run)) s.chg.monitor := by
  generalize hv : ((s.handedSet m).evaluate m).syncSet m = v
  have within := ((handedSet_from m s).evaluate m).syncSet m
  have watched : v.watched.2 = s.watched.2 := by
    rw [← hv, syncSet_watched, evaluate_monitor, handedSet_watched]
  have monitor : v.chg.monitor = s.chg.monitor := congrArg Prod.fst watched
  have run : v.chg.run = s.chg.run := congrArg Prod.snd watched
  rw [hv] at within
  have station : v.station = s.station := within.station
  have kind : v.ownKind = some .incomer := within.ownKind.trans hk
  have after : (s.takeSet m).watched = (v.monitorTake (s.isSetGap m) m).watched := by
    rw [takeSet_eq, ← hv]
    simp
  rw [monitor_eq_of_watched after, monitorTake_monitor kind, station, run, monitor]

/-- A slot in use moves by the set, and one that is not stays as it stood. -/
theorem takeSet_slot {n : Nat} (hn : 1 ≤ n) (h8 : n ≤ 8) (hl : n ≤ s.prot.slots.length) :
    ((s.slotSettings n).inUse = none → (s.takeSet m).slotRun n = s.slotRun n) ∧
      ∀ k r, (s.slotSettings n).inUse = some (k, r) → ((s.takeSet m).slotRun n).undemanded =
        (moveSlot (s.slotSettings n) k s.blocked (s.handedSet m).meas.line.live m (s.slotRun n)).run.undemanded := by
  have member : n ∈ slotNumbers := by
    simp only [slotNumbers, List.mem_range'_1]
    omega
  obtain ⟨w, within, same, length, result⟩ := evaluateSlots_slotRun m hn slotNumbers (s.handedSet m) (by decide) (by decide)
    member
  have before : (s.handedSet m).slotRun n = s.slotRun n := slotRun_eq_of_watched (handedSet_watched m s) n
  have long : w.prot.slots.length = s.prot.slots.length := length.trans
    (congrArg (fun w : List SlotRun × MonitorState × Nat => w.1.length) (handedSet_watched m s))
  have settings : w.slotSettings n = s.slotSettings n :=
    congrArg (fun c : StationSettings => c.slots.getD (n - 1) .absent) (within.station.trans (handedSet_from m s).station)
  have blocked : w.blocked = s.blocked := by
    rw [State.blocked, within.blockList rfl, (handedSet_from m s).blockList rfl]
    rfl
  rw [takeSet_slotRun, State.evaluate, result]
  refine ⟨fun unused => ?_, fun k r used => ?_⟩
  · rw [evaluateSlot_of_unused (settings ▸ unused), same, before]
  · rw [evaluateSlot_slotRun hn (long ▸ hl) (settings ▸ used), settings, blocked, within.meas, same, before]

end

/-- Settles O17. -/
theorem setArrivalStoresTheSet : Obligations.SetArrivalStoresTheSet := by
  intro m s hc
  have run : exec (.setArrival m) s = .next (State.finish s (s.takeSet m)) := event_of_configured (State.takeSet m) hc
  have after := (Within.refl { failure := true, bias := true } (s.takeSet m)).finish s
  have stored : Within { failure := true, bias := true } ((s.gapped m).storeSet m) (State.finish s (s.takeSet m)) :=
    (takeSet_within s m).trans after
  refine ⟨isSetGap_iff, _, s.takeSet m, run, rfl, takeSet_eq m s, fun gap => ?_, fun before gap other => ?_,
    fun n hn h8 hl => ?_, fun hk => ?_⟩
  · exact stored.stays _ (gapped_pending (isSetGap_iff.mpr gap))
  · exact ((gapped_within (fun g => gap (isSetGap_iff.mp g)) fun g => other fun k => g (isSetGap_iff.mpr k)).widen.trans
      stored).frame
  · obtain ⟨unused, used⟩ := takeSet_slot (m := m) hn h8 hl
    refine ⟨unused, fun k r h => ?_⟩
    have meas : (State.finish s (s.takeSet m)).meas = (s.handedSet m).meas :=
      stored.meas.trans (handedSet_within m s).meas.symm
    have moved := used k r h
    rw [← meas] at moved
    exact SlotRun.fields_of_undemanded moved
  · have next := takeSet_monitor (m := m) hk
    have gapped : s.isSetGap m = true ↔ s.meas.setLoss = false ∧ ∃ q, s.meas.lastSeq = some q ∧ m.seq ≠ q + 1 := isSetGap_iff
    intro near good fourth
    have judged : good ↔ inBand s.station m = true := by
      simp [good, near, inBand_iff, magnitudeInBand]
    have enough : fourth ↔ (!s.isSetGap m && decide (3 ≤ s.chg.run)) = true := by
      simp only [fourth]
      rw [← gapped]
      simp
    rw [judged, enough, next]
    exact monitorNext_spec _ _ _

end Sys2Proof.Machine
end
